-- ==== Sys2Proof/Word.lean ====
section
/-! DEFINITION. The word types of the machine (spec/10_state.md R21, R28, R40): widths only. -/

namespace Sys2Proof

/-- A byte of memory. -/
abbrev Byte := BitVec 8

/-- A half word. -/
abbrev Half := BitVec 16

/-- An integer register, an address or an instruction word: `XLEN` = 32 (R8, R21). -/
abbrev Word := BitVec 32

/-- A 64-bit pattern: a double-precision operand or result (R40). -/
abbrev DWord := BitVec 64

/-- The 5-bit number of an integer, floating or coprocessor-0 register (R90). -/
abbrev Reg := BitVec 5

/-- A 16-bit immediate field (R92). -/
abbrev Imm := BitVec 16

end Sys2Proof
end

