-- ==== Sys2Proof/Config.lean ====
section
/-! DEFINITION. What an implementation fixes: the parameters of spec/00_scope.md R8 as plain data, and the free values,
constants without a body, of which nothing can be proved (spec/93_implementation_defined.md). -/

namespace Sys2Proof

/-- `BYTE_ORDER` (R69): which byte of a half or word stands at the lowest address. -/
inductive ByteOrder where
  | little
  | big
  deriving DecidableEq, Repr

/-- The classes of R302, which select the issue thresholds (R311), the countdown and the busy charge (R318). -/
inductive FpClass where
  | addSub
  | cvt
  | cvtW
  | mulS
  | mulD
  | divS
  | divD
  deriving DecidableEq, Repr

/-- The exception codes of R431 by name; "0 = none" is the absence of one. -/
inductive Exc where
  | mod
  | tlbl
  | tlbs
  | adel
  | ades
  | ibe
  | dbe
  | sys
  | bp
  | ri
  | cpu
  | ov
  deriving DecidableEq, Repr

/-- The numbers of the exception codes (R431), a parameter of R8; each occupies Cause bits 6:2 (R34). -/
structure ExcCodes where
  mod : BitVec 5
  tlbl : BitVec 5
  tlbs : BitVec 5
  adel : BitVec 5
  ades : BitVec 5
  ibe : BitVec 5
  dbe : BitVec 5
  sys : BitVec 5
  bp : BitVec 5
  ri : BitVec 5
  cpu : BitVec 5
  ov : BitVec 5
  deriving DecidableEq, Repr

/-- `FP_COUNT` (R318), the EX3 countdown by row of the table: the two convert classes share a row. -/
structure FpCounts where
  add : Nat
  cvt : Nat
  mulS : Nat
  mulD : Nat
  divS : Nat
  divD : Nat
  deriving DecidableEq, Repr

/-- The busy charges of R314, R318. -/
structure BusyCharges where
  addSub : Nat
  cvt : Nat
  mulS : Nat
  mulD : Nat
  divS : Nat
  divD : Nat
  deriving DecidableEq, Repr

/-- `cop_usable[z]` for z = 0 to 3 (R98). -/
structure CopUsable where
  z0 : Bool
  z1 : Bool
  z2 : Bool
  z3 : Bool
  deriving DecidableEq, Repr

/-- `on_exception` (R444), "a function from the committed Cause to {stop, continue}", as a finite table: the Causes on which
the harness continues, or on which it stops, and the other decision for every other Cause (log 11, DESIGN CHOICE). -/
inductive Policy where
  | continueOn (causes : List Word)
  | stopOn (causes : List Word)
  deriving DecidableEq, Repr

/-- A countdown of the multiply/divide unit (R8): "an integer at least 1". -/
abbrev Cost := { n : Nat // 1 ≤ n }

/-- Which record `FPNumerics` is (R8, R306), as data: the default, IEEE 754 rounded to nearest even, or another record, which
`Config.otherNumerics` names by an index (log 10). -/
inductive Numerics where
  | ieee
  | other (index : Nat)
  deriving DecidableEq, Repr

/-- The parameters of R8 that are data (log 9). `XLEN` is 32. -/
structure Params where
  byteOrder : ByteOrder
  multCost : Cost
  divCost : Cost
  fpCount : FpCounts
  busy : BusyCharges
  poolCapacity : Nat
  usable : CopUsable
  excVector : Word
  policy : Policy
  codes : ExcCodes
  numerics : Numerics
  deriving DecidableEq, Repr

/-- The MIPS I ExcCode values (R431). -/
def mipsCodes : ExcCodes :=
  { mod := 1, tlbl := 2, tlbs := 3, adel := 4, ades := 5, ibe := 6, dbe := 7, sys := 8, bp := 9, ri := 10, cpu := 11, ov := 12 }

/-- `CFG_EX`, the example configuration of R8. -/
def cfgEx : Params :=
  { byteOrder := .little, multCost := ⟨12, by decide⟩, divCost := ⟨35, by decide⟩
    fpCount := { add := 0, cvt := 1, mulS := 2, mulD := 3, divS := 10, divD := 17 }
    busy := { addSub := 2, cvt := 3, mulS := 4, mulD := 5, divS := 12, divD := 19 }
    poolCapacity := 32
    usable := { z0 := true, z1 := true, z2 := false, z3 := false }
    excVector := 0x80000080
    policy := .continueOn []
    codes := mipsCodes
    numerics := .ieee }

namespace Machine

/-- The relation of two floating operands (R306, R340). -/
inductive Relation where
  | less
  | equal
  | greater
  | unordered
  deriving DecidableEq, Repr, Inhabited

/-- A floating result: a pattern, or one of the named unconstrained results (R307). -/
inductive FpVal where
  | bits (v : DWord)
  | nan32
  | nan64
  | cvtInvalid
  deriving DecidableEq, Repr, Inhabited

/-- The parameter record `FPNumerics` (R306): the functions EX1 uses, on patterns. -/
structure FPNumerics where
  addS : Word → Word → FpVal
  addD : DWord → DWord → FpVal
  subS : Word → Word → FpVal
  subD : DWord → DWord → FpVal
  mulS : Word → Word → FpVal
  mulD : DWord → DWord → FpVal
  divS : Word → Word → FpVal
  divD : DWord → DWord → FpVal
  cvtSD : DWord → FpVal
  cvtDS : Word → FpVal
  cvtSW : Word → FpVal
  cvtDW : Word → FpVal
  cvtWS : Word → FpVal
  cvtWD : DWord → FpVal
  cmpS : Word → Word → Relation
  cmpD : DWord → DWord → Relation
  deriving Inhabited

end Machine

/-- The records `FPNumerics` other than the default, by index: any functions at all, whose answers the machine takes in the format
of the result (`FPNumerics.inFormat`; log 10). -/
opaque Config.otherNumerics : Nat → Machine.FPNumerics

/-- How old a memory the word of an instruction alone is fetched from, when the last instructions have changed it (R78,
spec/93_implementation_defined.md row 31) (log 39). -/
opaque Config.fetchAge : Nat → Nat

/-- `random_read` (R33, R384): the n-th draw of the run (log 15). -/
opaque Config.randomRead : Nat → Word

/-- `div_zero_result` (R247), the part for HI (log 14). -/
opaque Config.divZeroHi : Nat → Word

/-- `div_zero_result` (R247), the part for LO (log 14). -/
opaque Config.divZeroLo : Nat → Word

/-- `fp_nan_result` (R307) in binary32: bits from which `nan32` makes a NaN pattern (log 12). -/
opaque Config.nanBits32 : Nat → Word

/-- `fp_nan_result` (R307) in binary64: bits from which `nan64` makes a NaN pattern (log 12). -/
opaque Config.nanBits64 : Nat → DWord

/-- `cvt_w_invalid` (R307) (log 13). -/
opaque Config.cvtWInvalid : Nat → Word

/-- `r.result` of an ADD, ADDI or SUB that overflowed (R202): never written or forwarded (log 16). -/
opaque Config.overflowResult : Nat → Word

/-- `fpc` and `fnpc` after an exception flush, until the next `run` (R441 e) (log 3). -/
opaque Config.freePc : Nat → Word

/-- The random source of the fault injector (R400) beyond the draws its configuration gives: by seed and index (log 23). -/
opaque Config.injectorDraw : Nat → Nat → Nat

/-- The "fresh non-deterministic seed" of an unseeded legacy configuration (R403), and the seed of a configuration that has
none to give (R402) (log 23). -/
opaque Config.freshSeed : Nat → Nat

end Sys2Proof
end

