-- ==== Sys2Proof/Syntax.lean ====
section
/-! DEFINITION. The instructions (spec/30_encoding.md R96): one constructor for each row of the opcode table,
operands in the assembler order of R101, and the decoded form (R90) with its two extra tags. -/

namespace Sys2Proof

/-- The instruction set: 84 tags of R96, the two compare tags split into their 32 table rows (R342). -/
inductive Instr where
  -- integer ALU, spec/42_int_alu.md
  /-- ADD (R203) -/
  | add (rd rs rt : Reg)
  /-- ADDU (R204) -/
  | addu (rd rs rt : Reg)
  /-- SUB (R205) -/
  | sub (rd rs rt : Reg)
  /-- SUBU (R206) -/
  | subu (rd rs rt : Reg)
  /-- AND (R207) -/
  | and (rd rs rt : Reg)
  /-- OR (R208) -/
  | or (rd rs rt : Reg)
  /-- XOR (R209) -/
  | xor (rd rs rt : Reg)
  /-- NOR (R210) -/
  | nor (rd rs rt : Reg)
  /-- SLT (R211) -/
  | slt (rd rs rt : Reg)
  /-- SLTU (R212) -/
  | sltu (rd rs rt : Reg)
  /-- SLL (R213) -/
  | sll (rd rt shamt : Reg)
  /-- SRL (R214) -/
  | srl (rd rt shamt : Reg)
  /-- SRA (R215) -/
  | sra (rd rt shamt : Reg)
  /-- SLLV (R216) -/
  | sllv (rd rt rs : Reg)
  /-- SRLV (R217) -/
  | srlv (rd rt rs : Reg)
  /-- SRAV (R218) -/
  | srav (rd rt rs : Reg)
  /-- ADDI (R219) -/
  | addi (rt rs : Reg) (imm : Imm)
  /-- ADDIU (R220) -/
  | addiu (rt rs : Reg) (imm : Imm)
  /-- SLTI (R221) -/
  | slti (rt rs : Reg) (imm : Imm)
  /-- SLTIU (R222) -/
  | sltiu (rt rs : Reg) (imm : Imm)
  /-- ANDI (R223) -/
  | andi (rt rs : Reg) (imm : Imm)
  /-- ORI (R224) -/
  | ori (rt rs : Reg) (imm : Imm)
  /-- XORI (R225) -/
  | xori (rt rs : Reg) (imm : Imm)
  /-- LUI (R226) -/
  | lui (rt : Reg) (imm : Imm)
  -- multiply/divide unit, spec/43_mdu.md
  /-- MULT (R248) -/
  | mult (rs rt : Reg)
  /-- MULTU (R249) -/
  | multu (rs rt : Reg)
  /-- DIV (R250) -/
  | div (rs rt : Reg)
  /-- DIVU (R251) -/
  | divu (rs rt : Reg)
  /-- MFHI (R252) -/
  | mfhi (rd : Reg)
  /-- MFLO (R253) -/
  | mflo (rd : Reg)
  /-- MTHI (R254) -/
  | mthi (rs : Reg)
  /-- MTLO (R255) -/
  | mtlo (rs : Reg)
  -- loads and stores, spec/44_loadstore.md
  /-- LB (R263) -/
  | lb (rt : Reg) (imm : Imm) (rs : Reg)
  /-- LBU (R264) -/
  | lbu (rt : Reg) (imm : Imm) (rs : Reg)
  /-- LH (R265) -/
  | lh (rt : Reg) (imm : Imm) (rs : Reg)
  /-- LHU (R266) -/
  | lhu (rt : Reg) (imm : Imm) (rs : Reg)
  /-- LW (R267) -/
  | lw (rt : Reg) (imm : Imm) (rs : Reg)
  /-- SB (R268) -/
  | sb (rt : Reg) (imm : Imm) (rs : Reg)
  /-- SH (R269) -/
  | sh (rt : Reg) (imm : Imm) (rs : Reg)
  /-- SW (R270) -/
  | sw (rt : Reg) (imm : Imm) (rs : Reg)
  -- branches and jumps, spec/45_control.md
  /-- BEQ (R285) -/
  | beq (rs rt : Reg) (imm : Imm)
  /-- BNE (R286) -/
  | bne (rs rt : Reg) (imm : Imm)
  /-- BLEZ (R287) -/
  | blez (rs : Reg) (imm : Imm)
  /-- BGTZ (R288) -/
  | bgtz (rs : Reg) (imm : Imm)
  /-- BLTZ (R291) -/
  | bltz (rs : Reg) (imm : Imm)
  /-- BGEZ (R292) -/
  | bgez (rs : Reg) (imm : Imm)
  /-- BLTZAL (R293) -/
  | bltzal (rs : Reg) (imm : Imm)
  /-- BGEZAL (R294) -/
  | bgezal (rs : Reg) (imm : Imm)
  /-- J (R290) -/
  | j (target : BitVec 26)
  /-- JAL (R289) -/
  | jal (target : BitVec 26)
  /-- JR (R295) -/
  | jr (rs : Reg)
  /-- JALR (R296) -/
  | jalr (rd rs : Reg)
  -- floating point, spec/46_float.md
  /-- ADD.S (R320) -/
  | addS (fd fs ft : Reg)
  /-- ADD.D (R321) -/
  | addD (fd fs ft : Reg)
  /-- SUB.S (R322) -/
  | subS (fd fs ft : Reg)
  /-- SUB.D (R323) -/
  | subD (fd fs ft : Reg)
  /-- MUL.S (R324) -/
  | mulS (fd fs ft : Reg)
  /-- MUL.D (R325) -/
  | mulD (fd fs ft : Reg)
  /-- DIV.S (R326) -/
  | divS (fd fs ft : Reg)
  /-- DIV.D (R327) -/
  | divD (fd fs ft : Reg)
  /-- ABS.S (R328) -/
  | absS (fd fs : Reg)
  /-- ABS.D (R329) -/
  | absD (fd fs : Reg)
  /-- NEG.S (R330) -/
  | negS (fd fs : Reg)
  /-- NEG.D (R331) -/
  | negD (fd fs : Reg)
  /-- MOV.S (R332) -/
  | movS (fd fs : Reg)
  /-- MOV.D (R333) -/
  | movD (fd fs : Reg)
  /-- CVT.S.D (R334) -/
  | cvtSD (fd fs : Reg)
  /-- CVT.S.W (R335) -/
  | cvtSW (fd fs : Reg)
  /-- CVT.D.S (R336) -/
  | cvtDS (fd fs : Reg)
  /-- CVT.D.W (R337) -/
  | cvtDW (fd fs : Reg)
  /-- CVT.W.S (R338) -/
  | cvtWS (fd fs : Reg)
  /-- CVT.W.D (R339) -/
  | cvtWD (fd fs : Reg)
  /-- C.F.S (R340) -/
  | cFS (fs ft : Reg)
  /-- C.UN.S (R340) -/
  | cUnS (fs ft : Reg)
  /-- C.EQ.S (R340) -/
  | cEqS (fs ft : Reg)
  /-- C.UEQ.S (R340) -/
  | cUeqS (fs ft : Reg)
  /-- C.OLT.S (R340) -/
  | cOltS (fs ft : Reg)
  /-- C.ULT.S (R340) -/
  | cUltS (fs ft : Reg)
  /-- C.OLE.S (R340) -/
  | cOleS (fs ft : Reg)
  /-- C.ULE.S (R340) -/
  | cUleS (fs ft : Reg)
  /-- C.SF.S (R340) -/
  | cSfS (fs ft : Reg)
  /-- C.NGLE.S (R340) -/
  | cNgleS (fs ft : Reg)
  /-- C.SEQ.S (R340) -/
  | cSeqS (fs ft : Reg)
  /-- C.NGL.S (R340) -/
  | cNglS (fs ft : Reg)
  /-- C.LT.S (R340) -/
  | cLtS (fs ft : Reg)
  /-- C.NGE.S (R340) -/
  | cNgeS (fs ft : Reg)
  /-- C.LE.S (R340) -/
  | cLeS (fs ft : Reg)
  /-- C.NGT.S (R340) -/
  | cNgtS (fs ft : Reg)
  /-- C.F.D (R341) -/
  | cFD (fs ft : Reg)
  /-- C.UN.D (R341) -/
  | cUnD (fs ft : Reg)
  /-- C.EQ.D (R341) -/
  | cEqD (fs ft : Reg)
  /-- C.UEQ.D (R341) -/
  | cUeqD (fs ft : Reg)
  /-- C.OLT.D (R341) -/
  | cOltD (fs ft : Reg)
  /-- C.ULT.D (R341) -/
  | cUltD (fs ft : Reg)
  /-- C.OLE.D (R341) -/
  | cOleD (fs ft : Reg)
  /-- C.ULE.D (R341) -/
  | cUleD (fs ft : Reg)
  /-- C.SF.D (R341) -/
  | cSfD (fs ft : Reg)
  /-- C.NGLE.D (R341) -/
  | cNgleD (fs ft : Reg)
  /-- C.SEQ.D (R341) -/
  | cSeqD (fs ft : Reg)
  /-- C.NGL.D (R341) -/
  | cNglD (fs ft : Reg)
  /-- C.LT.D (R341) -/
  | cLtD (fs ft : Reg)
  /-- C.NGE.D (R341) -/
  | cNgeD (fs ft : Reg)
  /-- C.LE.D (R341) -/
  | cLeD (fs ft : Reg)
  /-- C.NGT.D (R341) -/
  | cNgtD (fs ft : Reg)
  /-- LWC1 (R346) -/
  | lwc1 (ft : Reg) (imm : Imm) (rs : Reg)
  /-- SWC1 (R347) -/
  | swc1 (ft : Reg) (imm : Imm) (rs : Reg)
  /-- MFC1 (R348) -/
  | mfc1 (rt fs : Reg)
  /-- MTC1 (R349) -/
  | mtc1 (rt fs : Reg)
  /-- BC1T (R352) -/
  | bc1t (imm : Imm)
  /-- BC1F (R353) -/
  | bc1f (imm : Imm)
  -- system, spec/47_system.md
  /-- SYSCALL (R381) -/
  | syscall (code : BitVec 20)
  /-- BREAK (R382) -/
  | brk (code : BitVec 20)
  /-- MFC0 (R384) -/
  | mfc0 (rt rd : Reg)
  /-- MTC0 (R385) -/
  | mtc0 (rt rd : Reg)
  deriving DecidableEq, Repr

/-- A DecodedInstr (R90): an instruction, or one of the extra tags `RESERVED` (R97) and `COPZ_UNUSABLE` with the
coprocessor number `z` (R98). -/
inductive Decoded where
  | instr (i : Instr)
  | reserved
  | copUnusable (z : BitVec 2)
  deriving DecidableEq, Repr

end Sys2Proof
end

