-- ==== Sys2Proof/Machine/State.lean ====
section
/-! DEFINITION. The state of the machine as plain data (spec/10_state.md), the state after reset (R53, R470), and the
reasons a step can stop with. -/

namespace Sys2Proof.Machine

/-- A register cell (R39): "Each register value is wrapped with an attached bit-mask fault record". -/
structure RegCell where
  clean : Word
  mask : Word
  deriving DecidableEq, Repr

/-- Stage tags (R41). -/
inductive Tag where
  | ifetch
  | ifStall
  | id
  | ex
  | mem
  | memStall
  | wb
  | ex1
  | ex2
  | ex3
  | fwb
  deriving DecidableEq, Repr

/-- A PipeRecord (R40). `exception` is none for code 0. The next-pointer is list membership. -/
structure Rec where
  inst : Decoded
  pc : Word
  stage : Tag
  exception : Option Exc
  inDelaySlot : Bool
  op1 : Word
  op2 : Word
  op3 : Word
  fop1 : DWord
  fop2 : DWord
  result : Word
  addr : Word
  fresult : DWord
  count : Nat
  busTag : Nat
  fetchDone : Bool
  ce : BitVec 2
  deriving DecidableEq, Repr

/-- The slots and lists that hold records (R44, R45); the lists are in arrival order, oldest first. -/
structure Pipe where
  ifSlot : Option Rec
  idSlot : Option Rec
  exSlot : Option Rec
  memSlot : Option Rec
  wbSlot : Option Rec
  ex1Slot : Option Rec
  ex2Slot : Option Rec
  ex3List : List Rec
  fwbList : List Rec
  deriving DecidableEq, Repr

/-- The multiply/divide unit (R47): the pending result and the busy countdown, 0 when idle. -/
structure Mdu where
  hi : Word
  lo : Word
  count : Nat
  deriving DecidableEq, Repr

/-- The busy counters of the three floating units (R48). -/
structure Busy where
  add : Nat
  mul : Nat
  div : Nat
  deriving DecidableEq, Repr

/-- A fault descriptor of the injector (R401): when it is due and the bits it flips (0 in legacy mode: one drawn bit). -/
structure FaultEntry where
  due : Nat
  mask : Word
  deriving DecidableEq, Repr

/-- One location of the injector (R400): its two schedules, soonest due first (R405), and its event counter. -/
structure LocFaults where
  byCycle : List FaultEntry
  byEvent : List FaultEntry
  count : Nat
  deriving DecidableEq, Repr

/-- The seven locations (R401). -/
inductive Loc where
  | rf
  | id
  | mdu
  | memPre
  | memPost
  | wb
  | alu
  deriving DecidableEq, Repr

/-- The fault injector (R400): seven locations and one random source: the draws given, then those of the seed (log 23). -/
structure Injector where
  rf : LocFaults
  id : LocFaults
  mdu : LocFaults
  memPre : LocFaults
  memPost : LocFaults
  wb : LocFaults
  alu : LocFaults
  draws : List Nat
  seed : Nat
  drawn : Nat
  deriving DecidableEq, Repr

/-- The configuration of a call `initializeFaultInjection` (R402): none, legacy (R403; no seed: a fresh one), or a
schedule file (R404) by its text, none when it is unreadable (R407). Bit i of `locations` is location i of R403's order. -/
inductive InjConfig where
  | none
  | legacy (locations : BitVec 7) (period : Nat) (seed : Option Nat)
  | file (text : Option (List Char))
  deriving DecidableEq, Repr

/-- The datum of a read or fetch (R61): only the low 8 or 16 bits of a byte or half read exist (log 18); a write has none. -/
inductive Datum where
  | none
  | byte (b : Byte)
  | half (h : Half)
  | word (w : Word)
  deriving DecidableEq, Repr

/-- A request that missed and is not yet completed (R64 c): its tag, the polls until its completion, its datum. -/
structure Pending where
  tag : Nat
  polls : Nat
  datum : Datum
  deriving DecidableEq, Repr

/-- Why the collaborator refuses a request (R431), beside misalignment (R70); the kind of the request fixes the code (log 8). -/
inductive Reason where
  /-- TLBL, TLBS -/
  | noTranslation
  /-- Mod, for a write -/
  | notWritable
  /-- AdEL, AdES -/
  | forbidden
  /-- IBE, DBE -/
  | busError
  deriving DecidableEq, Repr

/-- The collaborator's answer to one request (R64): a hit, a miss that the `polls`-th later poll completes, or a refusal. -/
inductive Reply where
  | hit
  | miss (polls : Nat)
  | refuse (why : Reason)
  deriving DecidableEq, Repr

/-- A call by the harness (R121, R402, R470, R475): the driver's entry points, the placing of bytes in memory, and the request
to execute instruction by instruction from an address (log 1, log 31). -/
inductive HarnessCall where
  | reset
  | initInjection (config : InjConfig) (draws : List Nat)
  | run (start : Word) (budget : Nat)
  | runInstrs (start : Word)
  | load (address : Word) (bytes : List Byte)
  deriving DecidableEq, Repr

/-- What the block is doing: instructions one at a time (log 1), a `run` with its remaining budget (R122), nothing, or nothing
after a fatal outcome (R447). -/
inductive RunMode where
  | instr
  | cycles (budget : Nat)
  | idle
  | fatal
  deriving DecidableEq, Repr

/-- The outcome of a `run` (R122), and `fatal` of a configuration call too (R407). -/
inductive RunOutcome where
  | ranOutOfBudget
  | exceptionHandledContinue
  | exceptionHandledStop
  | fatal
  deriving DecidableEq, Repr

/-- Everything the spec gives the machine, and the data of its two collaborators (INVENTORY.md lists each field's rule). -/
structure State where
  params : Params
  x : Vector RegCell 32
  fpc : Word
  fnpc : Word
  hi : RegCell
  lo : RegCell
  hiPresent : Bool
  loPresent : Bool
  bdFlag : Bool
  f : Vector RegCell 32
  fPresent : Vector Bool 32
  fpCond : Bool
  fpCondPresent : Bool
  c0 : Vector Word 32
  pipe : Pipe
  poolFree : Nat
  bypEX : Option (Reg × Word)
  bypMEM : Option (Reg × Word)
  mdu : Mdu
  busy : Busy
  idStall : Bool
  busDone : Option (Nat × Datum)
  nextTag : Nat
  cycle : Nat
  excFound : Bool
  inj : Injector
  mem : List Host.Cell
  script : List Reply
  pending : List Pending
  mode : RunMode
  calls : List HarnessCall
  outcome : Option RunOutcome
  earlier : List (List Host.Cell)
  draws : Nat
  deriving DecidableEq, Repr

/-- The reasons the machine stops with a fault. -/
inductive Fault where
  /-- Raised by `step` when the last `run` or configuration call ended `fatal` (R447) and the harness makes no further call:
  nothing but `reset()` and `initializeFaultInjection` is defined there. Safe: the spec gives the machine no continuation. -/
  | afterFatal
  deriving DecidableEq, Repr

/-- The reasons a step is refused. -/
inductive Refusal where
  /-- Raised by an arm of `exec` whose instruction has no meaning yet. Safe: the model stops. No arm raises it. -/
  | notModelled (mnemonic : String)
  /-- Raised by `step` when the harness calls anything but `reset()` or `initializeFaultInjection` after a `fatal` outcome
  (R447; spec/93_implementation_defined.md row 16: refuse). Safe: the spec defines no such call. -/
  | callAfterFatal
  deriving DecidableEq, Repr

/-- A cell that holds 0 with no fault (R53). -/
def zeroCell : RegCell := { clean := 0, mask := 0 }

/-- No record in any slot or list (R53). -/
def emptyPipe : Pipe :=
  { ifSlot := none, idSlot := none, exSlot := none, memSlot := none, wbSlot := none, ex1Slot := none, ex2Slot := none
    ex3List := [], fwbList := [] }

/-- A location with empty schedules and no event counted (R402). -/
def quietLoc : LocFaults := { byCycle := [], byEvent := [], count := 0 }

/-- The injector before the first `initializeFaultInjection` (R402): all schedules empty (log 28). -/
def quietInjector : Injector :=
  { rf := quietLoc, id := quietLoc, mdu := quietLoc, memPre := quietLoc, memPost := quietLoc, wb := quietLoc, alu := quietLoc
    draws := [], seed := 0, drawn := 0 }

/-- The machine right after reset with the parameters of CFG_EX (R53, R470). `fpc` and `fnpc`, which the spec leaves
unspecified, are 0 and 4 (log 2, DESIGN CHOICE); memory, script, calls and mode as the logs 5, 6, 37 say. -/
def State.reset : State :=
  { params := cfgEx
    x := Vector.replicate 32 zeroCell
    fpc := 0
    fnpc := 4
    hi := zeroCell
    lo := zeroCell
    hiPresent := true
    loPresent := true
    bdFlag := false
    f := Vector.replicate 32 zeroCell
    fPresent := Vector.replicate 32 true
    fpCond := false
    fpCondPresent := true
    c0 := Vector.replicate 32 0
    pipe := emptyPipe
    poolFree := cfgEx.poolCapacity
    bypEX := none
    bypMEM := none
    mdu := { hi := 0, lo := 0, count := 0 }
    busy := { add := 0, mul := 0, div := 0 }
    idStall := false
    busDone := none
    nextTag := 0
    cycle := 0
    excFound := false
    inj := quietInjector
    mem := []
    script := []
    pending := []
    mode := .instr
    calls := []
    outcome := none
    earlier := []
    draws := 0 }

end Sys2Proof.Machine
end

