-- ==== Sys2Proof/Machine/Flags.lean ====
section
/-! DEFINITION. Conditions and flags: the overflow tests (spec/42_int_alu.md R202), the branch conditions
(spec/45_control.md), the floating conditions (spec/46_float.md R342) and the Cause register (spec/10_state.md R34). The
machine has no integer condition codes (R31). -/

namespace Sys2Proof.Machine

/-- Whether an exact result fits a 32-bit signed word: -2^31 to 2^31-1 (R202). -/
def fitsSigned (v : Int) : Bool := decide (-2147483648 ≤ v) && decide (v ≤ 2147483647)

/-- An exact signed result, narrowed modulo 2^32; none when it overflows (R202). -/
def narrowSigned (v : Int) : Option Word := if fitsSigned v then some (BitVec.ofInt 32 v) else none

/-- 1 or 0, the result of a set instruction (R211, R212). -/
def boolWord (b : Bool) : Word := if b then 1 else 0

/-- `s32(a) < s32(b)` (R10) -/
def lessSigned (a b : Word) : Bool := decide (a.toInt < b.toInt)

/-- `u32(a) < u32(b)` (R10) -/
def lessUnsigned (a b : Word) : Bool := decide (a.toNat < b.toNat)

/-- `s32(a) <= 0` (R287) -/
def isLez (a : Word) : Bool := decide (a.toInt ≤ 0)

/-- `s32(a) > 0` (R288) -/
def isGtz (a : Word) : Bool := decide (0 < a.toInt)

/-- `s32(a) < 0` (R291) -/
def isLtz (a : Word) : Bool := decide (a.toInt < 0)

/-- `s32(a) >= 0` (R292) -/
def isGez (a : Word) : Bool := decide (0 ≤ a.toInt)

/-- The value of a condition (R340): bit 2 asks for less, bit 1 for equal, bit 0 for unordered; bit 3 has no effect. -/
def condHolds (cond : BitVec 4) : Relation → Bool
  | .less => cond.getLsbD 2
  | .equal => cond.getLsbD 1
  | .unordered => cond.getLsbD 0
  | .greater => false

/-- The number of an exception code (R431), a parameter. -/
def excCode (c : ExcCodes) : Exc → BitVec 5
  | .mod => c.mod
  | .tlbl => c.tlbl
  | .tlbs => c.tlbs
  | .adel => c.adel
  | .ades => c.ades
  | .ibe => c.ibe
  | .dbe => c.dbe
  | .sys => c.sys
  | .bp => c.bp
  | .ri => c.ri
  | .cpu => c.cpu
  | .ov => c.ov

/-- The exceptions that write BadVAddr (R440): Mod, TLBL, TLBS, AdEL, AdES. -/
def savesAddress : Exc → Bool
  | .mod | .tlbl | .tlbs | .adel | .ades => true
  | .ibe | .dbe | .sys | .bp | .ri | .cpu | .ov => false

/-- Cause (R34, R440): bit 31 BD, bits 29:28 CE for coprocessor unusable, bits 6:2 ExcCode, all other bits 0. -/
def causeWord (c : ExcCodes) (bd : Bool) (ce : BitVec 2) (e : Exc) : Word :=
  (if bd then 1#1 else 0#1) ++ 0#1 ++ (if e = .cpu then ce else 0#2) ++ 0#21 ++ excCode c e ++ 0#2

/-- EPC (R35, R440): the address of the instruction, or of the branch before it. -/
def epcWord (bd : Bool) (pc : Word) : Word := if bd then pc - 4 else pc

end Sys2Proof.Machine
end

