-- ==== Sys2Proof/Machine/Float.lean ====
section
/-! DEFINITION. The arithmetic of the parameter record `FPNumerics` (spec/46_float.md R306), its default written out: IEEE 754
binary32 and binary64, round to nearest even, gradual underflow, computed exactly on integers and rounded once. NaN results and
invalid conversions are named, not chosen (R307): the machine draws them (log 12, log 13). -/

namespace Sys2Proof.Machine

/-- A binary format: its fraction bits and exponent bits (R301). -/
structure Format where
  fracBits : Nat
  expBits : Nat
  deriving DecidableEq, Repr

/-- binary32 -/
def fmtS : Format := { fracBits := 23, expBits := 8 }
/-- binary64 -/
def fmtD : Format := { fracBits := 52, expBits := 11 }

/-- The exponent field of infinities and NaNs. -/
def Format.maxExp (m : Format) : Nat := 2 ^ m.expBits - 1

/-- The weight of the last fraction bit of a subnormal is 2 to this power. -/
def Format.minPow (m : Format) : Int := 2 - (2 ^ (m.expBits - 1) : Nat) - m.fracBits

/-- What a pattern stands for: a NaN, an infinity, or the exact number (-1)^neg * sig * 2^pow. -/
inductive FpNum where
  | nan
  | inf (neg : Bool)
  | fin (neg : Bool) (sig : Nat) (pow : Int)
  deriving DecidableEq, Repr

/-- The number of a pattern. -/
def Format.unpack (m : Format) (bits : Nat) : FpNum :=
  let frac := bits % 2 ^ m.fracBits
  let exp := bits / 2 ^ m.fracBits % 2 ^ m.expBits
  let neg := bits / 2 ^ (m.fracBits + m.expBits) % 2 == 1
  if exp = m.maxExp then (if frac = 0 then .inf neg else .nan)
  else if exp = 0 then .fin neg frac m.minPow
  else .fin neg (frac + 2 ^ m.fracBits) (m.minPow + (exp : Int) - 1)

/-- The sign bit of a pattern. -/
def Format.signBit (m : Format) (neg : Bool) : Nat := if neg then 2 ^ (m.fracBits + m.expBits) else 0

/-- An infinity. -/
def Format.infinity (m : Format) (neg : Bool) : FpVal := .bits (BitVec.ofNat 64 (m.signBit neg + m.maxExp * 2 ^ m.fracBits))

/-- The NaN result of the format. -/
def Format.nan (m : Format) : FpVal := if m.expBits = 8 then .nan32 else .nan64

/-- `n / 2^k` rounded to the nearest integer, ties to even. -/
def roundShift (n k : Nat) : Nat :=
  let q := n / 2 ^ k
  let r := n % 2 ^ k
  if 2 * r > 2 ^ k then q + 1
  else if 2 * r = 2 ^ k then q + q % 2
  else q

/-- The number of bits of a significand; 0 for 0. -/
def bitLength (n : Nat) : Nat := if n = 0 then 0 else Nat.log2 n + 1

/-- `sig * 2^pow` rounded to the nearest pattern, ties to even (R306): the power of the last bit kept is the greater of that of
a subnormal and that which keeps the format's precision; a carry out of the fraction raises the exponent field by itself. -/
def Format.roundPack (m : Format) (neg : Bool) (sig : Nat) (pow : Int) : FpVal :=
  if sig = 0 then .bits (BitVec.ofNat 64 (m.signBit neg))
  else
    let last : Int := max m.minPow (pow + bitLength sig - (m.fracBits + 1 : Nat))
    let q := if last ≤ pow then sig * 2 ^ (pow - last).toNat else roundShift sig (last - pow).toNat
    let magnitude := (last - m.minPow).toNat * 2 ^ m.fracBits + q
    if magnitude ≥ m.maxExp * 2 ^ m.fracBits then m.infinity neg
    else .bits (BitVec.ofNat 64 (m.signBit neg + magnitude))

/-- The signed significand of two numbers brought to a common power. -/
def signedSig (neg : Bool) (sig : Nat) : Int := if neg then -(sig : Int) else (sig : Int)

/-- Addition (R320, R321); an exact zero sum is +0 unless both operands are -0. -/
def Format.add (m : Format) (a b : FpNum) : FpVal :=
  match a, b with
  | .nan, _ => m.nan
  | _, .nan => m.nan
  | .inf s, .inf t => if s = t then m.infinity s else m.nan
  | .inf s, .fin _ _ _ => m.infinity s
  | .fin _ _ _, .inf t => m.infinity t
  | .fin s x p, .fin t y q =>
    let low := min p q
    let sum := signedSig s (x * 2 ^ (p - low).toNat) + signedSig t (y * 2 ^ (q - low).toNat)
    if sum = 0 then m.roundPack (s && t) 0 low else m.roundPack (decide (sum < 0)) sum.natAbs low

/-- The number with its sign changed. -/
def FpNum.negate : FpNum → FpNum
  | .nan => .nan
  | .inf s => .inf (!s)
  | .fin s x p => .fin (!s) x p

/-- Multiplication (R324, R325). -/
def Format.mul (m : Format) (a b : FpNum) : FpVal :=
  match a, b with
  | .nan, _ => m.nan
  | _, .nan => m.nan
  | .inf s, .inf t => m.infinity (s != t)
  | .inf s, .fin t y _ => if y = 0 then m.nan else m.infinity (s != t)
  | .fin s x _, .inf t => if x = 0 then m.nan else m.infinity (s != t)
  | .fin s x p, .fin t y q => m.roundPack (s != t) (x * y) (p + q)

/-- Division (R326, R327): "x/0 for finite non-zero x gives the correctly signed infinity" (R307). The quotient is taken to more
bits than the format holds, and its lowest bit says whether the division was inexact, so that one rounding is exact. -/
def Format.div (m : Format) (a b : FpNum) : FpVal :=
  match a, b with
  | .nan, _ => m.nan
  | _, .nan => m.nan
  | .inf _, .inf _ => m.nan
  | .inf s, .fin t _ _ => m.infinity (s != t)
  | .fin s _ _, .inf t => .bits (BitVec.ofNat 64 (m.signBit (s != t)))
  | .fin s x p, .fin t y q =>
    if y = 0 then (if x = 0 then m.nan else m.infinity (s != t))
    else
      let extra := 2 * m.fracBits + 4
      let quotient := x * 2 ^ extra / y
      let sticky := if x * 2 ^ extra % y = 0 then 0 else 1
      m.roundPack (s != t) (2 * quotient + sticky) (p - q - extra - 1)

/-- Conversion of a number into a format (R334, R336). -/
def Format.convert (m : Format) : FpNum → FpVal
  | .nan => m.nan
  | .inf s => m.infinity s
  | .fin s x p => m.roundPack s x p

/-- A signed word as a number (R335, R337). -/
def intNum (w : Word) : FpNum := .fin (decide (w.toInt < 0)) w.toInt.natAbs 0

/-- Conversion to W (R338, R339): the nearest integer, ties to even; a NaN, an infinity or a value out of range is invalid. -/
def toWordVal : FpNum → FpVal
  | .nan => .cvtInvalid
  | .inf _ => .cvtInvalid
  | .fin s x p =>
    let magnitude := if 0 ≤ p then x * 2 ^ p.toNat else roundShift x (-p).toNat
    let v := signedSig s magnitude
    if fitsSigned v then .bits ((BitVec.ofInt 32 v).zeroExtend 64) else .cvtInvalid

/-- The order of two finite numbers. -/
def compareFin (s : Bool) (x : Nat) (p : Int) (t : Bool) (y : Nat) (q : Int) : Relation :=
  let low := min p q
  let a := signedSig s (x * 2 ^ (p - low).toNat)
  let b := signedSig t (y * 2 ^ (q - low).toNat)
  if a < b then .less else if a = b then .equal else .greater

/-- `cmp` (R306, R340): unordered when either operand is NaN; +0 and -0 are equal. -/
def relationOf : FpNum → FpNum → Relation
  | .nan, _ => .unordered
  | _, .nan => .unordered
  | .inf s, .inf t => if s = t then .equal else if s then .less else .greater
  | .inf s, .fin _ _ _ => if s then .less else .greater
  | .fin _ _ _, .inf t => if t then .greater else .less
  | .fin s x p, .fin t y q => compareFin s x p t y q

/-- The number of a binary32 pattern. -/
def numS (v : Word) : FpNum := fmtS.unpack v.toNat
/-- The number of a binary64 pattern. -/
def numD (v : DWord) : FpNum := fmtD.unpack v.toNat

/-- `FPNumerics` at its default (R306): IEEE 754, round to nearest, ties to even. -/
def ieeeNumerics : FPNumerics :=
  { addS := fun a b => fmtS.add (numS a) (numS b)
    addD := fun a b => fmtD.add (numD a) (numD b)
    subS := fun a b => fmtS.add (numS a) (numS b).negate
    subD := fun a b => fmtD.add (numD a) (numD b).negate
    mulS := fun a b => fmtS.mul (numS a) (numS b)
    mulD := fun a b => fmtD.mul (numD a) (numD b)
    divS := fun a b => fmtS.div (numS a) (numS b)
    divD := fun a b => fmtD.div (numD a) (numD b)
    cvtSD := fun a => fmtS.convert (numD a)
    cvtDS := fun a => fmtD.convert (numS a)
    cvtSW := fun a => fmtS.convert (intNum a)
    cvtDW := fun a => fmtD.convert (intNum a)
    cvtWS := fun a => toWordVal (numS a)
    cvtWD := fun a => toWordVal (numD a)
    cmpS := fun a b => relationOf (numS a) (numS b)
    cmpD := fun a b => relationOf (numD a) (numD b) }

/-- The low half of an operand, or of a result. -/
def lowHalf (v : DWord) : Word := v.extractLsb' 0 32

/-! A record's answer, taken in the format of the result: a one-register result has upper half 0 (R313; log 10). -/

/-- In binary32: 32 bits, or the NaN of the format. -/
def FpVal.single : FpVal → FpVal
  | .bits v => .bits ((lowHalf v).zeroExtend 64)
  | .nan32 | .nan64 | .cvtInvalid => .nan32

/-- In binary64: 64 bits, or the NaN of the format. -/
def FpVal.double : FpVal → FpVal
  | .bits v => .bits v
  | .nan32 | .nan64 | .cvtInvalid => .nan64

/-- In W: 32 bits, or the invalid result. -/
def FpVal.word : FpVal → FpVal
  | .bits v => .bits ((lowHalf v).zeroExtend 64)
  | .nan32 | .nan64 | .cvtInvalid => .cvtInvalid

/-- A record whose every function answers in the format of its result. -/
def FPNumerics.inFormat (n : FPNumerics) : FPNumerics :=
  { addS := fun a b => (n.addS a b).single
    addD := fun a b => (n.addD a b).double
    subS := fun a b => (n.subS a b).single
    subD := fun a b => (n.subD a b).double
    mulS := fun a b => (n.mulS a b).single
    mulD := fun a b => (n.mulD a b).double
    divS := fun a b => (n.divS a b).single
    divD := fun a b => (n.divD a b).double
    cvtSD := fun a => (n.cvtSD a).single
    cvtDS := fun a => (n.cvtDS a).double
    cvtSW := fun a => (n.cvtSW a).single
    cvtDW := fun a => (n.cvtDW a).double
    cvtWS := fun a => (n.cvtWS a).word
    cvtWD := fun a => (n.cvtWD a).word
    cmpS := n.cmpS
    cmpD := n.cmpD }

/-- The record of functions a parameter names (R306; log 10). -/
def numericsOf : Numerics → FPNumerics
  | .ieee => ieeeNumerics
  | .other index => (Config.otherNumerics index).inFormat

/-! The functions of R320 to R341 on `fop1`, `fop2`: a single-precision or word operand is the low half (R309). -/

/-- R320 -/
def fpAddS (n : FPNumerics) (a b : DWord) : FpVal := n.addS (lowHalf a) (lowHalf b)
/-- R321 -/
def fpAddD (n : FPNumerics) (a b : DWord) : FpVal := n.addD a b
/-- R322 -/
def fpSubS (n : FPNumerics) (a b : DWord) : FpVal := n.subS (lowHalf a) (lowHalf b)
/-- R323 -/
def fpSubD (n : FPNumerics) (a b : DWord) : FpVal := n.subD a b
/-- R324 -/
def fpMulS (n : FPNumerics) (a b : DWord) : FpVal := n.mulS (lowHalf a) (lowHalf b)
/-- R325 -/
def fpMulD (n : FPNumerics) (a b : DWord) : FpVal := n.mulD a b
/-- R326 -/
def fpDivS (n : FPNumerics) (a b : DWord) : FpVal := n.divS (lowHalf a) (lowHalf b)
/-- R327 -/
def fpDivD (n : FPNumerics) (a b : DWord) : FpVal := n.divD a b

/-- R328: the sign bit cleared. -/
def fpAbsS (_ : FPNumerics) (a _ : DWord) : FpVal := .bits (a &&& 0x7FFFFFFF)
/-- R329 -/
def fpAbsD (_ : FPNumerics) (a _ : DWord) : FpVal := .bits (a &&& 0x7FFFFFFFFFFFFFFF)
/-- R330: the sign bit inverted. -/
def fpNegS (_ : FPNumerics) (a _ : DWord) : FpVal := .bits ((a &&& 0xFFFFFFFF) ^^^ 0x80000000)
/-- R331 -/
def fpNegD (_ : FPNumerics) (a _ : DWord) : FpVal := .bits (a ^^^ 0x8000000000000000)
/-- R332: a bit copy. -/
def fpMovS (_ : FPNumerics) (a _ : DWord) : FpVal := .bits (a &&& 0xFFFFFFFF)
/-- R333 -/
def fpMovD (_ : FPNumerics) (a _ : DWord) : FpVal := .bits a

/-- `cvt_s_d` (R334) -/
def fpCvtSD (n : FPNumerics) (a _ : DWord) : FpVal := n.cvtSD a
/-- `cvt_s_w` (R335) -/
def fpCvtSW (n : FPNumerics) (a _ : DWord) : FpVal := n.cvtSW (lowHalf a)
/-- `cvt_d_s` (R336) -/
def fpCvtDS (n : FPNumerics) (a _ : DWord) : FpVal := n.cvtDS (lowHalf a)
/-- `cvt_d_w` (R337) -/
def fpCvtDW (n : FPNumerics) (a _ : DWord) : FpVal := n.cvtDW (lowHalf a)
/-- `cvt_w_s` (R338) -/
def fpCvtWS (n : FPNumerics) (a _ : DWord) : FpVal := n.cvtWS (lowHalf a)
/-- `cvt_w_d` (R339) -/
def fpCvtWD (n : FPNumerics) (a _ : DWord) : FpVal := n.cvtWD a

/-- A compare of format S (R340): `fresult[0]`. -/
def fpCmpS (cond : BitVec 4) (n : FPNumerics) (a b : DWord) : FpVal :=
  .bits (if condHolds cond (n.cmpS (lowHalf a) (lowHalf b)) then 1 else 0)
/-- A compare of format D (R341). -/
def fpCmpD (cond : BitVec 4) (n : FPNumerics) (a b : DWord) : FpVal := .bits (if condHolds cond (n.cmpD a b) then 1 else 0)

/-- A binary32 NaN made of free bits (R307): exponent all ones, fraction not 0. -/
def nanPattern32 (w : Word) : Word :=
  let v := w ||| 0x7F800000
  if v &&& 0x007FFFFF = 0 then v ||| 1 else v

/-- A binary64 NaN made of free bits (R307). -/
def nanPattern64 (w : DWord) : DWord :=
  let v := w ||| 0x7FF0000000000000
  if v &&& 0x000FFFFFFFFFFFFF = 0 then v ||| 1 else v

/-- The pattern of a result, the n-th free value where it is unconstrained (R307; log 12, log 13). -/
def FpVal.pattern (n : Nat) : FpVal → DWord
  | .bits v => v
  | .nan32 => (nanPattern32 (Config.nanBits32 n)).zeroExtend 64
  | .nan64 => nanPattern64 (Config.nanBits64 n)
  | .cvtInvalid => (Config.cvtWInvalid n).zeroExtend 64

/-- Whether a result takes a free value. -/
def FpVal.isFree : FpVal → Bool
  | .bits _ => false
  | .nan32 | .nan64 | .cvtInvalid => true

end Sys2Proof.Machine
end

