-- ==== Sys2Proof/WellFormed.lean ====
section
/-! DEFINITION. Well-formed instructions. The types of Syntax.lean bound every field by the width the format gives it
(spec/30_encoding.md R92); the one condition left is that of spec/46_float.md R304: a field that R303 expands into a
register pair names an even register. An instruction that is not well-formed is still an instruction: it decodes, and it
raises the reserved-instruction exception in ID (R304). -/

namespace Sys2Proof

/-- The register fields that R303 expands with `P(...)`: the double-precision operands of an instruction. -/
def Instr.doubleFields : Instr → List Reg
  | .addD fd fs ft | .subD fd fs ft | .mulD fd fs ft | .divD fd fs ft => [fd, fs, ft]
  | .absD fd fs | .negD fd fs | .movD fd fs => [fd, fs]
  | .cvtSD _ fs | .cvtWD _ fs => [fs]
  | .cvtDS fd _ | .cvtDW fd _ => [fd]
  | .cFD fs ft | .cUnD fs ft | .cEqD fs ft | .cUeqD fs ft | .cOltD fs ft | .cUltD fs ft | .cOleD fs ft | .cUleD fs ft => [fs, ft]
  | .cSfD fs ft | .cNgleD fs ft | .cSeqD fs ft | .cNglD fs ft | .cLtD fs ft | .cNgeD fs ft | .cLeD fs ft | .cNgtD fs ft => [fs, ft]
  | .add _ _ _ | .addu _ _ _ | .sub _ _ _ | .subu _ _ _ | .and _ _ _ | .or _ _ _ | .xor _ _ _ | .nor _ _ _ => []
  | .slt _ _ _ | .sltu _ _ _ | .sll _ _ _ | .srl _ _ _ | .sra _ _ _ | .sllv _ _ _ | .srlv _ _ _ | .srav _ _ _ => []
  | .addi _ _ _ | .addiu _ _ _ | .slti _ _ _ | .sltiu _ _ _ | .andi _ _ _ | .ori _ _ _ | .xori _ _ _ | .lui _ _ => []
  | .mult _ _ | .multu _ _ | .div _ _ | .divu _ _ | .mfhi _ | .mflo _ | .mthi _ | .mtlo _ => []
  | .lb _ _ _ | .lbu _ _ _ | .lh _ _ _ | .lhu _ _ _ | .lw _ _ _ | .sb _ _ _ | .sh _ _ _ | .sw _ _ _ => []
  | .beq _ _ _ | .bne _ _ _ | .blez _ _ | .bgtz _ _ | .bltz _ _ | .bgez _ _ | .bltzal _ _ | .bgezal _ _ => []
  | .j _ | .jal _ | .jr _ | .jalr _ _ => []
  | .addS _ _ _ | .subS _ _ _ | .mulS _ _ _ | .divS _ _ _ | .absS _ _ | .negS _ _ | .movS _ _ => []
  | .cvtSW _ _ | .cvtWS _ _ => []
  | .cFS _ _ | .cUnS _ _ | .cEqS _ _ | .cUeqS _ _ | .cOltS _ _ | .cUltS _ _ | .cOleS _ _ | .cUleS _ _ => []
  | .cSfS _ _ | .cNgleS _ _ | .cSeqS _ _ | .cNglS _ _ | .cLtS _ _ | .cNgeS _ _ | .cLeS _ _ | .cNgtS _ _ => []
  | .lwc1 _ _ _ | .swc1 _ _ _ | .mfc1 _ _ | .mtc1 _ _ | .bc1t _ | .bc1f _ => []
  | .syscall _ | .brk _ | .mfc0 _ _ | .mtc0 _ _ => []

/-- R304: every double-precision operand names an even register. -/
def Instr.wellFormed (i : Instr) : Bool := i.doubleFields.all fun r => r.getLsbD 0 == false

end Sys2Proof
end

