-- ==== Sys2Proof/Decode.lean ====
section
/-! DEFINITION. Instruction words: the decoder of spec/30_encoding.md R90 to R99, total on words, the encoder written from
the same tables, and the byte order of a word in memory (spec/20_memory.md R69, R103). -/

namespace Sys2Proof

/-- The four bytes of a word from the lowest address up (R69). -/
def wordBytes : ByteOrder → Word → List Byte
  | .little, w => [w.extractLsb' 0 8, w.extractLsb' 8 8, w.extractLsb' 16 8, w.extractLsb' 24 8]
  | .big, w => [w.extractLsb' 24 8, w.extractLsb' 16 8, w.extractLsb' 8 8, w.extractLsb' 0 8]

/-- The word whose bytes, from the lowest address up, are b0 to b3 (R69). -/
def bytesWord : ByteOrder → Byte → Byte → Byte → Byte → Word
  | .little, b0, b1, b2, b3 => b3 ++ b2 ++ b1 ++ b0
  | .big, b0, b1, b2, b3 => b0 ++ b1 ++ b2 ++ b3

/-- The two bytes of a half from the lower address up (R69). -/
def halfBytes : ByteOrder → Half → List Byte
  | .little, h => [h.extractLsb' 0 8, h.extractLsb' 8 8]
  | .big, h => [h.extractLsb' 8 8, h.extractLsb' 0 8]

/-- The half whose bytes, from the lower address up, are b0 and b1 (R69). -/
def bytesHalf : ByteOrder → Byte → Byte → Half
  | .little, b0, b1 => b1 ++ b0
  | .big, b0, b1 => b0 ++ b1

/-! The fields of a word (R92). -/

/-- w[31:26] -/
def opcodeOf (w : Word) : BitVec 6 := w.extractLsb' 26 6
/-- w[25:21]: `rs`, `sub` or `fmt` -/
def rsOf (w : Word) : Reg := w.extractLsb' 21 5
/-- w[20:16]: `rt` or `ft` -/
def rtOf (w : Word) : Reg := w.extractLsb' 16 5
/-- w[15:11]: `rd` or `fs` -/
def rdOf (w : Word) : Reg := w.extractLsb' 11 5
/-- w[10:6]: `shamt` or `fd` -/
def shamtOf (w : Word) : Reg := w.extractLsb' 6 5
/-- w[5:0] -/
def functOf (w : Word) : BitVec 6 := w.extractLsb' 0 6
/-- w[15:0] -/
def immOf (w : Word) : Imm := w.extractLsb' 0 16
/-- w[25:0] -/
def targetOf (w : Word) : BitVec 26 := w.extractLsb' 0 26
/-- w[25:6] -/
def codeOf (w : Word) : BitVec 20 := w.extractLsb' 6 20

/-- A word whose must-be-zero fields are zero is the instruction; any other is reserved (R95, D33: the strict reading). -/
def needs (zeros : Bool) (i : Instr) : Option Instr := if zeros then some i else none

/-- The SPECIAL map (R95), by `funct`. -/
def decodeSpecial (w : Word) : Option Instr :=
  match (functOf w).toNat with
  | 0 => needs (rsOf w == 0) (.sll (rdOf w) (rtOf w) (shamtOf w))
  | 2 => needs (rsOf w == 0) (.srl (rdOf w) (rtOf w) (shamtOf w))
  | 3 => needs (rsOf w == 0) (.sra (rdOf w) (rtOf w) (shamtOf w))
  | 4 => needs (shamtOf w == 0) (.sllv (rdOf w) (rtOf w) (rsOf w))
  | 6 => needs (shamtOf w == 0) (.srlv (rdOf w) (rtOf w) (rsOf w))
  | 7 => needs (shamtOf w == 0) (.srav (rdOf w) (rtOf w) (rsOf w))
  | 8 => needs (rtOf w == 0 && rdOf w == 0 && shamtOf w == 0) (.jr (rsOf w))
  | 9 => needs (rtOf w == 0 && shamtOf w == 0) (.jalr (rdOf w) (rsOf w))
  | 12 => some (.syscall (codeOf w))
  | 13 => some (.brk (codeOf w))
  | 16 => needs (rsOf w == 0 && rtOf w == 0 && shamtOf w == 0) (.mfhi (rdOf w))
  | 18 => needs (rsOf w == 0 && rtOf w == 0 && shamtOf w == 0) (.mflo (rdOf w))
  | 17 => needs (rtOf w == 0 && rdOf w == 0 && shamtOf w == 0) (.mthi (rsOf w))
  | 19 => needs (rtOf w == 0 && rdOf w == 0 && shamtOf w == 0) (.mtlo (rsOf w))
  | 24 => needs (rdOf w == 0 && shamtOf w == 0) (.mult (rsOf w) (rtOf w))
  | 25 => needs (rdOf w == 0 && shamtOf w == 0) (.multu (rsOf w) (rtOf w))
  | 26 => needs (rdOf w == 0 && shamtOf w == 0) (.div (rsOf w) (rtOf w))
  | 27 => needs (rdOf w == 0 && shamtOf w == 0) (.divu (rsOf w) (rtOf w))
  | 32 => needs (shamtOf w == 0) (.add (rdOf w) (rsOf w) (rtOf w))
  | 33 => needs (shamtOf w == 0) (.addu (rdOf w) (rsOf w) (rtOf w))
  | 34 => needs (shamtOf w == 0) (.sub (rdOf w) (rsOf w) (rtOf w))
  | 35 => needs (shamtOf w == 0) (.subu (rdOf w) (rsOf w) (rtOf w))
  | 36 => needs (shamtOf w == 0) (.and (rdOf w) (rsOf w) (rtOf w))
  | 37 => needs (shamtOf w == 0) (.or (rdOf w) (rsOf w) (rtOf w))
  | 38 => needs (shamtOf w == 0) (.xor (rdOf w) (rsOf w) (rtOf w))
  | 39 => needs (shamtOf w == 0) (.nor (rdOf w) (rsOf w) (rtOf w))
  | 42 => needs (shamtOf w == 0) (.slt (rdOf w) (rsOf w) (rtOf w))
  | 43 => needs (shamtOf w == 0) (.sltu (rdOf w) (rsOf w) (rtOf w))
  | _ => none

/-- The REGIMM map (R95), by w[20:16]. -/
def decodeRegimm (w : Word) : Option Instr :=
  match (rtOf w).toNat with
  | 0 => some (.bltz (rsOf w) (immOf w))
  | 1 => some (.bgez (rsOf w) (immOf w))
  | 16 => some (.bltzal (rsOf w) (immOf w))
  | 17 => some (.bgezal (rsOf w) (immOf w))
  | _ => none

/-- The COP0 map (R95): w[10:0] = 0. -/
def decodeCop0 (w : Word) : Option Instr :=
  match (rsOf w).toNat with
  | 0 => needs (shamtOf w == 0 && functOf w == 0) (.mfc0 (rtOf w) (rdOf w))
  | 4 => needs (shamtOf w == 0 && functOf w == 0) (.mtc0 (rtOf w) (rdOf w))
  | _ => none

/-- The sixteen compares of format S (R95, R342), by `funct`. -/
def decodeCmpS (w : Word) : Option Instr :=
  match (functOf w).toNat with
  | 48 => some (.cFS (rdOf w) (rtOf w))
  | 49 => some (.cUnS (rdOf w) (rtOf w))
  | 50 => some (.cEqS (rdOf w) (rtOf w))
  | 51 => some (.cUeqS (rdOf w) (rtOf w))
  | 52 => some (.cOltS (rdOf w) (rtOf w))
  | 53 => some (.cUltS (rdOf w) (rtOf w))
  | 54 => some (.cOleS (rdOf w) (rtOf w))
  | 55 => some (.cUleS (rdOf w) (rtOf w))
  | 56 => some (.cSfS (rdOf w) (rtOf w))
  | 57 => some (.cNgleS (rdOf w) (rtOf w))
  | 58 => some (.cSeqS (rdOf w) (rtOf w))
  | 59 => some (.cNglS (rdOf w) (rtOf w))
  | 60 => some (.cLtS (rdOf w) (rtOf w))
  | 61 => some (.cNgeS (rdOf w) (rtOf w))
  | 62 => some (.cLeS (rdOf w) (rtOf w))
  | 63 => some (.cNgtS (rdOf w) (rtOf w))
  | _ => none

/-- The sixteen compares of format D (R95, R342), by `funct`. -/
def decodeCmpD (w : Word) : Option Instr :=
  match (functOf w).toNat with
  | 48 => some (.cFD (rdOf w) (rtOf w))
  | 49 => some (.cUnD (rdOf w) (rtOf w))
  | 50 => some (.cEqD (rdOf w) (rtOf w))
  | 51 => some (.cUeqD (rdOf w) (rtOf w))
  | 52 => some (.cOltD (rdOf w) (rtOf w))
  | 53 => some (.cUltD (rdOf w) (rtOf w))
  | 54 => some (.cOleD (rdOf w) (rtOf w))
  | 55 => some (.cUleD (rdOf w) (rtOf w))
  | 56 => some (.cSfD (rdOf w) (rtOf w))
  | 57 => some (.cNgleD (rdOf w) (rtOf w))
  | 58 => some (.cSeqD (rdOf w) (rtOf w))
  | 59 => some (.cNglD (rdOf w) (rtOf w))
  | 60 => some (.cLtD (rdOf w) (rtOf w))
  | 61 => some (.cNgeD (rdOf w) (rtOf w))
  | 62 => some (.cLeD (rdOf w) (rtOf w))
  | 63 => some (.cNgtD (rdOf w) (rtOf w))
  | _ => none

/-- The floating register map, fmt S (R95): `ft` stands in w[20:16], `fs` in w[15:11], `fd` in w[10:6]. -/
def decodeFmtS (w : Word) : Option Instr :=
  match (functOf w).toNat with
  | 0 => some (.addS (shamtOf w) (rdOf w) (rtOf w))
  | 1 => some (.subS (shamtOf w) (rdOf w) (rtOf w))
  | 2 => some (.mulS (shamtOf w) (rdOf w) (rtOf w))
  | 3 => some (.divS (shamtOf w) (rdOf w) (rtOf w))
  | 5 => needs (rtOf w == 0) (.absS (shamtOf w) (rdOf w))
  | 6 => needs (rtOf w == 0) (.movS (shamtOf w) (rdOf w))
  | 7 => needs (rtOf w == 0) (.negS (shamtOf w) (rdOf w))
  | 33 => needs (rtOf w == 0) (.cvtDS (shamtOf w) (rdOf w))
  | 36 => needs (rtOf w == 0) (.cvtWS (shamtOf w) (rdOf w))
  | _ => if shamtOf w == 0 then decodeCmpS w else none

/-- The floating register map, fmt D (R95). -/
def decodeFmtD (w : Word) : Option Instr :=
  match (functOf w).toNat with
  | 0 => some (.addD (shamtOf w) (rdOf w) (rtOf w))
  | 1 => some (.subD (shamtOf w) (rdOf w) (rtOf w))
  | 2 => some (.mulD (shamtOf w) (rdOf w) (rtOf w))
  | 3 => some (.divD (shamtOf w) (rdOf w) (rtOf w))
  | 5 => needs (rtOf w == 0) (.absD (shamtOf w) (rdOf w))
  | 6 => needs (rtOf w == 0) (.movD (shamtOf w) (rdOf w))
  | 7 => needs (rtOf w == 0) (.negD (shamtOf w) (rdOf w))
  | 32 => needs (rtOf w == 0) (.cvtSD (shamtOf w) (rdOf w))
  | 36 => needs (rtOf w == 0) (.cvtWD (shamtOf w) (rdOf w))
  | _ => if shamtOf w == 0 then decodeCmpD w else none

/-- The floating register map, fmt W (R95). -/
def decodeFmtW (w : Word) : Option Instr :=
  match (functOf w).toNat with
  | 32 => needs (rtOf w == 0) (.cvtSW (shamtOf w) (rdOf w))
  | 33 => needs (rtOf w == 0) (.cvtDW (shamtOf w) (rdOf w))
  | _ => none

/-- BC1F and BC1T (R95), by w[20:16]. -/
def decodeBc1 (w : Word) : Option Instr :=
  match (rtOf w).toNat with
  | 0 => some (.bc1f (immOf w))
  | 1 => some (.bc1t (immOf w))
  | _ => none

/-- The COP1 map (R95), by w[25:21]. -/
def decodeCop1 (w : Word) : Option Instr :=
  match (rsOf w).toNat with
  | 0 => needs (shamtOf w == 0 && functOf w == 0) (.mfc1 (rtOf w) (rdOf w))
  | 4 => needs (shamtOf w == 0 && functOf w == 0) (.mtc1 (rtOf w) (rdOf w))
  | 8 => decodeBc1 w
  | 16 => decodeFmtS w
  | 17 => decodeFmtD w
  | 20 => decodeFmtW w
  | _ => none

/-- The primary map (R94) of a word whose coprocessor, if it names one, is usable: `none` is RESERVED (R97). Coprocessors 2
and 3 do not exist, so their opcodes 18, 19, 50, 51, 58, 59 are reserved here (R98), as are LWC0 and SWC0. -/
def decodeMajor (w : Word) : Option Instr :=
  match (opcodeOf w).toNat with
  | 0 => decodeSpecial w
  | 1 => decodeRegimm w
  | 2 => some (.j (targetOf w))
  | 3 => some (.jal (targetOf w))
  | 4 => some (.beq (rsOf w) (rtOf w) (immOf w))
  | 5 => some (.bne (rsOf w) (rtOf w) (immOf w))
  | 6 => needs (rtOf w == 0) (.blez (rsOf w) (immOf w))
  | 7 => needs (rtOf w == 0) (.bgtz (rsOf w) (immOf w))
  | 8 => some (.addi (rtOf w) (rsOf w) (immOf w))
  | 9 => some (.addiu (rtOf w) (rsOf w) (immOf w))
  | 10 => some (.slti (rtOf w) (rsOf w) (immOf w))
  | 11 => some (.sltiu (rtOf w) (rsOf w) (immOf w))
  | 12 => some (.andi (rtOf w) (rsOf w) (immOf w))
  | 13 => some (.ori (rtOf w) (rsOf w) (immOf w))
  | 14 => some (.xori (rtOf w) (rsOf w) (immOf w))
  | 15 => needs (rsOf w == 0) (.lui (rtOf w) (immOf w))
  | 16 => decodeCop0 w
  | 17 => decodeCop1 w
  | 32 => some (.lb (rtOf w) (immOf w) (rsOf w))
  | 33 => some (.lh (rtOf w) (immOf w) (rsOf w))
  | 35 => some (.lw (rtOf w) (immOf w) (rsOf w))
  | 36 => some (.lbu (rtOf w) (immOf w) (rsOf w))
  | 37 => some (.lhu (rtOf w) (immOf w) (rsOf w))
  | 40 => some (.sb (rtOf w) (immOf w) (rsOf w))
  | 41 => some (.sh (rtOf w) (immOf w) (rsOf w))
  | 43 => some (.sw (rtOf w) (immOf w) (rsOf w))
  | 49 => some (.lwc1 (rtOf w) (immOf w) (rsOf w))
  | 57 => some (.swc1 (rtOf w) (immOf w) (rsOf w))
  | _ => none

/-- The coprocessor a word names (R98): the primary opcodes 16+z, 48+z and 56+z. -/
def copNamed (w : Word) : Option (BitVec 2) :=
  match (w.extractLsb' 28 4 : BitVec 4).toNat with
  | 4 => some (w.extractLsb' 26 2)
  | 12 => some (w.extractLsb' 26 2)
  | 14 => some (w.extractLsb' 26 2)
  | _ => none

/-- `cop_usable[z]` (R8). -/
def usableAt (u : CopUsable) (z : BitVec 2) : Bool :=
  match z.toNat with
  | 0 => u.z0
  | 1 => u.z1
  | 2 => u.z2
  | _ => u.z3

/-- `Decode` (R90): the usability check comes before the reserved check (R98). -/
def decodeWord (u : CopUsable) (w : Word) : Decoded :=
  match copNamed w with
  | some z => if usableAt u z then (decodeMajor w).elim .reserved .instr else .copUnusable z
  | none => (decodeMajor w).elim .reserved .instr

/-! The encoder: the formats of R92, then each instruction's fixed fields (R94, R95 and the instruction's own rule). -/

/-- Formats R, C0, C1M, FR, FC: six fields from the top. -/
def rForm (op : BitVec 6) (rs rt rd shamt : Reg) (funct : BitVec 6) : Word := op ++ rs ++ rt ++ rd ++ shamt ++ funct
/-- Formats I, RI, C1B, FI. -/
def iForm (op : BitVec 6) (rs rt : Reg) (imm : Imm) : Word := op ++ rs ++ rt ++ imm
/-- Format J. -/
def jForm (op : BitVec 6) (target : BitVec 26) : Word := op ++ target
/-- Format SC. -/
def scForm (code : BitVec 20) (funct : BitVec 6) : Word := 0#6 ++ code ++ funct

/-- The word of an instruction (R92, R94, R95). -/
def encode : Instr → Word
  | .add rd rs rt => rForm 0 rs rt rd 0 32
  | .addu rd rs rt => rForm 0 rs rt rd 0 33
  | .sub rd rs rt => rForm 0 rs rt rd 0 34
  | .subu rd rs rt => rForm 0 rs rt rd 0 35
  | .and rd rs rt => rForm 0 rs rt rd 0 36
  | .or rd rs rt => rForm 0 rs rt rd 0 37
  | .xor rd rs rt => rForm 0 rs rt rd 0 38
  | .nor rd rs rt => rForm 0 rs rt rd 0 39
  | .slt rd rs rt => rForm 0 rs rt rd 0 42
  | .sltu rd rs rt => rForm 0 rs rt rd 0 43
  | .sll rd rt shamt => rForm 0 0 rt rd shamt 0
  | .srl rd rt shamt => rForm 0 0 rt rd shamt 2
  | .sra rd rt shamt => rForm 0 0 rt rd shamt 3
  | .sllv rd rt rs => rForm 0 rs rt rd 0 4
  | .srlv rd rt rs => rForm 0 rs rt rd 0 6
  | .srav rd rt rs => rForm 0 rs rt rd 0 7
  | .addi rt rs imm => iForm 8 rs rt imm
  | .addiu rt rs imm => iForm 9 rs rt imm
  | .slti rt rs imm => iForm 10 rs rt imm
  | .sltiu rt rs imm => iForm 11 rs rt imm
  | .andi rt rs imm => iForm 12 rs rt imm
  | .ori rt rs imm => iForm 13 rs rt imm
  | .xori rt rs imm => iForm 14 rs rt imm
  | .lui rt imm => iForm 15 0 rt imm
  | .mult rs rt => rForm 0 rs rt 0 0 24
  | .multu rs rt => rForm 0 rs rt 0 0 25
  | .div rs rt => rForm 0 rs rt 0 0 26
  | .divu rs rt => rForm 0 rs rt 0 0 27
  | .mfhi rd => rForm 0 0 0 rd 0 16
  | .mflo rd => rForm 0 0 0 rd 0 18
  | .mthi rs => rForm 0 rs 0 0 0 17
  | .mtlo rs => rForm 0 rs 0 0 0 19
  | .lb rt imm rs => iForm 32 rs rt imm
  | .lbu rt imm rs => iForm 36 rs rt imm
  | .lh rt imm rs => iForm 33 rs rt imm
  | .lhu rt imm rs => iForm 37 rs rt imm
  | .lw rt imm rs => iForm 35 rs rt imm
  | .sb rt imm rs => iForm 40 rs rt imm
  | .sh rt imm rs => iForm 41 rs rt imm
  | .sw rt imm rs => iForm 43 rs rt imm
  | .beq rs rt imm => iForm 4 rs rt imm
  | .bne rs rt imm => iForm 5 rs rt imm
  | .blez rs imm => iForm 6 rs 0 imm
  | .bgtz rs imm => iForm 7 rs 0 imm
  | .bltz rs imm => iForm 1 rs 0 imm
  | .bgez rs imm => iForm 1 rs 1 imm
  | .bltzal rs imm => iForm 1 rs 16 imm
  | .bgezal rs imm => iForm 1 rs 17 imm
  | .j target => jForm 2 target
  | .jal target => jForm 3 target
  | .jr rs => rForm 0 rs 0 0 0 8
  | .jalr rd rs => rForm 0 rs 0 rd 0 9
  | .addS fd fs ft => rForm 17 16 ft fs fd 0
  | .addD fd fs ft => rForm 17 17 ft fs fd 0
  | .subS fd fs ft => rForm 17 16 ft fs fd 1
  | .subD fd fs ft => rForm 17 17 ft fs fd 1
  | .mulS fd fs ft => rForm 17 16 ft fs fd 2
  | .mulD fd fs ft => rForm 17 17 ft fs fd 2
  | .divS fd fs ft => rForm 17 16 ft fs fd 3
  | .divD fd fs ft => rForm 17 17 ft fs fd 3
  | .absS fd fs => rForm 17 16 0 fs fd 5
  | .absD fd fs => rForm 17 17 0 fs fd 5
  | .negS fd fs => rForm 17 16 0 fs fd 7
  | .negD fd fs => rForm 17 17 0 fs fd 7
  | .movS fd fs => rForm 17 16 0 fs fd 6
  | .movD fd fs => rForm 17 17 0 fs fd 6
  | .cvtSD fd fs => rForm 17 17 0 fs fd 32
  | .cvtSW fd fs => rForm 17 20 0 fs fd 32
  | .cvtDS fd fs => rForm 17 16 0 fs fd 33
  | .cvtDW fd fs => rForm 17 20 0 fs fd 33
  | .cvtWS fd fs => rForm 17 16 0 fs fd 36
  | .cvtWD fd fs => rForm 17 17 0 fs fd 36
  | .cFS fs ft => rForm 17 16 ft fs 0 48
  | .cUnS fs ft => rForm 17 16 ft fs 0 49
  | .cEqS fs ft => rForm 17 16 ft fs 0 50
  | .cUeqS fs ft => rForm 17 16 ft fs 0 51
  | .cOltS fs ft => rForm 17 16 ft fs 0 52
  | .cUltS fs ft => rForm 17 16 ft fs 0 53
  | .cOleS fs ft => rForm 17 16 ft fs 0 54
  | .cUleS fs ft => rForm 17 16 ft fs 0 55
  | .cSfS fs ft => rForm 17 16 ft fs 0 56
  | .cNgleS fs ft => rForm 17 16 ft fs 0 57
  | .cSeqS fs ft => rForm 17 16 ft fs 0 58
  | .cNglS fs ft => rForm 17 16 ft fs 0 59
  | .cLtS fs ft => rForm 17 16 ft fs 0 60
  | .cNgeS fs ft => rForm 17 16 ft fs 0 61
  | .cLeS fs ft => rForm 17 16 ft fs 0 62
  | .cNgtS fs ft => rForm 17 16 ft fs 0 63
  | .cFD fs ft => rForm 17 17 ft fs 0 48
  | .cUnD fs ft => rForm 17 17 ft fs 0 49
  | .cEqD fs ft => rForm 17 17 ft fs 0 50
  | .cUeqD fs ft => rForm 17 17 ft fs 0 51
  | .cOltD fs ft => rForm 17 17 ft fs 0 52
  | .cUltD fs ft => rForm 17 17 ft fs 0 53
  | .cOleD fs ft => rForm 17 17 ft fs 0 54
  | .cUleD fs ft => rForm 17 17 ft fs 0 55
  | .cSfD fs ft => rForm 17 17 ft fs 0 56
  | .cNgleD fs ft => rForm 17 17 ft fs 0 57
  | .cSeqD fs ft => rForm 17 17 ft fs 0 58
  | .cNglD fs ft => rForm 17 17 ft fs 0 59
  | .cLtD fs ft => rForm 17 17 ft fs 0 60
  | .cNgeD fs ft => rForm 17 17 ft fs 0 61
  | .cLeD fs ft => rForm 17 17 ft fs 0 62
  | .cNgtD fs ft => rForm 17 17 ft fs 0 63
  | .lwc1 ft imm rs => iForm 49 rs ft imm
  | .swc1 ft imm rs => iForm 57 rs ft imm
  | .mfc1 rt fs => rForm 17 0 rt fs 0 0
  | .mtc1 rt fs => rForm 17 4 rt fs 0 0
  | .bc1t imm => iForm 17 8 1 imm
  | .bc1f imm => iForm 17 8 0 imm
  | .syscall code => scForm code 12
  | .brk code => scForm code 13
  | .mfc0 rt rd => rForm 16 0 rt rd 0 0
  | .mtc0 rt rd => rForm 16 4 rt rd 0 0

/-- The host's question about one row of spec/opcode_table.json: the bits `w`, the low `nbits` of them, laid out in memory
in the byte order of `cfgEx` and given to the decoder. Every instruction is one 32-bit word (R91). -/
def decodeTableWord (nbits w : Nat) : Option Instr :=
  let word : Word := BitVec.ofNat 32 (w % 2 ^ nbits)
  match wordBytes cfgEx.byteOrder word with
  | [b0, b1, b2, b3] =>
    match decodeWord cfgEx.usable (bytesWord cfgEx.byteOrder b0 b1 b2 b3) with
    | .instr i => some i
    | .reserved => none
    | .copUnusable _ => none
  | _ => none

end Sys2Proof
end

