-- ==== Sys2Proof/Machine/Ops.lean ====
section
/-! DEFINITION. The named operations over registers, bypass, memory and the pool, and the taking of an exception
(spec/10_state.md, spec/20_memory.md, spec/41_bypass_hazards.md R170 to R173, spec/60_exceptions.md R440, R441). There is no
return from an exception: a handler returns with MFC0 and JR (spec/47_system.md R388). -/

namespace Sys2Proof.Machine

/-! ## Register cells -/

/-- "a read returns `clean XOR mask`" (R39) -/
def RegCell.read (c : RegCell) : Word := c.clean ^^^ c.mask

/-- "a write stores a new clean value and clears the mask" (R39) -/
def cellOf (v : Word) : RegCell := { clean := v, mask := 0 }

/-- `x[i]`, the architectural file (R21): register 0 reads 0. -/
def State.readX (s : State) (i : Reg) : Word := if i = 0#5 then 0 else (s.x[i.toNat]'i.isLt).read

/-- A write of `x[i]`: discarded for register 0 (R21). -/
def State.writeX (s : State) (i : Reg) (v : Word) : State :=
  if i = 0#5 then s else { s with x := s.x.set i.toNat (cellOf v) i.isLt }

/-- `f[i]` (R28) -/
def State.readF (s : State) (i : Reg) : Word := (s.f[i.toNat]'i.isLt).read

/-- A write of `f[i]` (R28). -/
def State.writeF (s : State) (i : Reg) (v : Word) : State :=
  { s with f := s.f.set i.toNat (cellOf v) i.isLt }

/-- `fd64(i) = f[i+1] ++ f[i]` (R28) -/
def State.readFD (s : State) (i : Reg) : DWord := s.readF (i + 1) ++ s.readF i

/-- A write of the pair `f[i+1] ++ f[i]` (R128 b). -/
def State.writeFD (s : State) (i : Reg) (v : DWord) : State :=
  (s.writeF i (v.extractLsb' 0 32)).writeF (i + 1) (v.extractLsb' 32 32)

/-- `Fpresent[i]` (R29) -/
def State.presentF (s : State) (i : Reg) : Bool := s.fPresent[i.toNat]'i.isLt

/-- `Fpresent[i] <- b` -/
def State.setPresentF (s : State) (i : Reg) (b : Bool) : State :=
  { s with fPresent := s.fPresent.set i.toNat b i.isLt }

/-- `C0[i]` as stored (R32) -/
def State.readC0 (s : State) (i : Reg) : Word := s.c0[i.toNat]'i.isLt

/-- `C0[i] <- v`, all 32 bits (R32, R385) -/
def State.writeC0 (s : State) (i : Reg) (v : Word) : State :=
  { s with c0 := s.c0.set i.toNat v i.isLt }

/-- C0[1], Random (R32) -/
def randomReg : Reg := 1
/-- C0[8], BadVAddr (R32) -/
def badVAddrReg : Reg := 8
/-- C0[13], Cause (R32) -/
def causeReg : Reg := 13
/-- C0[14], EPC (R32) -/
def epcReg : Reg := 14

/-- One more free value taken (log 33). -/
def State.drawn (s : State) : State := { s with draws := s.draws + 1 }

/-- `C0read(i)` (R384): Random is a fresh unconstrained draw, every other register its stored value. -/
def State.mfc0Read (s : State) (i : Reg) : Word × State :=
  if i = randomReg then (Config.randomRead s.draws, s.drawn) else (s.readC0 i, s)

/-- Which of the pair HI, LO. -/
inductive HiLo where
  | hi
  | lo
  deriving DecidableEq, Repr

/-- HI or LO, through the fault wrapper (R39, R252). -/
def State.readHiLo (s : State) : HiLo → Word
  | .hi => s.hi.read
  | .lo => s.lo.read

/-- `HIpresent` or `LOpresent` (R26) -/
def State.presentHiLo (s : State) : HiLo → Bool
  | .hi => s.hiPresent
  | .lo => s.loPresent

/-- The WB write of MTHI, MTLO: the value, and the flag set (R144). -/
def State.writeHiLo (s : State) (h : HiLo) (v : Word) : State :=
  match h with
  | .hi => { s with hi := cellOf v, hiPresent := true }
  | .lo => { s with lo := cellOf v, loPresent := true }

/-- The EX clear of MTHI, MTLO (R254, R255). -/
def State.clearHiLo (s : State) (h : HiLo) : State :=
  match h with
  | .hi => { s with hiPresent := false }
  | .lo => { s with loPresent := false }

/-- The commit of the multiply/divide unit (R243): "HI <- mduHi; LO <- mduLo", both present, the countdown 0. -/
def State.commitMdu (s : State) : State :=
  { s with hi := cellOf s.mdu.hi, lo := cellOf s.mdu.lo, hiPresent := true, loPresent := true, mdu := { s.mdu with count := 0 } }

/-! ## The bypass network -/

/-- `recordForward(EX, i, v)` (R171): register 0 is a no-op. -/
def State.recordEX (s : State) (i : Reg) (v : Word) : State := if i = 0#5 then s else { s with bypEX := some (i, v) }

/-- `recordForward(MEM, i, v)` (R171). -/
def State.recordMEM (s : State) (i : Reg) (v : Word) : State := if i = 0#5 then s else { s with bypMEM := some (i, v) }

/-- The value a bypass entry holds for register i. -/
def bypassed (entry : Option (Reg × Word)) (i : Reg) : Option Word :=
  match entry with
  | some (j, v) => if j = i then some v else none
  | none => none

/-- `Rd(i)` (R173): 0 for register 0, else `bypEX`, else `bypMEM`, else the architectural file. -/
def State.rd (s : State) (i : Reg) : Word :=
  if i = 0#5 then 0 else (bypassed s.bypEX i).getD ((bypassed s.bypMEM i).getD (s.readX i))

/-! ## Memory -/

/-- What a byte that nothing has written reads as (log 5, DESIGN CHOICE: R67 leaves the initial contents to the platform). -/
def unlistedByte : Byte := 0

/-- The byte at an address. -/
def loadByte : List Host.Cell → Nat → Byte
  | [], _ => unlistedByte
  | (k, b) :: rest, a => if k = a then b else loadByte rest a

/-- The list without an address. -/
def dropByte : List Host.Cell → Nat → List Host.Cell
  | [], _ => []
  | (k, b) :: rest, a => if k = a then dropByte rest a else (k, b) :: dropByte rest a

/-- The list with one more entry, before the first greater address. -/
def insertByte : List Host.Cell → Nat → Byte → List Host.Cell
  | [], a, b => [(a, b)]
  | (k, c) :: rest, a, b => if a < k then (a, b) :: (k, c) :: rest else (k, c) :: insertByte rest a b

/-- The memory with one byte written; a byte equal to what an unlisted address reads as is not listed. -/
def storeByte (m : List Host.Cell) (a : Nat) (b : Byte) : List Host.Cell :=
  if b = unlistedByte then dropByte m a else insertByte (dropByte m a) a b

/-- The canonical form: addresses strictly rising from `low`, within 2^32, no byte as an unlisted address reads. -/
def wfFrom : Nat → List Host.Cell → Bool
  | _, [] => true
  | low, (k, b) :: rest => decide (low ≤ k) && decide (k < 4294967296) && (b != unlistedByte) && wfFrom (k + 1) rest

/-- The canonical form of a memory. -/
def Memory.wf (m : List Host.Cell) : Bool := wfFrom 0 m

/-- `M[a]` (R67) -/
def State.readByte (s : State) (a : Word) : Byte := loadByte s.mem a.toNat

/-- `MemRead(a, 2)` (R67) -/
def State.readHalf (s : State) (a : Word) : Half := bytesHalf s.params.byteOrder (s.readByte a) (s.readByte (a + 1))

/-- `MemRead(a, 4)` (R67) -/
def State.readWord (s : State) (a : Word) : Word :=
  bytesWord s.params.byteOrder (s.readByte a) (s.readByte (a + 1)) (s.readByte (a + 2)) (s.readByte (a + 3))

/-- Bytes written at an address and the addresses after it, modulo 2^32. -/
def storeBytes (m : List Host.Cell) (a : Word) : List Byte → List Host.Cell
  | [] => m
  | b :: rest => storeBytes (storeByte m a.toNat b) (a + 1) rest

/-- Bytes written to the memory of the state. -/
def State.writeBytes (s : State) (a : Word) (bytes : List Byte) : State := { s with mem := storeBytes s.mem a bytes }

/-- The seven operation kinds (R61). -/
inductive Kind where
  | ifetch
  | rdB
  | rdH
  | rdW
  | wrB
  | wrH
  | wrW
  deriving DecidableEq, Repr

/-- Whether a request writes. -/
def Kind.writes : Kind → Bool
  | .wrB | .wrH | .wrW => true
  | .ifetch | .rdB | .rdH | .rdW => false

/-- R70: "a half access needs `addr[0] = 0`; a word access and an instruction fetch need `addr[1:0] = 0`". -/
def misaligned (k : Kind) (a : Word) : Bool :=
  match k with
  | .rdB | .wrB => false
  | .rdH | .wrH => a.getLsbD 0
  | .ifetch | .rdW | .wrW => a.getLsbD 0 || a.getLsbD 1

/-- The code of a misaligned request (R70). -/
def alignmentCode (k : Kind) : Exc := if k.writes then .ades else .adel

/-- The code of a refused request (R431), by its reason and kind; "page not writable" refuses no read, and a forbidden address
refuses no byte access: "never AdEL" (R263, R264), "never AdES" (R268) (log 8). -/
def refusalCode (k : Kind) : Reason → Option Exc
  | .noTranslation => some (if k.writes then .tlbs else .tlbl)
  | .notWritable => if k.writes then some .mod else none
  | .forbidden =>
    match k with
    | .rdB | .wrB => none
    | .ifetch | .rdH | .rdW => some .adel
    | .wrH | .wrW => some .ades
  | .busError => some (if k = .ifetch then .ibe else .dbe)

/-- The access performed (R67): the datum of a read, and the memory after a write. -/
def State.perform (s : State) (k : Kind) (a wdata : Word) : Datum × State :=
  match k with
  | .ifetch => (.word (s.readWord a), s)
  | .rdB => (.byte (s.readByte a), s)
  | .rdH => (.half (s.readHalf a), s)
  | .rdW => (.word (s.readWord a), s)
  | .wrB => (.none, s.writeBytes a [wdata.extractLsb' 0 8])
  | .wrH => (.none, s.writeBytes a (halfBytes s.params.byteOrder (wdata.extractLsb' 0 16)))
  | .wrW => (.none, s.writeBytes a (wordBytes s.params.byteOrder wdata))

/-- The answer to a request (R61). The datum of a miss is latched for its completion (log 7). -/
structure Answer where
  exc : Option Exc
  hit : Bool
  tag : Nat
  datum : Datum
  deriving DecidableEq, Repr

/-- A request that hits (R64 b). -/
def State.answerHit (s : State) (k : Kind) (a wdata : Word) (tag : Nat) : Answer × State :=
  ({ exc := none, hit := true, tag := tag, datum := (s.perform k a wdata).1 }, (s.perform k a wdata).2)

/-- A request that misses (R64 c): performed now (log 7), completed by the `polls`-th later poll, the first at the earliest. -/
def State.answerMiss (s : State) (k : Kind) (a wdata : Word) (tag polls : Nat) : Answer × State :=
  ({ exc := none, hit := false, tag := tag, datum := (s.perform k a wdata).1 },
   { (s.perform k a wdata).2 with
     pending := s.pending ++ [{ tag := tag, polls := max polls 1, datum := (s.perform k a wdata).1 }] })

/-- A request that is refused (R64 a). -/
def answerRefused (s : State) (tag : Nat) (e : Exc) : Answer × State :=
  ({ exc := some e, hit := false, tag := tag, datum := .none }, s)

/-- The bus tag taken (R63). -/
def State.tagTaken (s : State) : State := { s with nextTag := s.nextTag + 1 }

/-- `MemReq(kind, addr, tag, wdata)` (R61, R64): the tag is taken, alignment is tested first (R435), then the
collaborator's script answers; with no entry left every request hits (log 6). -/
def State.memReq (s : State) (k : Kind) (a wdata : Word) : Answer × State :=
  if misaligned k a then answerRefused s.tagTaken s.nextTag (alignmentCode k)
  else
    match s.script with
    | [] => s.tagTaken.answerHit k a wdata s.nextTag
    | .hit :: rest => { s.tagTaken with script := rest }.answerHit k a wdata s.nextTag
    | .miss polls :: rest => { s.tagTaken with script := rest }.answerMiss k a wdata s.nextTag polls
    | .refuse why :: rest =>
      match refusalCode k why with
      | some e => answerRefused { s.tagTaken with script := rest } s.nextTag e
      | none => { s.tagTaken with script := rest }.answerHit k a wdata s.nextTag

/-- The first request that is due, and the others (log 30). -/
def takeDue : List Pending → Option Pending × List Pending
  | [] => (none, [])
  | p :: rest => if p.polls = 0 then (some p, rest) else ((takeDue rest).1, p :: (takeDue rest).2)

/-- One poll nearer completion. -/
def Pending.nearer (p : Pending) : Pending := { p with polls := p.polls - 1 }

/-- `MemPoll()` (R62): at most one completion, with its datum. -/
def State.memPoll (s : State) : Option (Nat × Datum) × State :=
  ((takeDue (s.pending.map Pending.nearer)).1.map (fun p => (p.tag, p.datum)),
   { s with pending := (takeDue (s.pending.map Pending.nearer)).2 })

/-! ## Records, the pool, exceptions -/

/-- A record freshly allocated (R139): `pc`, tag IF, no exception, not in a delay slot, `Count` 0; the fields the rule leaves
unspecified are 0 (log 17: every rule writes them before it reads them). -/
def freshRec (pc : Word) : Rec :=
  { inst := .reserved, pc := pc, stage := .ifetch, exception := none, inDelaySlot := false, op1 := 0, op2 := 0, op3 := 0
    fop1 := 0, fop2 := 0, result := 0, addr := 0, fresult := 0, count := 0, busTag := 0, fetchDone := false, ce := 0 }

/-- How many records an optional slot holds. -/
def slotCount (slot : Option Rec) : Nat := if slot.isSome then 1 else 0

/-- The records in the seven slots (R44, R45). -/
def Pipe.slotRecords (p : Pipe) : Nat :=
  slotCount p.ifSlot + slotCount p.idSlot + slotCount p.exSlot + slotCount p.memSlot + slotCount p.wbSlot
    + slotCount p.ex1Slot + slotCount p.ex2Slot

/-- The records in the slots and the lists: those that are not in the pool (R42, R43). -/
def Pipe.records (p : Pipe) : Nat := p.slotRecords + p.ex3List.length + p.fwbList.length

/-- A floating operand: one register, or an even/odd pair (R301). -/
inductive FOpnd where
  | single (r : Reg)
  | double (r : Reg)
  deriving DecidableEq, Repr

/-- The registers of a floating operand (R303). -/
def FOpnd.regs : FOpnd → List Reg
  | .single r => [r]
  | .double r => [r, r + 1]

/-- A floating operand's value (R309): `zext_64(f[i])` or `fd64(i)`. -/
def State.readFOpnd (s : State) : FOpnd → DWord
  | .single r => (s.readF r).zeroExtend 64
  | .double r => s.readFD r

/-- A floating destination written (R128 a, b). -/
def State.writeFOpnd (s : State) (o : FOpnd) (v : DWord) : State :=
  match o with
  | .single r => s.writeF r (v.extractLsb' 0 32)
  | .double r => s.writeFD r v

/-- The presence flags of a floating destination. -/
def State.setPresentFOpnd (s : State) (o : FOpnd) (b : Bool) : State :=
  match o with
  | .single r => s.setPresentF r b
  | .double r => (s.setPresentF r b).setPresentF (r + 1) b

/-- The presence flags an instruction clears in ID (R186): those of its floating destination, and of `FpCond`. -/
structure Claim where
  fdst : Option FOpnd
  cond : Bool
  deriving DecidableEq, Repr

/-- The presence flags of a claim set or cleared (R186, R441 a). -/
def State.setClaim (s : State) (c : Claim) (b : Bool) : State :=
  let s := match c.fdst with
    | some o => s.setPresentFOpnd o b
    | none => s
  if c.cond then { s with fpCondPresent := b } else s

/-- The claims of flushed records given back (R441 a). -/
def State.restoreClaims (s : State) : List Claim → State
  | [] => s
  | c :: rest => (s.setClaim c true).restoreClaims rest

/-- Exception commit (R440): Cause, EPC, for an address exception BadVAddr, and `excFound`; nothing else. -/
def State.commitException (s : State) (r : Rec) (e : Exc) : State :=
  let s := s.writeC0 causeReg (causeWord s.params.codes r.inDelaySlot r.ce e)
  let s := s.writeC0 epcReg (epcWord r.inDelaySlot r.pc)
  let s := if savesAddress e then s.writeC0 badVAddrReg r.addr else s
  { s with excFound := true }

/-- The flush (R441): the claims of the flushed records restored, the seven slots emptied and their records freed, `BDflag`,
the stall flag and the bypass cleared; `fpc` and `fnpc` unspecified until the next `run` (log 3). -/
def State.flush (s : State) (claims : List Claim) : State :=
  let s := s.restoreClaims claims
  { s with
    pipe := { emptyPipe with ex3List := s.pipe.ex3List, fwbList := s.pipe.fwbList }
    poolFree := s.poolFree + s.pipe.slotRecords
    bdFlag := false
    idStall := false
    bypEX := none
    bypMEM := none
    fpc := Config.freePc s.draws
    fnpc := Config.freePc (s.draws + 1)
    draws := s.draws + 2 }

/-- Taking an exception (R129 a): commit, then flush. -/
def State.takeException (s : State) (r : Rec) (e : Exc) (claims : List Claim) : State :=
  (s.commitException r e).flush claims

/-- `on_exception` (R444): whether the harness continues after this Cause. -/
def policyContinues (p : Policy) (cause : Word) : Bool :=
  match p with
  | .continueOn causes => causes.contains cause
  | .stopOn causes => !causes.contains cause

end Sys2Proof.Machine
end

