-- ==== Sys2Proof/Machine/Inject.lean ====
section
/-! DEFINITION. The fault injector: the check at one location (spec/49_fault_injection.md R408 to R412) and its
configuration (R402 to R407). -/

namespace Sys2Proof.Machine

/-! ## The check -/

/-- One location of the injector. -/
def Injector.loc (j : Injector) : Loc → LocFaults
  | .rf => j.rf
  | .id => j.id
  | .mdu => j.mdu
  | .memPre => j.memPre
  | .memPost => j.memPost
  | .wb => j.wb
  | .alu => j.alu

/-- One location of the injector replaced. -/
def Injector.setLoc (j : Injector) (l : Loc) (v : LocFaults) : Injector :=
  match l with
  | .rf => { j with rf := v }
  | .id => { j with id := v }
  | .mdu => { j with mdu := v }
  | .memPre => { j with memPre := v }
  | .memPost => { j with memPost := v }
  | .wb => { j with wb := v }
  | .alu => { j with alu := v }

/-- The next draw of the random source (R400): the draws given first, then those of the seed (log 23). -/
def Injector.draw (j : Injector) : Nat × Injector :=
  match j.draws with
  | d :: rest => (d, { j with draws := rest })
  | [] => (Config.injectorDraw j.seed j.drawn, { j with drawn := j.drawn + 1 })

/-- The mask of the head entry of a schedule if it is due, and the schedule without it (R408 steps 2 and 4). -/
def popDue (schedule : List FaultEntry) (now : Nat) : Option Word × List FaultEntry :=
  match schedule with
  | [] => (none, [])
  | e :: rest => if e.due ≤ now then (some e.mask, rest) else (none, e :: rest)

/-- The masks of the entries consumed, combined with bitwise OR (R409); none when neither was due. -/
def combineMasks : Option Word → Option Word → Option Word
  | none, none => none
  | some m, none => some m
  | none, some n => some n
  | some m, some n => some (m ||| n)

/-- Step 5 of R408: mask 0 means one random bit. -/
def Injector.chooseMask (j : Injector) (m : Word) : Word × Injector :=
  if m = 0 then ((1 : Word) <<< (j.draw.1 % 32), j.draw.2) else (m, j)

/-- Step 6 of R408: the only target, or one drawn among several. -/
def Injector.chooseTarget (j : Injector) (targets : Nat) : Nat × Injector :=
  if targets ≤ 1 then (0, j) else (j.draw.1 % targets, j.draw.2)

/-- Steps 1, 2 and 4 of R408: the event counted, the due heads removed. -/
def LocFaults.count1 (lf : LocFaults) (cycle : Nat) : LocFaults :=
  { byCycle := (popDue lf.byCycle cycle).2, byEvent := (popDue lf.byEvent (lf.count + 1)).2, count := lf.count + 1 }

/-- The mask due at this check. -/
def LocFaults.dueMask (lf : LocFaults) (cycle : Nat) : Option Word :=
  combineMasks (popDue lf.byCycle cycle).1 (popDue lf.byEvent (lf.count + 1)).1

/-- `checkAndInject` (R408): which of the targets is hit and by which mask, and the injector afterwards. -/
def Injector.check (j : Injector) (l : Loc) (cycle targets : Nat) : Option (Nat × Word) × Injector :=
  let counted := j.setLoc l ((j.loc l).count1 cycle)
  match (j.loc l).dueMask cycle with
  | none => (none, counted)
  | some m =>
    let masked := counted.chooseMask m
    let chosen := masked.2.chooseTarget targets
    (some (chosen.1, masked.1), chosen.2)

/-- A check in the state (R408): only the injector changes. -/
def State.checkFault (s : State) (l : Loc) (targets : Nat) : Option (Nat × Word) × State :=
  ((s.inj.check l s.cycle targets).1, { s with inj := (s.inj.check l s.cycle targets).2 })

/-- A value that is target number `n`, after a check. -/
def hitTarget (hit : Option (Nat × Word)) (n : Nat) (v : Word) : Word :=
  match hit with
  | some (k, m) => if k = n then v ^^^ m else v
  | none => v

/-- The distinct registers other than 0 among the integer sources (R410, R411; log 25). -/
def rfTargets (op1 op2 : Option Reg) : List Reg :=
  match op1, op2 with
  | none, none => []
  | some a, none => if a = 0#5 then [] else [a]
  | none, some b => if b = 0#5 then [] else [b]
  | some a, some b =>
    if a = 0#5 then (if b = 0#5 then [] else [b]) else if b = 0#5 ∨ b = a then [a] else [a, b]

/-- "it XORs m into the fault mask of the chosen cell" (R411) -/
def State.maskX (s : State) (i : Reg) (m : Word) : State :=
  let c := s.x[i.toNat]'i.isLt
  { s with x := s.x.set i.toNat { c with mask := c.mask ^^^ m } i.isLt }

/-- The register-file check (R410 row RF): made when a source other than register 0 is read. -/
def State.checkRF (s : State) (op1 op2 : Option Reg) : State :=
  match rfTargets op1 op2 with
  | [] => s
  | a :: rest =>
    match (s.checkFault .rf (a :: rest).length).1 with
    | none => (s.checkFault .rf (a :: rest).length).2
    | some (k, m) => (s.checkFault .rf (a :: rest).length).2.maskX ((a :: rest).getD k a) m

/-- `stats()` (R413): "returns the seven counters; no state change". -/
def Injector.stats (j : Injector) : List (Loc × Nat) :=
  [.rf, .id, .mdu, .memPre, .memPost, .wb, .alu].map fun l => (l, (j.loc l).count)

/-! ## The configuration -/

/-- A descriptor put in its place: soonest due first, equal times in file order (R405). -/
def insertFault (e : FaultEntry) : List FaultEntry → List FaultEntry
  | [] => [e]
  | h :: rest => if e.due < h.due then e :: h :: rest else h :: insertFault e rest

/-- The injector with a by-cycle descriptor added to a location. -/
def Injector.addByCycle (j : Injector) (l : Loc) (e : FaultEntry) : Injector :=
  j.setLoc l { j.loc l with byCycle := insertFault e (j.loc l).byCycle }

/-- The injector with a by-event descriptor added to a location. -/
def Injector.addByEvent (j : Injector) (l : Loc) (e : FaultEntry) : Injector :=
  j.setLoc l { j.loc l with byEvent := insertFault e (j.loc l).byEvent }

/-- The seven locations in the bit order of R403. -/
def allLocs : List Loc := [.rf, .id, .mdu, .memPre, .memPost, .wb, .alu]

/-- `configureLegacy` (R403): for every requested location one descriptor with mask 0 at a time drawn in [0, period). -/
def Injector.fillLegacy (j : Injector) (locations : BitVec 7) (period : Nat) : Nat → List Loc → Injector
  | _, [] => j
  | n, l :: rest =>
    if locations.getLsbD n then
      (j.draw.2.addByCycle l { due := j.draw.1 % period, mask := 0 }).fillLegacy locations period (n + 1) rest
    else j.fillLegacy locations period (n + 1) rest

/-- A blank of the schedule file (log 24): space, tab, carriage return. -/
def isBlank (c : Char) : Bool := c = ' ' || c = '\t' || c = '\r'

/-- The lines of a text. -/
def splitLines : List Char → List (List Char)
  | [] => [[]]
  | c :: rest =>
    if c = '\n' then [] :: splitLines rest
    else
      match splitLines rest with
      | line :: lines => (c :: line) :: lines
      | [] => [[c]]

/-- The tokens of a line; the second argument is the token being read. -/
def splitTokens : List Char → List Char → List (List Char)
  | [], token => if token.isEmpty then [] else [token]
  | c :: rest, token =>
    if isBlank c then (if token.isEmpty then splitTokens rest [] else token :: splitTokens rest [])
    else splitTokens rest (token ++ [c])

/-- The location tokens (R401, R404): "case-sensitive exact match". -/
def parseLoc (token : List Char) : Option Loc :=
  if token = ['R', 'F'] then some .rf
  else if token = ['I', 'D'] then some .id
  else if token = ['M', 'D', 'U'] then some .mdu
  else if token = ['M', 'E', 'M', '_', 'P', 'R', 'E'] then some .memPre
  else if token = ['M', 'E', 'M', '_', 'P', 'O', 'S', 'T'] then some .memPost
  else if token = ['W', 'B'] then some .wb
  else if token = ['A', 'L', 'U'] then some .alu
  else none

/-- The lower case of a Latin letter. -/
def lowerChar (c : Char) : Char := if 'A' ≤ c ∧ c ≤ 'Z' then Char.ofNat (c.toNat + 32) else c

/-- The trigger tokens (R404): "Cycle, Event (case-insensitive)"; true for Cycle. -/
def parseTrigger (token : List Char) : Option Bool :=
  let lower := token.map lowerChar
  if lower = ['c', 'y', 'c', 'l', 'e'] then some true
  else if lower = ['e', 'v', 'e', 'n', 't'] then some false
  else none

/-- The value of a digit in a base. -/
def digitValue (base : Nat) (c : Char) : Option Nat :=
  let c := lowerChar c
  let v := if '0' ≤ c ∧ c ≤ '9' then some (c.toNat - 48) else if 'a' ≤ c ∧ c ≤ 'f' then some (c.toNat - 87) else none
  match v with
  | some d => if d < base then some d else none
  | none => none

/-- Digits read from the left. -/
def parseDigits (base : Nat) : List Char → Nat → Option Nat
  | [], n => some n
  | c :: rest, n =>
    match digitValue base c with
    | some d => parseDigits base rest (n * base + d)
    | none => none

/-- A number (R404): "non-negative integer, decimal or `0x`-prefixed hexadecimal" (log 24). -/
def parseNumber (token : List Char) : Option Nat :=
  match token with
  | [] => none
  | '0' :: 'x' :: [] => none
  | '0' :: 'x' :: digits => parseDigits 16 digits 0
  | digits => parseDigits 10 digits 0

/-- What a line of the file says. -/
inductive FaultLine where
  | skip
  | entry (l : Loc) (byCycle : Bool) (e : FaultEntry)
  | bad
  deriving DecidableEq, Repr

/-- One line (R404, R407): a comment or an empty line is skipped, and a line of blanks alone counts as empty (log 24, DEDUCED);
an unknown location, an unparsable trigger or number, a zero mask and a wrong number of tokens are errors. A mask above 32 bits
is truncated (R401) after the test for zero (log 24). -/
def parseLine (line : List Char) : FaultLine :=
  match splitTokens line [] with
  | [] => .skip
  | first :: rest =>
    if first.contains '#' then .skip
    else
      match rest with
      | [trigger, due, mask] =>
        match parseLoc first, parseTrigger trigger, parseNumber due, parseNumber mask with
        | some l, some byCycle, some w, some m =>
          if m = 0 then .bad else .entry l byCycle { due := w, mask := BitVec.ofNat 32 m }
        | _, _, _, _ => .bad
      | _ => .bad

/-- The lines of a file, in order; none on the first error (R407: "inject nothing"). -/
def Injector.fillLines (j : Injector) : List (List Char) → Option Injector
  | [] => some j
  | line :: rest =>
    match parseLine line with
    | .skip => j.fillLines rest
    | .entry l true e => (j.addByCycle l e).fillLines rest
    | .entry l false e => (j.addByEvent l e).fillLines rest
    | .bad => none

/-- The injector emptied and seeded (R402). -/
def emptiedInjector (draws : List Nat) (seed : Nat) : Injector := { quietInjector with draws := draws, seed := seed }

/-- The schedules a configuration asks for; none is a fatal configuration (R407). A configuration that gives no seed (none, a
file, an unseeded legacy one) seeds the source with a fresh free one (R402, R403; log 23, DESIGN CHOICE). -/
def configuredInjector (config : InjConfig) (draws : List Nat) (fresh : Nat) : Option Injector :=
  match config with
  | .none => some (emptiedInjector draws (Config.freshSeed fresh))
  | .legacy locations period seed =>
    some ((emptiedInjector draws (seed.getD (Config.freshSeed fresh))).fillLegacy locations period 0 allLocs)
  | .file none => none
  | .file (some text) => (emptiedInjector draws (Config.freshSeed fresh)).fillLines (splitLines text)

/-- `initializeFaultInjection(config)` (R402): all schedules emptied and refilled, the counters 0; a fatal configuration leaves
them empty and its outcome is `fatal` (R407). It does not end a fatal state: only `reset()` does (R471, log 21). -/
def State.initInjection (s : State) (config : InjConfig) (draws : List Nat) : State :=
  match configuredInjector config draws s.draws with
  | some j => { s with inj := j, draws := s.draws + 1 }
  | none => { s with inj := emptiedInjector draws (Config.freshSeed s.draws), draws := s.draws + 1, mode := .fatal, outcome := some .fatal }

end Sys2Proof.Machine
end

