-- ==== Sys2Proof/Machine/Operands.lean ====
section
/-! DEFINITION. The operand forms: what an instruction reads, computes and writes, stage by stage, as a description that the
instruction's own rule fills in (one per instruction in the family files), and the sets the hazard rules derive from it. -/

namespace Sys2Proof.Machine

/-- The control work of ID (spec/45_control.md R280). -/
inductive Ctrl where
  /-- not a branch or jump -/
  | seq
  /-- a conditional branch: its condition on `op1`, `op2`, its offset -/
  | branch (taken : Word → Word → Bool) (imm : Imm)
  /-- BC1T, BC1F: the value of `FpCond` on which it is taken -/
  | fpBranch (sense : Bool) (imm : Imm)
  /-- J, JAL -/
  | jump (target : BitVec 26)
  /-- JR, JALR -/
  | jumpReg

/-- The work of EX (R135). -/
inductive ExAct where
  /-- nothing, or a value already known in ID -/
  | idle
  /-- an instruction of spec/42_int_alu.md: none is overflow -/
  | alu (f : Word → Word → Option Word)
  /-- MFHI, MFLO: `r.result <- r.op3` -/
  | moveOp3
  /-- MFC1: `r.result <- r.fop1[31:0]` -/
  | moveFop1
  /-- MTC0: `r.result <- r.op2` -/
  | moveOp2
  /-- MTHI, MTLO: `r.result <- r.op1`, the presence flag cleared -/
  | mtHiLo (h : HiLo)
  /-- loads: the effective address (R260) -/
  | address (imm : Imm)
  /-- SB, SH, SW: the address, and the datum `r.op2` -/
  | addressOp2 (imm : Imm)
  /-- SWC1: the address, and the datum `r.fop1[31:0]` -/
  | addressFop1 (imm : Imm)
  /-- an MDU issue (R242): HI and LO, none for a division by zero -/
  | mdu (isDiv : Bool) (f : Word → Word → Option (Word × Word))

/-- The work of MEM (R133). -/
inductive MemAct where
  | pass
  /-- LB, LBU, LH, LHU, LW: the request kind, and whether the datum is sign-extended -/
  | load (kind : Kind) (signed : Bool)
  /-- LWC1 -/
  | loadF
  /-- SB, SH, SW, SWC1 -/
  | store (kind : Kind)
  /-- MFC0 -/
  | mfc0 (rd : Reg)
  /-- MTC1 -/
  | mtc1

/-- The commit of WB (R144). -/
inductive WbAct where
  | none
  | gpr (d : Reg)
  | c0 (d : Reg)
  | hiLo (h : HiLo)

/-- What an instruction does in each stage. The defaults describe an instruction that does nothing. -/
structure Desc where
  /-- raised in ID whatever the operands (R432) -/
  idExc : Option Exc := none
  ce : BitVec 2 := 0
  /-- the register read into `op1`, and into `op2`: together `isrc` (R178) -/
  op1 : Option Reg := none
  op2 : Option Reg := none
  op3 : Option HiLo := none
  /-- the floating registers read: together `fsrc` (R303) -/
  fop1 : Option FOpnd := none
  fop2 : Option FOpnd := none
  /-- the floating registers written: `fdst` (R303) -/
  fdst : Option FOpnd := none
  /-- a compare, whose destination is `FpCond` -/
  cond : Bool := false
  ctrl : Ctrl := .seq
  /-- a link instruction: `r.result <- r.pc + 8` in ID -/
  link : Bool := false
  /-- the floating arithmetic classes (R302) and the function of EX1 (R313), by the record `FPNumerics` -/
  fp : Option (FpClass × (FPNumerics → DWord → DWord → FpVal)) := none
  ex : ExAct := .idle
  mem : MemAct := .pass
  wb : WbAct := .none

/-- An instruction that only raises an exception in ID (R432). -/
def raises (e : Exc) : Desc := { idExc := some e }

/-- Three-register form (R200). -/
def threeReg (f : Word → Word → Option Word) (rd rs rt : Reg) : Desc :=
  { op1 := some rs, op2 := some rt, ex := .alu f, wb := .gpr rd }

/-- Shift by a constant (R213): reads `rt` only. -/
def shiftConst (f : Word → Word) (rd rt : Reg) : Desc :=
  { op2 := some rt, ex := .alu (fun _ b => some (f b)), wb := .gpr rd }

/-- Immediate form (R201). -/
def immediate (f : Word → Option Word) (rt rs : Reg) : Desc :=
  { op1 := some rs, ex := .alu (fun a _ => f a), wb := .gpr rt }

/-- MULT, MULTU, DIV, DIVU (R242). -/
def mduForm (isDiv : Bool) (f : Word → Word → Option (Word × Word)) (rs rt : Reg) : Desc :=
  { op1 := some rs, op2 := some rt, ex := .mdu isDiv f }

/-- Loads (R260, R261). -/
def loadForm (kind : Kind) (signed : Bool) (rt : Reg) (imm : Imm) (rs : Reg) : Desc :=
  { op1 := some rs, ex := .address imm, mem := .load kind signed, wb := .gpr rt }

/-- Stores (R260, R262). -/
def storeForm (kind : Kind) (rt : Reg) (imm : Imm) (rs : Reg) : Desc :=
  { op1 := some rs, op2 := some rt, ex := .addressOp2 imm, mem := .store kind }

/-- Branches that compare one register with zero. -/
def zeroBranch (taken : Word → Bool) (rs : Reg) (imm : Imm) : Desc :=
  { op1 := some rs, ctrl := .branch (fun a _ => taken a) imm }

/-- Floating arithmetic with two operands (R303, R309). -/
def fpBinary (cls : FpClass) (f : FPNumerics → DWord → DWord → FpVal) (fd fs ft : FOpnd) : Desc :=
  { fop1 := some fs, fop2 := some ft, fdst := some fd, fp := some (cls, f) }

/-- Floating operations with one operand. -/
def fpUnary (cls : FpClass) (f : FPNumerics → DWord → DWord → FpVal) (fd fs : FOpnd) : Desc :=
  { fop1 := some fs, fdst := some fd, fp := some (cls, f) }

/-- Floating compares (R340, R341). -/
def fpCompare (f : FPNumerics → DWord → DWord → FpVal) (fs ft : FOpnd) : Desc :=
  { fop1 := some fs, fop2 := some ft, cond := true, fp := some (.addSub, f) }

/-! ## What the rules derive from a description -/

/-- Whether a floating operand names an odd register as a double (R304). -/
def FOpnd.odd : FOpnd → Bool
  | .single _ => false
  | .double r => r.getLsbD 0

/-- R304: some double-precision field names an odd register. -/
def Desc.oddDouble (d : Desc) : Bool :=
  (d.fop1.map FOpnd.odd).getD false || (d.fop2.map FOpnd.odd).getD false || (d.fdst.map FOpnd.odd).getD false

/-- The exception raised in ID, in the order of R432. -/
def Desc.idException (d : Desc) : Option Exc :=
  match d.idExc with
  | some e => some e
  | none => if d.oddDouble then some .ri else none

/-- Whether an instruction is a branch or jump (R282). -/
def Desc.isBranch (d : Desc) : Bool :=
  match d.ctrl with
  | .seq => false
  | .branch _ _ | .fpBranch _ _ | .jump _ | .jumpReg => true

/-- The presence flags ID clears (R186). -/
def Desc.claim (d : Desc) : Claim := { fdst := d.fdst, cond := d.cond }

/-- Whether a register is an integer source (R178): "Register 0 is never a hazard source." -/
def Desc.readsX (d : Desc) (i : Reg) : Bool := i != 0#5 && (d.op1 == some i || d.op2 == some i)

/-- The floating registers read or written (R184). -/
def Desc.fregs (d : Desc) : List Reg :=
  (d.fop1.map FOpnd.regs).getD [] ++ ((d.fop2.map FOpnd.regs).getD [] ++ (d.fdst.map FOpnd.regs).getD [])

/-- The integer destination, other than 0, of a late producer (R145, R180): its value is known only in MEM. -/
def Desc.lateDest (d : Desc) : Option Reg :=
  match d.mem, d.wb with
  | .load _ _, .gpr rt => if rt = 0#5 then none else some rt
  | .mfc0 _, .gpr rt => if rt = 0#5 then none else some rt
  | _, _ => none

/-- Whether MEM routes the record to EX3 (R143). -/
def Desc.toEX3 (d : Desc) : Bool :=
  match d.mem with
  | .loadF | .mtc1 => true
  | .pass | .load _ _ | .store _ | .mfc0 _ => false

end Sys2Proof.Machine
end

