-- ==== Sys2Proof/Machine/Stages.lean ====
section
/-! DEFINITION. What each stage does for one instruction (spec/40_pipeline_engine.md R128 to R144), written once: the cycle
engine calls these functions in the fifteen steps of a cycle, and `transit` calls them one after the other for one
instruction alone, the sequential reading of spec/41_bypass_hazards.md R191 (log 1). -/

namespace Sys2Proof.Machine

/-! ## ID -/

/-- `target = (r.pc + 4 + (sext_32(imm16) << 2)) mod 2^32` (R283) -/
def branchTarget (pc : Word) (imm : Imm) : Word := pc + 4 + (imm.signExtend 32 <<< 2)

/-- `target = (r.pc + 4)[31:28] ++ target26 ++ 00` (R284) -/
def jumpTarget (pc : Word) (target : BitVec 26) : Word := (pc + 4).extractLsb' 28 4 ++ target ++ 0#2

/-- Where a branch or jump goes, none when it is not taken (R280). -/
def Ctrl.target (c : Ctrl) (r : Rec) (fpCond : Bool) : Option Word :=
  match c with
  | .seq => none
  | .branch taken imm => if taken r.op1 r.op2 then some (branchTarget r.pc imm) else none
  | .fpBranch sense imm => if fpCond = sense then some (branchTarget r.pc imm) else none
  | .jump target => some (jumpTarget r.pc target)
  | .jumpReg => some r.op1

/-- The operand reads (R136 d): integer registers through `Rd` (R173). -/
def Desc.readOps (d : Desc) (r : Rec) (s : State) : Rec :=
  { r with
    op1 := (d.op1.map s.rd).getD r.op1
    op2 := (d.op2.map s.rd).getD r.op2
    op3 := (d.op3.map s.readHiLo).getD r.op3
    fop1 := (d.fop1.map s.readFOpnd).getD r.fop1
    fop2 := (d.fop2.map s.readFOpnd).getD r.fop2 }

/-- How many integer operand slots an instruction reads: the targets of the ID check (R410). -/
def Desc.intReads (d : Desc) : Nat := (if d.op1.isSome then 1 else 0) + (if d.op2.isSome then 1 else 0)

/-- The ID check (R410), made when an integer operand is read. -/
def Desc.checkID (d : Desc) (s : State) : Option (Nat × Word) × State :=
  if d.intReads = 0 then (none, s) else s.checkFault .id d.intReads

/-- A fault at ID applied to the operand slots just read, `op1` before `op2`. -/
def Desc.injectOps (d : Desc) (hit : Option (Nat × Word)) (r : Rec) : Rec :=
  match d.op1, d.op2 with
  | some _, some _ => { r with op1 := hitTarget hit 0 r.op1, op2 := hitTarget hit 1 r.op2 }
  | some _, none => { r with op1 := hitTarget hit 0 r.op1 }
  | none, some _ => { r with op2 := hitTarget hit 0 r.op2 }
  | none, none => r

/-- The link value of ID (R136 d): `r.result <- r.pc + 8`. -/
def Desc.linkRec (d : Desc) (r : Rec) : Rec := if d.link then { r with result := r.pc + 8 } else r

/-- What ID writes when the instruction advances (R136 d): `fnpc` if a branch is taken, `BDflag`, the claims cleared. -/
def Desc.advance (d : Desc) (r : Rec) (s : State) : State :=
  { (s.setClaim d.claim false) with
    fnpc := (d.ctrl.target r s.fpCond).getD s.fnpc
    bdFlag := d.isBranch }

/-- ID of an instruction that advances without an exception (R136 d). -/
def Desc.idStage (d : Desc) (r : Rec) (s : State) : Rec × State :=
  let s1 := s.checkRF d.op1 d.op2
  let c := d.checkID s1
  let r1 := d.linkRec (d.injectOps c.1 (d.readOps r s1))
  (r1, d.advance r1 c.2)

/-! ## EX1 and FWB -/

/-- The record `FPNumerics` of the machine (R306). -/
def State.numerics (s : State) : FPNumerics := numericsOf s.params.numerics

/-- The result of EX1 (R313): the whole result is computed here. -/
def fpResult (f : FPNumerics → DWord → DWord → FpVal) (r : Rec) (s : State) : Rec × State :=
  ({ r with fresult := (f s.numerics r.fop1 r.fop2).pattern s.draws },
   if (f s.numerics r.fop1 r.fop2).isFree then s.drawn else s)

/-- The commit of FWB (R128): a floating destination and its flags, or `FpCond` and its flag. -/
def Desc.fwbCommit (d : Desc) (r : Rec) (s : State) : State :=
  let s := match d.fdst with
    | some o => (s.writeFOpnd o r.fresult).setPresentFOpnd o true
    | none => s
  if d.cond then { s with fpCond := r.fresult.getLsbD 0, fpCondPresent := true } else s

/-! ## EX -/

/-- The MDU issue (R242): HI and LO computed whole, none for a division by zero (R247: an unconstrained pair). -/
def issueMdu (isDiv : Bool) (v : Option (Word × Word)) (s : State) : State :=
  let hl := v.getD (Config.divZeroHi s.draws, Config.divZeroLo s.draws)
  let c := (if v.isNone then s.drawn else s).checkFault .mdu 2
  { c.2 with
    mdu := { hi := hitTarget c.1 0 hl.1, lo := hitTarget c.1 1 hl.2
             count := if isDiv then s.params.divCost.val else s.params.multCost.val }
    hiPresent := false
    loPresent := false }

/-- The result of an ALU instruction: none is overflow (R202), a value passes the ALU check (R410). -/
def aluResult (v : Option Word) (r : Rec) (s : State) : Rec × State :=
  match v with
  | none => ({ r with exception := some .ov, result := Config.overflowResult s.draws }, s.drawn)
  | some w => ({ r with result := hitTarget (s.checkFault .alu 1).1 0 w }, (s.checkFault .alu 1).2)

/-- EX of a record without an exception (R135 b); `squash` suppresses the MDU issue and the MTHI, MTLO clear (R244). -/
def Desc.exStage (d : Desc) (squash : Bool) (r : Rec) (s : State) : Rec × State :=
  match d.ex with
  | .idle => (r, s)
  | .alu f => aluResult (f r.op1 r.op2) r s
  | .moveOp3 => ({ r with result := r.op3 }, s)
  | .moveFop1 => ({ r with result := r.fop1.extractLsb' 0 32 }, s)
  | .moveOp2 => ({ r with result := r.op2 }, s)
  | .mtHiLo h => ({ r with result := r.op1 }, if squash then s else s.clearHiLo h)
  | .address imm => ({ r with addr := r.op1 + imm.signExtend 32 }, s)
  | .addressOp2 imm => ({ r with addr := r.op1 + imm.signExtend 32, result := r.op2 }, s)
  | .addressFop1 imm => ({ r with addr := r.op1 + imm.signExtend 32, result := r.fop1.extractLsb' 0 32 }, s)
  | .mdu isDiv f => (r, if squash then s else issueMdu isDiv (f r.op1 r.op2) s)

/-! ## MEM -/

/-- The request kind of a load or store, none for any other instruction (R260). -/
def Desc.request (d : Desc) : Option Kind :=
  match d.mem with
  | .load k _ => some k
  | .loadF => some .rdW
  | .store k => some k
  | .pass | .mfc0 _ | .mtc1 => none

/-- Whether MEM stores. -/
def Desc.stores (d : Desc) : Bool :=
  match d.mem with
  | .store _ => true
  | .pass | .load _ _ | .loadF | .mfc0 _ | .mtc1 => false

/-- The MEM_PRE check (R410): targets `r.addr`, and for a store `r.result`. -/
def Desc.memPre (d : Desc) (r : Rec) (s : State) : Rec × State :=
  let c := s.checkFault .memPre (if d.stores then 2 else 1)
  ({ r with addr := hitTarget c.1 0 r.addr, result := if d.stores then hitTarget c.1 1 r.result else r.result }, c.2)

/-- The data request (R133 b) after its check, and its answer. -/
def Desc.dataRequest (d : Desc) (k : Kind) (r : Rec) (s : State) : Rec × Answer × State :=
  let p := d.memPre r s
  let a := p.2.memReq k p.1.addr p.1.result
  (p.1, a.1, a.2)

/-- A datum extended (R142). A load's own request answers with a datum of its kind; one of another kind, or none, can reach here
only by a completion left over from before a `reset()`, out of contract (R473), and is then extended from its own width, a store's
counting as 0 (log 40, DESIGN CHOICE). -/
def extendDatum (signed : Bool) : Datum → Word
  | .none => 0
  | .byte b => if signed then b.signExtend 32 else b.zeroExtend 32
  | .half h => if signed then h.signExtend 32 else h.zeroExtend 32
  | .word w => w

/-- The completion of a data access (R142), with the MEM_POST check of an integer load (R410). -/
def Desc.complete (d : Desc) (datum : Datum) (r : Rec) (s : State) : Rec × State :=
  match d.mem with
  | .load _ signed =>
    let c := s.checkFault .memPost 1
    ({ r with result := hitTarget c.1 0 (extendDatum signed datum) }, c.2)
  | .loadF => ({ r with fresult := (extendDatum false datum).zeroExtend 64 }, s)
  | .pass | .store _ | .mfc0 _ | .mtc1 => (r, s)

/-- MEM of an instruction that makes no request (R133 c, d, e). -/
def Desc.memMove (d : Desc) (r : Rec) (s : State) : Rec × State :=
  match d.mem with
  | .mfc0 rd => ({ r with result := (s.mfc0Read rd).1 }, (s.mfc0Read rd).2)
  | .mtc1 => ({ r with fresult := r.op2.zeroExtend 64 }, s)
  | .pass | .load _ _ | .loadF | .store _ => (r, s)

/-! ## WB -/

/-- The commit of WB (R129 b, R144), with the WB check of an instruction with an integer destination (R410). -/
def Desc.wbStage (d : Desc) (r : Rec) (s : State) : State :=
  match d.wb with
  | .none => s
  | .gpr i => (s.checkFault .wb 1).2.writeX i (hitTarget (s.checkFault .wb 1).1 0 r.result)
  | .c0 i => s.writeC0 i r.result
  | .hiLo h => s.writeHiLo h r.result

/-! ## One instruction alone -/

/-- The cycle prologue (R124). -/
def State.prologue (s : State) : State :=
  { s with cycle := s.cycle + 1, bypEX := none, bypMEM := none, idStall := false, excFound := false, busDone := none }

/-- Promotion's commit of the next PC (R140): `fpc <- fnpc; fnpc <- fnpc + 4`. -/
def State.commitPc (s : State) : State := { s with fpc := s.fnpc, fnpc := s.fnpc + 4 }

/-- The record of the instruction at `fpc`, promoted to ID (R139, R140). -/
def State.promotedRec (s : State) : Rec := { freshRec s.fpc with stage := .id, inDelaySlot := s.bdFlag }

/-- What the harness does after an exception taken instruction by instruction (R444): go on at `EXC_VECTOR`, as the start of a
run does (R121), or stop. -/
def State.afterException (s : State) : State :=
  if policyContinues s.params.policy (s.readC0 causeReg) then
    { s with
      outcome := some .exceptionHandledContinue, bdFlag := false
      fpc := s.params.excVector, fnpc := s.params.excVector + 4 }
  else { s with outcome := some .exceptionHandledStop, mode := .idle }

/-- The exception of one instruction alone: taken (R440, R441), then the harness's policy. -/
def State.trap (s : State) (r : Rec) (e : Exc) (claims : List Claim) : State :=
  (s.takeException r e claims).afterException

/-- A miss completed at once (log 36): its pending completion is withdrawn. -/
def State.completeNow (s : State) (a : Answer) : State :=
  if a.hit then s else { s with pending := s.pending.filter (fun p => p.tag != a.tag) }

/-- MEM of one instruction alone: the request's refusal, or its completion; or the work without a request. -/
def Desc.memStage (d : Desc) (r : Rec) (s : State) : Rec × State :=
  match d.request with
  | some k =>
    let q := d.dataRequest k r s
    match q.2.1.exc with
    | some e => ({ q.1 with exception := some e }, q.2.2)
    | none => d.complete q.2.1.datum q.1 (q.2.2.completeNow q.2.1)
  | none => d.memMove r s

/-- The MDU's result committed as soon as it is issued, for one instruction alone (log 32). -/
def Desc.settleMdu (d : Desc) (s : State) : State :=
  match d.ex with
  | .mdu _ _ => s.commitMdu
  | .idle | .alu _ | .moveOp3 | .moveFop1 | .moveOp2 | .mtHiLo _ | .address _ | .addressOp2 _ | .addressFop1 _ => s

/-- The end of one instruction alone: the exception taken, with the claim of an LWC1 restored (R441 a), or the commit. -/
def Desc.retire (d : Desc) (r : Rec) (s : State) : State :=
  match r.exception with
  | some e => s.trap r e (if d.fdst.isSome then [d.claim] else [])
  | none => if d.toEX3 then d.fwbCommit r s else d.wbStage r s

/-- EX, MEM and the end of an instruction of the integer stages. -/
def Desc.finish (d : Desc) (r : Rec) (s : State) : State :=
  let q := d.exStage false r s
  match q.1.exception with
  | some _ => d.retire q.1 q.2
  | none =>
    let m := d.memStage q.1 (d.settleMdu q.2)
    d.retire m.1 m.2

/-- One instruction alone, through every stage it visits (log 1): the instruction at `fpc`, in the delay slot of a branch when
`BDflag` says so. Its record is not taken from the pool, so a pool with no free record ends nothing here (log 19, DESIGN
CHOICE), where a `run` ends fatally (R43, R447). With faults scheduled it differs from a cycle where the pipeline's overlap shows:
nothing is bypassed, and nothing behind a trap makes a check (R410, R411; log 26, DESIGN CHOICE). -/
def transit (d : Desc) (s : State) : State :=
  match d.idException with
  | some e =>
    ({ s.prologue.commitPc with bdFlag := false } : State).trap { s.promotedRec with exception := some e, ce := d.ce } e []
  | none =>
    let p := d.idStage s.promotedRec s.prologue.commitPc
    match d.fp with
    | some (_, f) =>
      let q := fpResult f p.1 p.2
      d.fwbCommit q.1 q.2
    | none => d.finish p.1 p.2

end Sys2Proof.Machine
end

