-- ==== Sys2Proof/Machine/Alu.lean ====
section
/-! DEFINITION. The integer ALU instructions (spec/42_int_alu.md R203 to R226). -/

namespace Sys2Proof.Machine

/-- ADD (R203): traps on signed overflow -/
def descAdd (rd rs rt : Reg) : Desc := threeReg (fun a b => narrowSigned (a.toInt + b.toInt)) rd rs rt

/-- ADD executed. -/
def execAdd (rd rs rt : Reg) (s : State) : Host.Outcome State Fault Refusal :=
  .next (transit (descAdd rd rs rt) s)

/-- ADDU (R204) -/
def descAddu (rd rs rt : Reg) : Desc := threeReg (fun a b => some (a + b)) rd rs rt

/-- ADDU executed. -/
def execAddu (rd rs rt : Reg) (s : State) : Host.Outcome State Fault Refusal :=
  .next (transit (descAddu rd rs rt) s)

/-- SUB (R205): traps on signed overflow -/
def descSub (rd rs rt : Reg) : Desc := threeReg (fun a b => narrowSigned (a.toInt - b.toInt)) rd rs rt

/-- SUB executed. -/
def execSub (rd rs rt : Reg) (s : State) : Host.Outcome State Fault Refusal :=
  .next (transit (descSub rd rs rt) s)

/-- SUBU (R206) -/
def descSubu (rd rs rt : Reg) : Desc := threeReg (fun a b => some (a - b)) rd rs rt

/-- SUBU executed. -/
def execSubu (rd rs rt : Reg) (s : State) : Host.Outcome State Fault Refusal :=
  .next (transit (descSubu rd rs rt) s)

/-- AND (R207) -/
def descAnd (rd rs rt : Reg) : Desc := threeReg (fun a b => some (a &&& b)) rd rs rt

/-- AND executed. -/
def execAnd (rd rs rt : Reg) (s : State) : Host.Outcome State Fault Refusal :=
  .next (transit (descAnd rd rs rt) s)

/-- OR (R208) -/
def descOr (rd rs rt : Reg) : Desc := threeReg (fun a b => some (a ||| b)) rd rs rt

/-- OR executed. -/
def execOr (rd rs rt : Reg) (s : State) : Host.Outcome State Fault Refusal :=
  .next (transit (descOr rd rs rt) s)

/-- XOR (R209) -/
def descXor (rd rs rt : Reg) : Desc := threeReg (fun a b => some (a ^^^ b)) rd rs rt

/-- XOR executed. -/
def execXor (rd rs rt : Reg) (s : State) : Host.Outcome State Fault Refusal :=
  .next (transit (descXor rd rs rt) s)

/-- NOR (R210) -/
def descNor (rd rs rt : Reg) : Desc := threeReg (fun a b => some (~~~(a ||| b))) rd rs rt

/-- NOR executed. -/
def execNor (rd rs rt : Reg) (s : State) : Host.Outcome State Fault Refusal :=
  .next (transit (descNor rd rs rt) s)

/-- SLT (R211) -/
def descSlt (rd rs rt : Reg) : Desc := threeReg (fun a b => some (boolWord (lessSigned a b))) rd rs rt

/-- SLT executed. -/
def execSlt (rd rs rt : Reg) (s : State) : Host.Outcome State Fault Refusal :=
  .next (transit (descSlt rd rs rt) s)

/-- SLTU (R212) -/
def descSltu (rd rs rt : Reg) : Desc := threeReg (fun a b => some (boolWord (lessUnsigned a b))) rd rs rt

/-- SLTU executed. -/
def execSltu (rd rs rt : Reg) (s : State) : Host.Outcome State Fault Refusal :=
  .next (transit (descSltu rd rs rt) s)

/-- SLL (R213) -/
def descSll (rd rt shamt : Reg) : Desc := shiftConst (fun b => b <<< shamt.toNat) rd rt

/-- SLL executed. -/
def execSll (rd rt shamt : Reg) (s : State) : Host.Outcome State Fault Refusal :=
  .next (transit (descSll rd rt shamt) s)

/-- SRL (R214) -/
def descSrl (rd rt shamt : Reg) : Desc := shiftConst (fun b => b >>> shamt.toNat) rd rt

/-- SRL executed. -/
def execSrl (rd rt shamt : Reg) (s : State) : Host.Outcome State Fault Refusal :=
  .next (transit (descSrl rd rt shamt) s)

/-- SRA (R215) -/
def descSra (rd rt shamt : Reg) : Desc := shiftConst (fun b => b.sshiftRight shamt.toNat) rd rt

/-- SRA executed. -/
def execSra (rd rt shamt : Reg) (s : State) : Host.Outcome State Fault Refusal :=
  .next (transit (descSra rd rt shamt) s)

/-- SLLV (R216): the low five bits of `rs` count -/
def descSllv (rd rt rs : Reg) : Desc := threeReg (fun a b => some (b <<< (a.extractLsb' 0 5).toNat)) rd rs rt

/-- SLLV executed. -/
def execSllv (rd rt rs : Reg) (s : State) : Host.Outcome State Fault Refusal :=
  .next (transit (descSllv rd rt rs) s)

/-- SRLV (R217) -/
def descSrlv (rd rt rs : Reg) : Desc := threeReg (fun a b => some (b >>> (a.extractLsb' 0 5).toNat)) rd rs rt

/-- SRLV executed. -/
def execSrlv (rd rt rs : Reg) (s : State) : Host.Outcome State Fault Refusal :=
  .next (transit (descSrlv rd rt rs) s)

/-- SRAV (R218) -/
def descSrav (rd rt rs : Reg) : Desc := threeReg (fun a b => some (b.sshiftRight (a.extractLsb' 0 5).toNat)) rd rs rt

/-- SRAV executed. -/
def execSrav (rd rt rs : Reg) (s : State) : Host.Outcome State Fault Refusal :=
  .next (transit (descSrav rd rt rs) s)

/-- ADDI (R219): traps on signed overflow -/
def descAddi (rt rs : Reg) (imm : Imm) : Desc := immediate (fun a => narrowSigned (a.toInt + (imm.signExtend 32 : Word).toInt)) rt rs

/-- ADDI executed. -/
def execAddi (rt rs : Reg) (imm : Imm) (s : State) : Host.Outcome State Fault Refusal :=
  .next (transit (descAddi rt rs imm) s)

/-- ADDIU (R220) -/
def descAddiu (rt rs : Reg) (imm : Imm) : Desc := immediate (fun a => some (a + imm.signExtend 32)) rt rs

/-- ADDIU executed. -/
def execAddiu (rt rs : Reg) (imm : Imm) (s : State) : Host.Outcome State Fault Refusal :=
  .next (transit (descAddiu rt rs imm) s)

/-- SLTI (R221) -/
def descSlti (rt rs : Reg) (imm : Imm) : Desc := immediate (fun a => some (boolWord (lessSigned a (imm.signExtend 32)))) rt rs

/-- SLTI executed. -/
def execSlti (rt rs : Reg) (imm : Imm) (s : State) : Host.Outcome State Fault Refusal :=
  .next (transit (descSlti rt rs imm) s)

/-- SLTIU (R222): the immediate is sign-extended, then compared as unsigned -/
def descSltiu (rt rs : Reg) (imm : Imm) : Desc := immediate (fun a => some (boolWord (lessUnsigned a (imm.signExtend 32)))) rt rs

/-- SLTIU executed. -/
def execSltiu (rt rs : Reg) (imm : Imm) (s : State) : Host.Outcome State Fault Refusal :=
  .next (transit (descSltiu rt rs imm) s)

/-- ANDI (R223) -/
def descAndi (rt rs : Reg) (imm : Imm) : Desc := immediate (fun a => some (a &&& imm.zeroExtend 32)) rt rs

/-- ANDI executed. -/
def execAndi (rt rs : Reg) (imm : Imm) (s : State) : Host.Outcome State Fault Refusal :=
  .next (transit (descAndi rt rs imm) s)

/-- ORI (R224) -/
def descOri (rt rs : Reg) (imm : Imm) : Desc := immediate (fun a => some (a ||| imm.zeroExtend 32)) rt rs

/-- ORI executed. -/
def execOri (rt rs : Reg) (imm : Imm) (s : State) : Host.Outcome State Fault Refusal :=
  .next (transit (descOri rt rs imm) s)

/-- XORI (R225) -/
def descXori (rt rs : Reg) (imm : Imm) : Desc := immediate (fun a => some (a ^^^ imm.zeroExtend 32)) rt rs

/-- XORI executed. -/
def execXori (rt rs : Reg) (imm : Imm) (s : State) : Host.Outcome State Fault Refusal :=
  .next (transit (descXori rt rs imm) s)

/-- LUI (R226): reads no register -/
def descLui (rt : Reg) (imm : Imm) : Desc := { ex := .alu (fun _ _ => some (imm ++ 0#16)), wb := .gpr rt }

/-- LUI executed. -/
def execLui (rt : Reg) (imm : Imm) (s : State) : Host.Outcome State Fault Refusal :=
  .next (transit (descLui rt imm) s)

end Sys2Proof.Machine
end

