-- ==== Sys2Proof/Machine/Control.lean ====
section
/-! DEFINITION. Branches and jumps (spec/45_control.md R285 to R296) and the floating branches (spec/46_float.md R352, R353). -/

namespace Sys2Proof.Machine

/-- BEQ (R285) -/
def descBeq (rs rt : Reg) (imm : Imm) : Desc := { op1 := some rs, op2 := some rt, ctrl := .branch (fun a b => a == b) imm }

/-- BEQ executed. -/
def execBeq (rs rt : Reg) (imm : Imm) (s : State) : Host.Outcome State Fault Refusal :=
  .next (transit (descBeq rs rt imm) s)

/-- BNE (R286) -/
def descBne (rs rt : Reg) (imm : Imm) : Desc := { op1 := some rs, op2 := some rt, ctrl := .branch (fun a b => a != b) imm }

/-- BNE executed. -/
def execBne (rs rt : Reg) (imm : Imm) (s : State) : Host.Outcome State Fault Refusal :=
  .next (transit (descBne rs rt imm) s)

/-- BLEZ (R287) -/
def descBlez (rs : Reg) (imm : Imm) : Desc := zeroBranch isLez rs imm

/-- BLEZ executed. -/
def execBlez (rs : Reg) (imm : Imm) (s : State) : Host.Outcome State Fault Refusal :=
  .next (transit (descBlez rs imm) s)

/-- BGTZ (R288) -/
def descBgtz (rs : Reg) (imm : Imm) : Desc := zeroBranch isGtz rs imm

/-- BGTZ executed. -/
def execBgtz (rs : Reg) (imm : Imm) (s : State) : Host.Outcome State Fault Refusal :=
  .next (transit (descBgtz rs imm) s)

/-- BLTZ (R291) -/
def descBltz (rs : Reg) (imm : Imm) : Desc := zeroBranch isLtz rs imm

/-- BLTZ executed. -/
def execBltz (rs : Reg) (imm : Imm) (s : State) : Host.Outcome State Fault Refusal :=
  .next (transit (descBltz rs imm) s)

/-- BGEZ (R292) -/
def descBgez (rs : Reg) (imm : Imm) : Desc := zeroBranch isGez rs imm

/-- BGEZ executed. -/
def execBgez (rs : Reg) (imm : Imm) (s : State) : Host.Outcome State Fault Refusal :=
  .next (transit (descBgez rs imm) s)

/-- BLTZAL (R293): links whether or not taken -/
def descBltzal (rs : Reg) (imm : Imm) : Desc := { zeroBranch isLtz rs imm with link := true, wb := .gpr 31 }

/-- BLTZAL executed. -/
def execBltzal (rs : Reg) (imm : Imm) (s : State) : Host.Outcome State Fault Refusal :=
  .next (transit (descBltzal rs imm) s)

/-- BGEZAL (R294): links whether or not taken -/
def descBgezal (rs : Reg) (imm : Imm) : Desc := { zeroBranch isGez rs imm with link := true, wb := .gpr 31 }

/-- BGEZAL executed. -/
def execBgezal (rs : Reg) (imm : Imm) (s : State) : Host.Outcome State Fault Refusal :=
  .next (transit (descBgezal rs imm) s)

/-- J (R290) -/
def descJ (target : BitVec 26) : Desc := { ctrl := .jump target }

/-- J executed. -/
def execJ (target : BitVec 26) (s : State) : Host.Outcome State Fault Refusal :=
  .next (transit (descJ target) s)

/-- JAL (R289) -/
def descJal (target : BitVec 26) : Desc := { ctrl := .jump target, link := true, wb := .gpr 31 }

/-- JAL executed. -/
def execJal (target : BitVec 26) (s : State) : Host.Outcome State Fault Refusal :=
  .next (transit (descJal target) s)

/-- JR (R295) -/
def descJr (rs : Reg) : Desc := { op1 := some rs, ctrl := .jumpReg }

/-- JR executed. -/
def execJr (rs : Reg) (s : State) : Host.Outcome State Fault Refusal :=
  .next (transit (descJr rs) s)

/-- JALR (R296) -/
def descJalr (rd rs : Reg) : Desc := { op1 := some rs, ctrl := .jumpReg, link := true, wb := .gpr rd }

/-- JALR executed. -/
def execJalr (rd rs : Reg) (s : State) : Host.Outcome State Fault Refusal :=
  .next (transit (descJalr rd rs) s)

/-- BC1T (R352) -/
def descBc1t (imm : Imm) : Desc := { ctrl := .fpBranch true imm }

/-- BC1T executed. -/
def execBc1t (imm : Imm) (s : State) : Host.Outcome State Fault Refusal :=
  .next (transit (descBc1t imm) s)

/-- BC1F (R353) -/
def descBc1f (imm : Imm) : Desc := { ctrl := .fpBranch false imm }

/-- BC1F executed. -/
def execBc1f (imm : Imm) (s : State) : Host.Outcome State Fault Refusal :=
  .next (transit (descBc1f imm) s)

end Sys2Proof.Machine
end

