-- ==== Sys2Proof/Machine/FloatCompare.lean ====
section
/-! DEFINITION. The floating compares (spec/46_float.md R340 to R342): the condition is the word's low four bits. -/

namespace Sys2Proof.Machine

/-- C.F.S (R340) -/
def descCFS (fs ft : Reg) : Desc := fpCompare (fpCmpS 0) (.single fs) (.single ft)

/-- C.F.S executed. -/
def execCFS (fs ft : Reg) (s : State) : Host.Outcome State Fault Refusal :=
  .next (transit (descCFS fs ft) s)

/-- C.UN.S (R340) -/
def descCUnS (fs ft : Reg) : Desc := fpCompare (fpCmpS 1) (.single fs) (.single ft)

/-- C.UN.S executed. -/
def execCUnS (fs ft : Reg) (s : State) : Host.Outcome State Fault Refusal :=
  .next (transit (descCUnS fs ft) s)

/-- C.EQ.S (R340) -/
def descCEqS (fs ft : Reg) : Desc := fpCompare (fpCmpS 2) (.single fs) (.single ft)

/-- C.EQ.S executed. -/
def execCEqS (fs ft : Reg) (s : State) : Host.Outcome State Fault Refusal :=
  .next (transit (descCEqS fs ft) s)

/-- C.UEQ.S (R340) -/
def descCUeqS (fs ft : Reg) : Desc := fpCompare (fpCmpS 3) (.single fs) (.single ft)

/-- C.UEQ.S executed. -/
def execCUeqS (fs ft : Reg) (s : State) : Host.Outcome State Fault Refusal :=
  .next (transit (descCUeqS fs ft) s)

/-- C.OLT.S (R340) -/
def descCOltS (fs ft : Reg) : Desc := fpCompare (fpCmpS 4) (.single fs) (.single ft)

/-- C.OLT.S executed. -/
def execCOltS (fs ft : Reg) (s : State) : Host.Outcome State Fault Refusal :=
  .next (transit (descCOltS fs ft) s)

/-- C.ULT.S (R340) -/
def descCUltS (fs ft : Reg) : Desc := fpCompare (fpCmpS 5) (.single fs) (.single ft)

/-- C.ULT.S executed. -/
def execCUltS (fs ft : Reg) (s : State) : Host.Outcome State Fault Refusal :=
  .next (transit (descCUltS fs ft) s)

/-- C.OLE.S (R340) -/
def descCOleS (fs ft : Reg) : Desc := fpCompare (fpCmpS 6) (.single fs) (.single ft)

/-- C.OLE.S executed. -/
def execCOleS (fs ft : Reg) (s : State) : Host.Outcome State Fault Refusal :=
  .next (transit (descCOleS fs ft) s)

/-- C.ULE.S (R340) -/
def descCUleS (fs ft : Reg) : Desc := fpCompare (fpCmpS 7) (.single fs) (.single ft)

/-- C.ULE.S executed. -/
def execCUleS (fs ft : Reg) (s : State) : Host.Outcome State Fault Refusal :=
  .next (transit (descCUleS fs ft) s)

/-- C.SF.S (R340) -/
def descCSfS (fs ft : Reg) : Desc := fpCompare (fpCmpS 8) (.single fs) (.single ft)

/-- C.SF.S executed. -/
def execCSfS (fs ft : Reg) (s : State) : Host.Outcome State Fault Refusal :=
  .next (transit (descCSfS fs ft) s)

/-- C.NGLE.S (R340) -/
def descCNgleS (fs ft : Reg) : Desc := fpCompare (fpCmpS 9) (.single fs) (.single ft)

/-- C.NGLE.S executed. -/
def execCNgleS (fs ft : Reg) (s : State) : Host.Outcome State Fault Refusal :=
  .next (transit (descCNgleS fs ft) s)

/-- C.SEQ.S (R340) -/
def descCSeqS (fs ft : Reg) : Desc := fpCompare (fpCmpS 10) (.single fs) (.single ft)

/-- C.SEQ.S executed. -/
def execCSeqS (fs ft : Reg) (s : State) : Host.Outcome State Fault Refusal :=
  .next (transit (descCSeqS fs ft) s)

/-- C.NGL.S (R340) -/
def descCNglS (fs ft : Reg) : Desc := fpCompare (fpCmpS 11) (.single fs) (.single ft)

/-- C.NGL.S executed. -/
def execCNglS (fs ft : Reg) (s : State) : Host.Outcome State Fault Refusal :=
  .next (transit (descCNglS fs ft) s)

/-- C.LT.S (R340) -/
def descCLtS (fs ft : Reg) : Desc := fpCompare (fpCmpS 12) (.single fs) (.single ft)

/-- C.LT.S executed. -/
def execCLtS (fs ft : Reg) (s : State) : Host.Outcome State Fault Refusal :=
  .next (transit (descCLtS fs ft) s)

/-- C.NGE.S (R340) -/
def descCNgeS (fs ft : Reg) : Desc := fpCompare (fpCmpS 13) (.single fs) (.single ft)

/-- C.NGE.S executed. -/
def execCNgeS (fs ft : Reg) (s : State) : Host.Outcome State Fault Refusal :=
  .next (transit (descCNgeS fs ft) s)

/-- C.LE.S (R340) -/
def descCLeS (fs ft : Reg) : Desc := fpCompare (fpCmpS 14) (.single fs) (.single ft)

/-- C.LE.S executed. -/
def execCLeS (fs ft : Reg) (s : State) : Host.Outcome State Fault Refusal :=
  .next (transit (descCLeS fs ft) s)

/-- C.NGT.S (R340) -/
def descCNgtS (fs ft : Reg) : Desc := fpCompare (fpCmpS 15) (.single fs) (.single ft)

/-- C.NGT.S executed. -/
def execCNgtS (fs ft : Reg) (s : State) : Host.Outcome State Fault Refusal :=
  .next (transit (descCNgtS fs ft) s)

/-- C.F.D (R341) -/
def descCFD (fs ft : Reg) : Desc := fpCompare (fpCmpD 0) (.double fs) (.double ft)

/-- C.F.D executed. -/
def execCFD (fs ft : Reg) (s : State) : Host.Outcome State Fault Refusal :=
  .next (transit (descCFD fs ft) s)

/-- C.UN.D (R341) -/
def descCUnD (fs ft : Reg) : Desc := fpCompare (fpCmpD 1) (.double fs) (.double ft)

/-- C.UN.D executed. -/
def execCUnD (fs ft : Reg) (s : State) : Host.Outcome State Fault Refusal :=
  .next (transit (descCUnD fs ft) s)

/-- C.EQ.D (R341) -/
def descCEqD (fs ft : Reg) : Desc := fpCompare (fpCmpD 2) (.double fs) (.double ft)

/-- C.EQ.D executed. -/
def execCEqD (fs ft : Reg) (s : State) : Host.Outcome State Fault Refusal :=
  .next (transit (descCEqD fs ft) s)

/-- C.UEQ.D (R341) -/
def descCUeqD (fs ft : Reg) : Desc := fpCompare (fpCmpD 3) (.double fs) (.double ft)

/-- C.UEQ.D executed. -/
def execCUeqD (fs ft : Reg) (s : State) : Host.Outcome State Fault Refusal :=
  .next (transit (descCUeqD fs ft) s)

/-- C.OLT.D (R341) -/
def descCOltD (fs ft : Reg) : Desc := fpCompare (fpCmpD 4) (.double fs) (.double ft)

/-- C.OLT.D executed. -/
def execCOltD (fs ft : Reg) (s : State) : Host.Outcome State Fault Refusal :=
  .next (transit (descCOltD fs ft) s)

/-- C.ULT.D (R341) -/
def descCUltD (fs ft : Reg) : Desc := fpCompare (fpCmpD 5) (.double fs) (.double ft)

/-- C.ULT.D executed. -/
def execCUltD (fs ft : Reg) (s : State) : Host.Outcome State Fault Refusal :=
  .next (transit (descCUltD fs ft) s)

/-- C.OLE.D (R341) -/
def descCOleD (fs ft : Reg) : Desc := fpCompare (fpCmpD 6) (.double fs) (.double ft)

/-- C.OLE.D executed. -/
def execCOleD (fs ft : Reg) (s : State) : Host.Outcome State Fault Refusal :=
  .next (transit (descCOleD fs ft) s)

/-- C.ULE.D (R341) -/
def descCUleD (fs ft : Reg) : Desc := fpCompare (fpCmpD 7) (.double fs) (.double ft)

/-- C.ULE.D executed. -/
def execCUleD (fs ft : Reg) (s : State) : Host.Outcome State Fault Refusal :=
  .next (transit (descCUleD fs ft) s)

/-- C.SF.D (R341) -/
def descCSfD (fs ft : Reg) : Desc := fpCompare (fpCmpD 8) (.double fs) (.double ft)

/-- C.SF.D executed. -/
def execCSfD (fs ft : Reg) (s : State) : Host.Outcome State Fault Refusal :=
  .next (transit (descCSfD fs ft) s)

/-- C.NGLE.D (R341) -/
def descCNgleD (fs ft : Reg) : Desc := fpCompare (fpCmpD 9) (.double fs) (.double ft)

/-- C.NGLE.D executed. -/
def execCNgleD (fs ft : Reg) (s : State) : Host.Outcome State Fault Refusal :=
  .next (transit (descCNgleD fs ft) s)

/-- C.SEQ.D (R341) -/
def descCSeqD (fs ft : Reg) : Desc := fpCompare (fpCmpD 10) (.double fs) (.double ft)

/-- C.SEQ.D executed. -/
def execCSeqD (fs ft : Reg) (s : State) : Host.Outcome State Fault Refusal :=
  .next (transit (descCSeqD fs ft) s)

/-- C.NGL.D (R341) -/
def descCNglD (fs ft : Reg) : Desc := fpCompare (fpCmpD 11) (.double fs) (.double ft)

/-- C.NGL.D executed. -/
def execCNglD (fs ft : Reg) (s : State) : Host.Outcome State Fault Refusal :=
  .next (transit (descCNglD fs ft) s)

/-- C.LT.D (R341) -/
def descCLtD (fs ft : Reg) : Desc := fpCompare (fpCmpD 12) (.double fs) (.double ft)

/-- C.LT.D executed. -/
def execCLtD (fs ft : Reg) (s : State) : Host.Outcome State Fault Refusal :=
  .next (transit (descCLtD fs ft) s)

/-- C.NGE.D (R341) -/
def descCNgeD (fs ft : Reg) : Desc := fpCompare (fpCmpD 13) (.double fs) (.double ft)

/-- C.NGE.D executed. -/
def execCNgeD (fs ft : Reg) (s : State) : Host.Outcome State Fault Refusal :=
  .next (transit (descCNgeD fs ft) s)

/-- C.LE.D (R341) -/
def descCLeD (fs ft : Reg) : Desc := fpCompare (fpCmpD 14) (.double fs) (.double ft)

/-- C.LE.D executed. -/
def execCLeD (fs ft : Reg) (s : State) : Host.Outcome State Fault Refusal :=
  .next (transit (descCLeD fs ft) s)

/-- C.NGT.D (R341) -/
def descCNgtD (fs ft : Reg) : Desc := fpCompare (fpCmpD 15) (.double fs) (.double ft)

/-- C.NGT.D executed. -/
def execCNgtD (fs ft : Reg) (s : State) : Host.Outcome State Fault Refusal :=
  .next (transit (descCNgtD fs ft) s)

end Sys2Proof.Machine
end

