-- ==== Sys2Proof/Machine/FloatOps.lean ====
section
/-! DEFINITION. Floating arithmetic, conversions, loads, stores and moves (spec/46_float.md R320 to R339, R346 to R349). -/

namespace Sys2Proof.Machine

/-- ADD.S (R320) -/
def descAddS (fd fs ft : Reg) : Desc := fpBinary .addSub fpAddS (.single fd) (.single fs) (.single ft)

/-- ADD.S executed. -/
def execAddS (fd fs ft : Reg) (s : State) : Host.Outcome State Fault Refusal :=
  .next (transit (descAddS fd fs ft) s)

/-- ADD.D (R321) -/
def descAddD (fd fs ft : Reg) : Desc := fpBinary .addSub fpAddD (.double fd) (.double fs) (.double ft)

/-- ADD.D executed. -/
def execAddD (fd fs ft : Reg) (s : State) : Host.Outcome State Fault Refusal :=
  .next (transit (descAddD fd fs ft) s)

/-- SUB.S (R322) -/
def descSubS (fd fs ft : Reg) : Desc := fpBinary .addSub fpSubS (.single fd) (.single fs) (.single ft)

/-- SUB.S executed. -/
def execSubS (fd fs ft : Reg) (s : State) : Host.Outcome State Fault Refusal :=
  .next (transit (descSubS fd fs ft) s)

/-- SUB.D (R323) -/
def descSubD (fd fs ft : Reg) : Desc := fpBinary .addSub fpSubD (.double fd) (.double fs) (.double ft)

/-- SUB.D executed. -/
def execSubD (fd fs ft : Reg) (s : State) : Host.Outcome State Fault Refusal :=
  .next (transit (descSubD fd fs ft) s)

/-- MUL.S (R324) -/
def descMulS (fd fs ft : Reg) : Desc := fpBinary .mulS fpMulS (.single fd) (.single fs) (.single ft)

/-- MUL.S executed. -/
def execMulS (fd fs ft : Reg) (s : State) : Host.Outcome State Fault Refusal :=
  .next (transit (descMulS fd fs ft) s)

/-- MUL.D (R325) -/
def descMulD (fd fs ft : Reg) : Desc := fpBinary .mulD fpMulD (.double fd) (.double fs) (.double ft)

/-- MUL.D executed. -/
def execMulD (fd fs ft : Reg) (s : State) : Host.Outcome State Fault Refusal :=
  .next (transit (descMulD fd fs ft) s)

/-- DIV.S (R326) -/
def descDivS (fd fs ft : Reg) : Desc := fpBinary .divS fpDivS (.single fd) (.single fs) (.single ft)

/-- DIV.S executed. -/
def execDivS (fd fs ft : Reg) (s : State) : Host.Outcome State Fault Refusal :=
  .next (transit (descDivS fd fs ft) s)

/-- DIV.D (R327) -/
def descDivD (fd fs ft : Reg) : Desc := fpBinary .divD fpDivD (.double fd) (.double fs) (.double ft)

/-- DIV.D executed. -/
def execDivD (fd fs ft : Reg) (s : State) : Host.Outcome State Fault Refusal :=
  .next (transit (descDivD fd fs ft) s)

/-- ABS.S (R328) -/
def descAbsS (fd fs : Reg) : Desc := fpUnary .addSub fpAbsS (.single fd) (.single fs)

/-- ABS.S executed. -/
def execAbsS (fd fs : Reg) (s : State) : Host.Outcome State Fault Refusal :=
  .next (transit (descAbsS fd fs) s)

/-- ABS.D (R329) -/
def descAbsD (fd fs : Reg) : Desc := fpUnary .addSub fpAbsD (.double fd) (.double fs)

/-- ABS.D executed. -/
def execAbsD (fd fs : Reg) (s : State) : Host.Outcome State Fault Refusal :=
  .next (transit (descAbsD fd fs) s)

/-- NEG.S (R330) -/
def descNegS (fd fs : Reg) : Desc := fpUnary .addSub fpNegS (.single fd) (.single fs)

/-- NEG.S executed. -/
def execNegS (fd fs : Reg) (s : State) : Host.Outcome State Fault Refusal :=
  .next (transit (descNegS fd fs) s)

/-- NEG.D (R331) -/
def descNegD (fd fs : Reg) : Desc := fpUnary .addSub fpNegD (.double fd) (.double fs)

/-- NEG.D executed. -/
def execNegD (fd fs : Reg) (s : State) : Host.Outcome State Fault Refusal :=
  .next (transit (descNegD fd fs) s)

/-- MOV.S (R332) -/
def descMovS (fd fs : Reg) : Desc := fpUnary .addSub fpMovS (.single fd) (.single fs)

/-- MOV.S executed. -/
def execMovS (fd fs : Reg) (s : State) : Host.Outcome State Fault Refusal :=
  .next (transit (descMovS fd fs) s)

/-- MOV.D (R333) -/
def descMovD (fd fs : Reg) : Desc := fpUnary .addSub fpMovD (.double fd) (.double fs)

/-- MOV.D executed. -/
def execMovD (fd fs : Reg) (s : State) : Host.Outcome State Fault Refusal :=
  .next (transit (descMovD fd fs) s)

/-- CVT.S.D (R334) -/
def descCvtSD (fd fs : Reg) : Desc := fpUnary .cvt fpCvtSD (.single fd) (.double fs)

/-- CVT.S.D executed. -/
def execCvtSD (fd fs : Reg) (s : State) : Host.Outcome State Fault Refusal :=
  .next (transit (descCvtSD fd fs) s)

/-- CVT.S.W (R335) -/
def descCvtSW (fd fs : Reg) : Desc := fpUnary .cvt fpCvtSW (.single fd) (.single fs)

/-- CVT.S.W executed. -/
def execCvtSW (fd fs : Reg) (s : State) : Host.Outcome State Fault Refusal :=
  .next (transit (descCvtSW fd fs) s)

/-- CVT.D.S (R336) -/
def descCvtDS (fd fs : Reg) : Desc := fpUnary .cvtW fpCvtDS (.double fd) (.single fs)

/-- CVT.D.S executed. -/
def execCvtDS (fd fs : Reg) (s : State) : Host.Outcome State Fault Refusal :=
  .next (transit (descCvtDS fd fs) s)

/-- CVT.D.W (R337) -/
def descCvtDW (fd fs : Reg) : Desc := fpUnary .cvtW fpCvtDW (.double fd) (.single fs)

/-- CVT.D.W executed. -/
def execCvtDW (fd fs : Reg) (s : State) : Host.Outcome State Fault Refusal :=
  .next (transit (descCvtDW fd fs) s)

/-- CVT.W.S (R338) -/
def descCvtWS (fd fs : Reg) : Desc := fpUnary .cvt fpCvtWS (.single fd) (.single fs)

/-- CVT.W.S executed. -/
def execCvtWS (fd fs : Reg) (s : State) : Host.Outcome State Fault Refusal :=
  .next (transit (descCvtWS fd fs) s)

/-- CVT.W.D (R339) -/
def descCvtWD (fd fs : Reg) : Desc := fpUnary .cvt fpCvtWD (.single fd) (.double fs)

/-- CVT.W.D executed. -/
def execCvtWD (fd fs : Reg) (s : State) : Host.Outcome State Fault Refusal :=
  .next (transit (descCvtWD fd fs) s)

/-- LWC1 (R346) -/
def descLwc1 (ft : Reg) (imm : Imm) (rs : Reg) : Desc := { op1 := some rs, fdst := some (.single ft), ex := .address imm, mem := .loadF }

/-- LWC1 executed. -/
def execLwc1 (ft : Reg) (imm : Imm) (rs : Reg) (s : State) : Host.Outcome State Fault Refusal :=
  .next (transit (descLwc1 ft imm rs) s)

/-- SWC1 (R347) -/
def descSwc1 (ft : Reg) (imm : Imm) (rs : Reg) : Desc := { op1 := some rs, fop1 := some (.single ft), ex := .addressFop1 imm, mem := .store .wrW }

/-- SWC1 executed. -/
def execSwc1 (ft : Reg) (imm : Imm) (rs : Reg) (s : State) : Host.Outcome State Fault Refusal :=
  .next (transit (descSwc1 ft imm rs) s)

/-- MFC1 (R348) -/
def descMfc1 (rt fs : Reg) : Desc := { fop1 := some (.single fs), ex := .moveFop1, wb := .gpr rt }

/-- MFC1 executed. -/
def execMfc1 (rt fs : Reg) (s : State) : Host.Outcome State Fault Refusal :=
  .next (transit (descMfc1 rt fs) s)

/-- MTC1 (R349) -/
def descMtc1 (rt fs : Reg) : Desc := { op2 := some rt, fdst := some (.single fs), mem := .mtc1 }

/-- MTC1 executed. -/
def execMtc1 (rt fs : Reg) (s : State) : Host.Outcome State Fault Refusal :=
  .next (transit (descMtc1 rt fs) s)

end Sys2Proof.Machine
end

