-- ==== Sys2Proof/Machine/LoadStore.lean ====
section
/-! DEFINITION. Integer loads and stores (spec/44_loadstore.md R263 to R270). -/

namespace Sys2Proof.Machine

/-- LB (R263) -/
def descLb (rt : Reg) (imm : Imm) (rs : Reg) : Desc := loadForm .rdB true rt imm rs

/-- LB executed. -/
def execLb (rt : Reg) (imm : Imm) (rs : Reg) (s : State) : Host.Outcome State Fault Refusal :=
  .next (transit (descLb rt imm rs) s)

/-- LBU (R264) -/
def descLbu (rt : Reg) (imm : Imm) (rs : Reg) : Desc := loadForm .rdB false rt imm rs

/-- LBU executed. -/
def execLbu (rt : Reg) (imm : Imm) (rs : Reg) (s : State) : Host.Outcome State Fault Refusal :=
  .next (transit (descLbu rt imm rs) s)

/-- LH (R265) -/
def descLh (rt : Reg) (imm : Imm) (rs : Reg) : Desc := loadForm .rdH true rt imm rs

/-- LH executed. -/
def execLh (rt : Reg) (imm : Imm) (rs : Reg) (s : State) : Host.Outcome State Fault Refusal :=
  .next (transit (descLh rt imm rs) s)

/-- LHU (R266) -/
def descLhu (rt : Reg) (imm : Imm) (rs : Reg) : Desc := loadForm .rdH false rt imm rs

/-- LHU executed. -/
def execLhu (rt : Reg) (imm : Imm) (rs : Reg) (s : State) : Host.Outcome State Fault Refusal :=
  .next (transit (descLhu rt imm rs) s)

/-- LW (R267) -/
def descLw (rt : Reg) (imm : Imm) (rs : Reg) : Desc := loadForm .rdW true rt imm rs

/-- LW executed. -/
def execLw (rt : Reg) (imm : Imm) (rs : Reg) (s : State) : Host.Outcome State Fault Refusal :=
  .next (transit (descLw rt imm rs) s)

/-- SB (R268) -/
def descSb (rt : Reg) (imm : Imm) (rs : Reg) : Desc := storeForm .wrB rt imm rs

/-- SB executed. -/
def execSb (rt : Reg) (imm : Imm) (rs : Reg) (s : State) : Host.Outcome State Fault Refusal :=
  .next (transit (descSb rt imm rs) s)

/-- SH (R269) -/
def descSh (rt : Reg) (imm : Imm) (rs : Reg) : Desc := storeForm .wrH rt imm rs

/-- SH executed. -/
def execSh (rt : Reg) (imm : Imm) (rs : Reg) (s : State) : Host.Outcome State Fault Refusal :=
  .next (transit (descSh rt imm rs) s)

/-- SW (R270) -/
def descSw (rt : Reg) (imm : Imm) (rs : Reg) : Desc := storeForm .wrW rt imm rs

/-- SW executed. -/
def execSw (rt : Reg) (imm : Imm) (rs : Reg) (s : State) : Host.Outcome State Fault Refusal :=
  .next (transit (descSw rt imm rs) s)

end Sys2Proof.Machine
end

