-- ==== Sys2Proof/Machine/Mdu.lean ====
section
/-! DEFINITION. The multiply/divide unit's instructions (spec/43_mdu.md R248 to R255). The products and quotients are exact on
integers, then narrowed; a division by zero has no value here (R247). -/

namespace Sys2Proof.Machine

/-- The 64-bit product split into HI and LO (R246). -/
def splitProduct (p : DWord) : Word × Word := (p.extractLsb' 32 32, p.extractLsb' 0 32)

/-- MULT (R248) -/
def descMult (rs rt : Reg) : Desc := mduForm false (fun a b => some (splitProduct (BitVec.ofInt 64 (a.toInt * b.toInt)))) rs rt

/-- MULT executed. -/
def execMult (rs rt : Reg) (s : State) : Host.Outcome State Fault Refusal :=
  .next (transit (descMult rs rt) s)

/-- MULTU (R249) -/
def descMultu (rs rt : Reg) : Desc := mduForm false (fun a b => some (splitProduct (BitVec.ofNat 64 (a.toNat * b.toNat)))) rs rt

/-- MULTU executed. -/
def execMultu (rs rt : Reg) (s : State) : Host.Outcome State Fault Refusal :=
  .next (transit (descMultu rs rt) s)

/-- DIV (R250): truncated toward zero; -2^31 / -1 narrows to 0x80000000, remainder 0 -/
def descDiv (rs rt : Reg) : Desc := mduForm true
    (fun a b =>
      if b = 0 then none else some (BitVec.ofInt 32 (a.toInt.tmod b.toInt), BitVec.ofInt 32 (a.toInt.tdiv b.toInt)))
    rs rt

/-- DIV executed. -/
def execDiv (rs rt : Reg) (s : State) : Host.Outcome State Fault Refusal :=
  .next (transit (descDiv rs rt) s)

/-- DIVU (R251) -/
def descDivu (rs rt : Reg) : Desc := mduForm true
    (fun a b => if b = 0 then none else some (BitVec.ofNat 32 (a.toNat % b.toNat), BitVec.ofNat 32 (a.toNat / b.toNat)))
    rs rt

/-- DIVU executed. -/
def execDivu (rs rt : Reg) (s : State) : Host.Outcome State Fault Refusal :=
  .next (transit (descDivu rs rt) s)

/-- MFHI (R252) -/
def descMfhi (rd : Reg) : Desc := { op3 := some .hi, ex := .moveOp3, wb := .gpr rd }

/-- MFHI executed. -/
def execMfhi (rd : Reg) (s : State) : Host.Outcome State Fault Refusal :=
  .next (transit (descMfhi rd) s)

/-- MFLO (R253) -/
def descMflo (rd : Reg) : Desc := { op3 := some .lo, ex := .moveOp3, wb := .gpr rd }

/-- MFLO executed. -/
def execMflo (rd : Reg) (s : State) : Host.Outcome State Fault Refusal :=
  .next (transit (descMflo rd) s)

/-- MTHI (R254) -/
def descMthi (rs : Reg) : Desc := { op1 := some rs, ex := .mtHiLo .hi, wb := .hiLo .hi }

/-- MTHI executed. -/
def execMthi (rs : Reg) (s : State) : Host.Outcome State Fault Refusal :=
  .next (transit (descMthi rs) s)

/-- MTLO (R255) -/
def descMtlo (rs : Reg) : Desc := { op1 := some rs, ex := .mtHiLo .lo, wb := .hiLo .lo }

/-- MTLO executed. -/
def execMtlo (rs : Reg) (s : State) : Host.Outcome State Fault Refusal :=
  .next (transit (descMtlo rs) s)

end Sys2Proof.Machine
end

