-- ==== Sys2Proof/Machine/System.lean ====
section
/-! DEFINITION. System instructions (spec/47_system.md R381 to R385). -/

namespace Sys2Proof.Machine

/-- SYSCALL (R381) -/
def descSyscall (_code : BitVec 20) : Desc := raises .sys

/-- SYSCALL executed. -/
def execSyscall (code : BitVec 20) (s : State) : Host.Outcome State Fault Refusal :=
  .next (transit (descSyscall code) s)

/-- BREAK (R382) -/
def descBrk (_code : BitVec 20) : Desc := raises .bp

/-- BREAK executed. -/
def execBrk (code : BitVec 20) (s : State) : Host.Outcome State Fault Refusal :=
  .next (transit (descBrk code) s)

/-- MFC0 (R384) -/
def descMfc0 (rt rd : Reg) : Desc := { mem := .mfc0 rd, wb := .gpr rt }

/-- MFC0 executed. -/
def execMfc0 (rt rd : Reg) (s : State) : Host.Outcome State Fault Refusal :=
  .next (transit (descMfc0 rt rd) s)

/-- MTC0 (R385) -/
def descMtc0 (rt rd : Reg) : Desc := { op2 := some rt, ex := .moveOp2, wb := .c0 rd }

/-- MTC0 executed. -/
def execMtc0 (rt rd : Reg) (s : State) : Host.Outcome State Fault Refusal :=
  .next (transit (descMtc0 rt rd) s)

end Sys2Proof.Machine
end

