-- ==== Sys2Proof/Machine/Describe.lean ====
section
/-! DEFINITION. The description of every decoded form: the table the cycle engine looks its records up in. -/

namespace Sys2Proof.Machine

/-- The description of an instruction, as its family file gives it. -/
def descOf : Instr → Desc
  | .add rd rs rt => descAdd rd rs rt
  | .addu rd rs rt => descAddu rd rs rt
  | .sub rd rs rt => descSub rd rs rt
  | .subu rd rs rt => descSubu rd rs rt
  | .and rd rs rt => descAnd rd rs rt
  | .or rd rs rt => descOr rd rs rt
  | .xor rd rs rt => descXor rd rs rt
  | .nor rd rs rt => descNor rd rs rt
  | .slt rd rs rt => descSlt rd rs rt
  | .sltu rd rs rt => descSltu rd rs rt
  | .sll rd rt shamt => descSll rd rt shamt
  | .srl rd rt shamt => descSrl rd rt shamt
  | .sra rd rt shamt => descSra rd rt shamt
  | .sllv rd rt rs => descSllv rd rt rs
  | .srlv rd rt rs => descSrlv rd rt rs
  | .srav rd rt rs => descSrav rd rt rs
  | .addi rt rs imm => descAddi rt rs imm
  | .addiu rt rs imm => descAddiu rt rs imm
  | .slti rt rs imm => descSlti rt rs imm
  | .sltiu rt rs imm => descSltiu rt rs imm
  | .andi rt rs imm => descAndi rt rs imm
  | .ori rt rs imm => descOri rt rs imm
  | .xori rt rs imm => descXori rt rs imm
  | .lui rt imm => descLui rt imm
  | .mult rs rt => descMult rs rt
  | .multu rs rt => descMultu rs rt
  | .div rs rt => descDiv rs rt
  | .divu rs rt => descDivu rs rt
  | .mfhi rd => descMfhi rd
  | .mflo rd => descMflo rd
  | .mthi rs => descMthi rs
  | .mtlo rs => descMtlo rs
  | .lb rt imm rs => descLb rt imm rs
  | .lbu rt imm rs => descLbu rt imm rs
  | .lh rt imm rs => descLh rt imm rs
  | .lhu rt imm rs => descLhu rt imm rs
  | .lw rt imm rs => descLw rt imm rs
  | .sb rt imm rs => descSb rt imm rs
  | .sh rt imm rs => descSh rt imm rs
  | .sw rt imm rs => descSw rt imm rs
  | .beq rs rt imm => descBeq rs rt imm
  | .bne rs rt imm => descBne rs rt imm
  | .blez rs imm => descBlez rs imm
  | .bgtz rs imm => descBgtz rs imm
  | .bltz rs imm => descBltz rs imm
  | .bgez rs imm => descBgez rs imm
  | .bltzal rs imm => descBltzal rs imm
  | .bgezal rs imm => descBgezal rs imm
  | .j target => descJ target
  | .jal target => descJal target
  | .jr rs => descJr rs
  | .jalr rd rs => descJalr rd rs
  | .addS fd fs ft => descAddS fd fs ft
  | .addD fd fs ft => descAddD fd fs ft
  | .subS fd fs ft => descSubS fd fs ft
  | .subD fd fs ft => descSubD fd fs ft
  | .mulS fd fs ft => descMulS fd fs ft
  | .mulD fd fs ft => descMulD fd fs ft
  | .divS fd fs ft => descDivS fd fs ft
  | .divD fd fs ft => descDivD fd fs ft
  | .absS fd fs => descAbsS fd fs
  | .absD fd fs => descAbsD fd fs
  | .negS fd fs => descNegS fd fs
  | .negD fd fs => descNegD fd fs
  | .movS fd fs => descMovS fd fs
  | .movD fd fs => descMovD fd fs
  | .cvtSD fd fs => descCvtSD fd fs
  | .cvtSW fd fs => descCvtSW fd fs
  | .cvtDS fd fs => descCvtDS fd fs
  | .cvtDW fd fs => descCvtDW fd fs
  | .cvtWS fd fs => descCvtWS fd fs
  | .cvtWD fd fs => descCvtWD fd fs
  | .cFS fs ft => descCFS fs ft
  | .cUnS fs ft => descCUnS fs ft
  | .cEqS fs ft => descCEqS fs ft
  | .cUeqS fs ft => descCUeqS fs ft
  | .cOltS fs ft => descCOltS fs ft
  | .cUltS fs ft => descCUltS fs ft
  | .cOleS fs ft => descCOleS fs ft
  | .cUleS fs ft => descCUleS fs ft
  | .cSfS fs ft => descCSfS fs ft
  | .cNgleS fs ft => descCNgleS fs ft
  | .cSeqS fs ft => descCSeqS fs ft
  | .cNglS fs ft => descCNglS fs ft
  | .cLtS fs ft => descCLtS fs ft
  | .cNgeS fs ft => descCNgeS fs ft
  | .cLeS fs ft => descCLeS fs ft
  | .cNgtS fs ft => descCNgtS fs ft
  | .cFD fs ft => descCFD fs ft
  | .cUnD fs ft => descCUnD fs ft
  | .cEqD fs ft => descCEqD fs ft
  | .cUeqD fs ft => descCUeqD fs ft
  | .cOltD fs ft => descCOltD fs ft
  | .cUltD fs ft => descCUltD fs ft
  | .cOleD fs ft => descCOleD fs ft
  | .cUleD fs ft => descCUleD fs ft
  | .cSfD fs ft => descCSfD fs ft
  | .cNgleD fs ft => descCNgleD fs ft
  | .cSeqD fs ft => descCSeqD fs ft
  | .cNglD fs ft => descCNglD fs ft
  | .cLtD fs ft => descCLtD fs ft
  | .cNgeD fs ft => descCNgeD fs ft
  | .cLeD fs ft => descCLeD fs ft
  | .cNgtD fs ft => descCNgtD fs ft
  | .lwc1 ft imm rs => descLwc1 ft imm rs
  | .swc1 ft imm rs => descSwc1 ft imm rs
  | .mfc1 rt fs => descMfc1 rt fs
  | .mtc1 rt fs => descMtc1 rt fs
  | .bc1t imm => descBc1t imm
  | .bc1f imm => descBc1f imm
  | .syscall code => descSyscall code
  | .brk code => descBrk code
  | .mfc0 rt rd => descMfc0 rt rd
  | .mtc0 rt rd => descMtc0 rt rd

/-- The description of a decoded word: RESERVED raises RI (R387), COPZ_UNUSABLE raises CpU with CE = z (R386). -/
def descOfDecoded : Decoded → Desc
  | .instr i => descOf i
  | .reserved => raises .ri
  | .copUnusable z => { raises .cpu with ce := z }

end Sys2Proof.Machine
end

