-- ==== Sys2Proof/Machine/Hazards.lean ====
section
/-! DEFINITION. The conditions that stall ID (spec/41_bypass_hazards.md R179 to R187) and the floating issue admission
(spec/46_float.md R310 to R312), evaluated on the state as it stands at step 12. -/

namespace Sys2Proof.Machine

/-- `memStall` (R49): MEMslot holds a record with tag MEM_STALL (log 34). -/
def State.memStall (s : State) : Bool :=
  match s.pipe.memSlot with
  | some r => r.stage == .memStall
  | none => false

/-- The load-use interlock (R180). -/
def State.loadUse (s : State) (d : Desc) : Bool :=
  match s.pipe.memSlot with
  | some p =>
    p.stage == .mem &&
      (match (descOfDecoded p.inst).lateDest with
       | some rt => d.readsX rt
       | none => false)
  | none => false

/-- The unit counting, or HI or LO not present (R181, R183). -/
def State.mduPending (s : State) : Bool := s.mdu.count != 0 || !s.hiPresent || !s.loPresent

/-- MDU busy, HI or LO not present, MTHI and MTLO ordering (R181, R182, R183). -/
def State.mduHazard (s : State) (d : Desc) : Bool :=
  (match d.ex with
   | .mdu _ _ => s.mduPending
   | .mtHiLo _ => s.mduPending
   | .idle | .alu _ | .moveOp3 | .moveFop1 | .moveOp2 | .address _ | .addressOp2 _ | .addressFop1 _ => false)
    || (match d.op3 with
        | some h => !s.presentHiLo h
        | none => false)

/-- A floating register read or written that is not present (R184). -/
def State.fpAbsent (s : State) (d : Desc) : Bool := d.fregs.any fun i => !s.presentF i

/-- The general clause (R312): "no issue while the add/sub unit is occupied". -/
def Busy.addFree (b : Busy) : Bool := b.add == 0

/-- The class thresholds (R311). -/
def Busy.threshold (b : Busy) : FpClass → Bool
  | .addSub | .cvt | .cvtW => (b.mul == 0 || decide (b.mul > 2)) && (b.div == 0 || decide (b.div > 4))
  | .mulS => b.mul == 0 && (b.div == 0 || decide (b.div > 2))
  | .mulD => b.mul == 0 && (b.div == 0 || decide (b.div > 3))
  | .divS | .divD => b.div == 0

/-- `canIssue` (R310). -/
def Busy.canIssue (b : Busy) (c : FpClass) : Bool := b.addFree && b.threshold c

/-- FP issue admission (R185). -/
def State.fpBlocked (s : State) (d : Desc) : Bool :=
  match d.fp with
  | some (c, _) => !s.busy.canIssue c
  | none => false

/-- `FpCond` not present, for a compare or a floating branch (R187). -/
def State.condAbsent (s : State) (d : Desc) : Bool :=
  !s.fpCondPresent &&
    (d.cond ||
      (match d.ctrl with
       | .fpBranch _ _ => true
       | .seq | .branch _ _ | .jump _ | .jumpReg => false))

/-- R179: step 12 stalls "exactly when at least one of the conditions of rules R180 to R187 holds". -/
def State.hazard (s : State) (d : Desc) : Bool :=
  s.loadUse d || s.mduHazard d || s.fpAbsent d || s.fpBlocked d || s.condAbsent d

end Sys2Proof.Machine
end

