-- ==== Sys2Proof/Machine/Engine.lean ====
section
/-! DEFINITION. The cycle engine: the fifteen steps of one cycle in their order (spec/40_pipeline_engine.md R123 to R140).
Only a pool without a free record ends a cycle fatally (R447). -/

namespace Sys2Proof.Machine

/-- The description of the instruction a record holds. -/
def Rec.desc (r : Rec) : Desc := descOfDecoded r.inst

/-- Step 1 (R125): the poll. -/
def State.stepBus (s : State) : State := { s.memPoll.2 with busDone := s.memPoll.1 }

/-- Step 2 (R126, R243): the tick that finds 1 commits; a greater count is lowered by one. -/
def State.stepMdu (s : State) : State :=
  if s.mdu.count = 1 then s.commitMdu
  else { s with mdu := { s.mdu with count := s.mdu.count - 1 } }

/-- Step 3 (R127): the busy counters lowered, floor 0. -/
def State.stepBusy (s : State) : State :=
  { s with busy := { add := s.busy.add - 1, mul := s.busy.mul - 1, div := s.busy.div - 1 } }

/-- The records of a list committed as FWB does (R128), each freed. -/
def State.commitAll (s : State) : List Rec → State
  | [] => s
  | r :: rest =>
    let t := r.desc.fwbCommit r s
    State.commitAll { t with poolFree := t.poolFree + 1 } rest

/-- Step 4 (R128): the FWB list drained. -/
def State.stepFWB (s : State) : State :=
  let t := s.commitAll s.pipe.fwbList
  { t with pipe := { t.pipe with fwbList := [] } }

/-- The claim of a younger record that the flush restores (R441 a). -/
def youngerClaim (slot : Option Rec) : List Claim :=
  match slot with
  | some q => if q.exception.isNone then [q.desc.claim] else []
  | none => []

/-- The claim of the faulting record: restored if it is an LWC1 (R441 a). -/
def faultingClaim (r : Rec) : List Claim :=
  match r.desc.mem with
  | .loadF => [r.desc.claim]
  | .pass | .load _ _ | .store _ | .mfc0 _ | .mtc1 => []

/-- The claims a flush restores (R441 a). -/
def State.flushClaims (s : State) (r : Rec) : List Claim :=
  youngerClaim s.pipe.exSlot ++ youngerClaim s.pipe.memSlot ++ youngerClaim s.pipe.ex1Slot ++ youngerClaim s.pipe.ex2Slot
    ++ faultingClaim r

/-- Step 5 (R129 b) of a record without an exception: commit, free, empty the slot. -/
def State.retireWB (s : State) (r : Rec) : State :=
  let t := r.desc.wbStage r s
  { t with pipe := { t.pipe with wbSlot := none }, poolFree := t.poolFree + 1 }

/-- An EX3 entry: tested, then lowered (R130). -/
def lowerCount (r : Rec) : Rec := { r with count := r.count - 1 }

/-- Step 6 (R130): the entries with `Count` 0 to FWB, the others lowered. -/
def State.stepEX3 (s : State) : State :=
  { s with
    pipe := { s.pipe with
      ex3List := (s.pipe.ex3List.filter (fun e => e.count != 0)).map lowerCount
      fwbList := s.pipe.fwbList ++ (s.pipe.ex3List.filter (fun e => e.count == 0)).map fun e => { e with stage := .fwb } } }

/-- Step 7 (R131): the EX2 record to the end of EX3. -/
def State.stepEX2 (s : State) : State :=
  match s.pipe.ex2Slot with
  | some r => { s with pipe := { s.pipe with ex3List := s.pipe.ex3List ++ [{ r with stage := .ex3 }], ex2Slot := none } }
  | none => s

/-- The bypass value of MEM (R133 c, e; R142): of an integer destination. -/
def State.forwardMEM (s : State) (r : Rec) : State :=
  match r.desc.wb with
  | .gpr d => s.recordMEM d r.result
  | .none | .c0 _ | .hiLo _ => s

/-- The bypass value of EX (R135 c): of an integer destination whose value is known in EX (R145). -/
def State.forwardEX (s : State) (r : Rec) : State :=
  match r.exception, r.desc.mem, r.desc.wb with
  | none, .pass, .gpr d => s.recordEX d r.result
  | _, _, _ => s

/-- A record moved from MEM to WB (R133 a, R143). -/
def State.toWB (s : State) (r : Rec) : State :=
  { s with pipe := { s.pipe with wbSlot := some { r with stage := .wb }, memSlot := none } }

/-- Routing out of MEM (R143). -/
def State.route (s : State) (r : Rec) : State :=
  if r.exception.isNone && r.desc.toEX3 then
    { s with pipe := { s.pipe with ex3List := s.pipe.ex3List ++ [{ r with stage := .ex3, count := 0 }], memSlot := none } }
  else s.toWB r

/-- The end of a data access that hit or completed: completion (R142), bypass, routing. -/
def State.finishAccess (s : State) (r : Rec) (datum : Datum) : State :=
  let c := r.desc.complete datum r s
  (c.2.forwardMEM c.1).route c.1

/-- Step 8 (R132): a MEM_STALL record whose bus tag has just completed leaves MEM. -/
def State.stepUnstall (s : State) : State :=
  match s.pipe.memSlot, s.busDone with
  | some r, some (tag, datum) =>
    if r.stage = .memStall ∧ r.busTag = tag then s.finishAccess r datum else s
  | _, _ => s

/-- Step 9 (R133 b): the data request of a record. -/
def State.access (s : State) (k : Kind) (r : Rec) : State :=
  let q := r.desc.dataRequest k r s
  match q.2.1.exc with
  | some e => q.2.2.toWB { q.1 with exception := some e }
  | none =>
    if q.2.1.hit then q.2.2.finishAccess q.1 q.2.1.datum
    else
      { q.2.2 with
        pipe := { q.2.2.pipe with memSlot := some { q.1 with stage := .memStall, busTag := q.2.1.tag } } }

/-- Step 9 (R133): a record in MEM. -/
def State.stepMEM (s : State) : State :=
  match s.pipe.memSlot with
  | some r =>
    if r.stage = .mem then
      match r.exception, r.desc.request with
      | some _, _ => s.toWB r
      | none, some k => s.access k r
      | none, none =>
        let m := r.desc.memMove r s
        (m.2.forwardMEM m.1).route m.1
    else s
  | none => s

/-- `FP_COUNT[class]` (R318). -/
def fpCountOf (c : FpCounts) : FpClass → Nat
  | .addSub => c.add
  | .cvt | .cvtW => c.cvt
  | .mulS => c.mulS
  | .mulD => c.mulD
  | .divS => c.divS
  | .divD => c.divD

/-- The busy charge (R314). -/
def Busy.charge (b : Busy) (c : BusyCharges) : FpClass → Busy
  | .addSub => { b with add := c.addSub }
  | .cvt | .cvtW => { b with add := c.cvt }
  | .mulS => { b with mul := c.mulS }
  | .mulD => { b with mul := c.mulD }
  | .divS => { b with div := c.divS }
  | .divD => { b with div := c.divD }

/-- Step 10 (R134): the EX1 record computed, counted, charged and moved to EX2. -/
def State.stepEX1 (s : State) : State :=
  match s.pipe.ex1Slot with
  | some r =>
    match r.desc.fp with
    | some (c, f) =>
      let q := fpResult f r s
      { q.2 with
        busy := q.2.busy.charge q.2.params.busy c
        pipe := { q.2.pipe with
          ex1Slot := none, ex2Slot := some { q.1 with stage := .ex2, count := fpCountOf q.2.params.fpCount c } } }
    | none => { s with pipe := { s.pipe with ex1Slot := none, ex2Slot := some { r with stage := .ex2 } } }
  | none => s

/-- The squash condition (R244): WBslot holds a record with an exception. -/
def State.squash (s : State) : Bool :=
  match s.pipe.wbSlot with
  | some r => r.exception.isSome
  | none => false

/-- A record moved from EX to MEM (R135 d). -/
def State.toMEM (s : State) (r : Rec) : State :=
  { s with pipe := { s.pipe with memSlot := some { r with stage := .mem }, exSlot := none } }

/-- Step 11 (R135): the record in EX, unless MEM is stalled. -/
def State.stepEX (s : State) : State :=
  match s.pipe.exSlot with
  | some r =>
    if s.memStall then s
    else
      match r.exception with
      | some _ => s.toMEM r
      | none =>
        let q := r.desc.exStage s.squash r s
        (q.2.forwardEX q.1).toMEM q.1
  | none => s

/-- A record moved from ID to EX. -/
def State.toEX (s : State) (r : Rec) : State :=
  { s with pipe := { s.pipe with exSlot := some { r with stage := .ex }, idSlot := none } }

/-- A record moved from ID to EX1. -/
def State.toEX1 (s : State) (r : Rec) : State :=
  { s with pipe := { s.pipe with ex1Slot := some { r with stage := .ex1 }, idSlot := none } }

/-- Step 12 (R136 b, c, d) of a record without a fetch exception. -/
def State.decodeID (s : State) (r : Rec) : State :=
  match r.desc.idException with
  | some e => { s with bdFlag := false }.toEX { r with exception := some e, ce := r.desc.ce }
  | none =>
    if s.hazard r.desc then { s with idStall := true }
    else
      let p := r.desc.idStage r s
      if r.desc.fp.isSome then p.2.toEX1 p.1 else p.2.toEX p.1

/-- Step 12 (R136): the record in ID, unless MEM is stalled. -/
def State.stepID (s : State) : State :=
  match s.pipe.idSlot with
  | some r =>
    if s.memStall then s
    else
      match r.exception with
      | some _ => { s with bdFlag := false }.toEX r
      | none => s.decodeID r
  | none => s

/-- Promotion from IF to ID (R140). -/
def State.promote (s : State) (r : Rec) : State :=
  { s.commitPc with
    pipe := { s.pipe with idSlot := some { r with stage := .id, inDelaySlot := s.bdFlag }, ifSlot := none } }

/-- The IF record promoted unless a later stage stalls, in which case it stays as it is now (R137, R138). -/
def State.promoteOrStay (s : State) (r : Rec) : State :=
  if s.memStall || s.idStall then { s with pipe := { s.pipe with ifSlot := some r } } else s.promote r

/-- `Decode` of a fetched datum (R90, R138). -/
def State.decode (s : State) (datum : Datum) : Decoded := decodeWord s.params.usable (extendDatum false datum)

/-- A record given the instruction fetched for it (R137, R138 c); one that an earlier request has tagged holds none (R138 a;
log 38). -/
def Rec.fetched (r : Rec) (inst : Decoded) : Rec := if r.exception.isSome then r else { r with inst := inst }

/-- A record whose fetch is refused (R138 a): tagged unless an earlier request has tagged it ("tagged at most once", R433), with
its pc for address, and "no instruction", not even one that an earlier request hit (log 38). -/
def Rec.refused (r : Rec) (e : Exc) : Rec :=
  { r with exception := some (r.exception.getD e), addr := r.pc, inst := .reserved }

/-- The completion of a stalled fetch latched (R137). -/
def State.latchFetch (s : State) (r : Rec) : Rec :=
  match s.busDone with
  | some (tag, datum) => if r.busTag = tag then { r.fetched (s.decode datum) with fetchDone := true } else r
  | none => r

/-- Step 14 (R138): the fetch request of the IF record. -/
def State.fetchIF (s : State) (r : Rec) : State :=
  let a := s.memReq .ifetch r.pc 0
  match a.1.exc with
  | some e => a.2.promoteOrStay (r.refused e)
  | none =>
    if a.1.hit then a.2.promoteOrStay (r.fetched (a.2.decode a.1.datum))
    else
      { a.2 with
        pipe := { a.2.pipe with ifSlot := some { r with stage := .ifStall, busTag := a.1.tag, fetchDone := false } } }

/-- Steps 13 and 14 (R137, R138): the record in IF. -/
def State.stepIF (s : State) : State :=
  match s.pipe.ifSlot with
  | some r =>
    if r.stage = .ifStall then
      let r := s.latchFetch r
      if r.fetchDone then s.promoteOrStay r else { s with pipe := { s.pipe with ifSlot := some r } }
    else s.fetchIF r
  | none => s

/-- Step 15 (R139): a fresh record at `fpc` if IFslot is empty; none when the pool is exhausted (R447). -/
def State.allocate (s : State) : Option State :=
  match s.pipe.ifSlot with
  | some _ => some s
  | none =>
    if s.poolFree = 0 then none
    else some { s with poolFree := s.poolFree - 1, pipe := { s.pipe with ifSlot := some (freshRec s.fpc) } }

/-- Steps 1 to 4, after the prologue. -/
def State.serviceSteps (s : State) : State := s.prologue.stepBus.stepMdu.stepBusy.stepFWB

/-- Steps 6 to 14. -/
def State.advanceSteps (s : State) : State :=
  s.stepEX3.stepEX2.stepUnstall.stepMEM.stepEX1.stepEX.stepID.stepIF

/-- One cycle (R123): none when it ends fatally. An exception committed in step 5 ends it there (R129 a). -/
def State.runCycle (s : State) : Option State :=
  let t := s.serviceSteps
  match t.pipe.wbSlot with
  | none => t.advanceSteps.allocate
  | some r =>
    match r.exception with
    | some e => some (t.takeException r e (t.flushClaims r))
    | none => (t.retireWB r).advanceSteps.allocate

end Sys2Proof.Machine
end

