-- ==== Sys2Proof/Machine/Harness.lean ====
section
/-! DEFINITION. The driver's entry points and the harness that calls them: `run` (spec/40_pipeline_engine.md R121, R122),
`reset` (spec/70_reset_and_hazards.md R470), the policy after an exception (spec/60_exceptions.md R444), and the fetch of one
instruction alone (log 1). -/

namespace Sys2Proof.Machine

/-- `reset()` (R470): the values of R53; parameters, memory, the collaborator, the injector and the harness's own data are not
touched (R473); `fpc`, `fnpc` as State.reset has them (log 2). A fatal state ends (R471). -/
def State.resetCall (s : State) : State :=
  { State.reset with
    params := s.params
    poolFree := s.params.poolCapacity
    inj := s.inj
    mem := s.mem
    script := s.script
    pending := s.pending
    mode := .idle
    calls := s.calls
    outcome := s.outcome
    draws := s.draws }

/-- The outcome `fatal` (R447). -/
def State.goFatal (s : State) : State := { s with mode := .fatal, outcome := some .fatal }

/-- The PC pair and `BDflag` at the start of a run (R121). -/
def State.startAt (s : State) (start : Word) : State := { s with fpc := start, fnpc := start + 4, bdFlag := false }

/-- The beginning of `run(start, budget)` (R121): a start if IFslot is empty, else nothing; fatal when the pool is exhausted. -/
def State.startRun (s : State) (start : Word) (budget : Nat) : State :=
  match s.pipe.ifSlot with
  | some _ => { s with mode := .cycles budget }
  | none =>
    match (s.startAt start).allocate with
    | some t => { t with mode := .cycles budget }
    | none => s.goFatal

/-- After a cycle that committed an exception (R122, R444): the harness continues at `EXC_VECTOR` with the remaining budget, or
stops. -/
def State.afterCycle (s : State) (budget : Nat) : State :=
  if s.excFound then
    if policyContinues s.params.policy (s.readC0 causeReg) then
      { s with outcome := some .exceptionHandledContinue }.startRun s.params.excVector budget
    else { s with mode := .idle, outcome := some .exceptionHandledStop }
  else { s with mode := .cycles budget }

/-- One cycle of a run that has `budget` cycles left after it (R122). -/
def State.runOne (s : State) (budget : Nat) : State :=
  match s.runCycle with
  | some t => t.afterCycle budget
  | none => s.goFatal

/-- No record stands in a slot: the block is at rest but for older floating or MDU work (R442). -/
def State.atRest (s : State) : Bool := s.pipe.slotRecords == 0

/-- One call of the harness (log 31). `runInstrs` is accepted at rest, as `run` takes its start address only then. -/
def State.call (s : State) (c : HarnessCall) : State :=
  match c with
  | .reset => s.resetCall
  | .initInjection config draws => s.initInjection config draws
  | .run start budget => s.startRun start budget
  | .runInstrs start => if s.atRest then { s.startAt start with mode := .instr, earlier := [] } else s
  | .load address bytes => { s.writeBytes address bytes with earlier := [] }

/-- Older multi-cycle work completed before an instruction alone (log 27): what R442 says commits "in the following cycles as
usual"; its records freed, the busy counters 0. -/
def State.settle (s : State) : State :=
  let t := (s.commitAll s.pipe.fwbList).commitAll s.pipe.ex3List
  let u := { t with pipe := { t.pipe with fwbList := [], ex3List := [] }, busy := { add := 0, mul := 0, div := 0 } }
  if u.mdu.count = 0 then u else u.commitMdu

/-- The word at an address of a given memory. -/
def State.wordIn (s : State) (a : Word) (m : List Host.Cell) : Word := ({ s with mem := m } : State).readWord a

/-- The memories from which the word of the next instruction alone can be fetched (R78; log 39): that before the last two
instructions of this sequence, whose stores are never seen, and that before the third last, whose store may be; the present one
at the start of a sequence and after a flush (R441). In a cycle a gap or a stall behind a store can show it to the second
instruction after it; here it never does (log 39). -/
def State.views (s : State) : List (List Host.Cell) :=
  if s.excFound then [s.mem]
  else match s.earlier with
    | [] => [s.mem]
    | [m] => [m]
    | _ :: older => older

/-- The words those memories hold at `fpc`, the youngest first. -/
def State.fetchWords (s : State) : List Word := s.views.map (s.wordIn s.fpc)

/-- The word fetched for an instruction alone: the one all of those memories hold, else a free choice among theirs (R78,
spec/93_implementation_defined.md row 31; log 39). -/
def State.fetchWord (s : State) : Word × State :=
  let newest := s.fetchWords.headD (s.readWord s.fpc)
  if s.fetchWords.all (· == newest) then (newest, s)
  else (s.fetchWords.getD (Config.fetchAge s.draws % s.fetchWords.length) newest, s.drawn)

/-- The present memory kept among the last three for the fetches to come (log 39). -/
def State.remembered (s : State) : State :=
  { s with earlier := if s.excFound then [s.mem] else (s.mem :: s.earlier).take 3 }

/-- The fetch of one instruction alone (R91): the request at `fpc` and its answer, a miss completed at once (log 36), with the
word of the memory the fetch sees (log 39). -/
def State.fetch (s : State) : Answer × State :=
  let w := s.fetchWord
  let a := w.2.memReq .ifetch s.fpc 0
  ({ a.1 with datum := .word w.1 }, (a.2.completeNow a.1).remembered)

/-- A refused fetch (R138 a, R434): the exception belongs to the instruction at `fpc`, its address is the pc. -/
def State.fetchTrap (s : State) (e : Exc) : State :=
  ({ s.prologue.commitPc with bdFlag := false } : State).trap { s.promotedRec with exception := some e, addr := s.fpc } e []

end Sys2Proof.Machine
end

