-- ==== Sys2Proof/Machine/Single.lean ====
section
/-! DEFINITION. One instruction executed alone, from its fetch on (log 1, log 27), and the calls that are defined after a fatal
outcome. -/

namespace Sys2Proof.Machine

/-- One instruction at rest: older work settled, the word fetched at `fpc` and decoded, its meaning run (log 1, log 27). -/
def instrStep (s : State) : Host.Outcome State Fault Refusal :=
  match s.settle.fetch.1.exc with
  | some e => .next (s.settle.fetch.2.fetchTrap e)
  | none =>
    match s.settle.fetch.2.decode s.settle.fetch.1.datum with
    | .instr i => exec i s.settle.fetch.2
    | .reserved => .next (transit (descOfDecoded .reserved) s.settle.fetch.2)
    | .copUnusable z => .next (transit (descOfDecoded (.copUnusable z)) s.settle.fetch.2)

/-- A call that the spec defines after a fatal outcome (R447). -/
def allowedAfterFatal : HarnessCall → Bool
  | .reset | .initInjection _ _ => true
  | .run _ _ | .runInstrs _ | .load _ _ => false

/-- An address brought to the multiple of 4 at or below it. -/
def alignedPc (pc : Word) : Word := pc.extractLsb' 2 30 ++ 0#2

end Sys2Proof.Machine
end

