-- ==== Sys2Proof/Machine/Step.lean ====
section
/-! DEFINITION. One step of the machine: a call of the harness, one cycle of a `run`, or one instruction (log 1). -/

namespace Sys2Proof.Machine

/-- One step. A `run` in progress goes on to its end (R122); otherwise the harness's next call is made; otherwise one
instruction is executed, or, when the harness asks for none, nothing happens (log 22). -/
def step (s : State) : Host.Outcome State Fault Refusal :=
  match s.mode, s.calls with
  | .cycles 0, _ => .next { s with mode := .idle, outcome := some .ranOutOfBudget }
  | .cycles (budget + 1), _ => .next (s.runOne budget)
  | .fatal, [] => .fault .afterFatal
  | .fatal, c :: rest =>
    if allowedAfterFatal c then .next ({ s with calls := rest }.call c) else .refused .callAfterFatal
  | .instr, c :: rest => .next ({ s with calls := rest }.call c)
  | .idle, c :: rest => .next ({ s with calls := rest }.call c)
  | .idle, [] => .next s
  | .instr, [] => if s.atRest then instrStep s else .next (s.runOne 0)

/-- The state with an instruction word where the next step fetches it, in instruction mode and at rest (log 4): `fpc` brought to
a multiple of 4 (a no-op at reset), the collaborator hitting. -/
def State.withFetchWord (s : State) (nbits w : Nat) : State :=
  let pc : Word := alignedPc s.fpc
  { s with
    fpc := pc
    mem := storeBytes s.mem pc (wordBytes s.params.byteOrder (BitVec.ofNat 32 (w % 2 ^ nbits)))
    pipe := { emptyPipe with ex3List := s.pipe.ex3List, fwbList := s.pipe.fwbList }
    poolFree := s.poolFree + s.pipe.slotRecords
    script := []
    mode := .instr
    calls := []
    earlier := [] }

end Sys2Proof.Machine
end

