-- ==== Sys2Proof/Safety.lean ====
section
/-! DEFINITION. The terms claims are stated in: the invariant of the machine, the conditions on a state under which an
instruction runs, what an instruction may change, what taking an exception leaves, and the tables of the spec that say which
registers an instruction reads and writes. -/

namespace Sys2Proof

/-! ## The tables of the spec, by instruction -/

/-- `isrc` (R178): the integer registers an instruction reads in ID. -/
def Instr.isrc : Instr → List Reg
  | .add _ rs rt | .addu _ rs rt | .sub _ rs rt | .subu _ rs rt | .and _ rs rt | .or _ rs rt | .xor _ rs rt => [rs, rt]
  | .nor _ rs rt | .slt _ rs rt | .sltu _ rs rt | .sllv _ rt rs | .srlv _ rt rs | .srav _ rt rs | .mult rs rt => [rs, rt]
  | .multu rs rt | .div rs rt | .divu rs rt | .beq rs rt _ | .bne rs rt _ => [rs, rt]
  | .sll _ rt _ | .srl _ rt _ | .sra _ rt _ | .mtc0 rt _ | .mtc1 rt _ => [rt]
  | .addi _ rs _ | .addiu _ rs _ | .slti _ rs _ | .sltiu _ rs _ | .andi _ rs _ | .ori _ rs _ | .xori _ rs _ => [rs]
  | .lb _ _ rs | .lbu _ _ rs | .lh _ _ rs | .lhu _ _ rs | .lw _ _ rs | .lwc1 _ _ rs | .swc1 _ _ rs | .blez rs _ => [rs]
  | .bgtz rs _ | .bltz rs _ | .bgez rs _ | .bltzal rs _ | .bgezal rs _ | .jr rs | .jalr _ rs | .mthi rs | .mtlo rs => [rs]
  | .sb rt _ rs | .sh rt _ rs | .sw rt _ rs => [rs, rt]
  | _ => []

/-- `fsrc` (R303): the floating registers an instruction reads; `P(i)` is the pair i, i + 1. -/
def Instr.fsrc : Instr → List Reg
  | .addS _ fs ft | .subS _ fs ft | .mulS _ fs ft | .divS _ fs ft | .cFS fs ft | .cUnS fs ft | .cEqS fs ft => [fs, ft]
  | .cUeqS fs ft | .cOltS fs ft | .cUltS fs ft | .cOleS fs ft | .cUleS fs ft | .cSfS fs ft | .cNgleS fs ft => [fs, ft]
  | .cSeqS fs ft | .cNglS fs ft | .cLtS fs ft | .cNgeS fs ft | .cLeS fs ft | .cNgtS fs ft => [fs, ft]
  | .addD _ fs ft | .subD _ fs ft | .mulD _ fs ft | .divD _ fs ft | .cFD fs ft | .cUnD fs ft | .cEqD fs ft => [fs, fs + 1] ++ [ft, ft + 1]
  | .cUeqD fs ft | .cOltD fs ft | .cUltD fs ft | .cOleD fs ft | .cUleD fs ft | .cSfD fs ft | .cNgleD fs ft => [fs, fs + 1] ++ [ft, ft + 1]
  | .cSeqD fs ft | .cNglD fs ft | .cLtD fs ft | .cNgeD fs ft | .cLeD fs ft | .cNgtD fs ft => [fs, fs + 1] ++ [ft, ft + 1]
  | .absS _ fs | .negS _ fs | .movS _ fs | .cvtSW _ fs | .cvtDS _ fs | .cvtDW _ fs | .cvtWS _ fs | .mfc1 _ fs => [fs]
  | .absD _ fs | .negD _ fs | .movD _ fs | .cvtSD _ fs | .cvtWD _ fs => [fs, fs + 1]
  | .swc1 ft _ _ => [ft]
  | _ => []

/-- `fdst` (R303): the floating registers an instruction writes. -/
def Instr.fdst : Instr → List Reg
  | .addS fd _ _ | .subS fd _ _ | .mulS fd _ _ | .divS fd _ _ | .absS fd _ | .negS fd _ | .movS fd _ | .cvtSD fd _ => [fd]
  | .cvtSW fd _ | .cvtWS fd _ | .cvtWD fd _ => [fd]
  | .addD fd _ _ | .subD fd _ _ | .mulD fd _ _ | .divD fd _ _ | .absD fd _ | .negD fd _ | .movD fd _ | .cvtDS fd _ => [fd, fd + 1]
  | .cvtDW fd _ => [fd, fd + 1]
  | .lwc1 ft _ _ => [ft]
  | .mtc1 _ fs => [fs]
  | _ => []

/-- The class of a floating arithmetic instruction (R302). -/
def Instr.fpClass : Instr → Option FpClass
  | .addS _ _ _ | .subS _ _ _ | .absS _ _ | .negS _ _ | .movS _ _ | .addD _ _ _ | .subD _ _ _ | .absD _ _ | .negD _ _ => some .addSub
  | .movD _ _ | .cFS _ _ | .cUnS _ _ | .cEqS _ _ | .cUeqS _ _ | .cOltS _ _ | .cUltS _ _ | .cOleS _ _ | .cUleS _ _ => some .addSub
  | .cSfS _ _ | .cNgleS _ _ | .cSeqS _ _ | .cNglS _ _ | .cLtS _ _ | .cNgeS _ _ | .cLeS _ _ | .cNgtS _ _ | .cFD _ _ => some .addSub
  | .cUnD _ _ | .cEqD _ _ | .cUeqD _ _ | .cOltD _ _ | .cUltD _ _ | .cOleD _ _ | .cUleD _ _ | .cSfD _ _ | .cNgleD _ _ => some .addSub
  | .cSeqD _ _ | .cNglD _ _ | .cLtD _ _ | .cNgeD _ _ | .cLeD _ _ | .cNgtD _ _ => some .addSub
  | .cvtSD _ _ | .cvtSW _ _ | .cvtWS _ _ | .cvtWD _ _ => some .cvt
  | .cvtDS _ _ | .cvtDW _ _ => some .cvtW
  | .mulS _ _ _ => some .mulS
  | .mulD _ _ _ => some .mulD
  | .divS _ _ _ => some .divS
  | .divD _ _ _ => some .divD
  | _ => none

/-- The integer destination (R145), and whether its value is known only in MEM (a late producer). -/
def Instr.intDest : Instr → Option (Reg × Bool)
  | .add rd _ _ | .addu rd _ _ | .sub rd _ _ | .subu rd _ _ | .and rd _ _ | .or rd _ _ | .xor rd _ _ | .nor rd _ _ => some (rd, false)
  | .slt rd _ _ | .sltu rd _ _ | .sllv rd _ _ | .srlv rd _ _ | .srav rd _ _ | .sll rd _ _ | .srl rd _ _ | .sra rd _ _ => some (rd, false)
  | .mfhi rd | .mflo rd | .jalr rd _ => some (rd, false)
  | .addi rt _ _ | .addiu rt _ _ | .slti rt _ _ | .sltiu rt _ _ | .andi rt _ _ | .ori rt _ _ | .xori rt _ _ => some (rt, false)
  | .lui rt _ | .mfc1 rt _ => some (rt, false)
  | .jal _ | .bltzal _ _ | .bgezal _ _ => some (31, false)
  | .lb rt _ _ | .lbu rt _ _ | .lh rt _ _ | .lhu rt _ _ | .lw rt _ _ | .mfc0 rt _ => some (rt, true)
  | _ => none

/-- The instructions of the multiply/divide unit that issue to it (R242), and whether they divide. -/
def Instr.issues : Instr → Option Bool
  | .mult _ _ | .multu _ _ => some false
  | .div _ _ | .divu _ _ => some true
  | _ => none

/-- Whether an instruction is C.cond.S or C.cond.D. -/
def Instr.isCompare (i : Instr) : Bool := i.fpClass == some .addSub && i.fdst.isEmpty

end Sys2Proof

namespace Sys2Proof.Machine

/-! ## The invariant -/

/-- A record in a slot has a tag of that slot (R44). -/
def slotTag (slot : Option Rec) (allowed : List Tag) : Bool :=
  match slot with
  | some r => allowed.contains r.stage
  | none => true

/-- The slot tags of R44, R45. -/
def Pipe.tagged (p : Pipe) : Bool :=
  slotTag p.ifSlot [.ifetch, .ifStall] && slotTag p.idSlot [.id] && slotTag p.exSlot [.ex]
    && slotTag p.memSlot [.mem, .memStall] && slotTag p.wbSlot [.wb]
    && slotTag p.ex1Slot [.ex1] && slotTag p.ex2Slot [.ex2]
    && p.ex3List.all (fun r => r.stage == .ex3) && p.fwbList.all (fun r => r.stage == .fwb)

/-- Floating records carry no exception: "A record in EX1, EX2, EX3 or FWB always has `exception = 0`" (R308). -/
def Pipe.fpClean (p : Pipe) : Bool :=
  p.ex1Slot.all (fun r => r.exception.isNone) && p.ex2Slot.all (fun r => r.exception.isNone)
    && p.ex3List.all (fun r => r.exception.isNone) && p.fwbList.all (fun r => r.exception.isNone)

/-- "free count plus records in slots and lists equals `POOL_CAPACITY`" (R43). -/
def State.poolExact (s : State) : Bool := s.poolFree + s.pipe.records == s.params.poolCapacity

/-- The invariant of the machine: the memory in canonical form, the cell of register 0 untouched (R21, R416), the pool
accounting (R43), the slot tags (R44, R45), the floating records without exceptions (R308). -/
def State.Inv (s : State) : Bool :=
  Memory.wf s.mem && s.x[0] == zeroCell && s.poolExact && s.pipe.tagged && s.pipe.fpClean

/-! ## Conditions on a state -/

/-- No fault is scheduled at a location. -/
def LocFaults.quiet (lf : LocFaults) : Bool := lf.byCycle.isEmpty && lf.byEvent.isEmpty

/-- No fault is scheduled anywhere: "Its default configuration is empty, and then no rule of this file has any effect"
(spec/49_fault_injection.md). -/
def Injector.quiet (j : Injector) : Bool :=
  j.rf.quiet && j.id.quiet && j.mdu.quiet && j.memPre.quiet && j.memPost.quiet && j.wb.quiet && j.alu.quiet

/-- The fault-free machine. -/
def State.quiet (s : State) : Bool := s.inj.quiet

/-- Every floating register is present: no floating write is pending (R29). -/
def State.fpReady (s : State) : Bool := s.fPresent.toList.all id

/-- No older multi-cycle work is left: nothing in EX3 or FWB, the unit and the busy counters idle (R442). -/
def State.settled (s : State) : Bool :=
  s.pipe.ex3List.isEmpty && s.pipe.fwbList.isEmpty && s.mdu.count == 0 && s.busy == { add := 0, mul := 0, div := 0 }

/-- The effective address of a load or store (R260): `(x[rs] + sext_32(imm16)) mod 2^32`. -/
def State.effAddr (s : State) (rs : Reg) (imm : Imm) : Word := s.readX rs + imm.signExtend 32

/-- How the collaborator refuses a request, if it does (R64 a, R70, R431): misalignment first, then its script. -/
def State.refusal (s : State) (k : Kind) (a : Word) : Option Exc :=
  if misaligned k a then some (alignmentCode k)
  else
    match s.script with
    | .refuse why :: _ => refusalCode k why
    | _ => none

/-- The instruction answers a next state of which P holds. -/
def Completes (i : Instr) (s : State) (P : State → Prop) : Prop := ∃ t, exec i s = .next t ∧ P t

/-- The floating registers the instruction of a record writes. -/
def Rec.fdst (r : Rec) : List Reg :=
  match r.inst with
  | .instr i => i.fdst
  | .reserved => []
  | .copUnusable _ => []

/-- Whether the instruction of a record is a compare. -/
def Rec.isCompare (r : Rec) : Bool :=
  match r.inst with
  | .instr i => i.isCompare
  | .reserved => false
  | .copUnusable _ => false

/-! ## Rounding (R306) -/

/-- q is the integer nearest to a / b, the even one of two equally near. -/
def NearestEven (a b q : Nat) : Prop :=
  2 * a ≤ (2 * q + 1) * b ∧ 2 * q * b ≤ 2 * a + b ∧ (2 * a = (2 * q + 1) * b ∨ 2 * q * b = 2 * a + b → q % 2 = 0)

/-- v is the number (-1)^neg * (num / den) * 2^pow rounded to the format, to nearest, ties to even (R306): u is the last place
kept, that of a subnormal at the least; q counts units of it; from the power after the greatest exponent on the result is the
infinity of R307, else the number q * 2^u. -/
def Format.Rounds (m : Format) (neg : Bool) (num den : Nat) (pow : Int) (v : FpVal) : Prop :=
  ∃ (p : DWord) (u : Int) (q : Nat), v = .bits p ∧ m.minPow ≤ u
    ∧ num * 2 ^ (pow - (u + m.fracBits + 1)).toNat < den * 2 ^ (u + m.fracBits + 1 - pow).toNat
    ∧ (u = m.minPow ∨ den * 2 ^ (u + m.fracBits - pow).toNat ≤ num * 2 ^ (pow - (u + m.fracBits)).toNat)
    ∧ NearestEven (num * 2 ^ (pow - u).toNat) (den * 2 ^ (u - pow).toNat) q
    ∧ if 2 ^ (m.fracBits + m.maxExp - 1) ≤ q * 2 ^ (u - m.minPow).toNat then m.unpack p.toNat = .inf neg
      else ∃ x y, m.unpack p.toNat = .fin neg x y ∧ m.minPow ≤ y
        ∧ x * 2 ^ (y - m.minPow).toNat = q * 2 ^ (u - m.minPow).toNat

/-- v is the exact sum `sum * 2^pow` of two numbers of signs s, t, rounded; a zero sum is +0 unless both are negative zeros. -/
def Format.RoundsSum (m : Format) (s t : Bool) (sum pow : Int) (v : FpVal) : Prop :=
  (sum = 0 → m.Rounds (s && t) 0 1 0 v) ∧ (sum ≠ 0 → m.Rounds (decide (sum < 0)) sum.natAbs 1 pow v)

/-- Sum, difference, product and quotient of two finite numbers, each the exact one rounded (R306); the quotient by zero is in
R307. -/
def Format.RoundsAll (m : Format) (a b : FpNum) (add sub mul div : FpVal) : Prop :=
  ∀ (s t : Bool) (x y : Nat) (p q : Int), a = .fin s x p → b = .fin t y q →
    (∀ (c : Int) (i j : Nat), p = c + i → q = c + j →
      m.RoundsSum s t (signedSig s (x * 2 ^ i) + signedSig t (y * 2 ^ j)) c add
      ∧ m.RoundsSum s (!t) (signedSig s (x * 2 ^ i) - signedSig t (y * 2 ^ j)) c sub)
    ∧ m.Rounds (s != t) (x * y) 1 (p + q) mul ∧ (y ≠ 0 → m.Rounds (s != t) x y (p - q) div)

/-- v is the number converted to W (R307, R338): the nearest integer, ties to even, or the invalid result. -/
def RoundsToWord (a : FpNum) (v : FpVal) : Prop :=
  match a with
  | .nan => v = .cvtInvalid
  | .inf _ => v = .cvtInvalid
  | .fin neg x p =>
    ∃ q, NearestEven (x * 2 ^ p.toNat) (2 ^ (-p).toNat) q
      ∧ v = if -2147483648 ≤ signedSig neg q ∧ signedSig neg q ≤ 2147483647 then
          .bits ((BitVec.ofInt 32 (signedSig neg q)).zeroExtend 64) else .cvtInvalid

/-! ## What an instruction leaves alone -/

/-- Every integer register is as before. -/
def SameX (s t : State) : Prop := ∀ i, t.readX i = s.readX i

/-- Every integer register but one is as before. -/
def SameXBut (d : Reg) (s t : State) : Prop := ∀ i, i ≠ d → t.readX i = s.readX i

/-- Every floating register and its presence flag is as before. -/
def SameF (s t : State) : Prop := ∀ i, t.readF i = s.readF i ∧ t.presentF i = s.presentF i

/-- Every floating register but those of an operand, and its flag, is as before. -/
def SameFBut (o : FOpnd) (s t : State) : Prop := ∀ i, i ∉ o.regs → t.readF i = s.readF i ∧ t.presentF i = s.presentF i

/-- HI, LO and their flags are as before. -/
def SameHiLo (s t : State) : Prop := t.hi = s.hi ∧ t.lo = s.lo ∧ t.hiPresent = s.hiPresent ∧ t.loPresent = s.loPresent

/-- `FpCond` and its flag are as before. -/
def SameCond (s t : State) : Prop := t.fpCond = s.fpCond ∧ t.fpCondPresent = s.fpCondPresent

/-- Every coprocessor-0 register is as before. -/
def SameC0 (s t : State) : Prop := ∀ i, t.readC0 i = s.readC0 i

/-- Every byte of memory is as before. -/
def SameMem (s t : State) : Prop := ∀ a, t.readByte a = s.readByte a

/-- Every byte of memory outside the n bytes from an address on is as before. -/
def SameMemOutside (a : Word) (n : Nat) (s t : State) : Prop := ∀ b : Word, n ≤ (b - a).toNat → t.readByte b = s.readByte b

/-- The records, lists and pool of the pipeline, the parameters, and what the harness asked for are as before. -/
def SameMachine (s t : State) : Prop :=
  t.pipe = s.pipe ∧ t.poolFree = s.poolFree ∧ t.params = s.params ∧ t.busy = s.busy ∧ t.mode = s.mode ∧ t.calls = s.calls
    ∧ t.outcome = s.outcome

/-- The next instruction is the one `fnpc` names, and it is in no delay slot (R140, R282); no exception was taken. -/
def InOrder (s t : State) : Prop := t.fpc = s.fnpc ∧ t.fnpc = s.fnpc + 4 ∧ t.bdFlag = false ∧ t.excFound = false

/-- The next instruction is the delay slot, and the one after it is at `next` (R281, R282); no exception was taken. -/
def Branched (next : Word) (s t : State) : Prop := t.fpc = s.fnpc ∧ t.fnpc = next ∧ t.bdFlag = true ∧ t.excFound = false

/-- The only register written is integer register d, with v; register 0 discards it (R21). Nothing else is written. -/
def WritesX (d : Reg) (v : Word) (s t : State) : Prop :=
  t.readX d = (if d = 0#5 then 0 else v) ∧ SameXBut d s t ∧ SameF s t ∧ SameHiLo s t ∧ SameCond s t ∧ SameC0 s t ∧ SameMem s t
    ∧ SameMachine s t

/-- No register, flag or byte is written. -/
def WritesNothing (s t : State) : Prop :=
  SameX s t ∧ SameF s t ∧ SameHiLo s t ∧ SameCond s t ∧ SameC0 s t ∧ SameMem s t ∧ SameMachine s t

/-- Only the floating destination is written, with the pattern v (R128): the low half for a single, the pair for a double;
its flags are true. -/
def WritesF (o : FOpnd) (v : DWord) (s t : State) : Prop :=
  (match o with
   | .single r => t.readF r = v.extractLsb' 0 32
   | .double r => t.readFD r = v)
    ∧ (∀ i, i ∈ o.regs → t.presentF i = true) ∧ SameFBut o s t ∧ SameX s t ∧ SameHiLo s t ∧ SameCond s t ∧ SameC0 s t
    ∧ SameMem s t ∧ SameMachine s t

/-- Only `FpCond` is written; its flag is true (R345). -/
def WritesCond (b : Bool) (s t : State) : Prop :=
  t.fpCond = b ∧ t.fpCondPresent = true ∧ SameX s t ∧ SameF s t ∧ SameHiLo s t ∧ SameC0 s t ∧ SameMem s t ∧ SameMachine s t

/-- Only HI and LO are written; their flags are true. -/
def WritesHiLo (hi lo : Word) (s t : State) : Prop :=
  t.hi.read = hi ∧ t.lo.read = lo ∧ t.hiPresent = true ∧ t.loPresent = true ∧ SameX s t ∧ SameF s t ∧ SameCond s t
    ∧ SameC0 s t ∧ SameMem s t ∧ SameMachine s t

/-- Only C0[d] is written. -/
def WritesC0 (d : Reg) (v : Word) (s t : State) : Prop :=
  t.readC0 d = v ∧ (∀ i, i ≠ d → t.readC0 i = s.readC0 i) ∧ SameX s t ∧ SameF s t ∧ SameHiLo s t ∧ SameCond s t ∧ SameMem s t
    ∧ SameMachine s t

/-- Only the n bytes of memory from an address on are written. -/
def WritesMem (a : Word) (n : Nat) (s t : State) : Prop :=
  SameMemOutside a n s t ∧ SameX s t ∧ SameF s t ∧ SameHiLo s t ∧ SameCond s t ∧ SameC0 s t ∧ SameMachine s t

/-! ## Exceptions -/

/-- What an exception of the instruction at `pc` leaves (R440, R441): Cause, EPC and, for an address exception, BadVAddr
written; no other coprocessor-0 register, no integer or floating register, not HI, LO, `FpCond`, not memory. -/
def Trapped (e : Exc) (ce : BitVec 2) (bad : Word) (s t : State) : Prop :=
  t.readC0 causeReg = causeWord s.params.codes s.bdFlag ce e
    ∧ t.readC0 epcReg = epcWord s.bdFlag s.fpc
    ∧ t.readC0 badVAddrReg = (if savesAddress e then bad else s.readC0 badVAddrReg)
    ∧ (∀ i, i ≠ causeReg → i ≠ epcReg → i ≠ badVAddrReg → t.readC0 i = s.readC0 i)
    ∧ t.excFound = true ∧ SameX s t ∧ SameF s t ∧ SameHiLo s t ∧ SameCond s t ∧ SameMem s t
    ∧ t.params = s.params ∧ t.bdFlag = false

/-- The harness's part after an exception (R444): it goes on at `EXC_VECTOR`, or it stops. -/
def Resumed (s t : State) : Prop :=
  if policyContinues s.params.policy (t.readC0 causeReg) then
    t.fpc = s.params.excVector ∧ t.fnpc = s.params.excVector + 4 ∧ t.mode = s.mode
      ∧ t.outcome = some .exceptionHandledContinue
  else t.mode = .idle ∧ t.outcome = some .exceptionHandledStop

end Sys2Proof.Machine
end

