-- ==== Sys2Proof/Certificates/Slice0/Obligations.lean ====
section
/-! DEFINITION. The statements for the provers. A statement about an instruction speaks of the instruction executed alone (log 1)
in the fault-free machine (`State.quiet`), unless it says otherwise; a statement about a step of the engine speaks of that step. -/

open Sys2Proof Sys2Proof.Machine

/-! ## Reset, runs, the harness -/

/-- R470, R473: what `reset()` leaves, from any state. -/
def Obligations.ResetValues : Prop :=
  ∀ s : State,
    (∀ i : Reg, s.resetCall.x[i.toNat] = zeroCell ∧ s.resetCall.f[i.toNat] = zeroCell ∧ s.resetCall.readC0 i = 0
      ∧ s.resetCall.presentF i = true)
    ∧ s.resetCall.hi = zeroCell ∧ s.resetCall.lo = zeroCell ∧ s.resetCall.hiPresent = true ∧ s.resetCall.loPresent = true
    ∧ s.resetCall.fpCond = false ∧ s.resetCall.fpCondPresent = true ∧ s.resetCall.bdFlag = false
    ∧ s.resetCall.pipe = emptyPipe ∧ s.resetCall.poolFree = s.params.poolCapacity
    ∧ s.resetCall.bypEX = none ∧ s.resetCall.bypMEM = none
    ∧ s.resetCall.mdu = { hi := 0, lo := 0, count := 0 } ∧ s.resetCall.busy = { add := 0, mul := 0, div := 0 }
    ∧ s.resetCall.memStall = false ∧ s.resetCall.idStall = false ∧ s.resetCall.excFound = false
    ∧ s.resetCall.busDone = none ∧ s.resetCall.nextTag = 0 ∧ s.resetCall.cycle = 0
    ∧ s.resetCall.mem = s.mem ∧ s.resetCall.script = s.script ∧ s.resetCall.pending = s.pending
    ∧ s.resetCall.inj = s.inj ∧ s.resetCall.params = s.params

/-- The reset state meets the invariant. -/
def Obligations.ResetMeetsInvariant : Prop := State.reset.Inv = true

/-- R43, R44, R308, R21: every step keeps the invariant: the pool accounting, the slot tags, no exception in a floating record,
register 0 untouched, the memory in canonical form. -/
def Obligations.StepKeepsInvariant : Prop := ∀ s t : State, s.Inv = true → step s = .next t → t.Inv = true

/-- R450, R473: no step changes a parameter, `cop_usable` among them. -/
def Obligations.StepKeepsParameters : Prop := ∀ s t : State, step s = .next t → t.params = s.params

/-- R121: how a run begins: with a fresh record (its fields that R139 leaves open as log 17 has them) when the IF slot is empty,
with nothing but its budget when it is not, fatally when the pool has no record (R447; log 20). The modes are those of logs 31
and 37. -/
def Obligations.RunBegins : Prop :=
  ∀ (s : State) (start : Word) (budget : Nat),
    (s.pipe.ifSlot = none → 0 < s.poolFree →
      s.startRun start budget =
        { s with
          fpc := start, fnpc := start + 4, bdFlag := false, mode := .cycles budget, poolFree := s.poolFree - 1
          pipe := { s.pipe with ifSlot := some (freshRec start) } })
    ∧ (∀ r, s.pipe.ifSlot = some r → s.startRun start budget = { s with mode := .cycles budget })
    ∧ (s.pipe.ifSlot = none → s.poolFree = 0 →
        (s.startRun start budget).mode = .fatal ∧ (s.startRun start budget).outcome = some .fatal)

/-- R122, R444: the outcomes of a run. The modes and what is fatal are the model's (logs 20, 21, 37), and so are the fields of
the fresh record that R139 leaves open (log 17). -/
def Obligations.RunOutcomes : Prop :=
  ∀ (s : State) (budget : Nat),
    (s.mode = .cycles 0 → step s = .next { s with mode := .idle, outcome := some .ranOutOfBudget })
    ∧ (s.mode = .cycles (budget + 1) → s.runCycle = none → ∃ t, step s = .next t ∧ t.mode = .fatal ∧ t.outcome = some .fatal)
    ∧ (∀ t, s.mode = .cycles (budget + 1) → s.runCycle = some t →
        (t.excFound = false → step s = .next { t with mode := .cycles budget })
        ∧ (t.excFound = true → policyContinues t.params.policy (t.readC0 causeReg) = false →
            step s = .next { t with mode := .idle, outcome := some .exceptionHandledStop })
        ∧ (t.excFound = true → policyContinues t.params.policy (t.readC0 causeReg) = true →
            t.pipe.ifSlot = none → 0 < t.poolFree →
            ∃ u, step s = .next u ∧ u.mode = .cycles budget ∧ u.outcome = some .exceptionHandledContinue
              ∧ u.fpc = t.params.excVector ∧ u.fnpc = t.params.excVector + 4 ∧ u.bdFlag = false
              ∧ u.pipe.ifSlot = some (freshRec t.params.excVector)))

/-! ## Encoding -/

/-- Words written out from the formats of R92 and the maps of R94, R95, one of every family. -/
def Obligations.DecodeOfWrittenWords : Prop :=
  decodeTableWord 32 0b00000000001000100001100000100000 = some (.add 3 1 2)
    ∧ decodeTableWord 32 0b00100000000000010000000000000101 = some (.addi 1 0 5)
    ∧ decodeTableWord 32 0b00000000001000100000000000011000 = some (.mult 1 2)
    ∧ decodeTableWord 32 0b10001100001000101111111111111100 = some (.lw 2 0xFFFC 1)
    ∧ decodeTableWord 32 0b00000100001100010000000000000011 = some (.bgezal 1 3)
    ∧ decodeTableWord 32 0b00001100000100000000000001000000 = some (.jal 0x0100040)
    ∧ decodeTableWord 32 0b01000110001001100010000010000000 = some (.addD 2 4 6)
    ∧ decodeTableWord 32 0b01000110000001000001000000111100 = some (.cLtS 2 4)
    ∧ decodeTableWord 32 0b01000000000110100111000000000000 = some (.mfc0 26 14)
    ∧ decodeTableWord 32 0b00000000000000000000000000001100 = some (.syscall 0)
    ∧ decodeTableWord 32 0b11111100000000000000000000000000 = none

/-- R90 to R98: a word decodes to an instruction exactly when it is that instruction's encoding and the coprocessor it names, if
any, is usable. -/
def Obligations.DecodeInvertsEncode : Prop :=
  ∀ (u : CopUsable) (w : Word) (i : Instr),
    decodeWord u w = .instr i ↔ encode i = w ∧ ∀ z, copNamed w = some z → usableAt u z = true

/-- R98: the coprocessor opcodes; an unusable coprocessor is an exception of ID. -/
def Obligations.CoprocessorOpcodes : Prop :=
  ∀ (u : CopUsable) (w : Word) (z : BitVec 2),
    (opcodeOf w).toNat = 16 + z.toNat ∨ (opcodeOf w).toNat = 48 + z.toNat ∨ (opcodeOf w).toNat = 56 + z.toNat →
    (usableAt u z = false → decodeWord u w = .copUnusable z)
    ∧ (usableAt u z = true → z = 2 ∨ z = 3 → decodeWord u w = .reserved)
    ∧ (usableAt u z = true → (opcodeOf w).toNat = 48 ∨ (opcodeOf w).toNat = 56 → decodeWord u w = .reserved)
    ∧ (usableAt u z = true → decodeWord u w = (decodeMajor w).elim .reserved .instr)
    ∧ (descOfDecoded (.copUnusable z)).idException = some .cpu ∧ (descOfDecoded (.copUnusable z)).ce = z

/-! ## One step, one instruction -/

/-- R91, R140: at rest, with nothing older pending and the collaborator hitting, the step takes the next bus tag for the fetch,
keeps the present memory among the last three (log 39), and executes the instruction that the fetched word decodes to: the word
at `fpc` in the memories the fetch can see, when they agree, else one of theirs (R78, log 39). For the first instruction of a
sequence, and after an exception, that is the present memory; for a later one those without the stores of the last two. -/
def Obligations.StepRunsDecoded : Prop :=
  ∀ s : State,
    s.mode = .instr → s.calls = [] → s.atRest = true → s.settled = true → s.script = [] → s.fpc.toNat % 4 = 0 →
    (∀ (i : Instr) (w : Word), (∀ v ∈ s.fetchWords, v = w) → decodeWord s.params.usable w = .instr i →
      step s = exec i { s with
        nextTag := s.nextTag + 1, earlier := if s.excFound then [s.mem] else (s.mem :: s.earlier).take 3 })
    ∧ (∃ w ∈ s.fetchWords, ∃ n, ∀ i, decodeWord s.params.usable w = .instr i →
      step s = exec i { s with
        nextTag := s.nextTag + 1, draws := n
        earlier := if s.excFound then [s.mem] else (s.mem :: s.earlier).take 3 })
    ∧ (s.earlier = [] ∨ s.excFound = true → s.fetchWords = [s.readWord s.fpc])
    ∧ (s.excFound = false →
        (∀ m, s.earlier = [m] → s.fetchWords = [({ s with mem := m } : State).readWord s.fpc])
        ∧ ∀ m older, s.earlier = m :: older → older ≠ [] →
            s.fetchWords = older.map fun n => ({ s with mem := n } : State).readWord s.fpc)

/-- R386, R387, R434: a word that decodes to RESERVED or COPZ_UNUSABLE raises RI, or CpU with the number of the coprocessor; a
fetch that the collaborator refuses raises its exception at the instruction to be fetched, with its address. -/
def Obligations.StepTrapsOnFetch : Prop :=
  ∀ s : State, s.mode = .instr → s.calls = [] → s.atRest = true → s.settled = true →
    (s.script = [] → s.fpc.toNat % 4 = 0 → (∀ w ∈ s.fetchWords, decodeWord s.params.usable w = .reserved) →
      ∃ t, step s = .next t ∧ Trapped .ri 0 0 s t ∧ Resumed s t)
    ∧ (∀ z, s.script = [] → s.fpc.toNat % 4 = 0 → (∀ w ∈ s.fetchWords, decodeWord s.params.usable w = .copUnusable z) →
      ∃ t, step s = .next t ∧ Trapped .cpu z 0 s t ∧ Resumed s t)
    ∧ (∀ e, s.refusal .ifetch s.fpc = some e → ∃ t, step s = .next t ∧ Trapped e 0 s.fpc s t ∧ Resumed s t)

/-! ## Integer arithmetic -/

/-- R200, R204, R206 to R218: the three-register forms that cannot trap, and the shifts. -/
def Obligations.RegisterFormResults : Prop :=
  ∀ (s : State) (rd rs rt shamt : Reg), s.quiet = true →
    ∀ p ∈ [ (Instr.addu rd rs rt, s.readX rs + s.readX rt),
            (.subu rd rs rt, s.readX rs - s.readX rt),
            (.and rd rs rt, s.readX rs &&& s.readX rt),
            (.or rd rs rt, s.readX rs ||| s.readX rt),
            (.xor rd rs rt, s.readX rs ^^^ s.readX rt),
            (.nor rd rs rt, ~~~(s.readX rs ||| s.readX rt)),
            (.slt rd rs rt, if (s.readX rs).toInt < (s.readX rt).toInt then 1 else 0),
            (.sltu rd rs rt, if (s.readX rs).toNat < (s.readX rt).toNat then 1 else 0),
            (.sllv rd rt rs, s.readX rt <<< ((s.readX rs).toNat % 32)),
            (.srlv rd rt rs, s.readX rt >>> ((s.readX rs).toNat % 32)),
            (.srav rd rt rs, (s.readX rt).sshiftRight ((s.readX rs).toNat % 32)),
            (.sll rd rt shamt, s.readX rt <<< shamt.toNat),
            (.srl rd rt shamt, s.readX rt >>> shamt.toNat),
            (.sra rd rt shamt, (s.readX rt).sshiftRight shamt.toNat) ],
      Completes p.1 s fun t => WritesX rd p.2 s t ∧ InOrder s t

/-- R220 to R226: the immediate forms that cannot trap. -/
def Obligations.ImmediateResults : Prop :=
  ∀ (s : State) (rt rs : Reg) (imm : Imm), s.quiet = true →
    ∀ p ∈ [ (Instr.addiu rt rs imm, s.readX rs + imm.signExtend 32),
            (.slti rt rs imm, if (s.readX rs).toInt < imm.toInt then 1 else 0),
            (.sltiu rt rs imm, if (s.readX rs).toNat < (imm.signExtend 32 : Word).toNat then 1 else 0),
            (.andi rt rs imm, s.readX rs &&& imm.zeroExtend 32),
            (.ori rt rs imm, s.readX rs ||| imm.zeroExtend 32),
            (.xori rt rs imm, s.readX rs ^^^ imm.zeroExtend 32),
            (.lui rt imm, imm ++ 0#16) ],
      Completes p.1 s fun t => WritesX rt p.2 s t ∧ InOrder s t

/-- R203, R205, R219: ADD, SUB and ADDI when the exact result fits. -/
def Obligations.SignedArithmeticResults : Prop :=
  ∀ (s : State) (rd rs rt : Reg) (imm : Imm), s.quiet = true →
    ∀ p ∈ [ (Instr.add rd rs rt, rd, (s.readX rs).toInt + (s.readX rt).toInt),
            (.sub rd rs rt, rd, (s.readX rs).toInt - (s.readX rt).toInt),
            (.addi rt rs imm, rt, (s.readX rs).toInt + imm.toInt) ],
      -2147483648 ≤ p.2.2 → p.2.2 ≤ 2147483647 →
      Completes p.1 s fun t => WritesX p.2.1 (BitVec.ofInt 32 p.2.2) s t ∧ InOrder s t

/-- R202, R449: ADD, SUB and ADDI when the exact result does not fit: Ov, and nothing is written. -/
def Obligations.SignedOverflowTraps : Prop :=
  ∀ (s : State) (rd rs rt : Reg) (imm : Imm), s.quiet = true →
    ∀ p ∈ [ (Instr.add rd rs rt, (s.readX rs).toInt + (s.readX rt).toInt),
            (.sub rd rs rt, (s.readX rs).toInt - (s.readX rt).toInt),
            (.addi rt rs imm, (s.readX rs).toInt + imm.toInt) ],
      p.2 < -2147483648 ∨ 2147483647 < p.2 →
      Completes p.1 s fun t => Trapped .ov 0 0 s t ∧ Resumed s t

/-! ## Multiply, divide, HI, LO -/

/-- R246, R248, R249: HI and LO together are the exact 64-bit product. -/
def Obligations.MultiplyResults : Prop :=
  ∀ (s : State) (rs rt : Reg), s.quiet = true → s.mduPending = false →
    (Completes (.mult rs rt) s fun t =>
      (t.hi.read ++ t.lo.read : DWord).toInt = (s.readX rs).toInt * (s.readX rt).toInt
        ∧ WritesHiLo t.hi.read t.lo.read s t ∧ InOrder s t)
    ∧ (Completes (.multu rs rt) s fun t =>
      (t.hi.read ++ t.lo.read : DWord).toNat = (s.readX rs).toNat * (s.readX rt).toNat
        ∧ WritesHiLo t.hi.read t.lo.read s t ∧ InOrder s t)

/-- R247, R250, R251: LO the quotient truncated toward zero, HI the remainder, of the dividend's sign; the corner -2^31 / -1. -/
def Obligations.DivideResults : Prop :=
  ∀ (s : State) (rs rt : Reg), s.quiet = true → s.mduPending = false → s.readX rt ≠ 0 →
    (Completes (.div rs rt) s fun t =>
      (s.readX rs = 0x80000000 → s.readX rt = 0xFFFFFFFF → t.lo.read = 0x80000000 ∧ t.hi.read = 0)
        ∧ (¬(s.readX rs = 0x80000000 ∧ s.readX rt = 0xFFFFFFFF) →
            (s.readX rs).toInt = t.lo.read.toInt * (s.readX rt).toInt + t.hi.read.toInt
            ∧ t.hi.read.toInt.natAbs < (s.readX rt).toInt.natAbs
            ∧ (t.hi.read = 0 ∨ (t.hi.read.toInt < 0 ↔ (s.readX rs).toInt < 0)))
        ∧ WritesHiLo t.hi.read t.lo.read s t ∧ InOrder s t)
    ∧ (Completes (.divu rs rt) s fun t =>
      (s.readX rs).toNat = t.lo.read.toNat * (s.readX rt).toNat + t.hi.read.toNat
        ∧ t.hi.read.toNat < (s.readX rt).toNat ∧ WritesHiLo t.hi.read t.lo.read s t ∧ InOrder s t)

/-- R247: a division by zero raises nothing and writes an unconstrained pair. -/
def Obligations.DivideByZeroCompletes : Prop :=
  ∀ (s : State) (rs rt : Reg), s.quiet = true → s.mduPending = false → s.readX rt = 0 →
    ∀ i ∈ [Instr.div rs rt, .divu rs rt],
      Completes i s fun t => WritesHiLo (Config.divZeroHi s.draws) (Config.divZeroLo s.draws) s t ∧ InOrder s t

/-- R252 to R255: MFHI, MFLO, MTHI, MTLO. -/
def Obligations.HiLoMoves : Prop :=
  ∀ (s : State) (rd rs : Reg), s.quiet = true →
    (s.hiPresent = true → Completes (.mfhi rd) s fun t => WritesX rd s.hi.read s t ∧ InOrder s t)
    ∧ (s.loPresent = true → Completes (.mflo rd) s fun t => WritesX rd s.lo.read s t ∧ InOrder s t)
    ∧ (s.mduPending = false → Completes (.mthi rs) s fun t => WritesHiLo (s.readX rs) s.lo.read s t ∧ InOrder s t)
    ∧ (s.mduPending = false → Completes (.mtlo rs) s fun t => WritesHiLo s.hi.read (s.readX rs) s t ∧ InOrder s t)

/-- R243: the tick of step 2. -/
def Obligations.MduTick : Prop :=
  ∀ s : State,
    (s.mdu.count = 1 →
      s.stepMdu =
        { s with
          hi := cellOf s.mdu.hi, lo := cellOf s.mdu.lo, hiPresent := true, loPresent := true, mdu := { s.mdu with count := 0 } })
    ∧ (1 < s.mdu.count → s.stepMdu = { s with mdu := { s.mdu with count := s.mdu.count - 1 } })
    ∧ (s.mdu.count = 0 → s.stepMdu = s)

/-- R242, R245: a multiply or divide issued with a cost of c commits exactly at the c-th tick after it. -/
def Obligations.MduCommitsAtItsCost : Prop :=
  ∀ (s : State) (isDiv : Bool) (hi lo : Word) (cost : Nat), s.quiet = true →
    cost = (if isDiv then s.params.divCost.val else s.params.multCost.val) →
    (∀ n, n < cost →
      (Nat.repeat State.stepMdu n (issueMdu isDiv (some (hi, lo)) s)).hi = s.hi
      ∧ (Nat.repeat State.stepMdu n (issueMdu isDiv (some (hi, lo)) s)).lo = s.lo
      ∧ (Nat.repeat State.stepMdu n (issueMdu isDiv (some (hi, lo)) s)).mduPending = true)
    ∧ (Nat.repeat State.stepMdu cost (issueMdu isDiv (some (hi, lo)) s)).hi.read = hi
    ∧ (Nat.repeat State.stepMdu cost (issueMdu isDiv (some (hi, lo)) s)).lo.read = lo
    ∧ (Nat.repeat State.stepMdu cost (issueMdu isDiv (some (hi, lo)) s)).mduPending = false

/-- R244: the MDU issue and the presence clear of MTHI, MTLO are suppressed exactly when WBslot holds an exception. -/
def Obligations.SquashSuppressesIssue : Prop :=
  ∀ (s : State) (r : Rec) (i : Instr),
    s.pipe.exSlot = some r → r.inst = .instr i → r.exception = none → s.memStall = false →
    ((∃ q, s.pipe.wbSlot = some q ∧ q.exception.isSome = true) →
      s.stepEX.mdu = s.mdu ∧ s.stepEX.hiPresent = s.hiPresent ∧ s.stepEX.loPresent = s.loPresent)
    ∧ ((∀ q, s.pipe.wbSlot = some q → q.exception = none) →
      (∀ isDiv, i.issues = some isDiv →
        s.stepEX.mdu.count = (if isDiv then s.params.divCost.val else s.params.multCost.val)
        ∧ s.stepEX.hiPresent = false ∧ s.stepEX.loPresent = false)
      ∧ (∀ rs, i = .mthi rs → s.stepEX.hiPresent = false ∧ s.stepEX.loPresent = s.loPresent)
      ∧ (∀ rs, i = .mtlo rs → s.stepEX.loPresent = false ∧ s.stepEX.hiPresent = s.hiPresent))

/-! ## Loads, stores, memory -/

/-- R261, R263 to R267: the integer loads whose request is not refused. -/
def Obligations.LoadResults : Prop :=
  ∀ (s : State) (rt rs : Reg) (imm : Imm), s.quiet = true →
    ∀ p ∈ [ (Instr.lb rt imm rs, Kind.rdB, (s.readByte (s.effAddr rs imm)).signExtend 32),
            (.lbu rt imm rs, .rdB, (s.readByte (s.effAddr rs imm)).zeroExtend 32),
            (.lh rt imm rs, .rdH, (s.readHalf (s.effAddr rs imm)).signExtend 32),
            (.lhu rt imm rs, .rdH, (s.readHalf (s.effAddr rs imm)).zeroExtend 32),
            (.lw rt imm rs, .rdW, s.readWord (s.effAddr rs imm)) ],
      s.refusal p.2.1 (s.effAddr rs imm) = none →
      Completes p.1 s fun t => WritesX rt p.2.2 s t ∧ InOrder s t

/-- R262, R268 to R270, R347: the stores whose request is not refused, byte by byte in `BYTE_ORDER`. -/
def Obligations.StoreResults : Prop :=
  ∀ (s : State) (rt rs : Reg) (imm : Imm), s.quiet = true →
    ∀ p ∈ [ (Instr.sb rt imm rs, Kind.wrB, 1, s.readX rt),
            (.sh rt imm rs, .wrH, 2, s.readX rt),
            (.sw rt imm rs, .wrW, 4, s.readX rt),
            (.swc1 rt imm rs, .wrW, 4, s.readF rt) ],
      s.refusal p.2.1 (s.effAddr rs imm) = none → (p.1 = .swc1 rt imm rs → s.presentF rt = true) →
      Completes p.1 s fun t =>
        (∀ k, k < p.2.2.1 →
          t.readByte (s.effAddr rs imm + BitVec.ofNat 32 k) =
            p.2.2.2.extractLsb' (8 * (if s.params.byteOrder = .little then k else p.2.2.1 - 1 - k)) 8)
        ∧ WritesMem (s.effAddr rs imm) p.2.2.1 s t ∧ InOrder s t

/-- R67, R69: a half or word read is assembled from its bytes in `BYTE_ORDER`. -/
def Obligations.ByteOrderOfReads : Prop :=
  ∀ (s : State) (a : Word),
    (∀ k, k < 2 →
      (s.readHalf a).extractLsb' (8 * (if s.params.byteOrder = .little then k else 1 - k)) 8 =
        s.readByte (a + BitVec.ofNat 32 k))
    ∧ (∀ k, k < 4 →
      (s.readWord a).extractLsb' (8 * (if s.params.byteOrder = .little then k else 3 - k)) 8 =
        s.readByte (a + BitVec.ofNat 32 k))

/-- R70: which requests are misaligned, what they answer, and that they are not performed. -/
def Obligations.MisalignedRequests : Prop :=
  ∀ (s : State) (a w : Word),
    (∀ k ∈ [Kind.rdB, .wrB], misaligned k a = false)
    ∧ (∀ k ∈ [Kind.rdH, .wrH], misaligned k a = true ↔ a.toNat % 2 ≠ 0)
    ∧ (∀ k ∈ [Kind.ifetch, .rdW, .wrW], misaligned k a = true ↔ a.toNat % 4 ≠ 0)
    ∧ (∀ k, misaligned k a = true →
        (s.memReq k a w).1.exc = some (if k.writes then .ades else .adel) ∧ (s.memReq k a w).2.mem = s.mem
        ∧ (s.memReq k a w).2.pending = s.pending)

/-- R64 a, R133, R433, R440, R441 a: a load or store whose request is refused raises the collaborator's code with its address;
a floating register named is present, and stays so. -/
def Obligations.RefusedAccessTraps : Prop :=
  ∀ (s : State) (rt rs : Reg) (imm : Imm) (e : Exc), s.quiet = true →
    ∀ p ∈ [ (Instr.lb rt imm rs, Kind.rdB), (.lbu rt imm rs, .rdB), (.lh rt imm rs, .rdH), (.lhu rt imm rs, .rdH),
            (.lw rt imm rs, .rdW), (.sb rt imm rs, .wrB), (.sh rt imm rs, .wrH), (.sw rt imm rs, .wrW),
            (.lwc1 rt imm rs, .rdW), (.swc1 rt imm rs, .wrW) ],
      s.refusal p.2 (s.effAddr rs imm) = some e → (p.1 = .lwc1 rt imm rs ∨ p.1 = .swc1 rt imm rs → s.presentF rt = true) →
      Completes p.1 s fun t => Trapped e 0 (s.effAddr rs imm) s t ∧ Resumed s t

/-- R74, R271: a load of the bytes just stored returns the stored value. -/
def Obligations.StoreThenLoad : Prop :=
  ∀ (s : State) (rt rs rd rb : Reg) (imm imm' : Imm), s.quiet = true → s.script = [] → s.effAddr rb imm' = s.effAddr rs imm →
    (Completes (.sb rt imm rs) s fun t =>
      Completes (.lbu rd imm' rb) t fun u => rd ≠ 0 → u.readX rd = ((s.readX rt).extractLsb' 0 8).zeroExtend 32)
    ∧ ((s.effAddr rs imm).toNat % 2 = 0 → Completes (.sh rt imm rs) s fun t =>
      Completes (.lhu rd imm' rb) t fun u => rd ≠ 0 → u.readX rd = ((s.readX rt).extractLsb' 0 16).zeroExtend 32)
    ∧ ((s.effAddr rs imm).toNat % 4 = 0 → Completes (.sw rt imm rs) s fun t =>
      Completes (.lw rd imm' rb) t fun u => rd ≠ 0 → u.readX rd = s.readX rt)

/-- R66: a completion whose tag no waiting record has is ignored. -/
def Obligations.StaleCompletionIgnored : Prop :=
  ∀ (s : State) (tag : Nat) (datum : Datum), s.busDone = some (tag, datum) →
    (∀ r, s.pipe.memSlot = some r → r.stage = .memStall → r.busTag ≠ tag) →
    (∀ r, s.pipe.ifSlot = some r → r.stage = .ifStall → r.busTag ≠ tag) →
    s.stepUnstall = s ∧ (∀ r, s.pipe.ifSlot = some r → r.stage = .ifStall → s.latchFetch r = r)

/-- R80, R132, R142, R143: an integer load that missed holds the stages behind it until its own completion, which moves it to
WB with the extended datum and writes no register; its WB commit then writes exactly its register. An LWC1 that missed moves to
the end of EX3. -/
def Obligations.MissedLoadWaits : Prop :=
  ∀ (s : State) (r : Rec) (rt rs : Reg) (imm : Imm) (b : Byte) (h : Half) (w : Word), s.quiet = true →
    s.pipe.memSlot = some r → r.stage = .memStall → r.exception = none →
    ((∀ datum, s.busDone ≠ some (r.busTag, datum)) → s.stepUnstall = s ∧ s.stepMEM = s ∧ s.stepEX = s ∧ s.stepID = s)
    ∧ (∀ p ∈ [ (Instr.lb rt imm rs, Datum.byte b, b.signExtend 32), (.lbu rt imm rs, .byte b, b.zeroExtend 32),
              (.lh rt imm rs, .half h, h.signExtend 32), (.lhu rt imm rs, .half h, h.zeroExtend 32),
              (.lw rt imm rs, .word w, w) ],
        r.inst = .instr p.1 → s.busDone = some (r.busTag, p.2.1) →
        s.stepUnstall.pipe.wbSlot = some { r with stage := .wb, result := p.2.2 } ∧ s.stepUnstall.pipe.memSlot = none
        ∧ s.stepUnstall.bypMEM = (if rt = 0 then s.bypMEM else some (rt, p.2.2)) ∧ SameX s s.stepUnstall
        ∧ (s.stepUnstall.retireWB { r with stage := .wb, result := p.2.2 }).readX rt = (if rt = 0 then 0 else p.2.2)
        ∧ SameXBut rt s (s.stepUnstall.retireWB { r with stage := .wb, result := p.2.2 })
        ∧ (s.stepUnstall.retireWB { r with stage := .wb, result := p.2.2 }).pipe.wbSlot = none)
    ∧ (r.inst = .instr (.lwc1 rt imm rs) → s.busDone = some (r.busTag, .word w) →
        s.stepUnstall.pipe =
          { s.pipe with
            memSlot := none
            ex3List := s.pipe.ex3List ++ [{ r with stage := .ex3, count := 0, fresult := w.zeroExtend 64 }] }
        ∧ s.stepUnstall.bypMEM = s.bypMEM ∧ SameX s s.stepUnstall ∧ SameF s s.stepUnstall)

/-! ## Branches and jumps -/

/-- R283, R285 to R288, R291, R292, R352, R353: the conditional branches without link; BC1T and BC1F with `FpCond` present. -/
def Obligations.ConditionalBranches : Prop :=
  ∀ (s : State) (rs rt : Reg) (imm : Imm), s.quiet = true →
    ∀ p ∈ [ (Instr.beq rs rt imm, decide (s.readX rs = s.readX rt)),
            (.bne rs rt imm, decide (s.readX rs ≠ s.readX rt)),
            (.blez rs imm, decide ((s.readX rs).toInt ≤ 0)),
            (.bgtz rs imm, decide (0 < (s.readX rs).toInt)),
            (.bltz rs imm, decide ((s.readX rs).toInt < 0)),
            (.bgez rs imm, decide (0 ≤ (s.readX rs).toInt)),
            (.bc1t imm, s.fpCond),
            (.bc1f imm, !s.fpCond) ],
      (p.1 = .bc1t imm ∨ p.1 = .bc1f imm → s.fpCondPresent = true) →
      Completes p.1 s fun t =>
        WritesNothing s t
        ∧ Branched (if p.2 then s.fpc + 4 + imm.signExtend 32 * 4 else s.fnpc + 4) s t

/-- R293, R294: the branches that link, taken or not. -/
def Obligations.LinkingBranches : Prop :=
  ∀ (s : State) (rs : Reg) (imm : Imm), s.quiet = true →
    ∀ p ∈ [ (Instr.bltzal rs imm, decide ((s.readX rs).toInt < 0)), (.bgezal rs imm, decide (0 ≤ (s.readX rs).toInt)) ],
      Completes p.1 s fun t =>
        WritesX 31 (s.fpc + 8) s t
        ∧ Branched (if p.2 then s.fpc + 4 + imm.signExtend 32 * 4 else s.fnpc + 4) s t

/-- R284, R289, R290, R295, R296: the jumps. -/
def Obligations.Jumps : Prop :=
  ∀ (s : State) (rd rs : Reg) (target : BitVec 26), s.quiet = true →
    (Completes (.j target) s fun t => WritesNothing s t ∧ Branched ((s.fpc + 4).extractLsb' 28 4 ++ target ++ 0#2) s t)
    ∧ (Completes (.jal target) s fun t =>
        WritesX 31 (s.fpc + 8) s t ∧ Branched ((s.fpc + 4).extractLsb' 28 4 ++ target ++ 0#2) s t)
    ∧ (Completes (.jr rs) s fun t => WritesNothing s t ∧ Branched (s.readX rs) s t)
    ∧ (Completes (.jalr rd rs) s fun t => WritesX rd (s.fpc + 8) s t ∧ Branched (s.readX rs) s t)

/-- R281: after a taken branch or a jump the next instruction is the one in its delay slot, and after any instruction there that
is no branch and takes no exception (`InOrder`) the one at the target is next; an ADDU in the slot completes so. -/
def Obligations.DelaySlotThenTarget : Prop :=
  ∀ (s : State) (rs rt rd ra rb : Reg) (imm : Imm) (target : BitVec 26), s.quiet = true →
    ∀ p ∈ [ (Instr.beq rs rt imm, decide (s.readX rs = s.readX rt), s.fpc + 4 + imm.signExtend 32 * 4),
            (.bne rs rt imm, decide (s.readX rs ≠ s.readX rt), s.fpc + 4 + imm.signExtend 32 * 4),
            (.blez rs imm, decide ((s.readX rs).toInt ≤ 0), s.fpc + 4 + imm.signExtend 32 * 4),
            (.bgtz rs imm, decide (0 < (s.readX rs).toInt), s.fpc + 4 + imm.signExtend 32 * 4),
            (.bltz rs imm, decide ((s.readX rs).toInt < 0), s.fpc + 4 + imm.signExtend 32 * 4),
            (.bgez rs imm, decide (0 ≤ (s.readX rs).toInt), s.fpc + 4 + imm.signExtend 32 * 4),
            (.bltzal rs imm, decide ((s.readX rs).toInt < 0), s.fpc + 4 + imm.signExtend 32 * 4),
            (.bgezal rs imm, decide (0 ≤ (s.readX rs).toInt), s.fpc + 4 + imm.signExtend 32 * 4),
            (.bc1t imm, s.fpCondPresent && s.fpCond, s.fpc + 4 + imm.signExtend 32 * 4),
            (.bc1f imm, s.fpCondPresent && !s.fpCond, s.fpc + 4 + imm.signExtend 32 * 4),
            (.j target, true, (s.fpc + 4).extractLsb' 28 4 ++ target ++ 0#2),
            (.jal target, true, (s.fpc + 4).extractLsb' 28 4 ++ target ++ 0#2),
            (.jr rs, true, s.readX rs), (.jalr rd rs, true, s.readX rs) ],
      p.2.1 = true →
      Completes p.1 s fun t =>
        t.fpc = s.fnpc ∧ t.bdFlag = true
        ∧ (∀ (i : Instr) (u : State), exec i t = .next u → InOrder t u →
            u.fpc = p.2.2 ∧ u.fnpc = p.2.2 + 4 ∧ u.bdFlag = false)
        ∧ Completes (.addu rt ra rb) t fun u =>
            u.fpc = p.2.2 ∧ u.fnpc = p.2.2 + 4 ∧ u.bdFlag = false
            ∧ u.readX rt = (if rt = 0 then 0 else t.readX ra + t.readX rb)

/-! ## Floating point -/

/-- R309, R320 to R327: the arithmetic of both formats writes what the record `FPNumerics` gives; a double names even registers.
R306 (log 10): the default record gives the exact sum, difference, product and quotient of finite numbers, rounded to nearest
even. -/
def Obligations.FloatArithmetic : Prop :=
  (∀ (s : State) (fd fs ft : Reg), s.quiet = true → s.fpReady = true →
    (∀ p ∈ [ (Instr.addS fd fs ft, s.numerics.addS), (.subS fd fs ft, s.numerics.subS), (.mulS fd fs ft, s.numerics.mulS),
             (.divS fd fs ft, s.numerics.divS) ],
      Completes p.1 s fun t =>
        WritesF (.single fd) ((p.2 (s.readF fs) (s.readF ft)).pattern s.draws) s t ∧ InOrder s t)
    ∧ (∀ p ∈ [ (Instr.addD fd fs ft, s.numerics.addD), (.subD fd fs ft, s.numerics.subD), (.mulD fd fs ft, s.numerics.mulD),
               (.divD fd fs ft, s.numerics.divD) ],
      p.1.wellFormed = true →
      Completes p.1 s fun t =>
        WritesF (.double fd) ((p.2 (s.readFD fs) (s.readFD ft)).pattern s.draws) s t ∧ InOrder s t))
  ∧ ∀ s : State, s.params.numerics = .ieee →
    (∀ a b : Word, fmtS.RoundsAll (fmtS.unpack a.toNat) (fmtS.unpack b.toNat)
      (s.numerics.addS a b) (s.numerics.subS a b) (s.numerics.mulS a b) (s.numerics.divS a b))
    ∧ (∀ a b : DWord, fmtD.RoundsAll (fmtD.unpack a.toNat) (fmtD.unpack b.toNat)
      (s.numerics.addD a b) (s.numerics.subD a b) (s.numerics.mulD a b) (s.numerics.divD a b))

/-- R306, R307 (log 10): every number sig * 2^pow is rounded to nearest, ties to even, gradually underflowing, to an infinity
from the first power after the greatest exponent on; and a number that the format holds, subnormal or not, keeps its pattern. -/
def Obligations.RoundingNearestEven : Prop :=
  (∀ m ∈ [fmtS, fmtD], ∀ (neg : Bool) (sig : Nat) (pow : Int), m.Rounds neg sig 1 pow (m.roundPack neg sig pow))
  ∧ (∀ n k : Nat, NearestEven n (2 ^ k) (roundShift n k))
  ∧ (∀ (w : Word) (neg : Bool) (sig : Nat) (pow : Int), fmtS.unpack w.toNat = .fin neg sig pow →
      fmtS.roundPack neg sig pow = .bits (w.zeroExtend 64))
  ∧ (∀ (w : DWord) (neg : Bool) (sig : Nat) (pow : Int), fmtD.unpack w.toNat = .fin neg sig pow →
      fmtD.roundPack neg sig pow = .bits w)

/-- R328 to R333: ABS, NEG and MOV are bit operations. -/
def Obligations.FloatBitOperations : Prop :=
  ∀ (s : State) (fd fs : Reg), s.quiet = true → s.fpReady = true →
    (∀ p ∈ [ (Instr.absS fd fs, s.readF fs &&& 0x7FFFFFFF), (.negS fd fs, s.readF fs ^^^ 0x80000000),
             (.movS fd fs, s.readF fs) ],
      Completes p.1 s fun t => WritesF (.single fd) (p.2.zeroExtend 64) s t ∧ InOrder s t)
    ∧ (∀ p ∈ [ (Instr.absD fd fs, s.readFD fs &&& 0x7FFFFFFFFFFFFFFF), (.negD fd fs, s.readFD fs ^^^ 0x8000000000000000),
             (.movD fd fs, s.readFD fs) ],
      p.1.wellFormed = true → Completes p.1 s fun t => WritesF (.double fd) p.2 s t ∧ InOrder s t)

/-- R334 to R339: the conversions write what the record `FPNumerics` gives. R306, R307 (log 10): the default record rounds the
number to the format, or to the nearest integer, ties to even, where W holds it, else the invalid result. -/
def Obligations.FloatConversions : Prop :=
  (∀ (s : State) (fd fs : Reg), s.quiet = true → s.fpReady = true →
    ∀ p ∈ [ (Instr.cvtSD fd fs, FOpnd.single fd, s.numerics.cvtSD (s.readFD fs)),
            (.cvtSW fd fs, .single fd, s.numerics.cvtSW (s.readF fs)),
            (.cvtDS fd fs, .double fd, s.numerics.cvtDS (s.readF fs)),
            (.cvtDW fd fs, .double fd, s.numerics.cvtDW (s.readF fs)),
            (.cvtWS fd fs, .single fd, s.numerics.cvtWS (s.readF fs)),
            (.cvtWD fd fs, .single fd, s.numerics.cvtWD (s.readFD fs)) ],
      p.1.wellFormed = true →
      Completes p.1 s fun t => WritesF p.2.1 (p.2.2.pattern s.draws) s t ∧ InOrder s t)
  ∧ ∀ s : State, s.params.numerics = .ieee →
    (∀ (a : DWord) (neg : Bool) (x : Nat) (p : Int), fmtD.unpack a.toNat = .fin neg x p →
      fmtS.Rounds neg x 1 p (s.numerics.cvtSD a))
    ∧ (∀ (a : Word) (neg : Bool) (x : Nat) (p : Int), fmtS.unpack a.toNat = .fin neg x p →
      fmtD.Rounds neg x 1 p (s.numerics.cvtDS a))
    ∧ (∀ a : Word, fmtS.Rounds (decide (a.toInt < 0)) a.toInt.natAbs 1 0 (s.numerics.cvtSW a)
      ∧ fmtD.Rounds (decide (a.toInt < 0)) a.toInt.natAbs 1 0 (s.numerics.cvtDW a))
    ∧ (∀ a : Word, RoundsToWord (fmtS.unpack a.toNat) (s.numerics.cvtWS a))
    ∧ (∀ a : DWord, RoundsToWord (fmtD.unpack a.toNat) (s.numerics.cvtWD a))

/-- R340, R341, R342: the 32 compares, by the relation the record `FPNumerics` gives: less by bit 2 of the condition, equal by
bit 1, unordered by bit 0. -/
def Obligations.FloatCompares : Prop :=
  ∀ (s : State) (fs ft : Reg), s.quiet = true → s.fpReady = true → s.fpCondPresent = true →
    ∀ p ∈ [ (0#4, Instr.cFS fs ft, Instr.cFD fs ft), (1, .cUnS fs ft, .cUnD fs ft), (2, .cEqS fs ft, .cEqD fs ft),
            (3, .cUeqS fs ft, .cUeqD fs ft), (4, .cOltS fs ft, .cOltD fs ft), (5, .cUltS fs ft, .cUltD fs ft),
            (6, .cOleS fs ft, .cOleD fs ft), (7, .cUleS fs ft, .cUleD fs ft), (8, .cSfS fs ft, .cSfD fs ft),
            (9, .cNgleS fs ft, .cNgleD fs ft), (10, .cSeqS fs ft, .cSeqD fs ft), (11, .cNglS fs ft, .cNglD fs ft),
            (12, .cLtS fs ft, .cLtD fs ft), (13, .cNgeS fs ft, .cNgeD fs ft), (14, .cLeS fs ft, .cLeD fs ft),
            (15, .cNgtS fs ft, .cNgtD fs ft) ],
      (Completes p.2.1 s fun t =>
        (WritesCond
          (match s.numerics.cmpS (s.readF fs) (s.readF ft) with
            | .less => p.1.getLsbD 2
            | .equal => p.1.getLsbD 1
            | .unordered => p.1.getLsbD 0
            | .greater => false) s t)
        ∧ InOrder s t)
      ∧ (p.2.2.wellFormed = true → Completes p.2.2 s fun t =>
        (WritesCond
          (match s.numerics.cmpD (s.readFD fs) (s.readFD ft) with
            | .less => p.1.getLsbD 2
            | .equal => p.1.getLsbD 1
            | .unordered => p.1.getLsbD 0
            | .greater => false) s t)
        ∧ InOrder s t)

/-- R304: an odd register in a double-precision field raises RI in ID, before any hazard check, operand read or flag clear. The
first clause is of the instruction alone (log 1, DEDUCED); in the second `ce` 0 is the model's: R136 b writes it for CpU only. -/
def Obligations.OddDoubleTraps : Prop :=
  ∀ (s : State) (i : Instr), i.wellFormed = false →
    (Completes i s fun t => Trapped .ri 0 0 s t ∧ Resumed s t)
    ∧ ∀ r, s.pipe.idSlot = some r → r.inst = .instr i → r.exception = none → s.memStall = false →
      s.stepID = { s with
        bdFlag := false
        pipe := { s.pipe with idSlot := none, exSlot := some { r with stage := .ex, exception := some .ri, ce := 0 } } }

/-- R306, R307: what is a NaN: a NaN operand, ∞-∞, 0x∞, 0/0, ∞/∞; x/0 of a finite x not 0 is an infinity; the other results of
infinities. A NaN result is a NaN pattern of the format, whatever the free bits are, and an infinity one of an infinity. The
default record `FPNumerics` is these functions (log 10). -/
def Obligations.NanResults : Prop :=
  (∀ n : Nat, fmtS.unpack (FpVal.nan32.pattern n).toNat = .nan ∧ fmtD.unpack (FpVal.nan64.pattern n).toNat = .nan)
  ∧ fmtS.nan = .nan32 ∧ fmtD.nan = .nan64
  ∧ (∀ m ∈ [fmtS, fmtD], ∀ (a : FpNum) (s t : Bool) (x : Nat) (p q : Int),
      (∀ f ∈ [m.add, m.mul, m.div], f .nan a = m.nan ∧ f a .nan = m.nan)
      ∧ m.convert .nan = m.nan
      ∧ m.add (.inf s) (.inf !s) = m.nan
      ∧ m.mul (.inf s) (.fin t 0 q) = m.nan ∧ m.mul (.fin t 0 q) (.inf s) = m.nan
      ∧ m.div (.fin s 0 p) (.fin t 0 q) = m.nan ∧ m.div (.inf s) (.inf t) = m.nan
      ∧ (x ≠ 0 → m.div (.fin s x p) (.fin t 0 q) = m.infinity (s != t))
      ∧ (∃ v, m.infinity s = .bits v ∧ m.unpack v.toNat = .inf s)
      ∧ m.convert (.inf s) = m.infinity s
      ∧ m.add (.inf s) (.inf s) = m.infinity s ∧ m.add (.inf s) (.fin t x q) = m.infinity s
      ∧ m.add (.fin t x q) (.inf s) = m.infinity s ∧ m.mul (.inf s) (.inf t) = m.infinity (s != t)
      ∧ (x ≠ 0 → m.mul (.inf s) (.fin t x q) = m.infinity (s != t) ∧ m.mul (.fin t x q) (.inf s) = m.infinity (t != s))
      ∧ m.div (.inf s) (.fin t x q) = m.infinity (s != t) ∧ m.Rounds (t != s) 0 1 0 (m.div (.fin t x q) (.inf s)))
  ∧ ∀ s : State, s.params.numerics = .ieee →
    (∀ a b : Word,
      s.numerics.addS a b = fmtS.add (fmtS.unpack a.toNat) (fmtS.unpack b.toNat)
      ∧ s.numerics.subS a b = fmtS.add (fmtS.unpack a.toNat) (fmtS.unpack b.toNat).negate
      ∧ s.numerics.mulS a b = fmtS.mul (fmtS.unpack a.toNat) (fmtS.unpack b.toNat)
      ∧ s.numerics.divS a b = fmtS.div (fmtS.unpack a.toNat) (fmtS.unpack b.toNat)
      ∧ s.numerics.cvtDS a = fmtD.convert (fmtS.unpack a.toNat))
    ∧ ∀ a b : DWord,
      s.numerics.addD a b = fmtD.add (fmtD.unpack a.toNat) (fmtD.unpack b.toNat)
      ∧ s.numerics.subD a b = fmtD.add (fmtD.unpack a.toNat) (fmtD.unpack b.toNat).negate
      ∧ s.numerics.mulD a b = fmtD.mul (fmtD.unpack a.toNat) (fmtD.unpack b.toNat)
      ∧ s.numerics.divD a b = fmtD.div (fmtD.unpack a.toNat) (fmtD.unpack b.toNat)
      ∧ s.numerics.cvtSD a = fmtS.convert (fmtD.unpack a.toNat)

/-- R306, R340: the relation of two numbers: unordered exactly for a NaN, else by the exact values, an infinity beyond every
number; +0 and -0 are equal. The default record `FPNumerics` compares so (log 10). -/
def Obligations.RelationByValue : Prop :=
  (∀ a b : FpNum, relationOf a b = .unordered ↔ a = .nan ∨ b = .nan)
  ∧ (∀ (s t : Bool) (x y n m : Nat) (c : Int),
      (relationOf (.fin s x (c + n)) (.fin t y (c + m)) = .less ↔ signedSig s (x * 2 ^ n) < signedSig t (y * 2 ^ m))
      ∧ (relationOf (.fin s x (c + n)) (.fin t y (c + m)) = .equal ↔ signedSig s (x * 2 ^ n) = signedSig t (y * 2 ^ m))
      ∧ relationOf (.inf s) (.fin t y c) = (if s = true then .less else .greater)
      ∧ relationOf (.fin t y c) (.inf s) = (if s = true then .greater else .less)
      ∧ relationOf (.inf s) (.inf t) = (if s = t then .equal else if s = true then .less else .greater))
  ∧ ∀ s : State, s.params.numerics = .ieee →
    (∀ a b : Word, s.numerics.cmpS a b = relationOf (fmtS.unpack a.toNat) (fmtS.unpack b.toNat))
    ∧ ∀ a b : DWord, s.numerics.cmpD a b = relationOf (fmtD.unpack a.toNat) (fmtD.unpack b.toNat)

/-- R346, R348, R349: LWC1 that is not refused, MFC1, MTC1. -/
def Obligations.FloatMoves : Prop :=
  ∀ (s : State) (rt rs fs : Reg) (imm : Imm), s.quiet = true → s.presentF fs = true →
    (s.refusal .rdW (s.effAddr rs imm) = none →
      Completes (.lwc1 fs imm rs) s fun t =>
        WritesF (.single fs) ((s.readWord (s.effAddr rs imm)).zeroExtend 64) s t ∧ InOrder s t)
    ∧ (Completes (.mfc1 rt fs) s fun t => WritesX rt (s.readF fs) s t ∧ InOrder s t)
    ∧ (Completes (.mtc1 rt fs) s fun t => WritesF (.single fs) ((s.readX rt).zeroExtend 64) s t ∧ InOrder s t)

/-- R310, R311, R312: `canIssue`. -/
def Obligations.IssueThresholds : Prop :=
  ∀ (b : Busy) (c : FpClass),
    b.canIssue c = true ↔
      b.add = 0
      ∧ (c = .addSub ∨ c = .cvt ∨ c = .cvtW → (b.mul = 0 ∨ 2 < b.mul) ∧ (b.div = 0 ∨ 4 < b.div))
      ∧ (c = .mulS → b.mul = 0 ∧ (b.div = 0 ∨ 2 < b.div))
      ∧ (c = .mulD → b.mul = 0 ∧ (b.div = 0 ∨ 3 < b.div))
      ∧ (c = .divS ∨ c = .divD → b.div = 0)

/-- R130: a record that enters EX3 with `Count` = n leaves it in the (n+1)-th execution of step 6. -/
def Obligations.Ex3Countdown : Prop :=
  ∀ (s : State) (r : Rec) (n : Nat), r ∈ s.pipe.ex3List → r.count = n →
    (∀ k, k ≤ n → { r with count := n - k } ∈ (Nat.repeat State.stepEX3 k s).pipe.ex3List)
    ∧ { r with count := 0, stage := .fwb } ∈ (Nat.repeat State.stepEX3 (n + 1) s).pipe.fwbList

/-- R128: the drain of FWB commits the record of an instruction to its destination and flag, and frees it. -/
def Obligations.FwbDrain : Prop :=
  ∀ (s : State) (r : Rec) (i : Instr), s.pipe.fwbList = [r] → r.inst = .instr i →
    s.stepFWB.pipe = { s.pipe with fwbList := [] } ∧ s.stepFWB.poolFree = s.poolFree + 1
    ∧ (∀ d, i.fdst = [d] → s.stepFWB.readF d = r.fresult.extractLsb' 0 32)
    ∧ (∀ d, i.fdst = [d, d + 1] →
        s.stepFWB.readF d = r.fresult.extractLsb' 0 32 ∧ s.stepFWB.readF (d + 1) = r.fresult.extractLsb' 32 32)
    ∧ (∀ j, s.stepFWB.presentF j = (if j ∈ i.fdst then true else s.presentF j))
    ∧ (∀ j, j ∉ i.fdst → s.stepFWB.readF j = s.readF j)
    ∧ (i.isCompare = true → s.stepFWB.fpCond = r.fresult.getLsbD 0 ∧ s.stepFWB.fpCondPresent = true)
    ∧ (i.isCompare = false → s.stepFWB.fpCond = s.fpCond ∧ s.stepFWB.fpCondPresent = s.fpCondPresent)

/-! ## System instructions and exceptions -/

/-- R381, R382: SYSCALL and BREAK raise Sys and Bp, whatever their code. -/
def Obligations.SyscallBreakTrap : Prop :=
  ∀ (s : State) (code : BitVec 20),
    (Completes (.syscall code) s fun t => Trapped .sys 0 0 s t ∧ Resumed s t)
    ∧ (Completes (.brk code) s fun t => Trapped .bp 0 0 s t ∧ Resumed s t)

/-- R383 to R385: MFC0 and MTC0; a read of Random is an unconstrained draw. -/
def Obligations.CoprocessorMoves : Prop :=
  ∀ (s : State) (rt rd : Reg), s.quiet = true →
    (rd ≠ 1 → Completes (.mfc0 rt rd) s fun t => WritesX rt (s.readC0 rd) s t ∧ InOrder s t)
    ∧ (Completes (.mfc0 rt 1) s fun t => WritesX rt (Config.randomRead s.draws) s t ∧ InOrder s t)
    ∧ (Completes (.mtc0 rt rd) s fun t => WritesC0 rd (s.readX rt) s t ∧ InOrder s t)

/-- R440: exception commit writes Cause, EPC and, for an address exception, BadVAddr; nothing else. -/
def Obligations.ExceptionCommit : Prop :=
  ∀ (s : State) (r : Rec) (e : Exc),
    (s.commitException r e).readC0 13 =
        (if r.inDelaySlot then (1 : Word) <<< 31 else 0) ||| (if e = .cpu then (r.ce.zeroExtend 32 : Word) <<< 28 else 0)
          ||| ((excCode s.params.codes e).zeroExtend 32 : Word) <<< 2
    ∧ (s.commitException r e).readC0 14 = (if r.inDelaySlot then r.pc - 4 else r.pc)
    ∧ (s.commitException r e).readC0 8 =
        (if e ∈ [Exc.mod, .tlbl, .tlbs, .adel, .ades] then r.addr else s.readC0 8)
    ∧ (∀ i, i ≠ 13 → i ≠ 14 → i ≠ 8 → (s.commitException r e).readC0 i = s.readC0 i)
    ∧ s.commitException r e = { s with c0 := (s.commitException r e).c0, excFound := true }

/-- R441: the flush. -/
def Obligations.ExceptionFlush : Prop :=
  ∀ (s : State) (r : Rec) (t : State), t = s.flush (s.flushClaims r) →
    (∀ j, t.presentF j = true ↔
        s.presentF j = true
        ∨ (∃ imm rs, r.inst = .instr (.lwc1 j imm rs))
        ∨ ∃ q, (s.pipe.exSlot = some q ∨ s.pipe.memSlot = some q ∨ s.pipe.ex1Slot = some q ∨ s.pipe.ex2Slot = some q)
            ∧ q.exception = none ∧ j ∈ q.fdst)
    ∧ (t.fpCondPresent = true ↔
        s.fpCondPresent = true
        ∨ ∃ q, (s.pipe.exSlot = some q ∨ s.pipe.memSlot = some q ∨ s.pipe.ex1Slot = some q ∨ s.pipe.ex2Slot = some q)
            ∧ q.exception = none ∧ q.isCompare = true)
    ∧ t.pipe = { emptyPipe with ex3List := s.pipe.ex3List, fwbList := s.pipe.fwbList }
    ∧ t.poolFree = s.poolFree + s.pipe.slotRecords
    ∧ t.bdFlag = false ∧ t.idStall = false ∧ t.memStall = false ∧ t.bypEX = none ∧ t.bypMEM = none
    ∧ t.mdu = s.mdu ∧ t.busy = s.busy ∧ t.hiPresent = s.hiPresent ∧ t.loPresent = s.loPresent
    ∧ t.x = s.x ∧ t.f = s.f ∧ t.hi = s.hi ∧ t.lo = s.lo ∧ t.fpCond = s.fpCond ∧ t.c0 = s.c0 ∧ t.mem = s.mem

/-- R129 a, R437, R443: a cycle that finds an exception in WB after its steps 1 to 4 commits it, flushes, and does nothing more:
no memory access, no register write, no change in EX3. -/
def Obligations.ExceptionEndsCycle : Prop :=
  ∀ (s : State) (r : Rec) (e : Exc), s.serviceSteps.pipe.wbSlot = some r → r.exception = some e →
    ∃ t, s.runCycle = some t ∧ t.excFound = true
      ∧ t.readC0 causeReg = causeWord s.params.codes r.inDelaySlot r.ce e
      ∧ t.readC0 epcReg = epcWord r.inDelaySlot r.pc
      ∧ t.pipe = { emptyPipe with ex3List := s.pipe.ex3List }
      ∧ t.mem = s.mem ∧ t.x = s.x ∧ t.script = s.script ∧ t.nextTag = s.nextTag
      ∧ t.f = s.serviceSteps.f ∧ t.hi = s.serviceSteps.hi ∧ t.lo = s.serviceSteps.lo

/-! ## Bypass and hazards -/

/-- R173: `Rd(i)`. -/
def Obligations.BypassPriority : Prop :=
  ∀ (s : State) (i : Reg) (v w : Word),
    s.rd 0 = 0
    ∧ (i ≠ 0 → s.bypEX = some (i, v) → s.rd i = v)
    ∧ (i ≠ 0 → (∀ u, s.bypEX ≠ some (i, u)) → s.bypMEM = some (i, w) → s.rd i = w)
    ∧ (i ≠ 0 → (∀ u, s.bypEX ≠ some (i, u)) → (∀ u, s.bypMEM ≠ some (i, u)) → s.rd i = (s.x[i.toNat]).clean ^^^ (s.x[i.toNat]).mask)

/-- R21: register 0 reads 0, writes to it are discarded, a bypass record for it is a no-op. -/
def Obligations.RegisterZero : Prop :=
  ∀ (s : State) (v : Word),
    s.readX 0 = 0 ∧ s.rd 0 = 0 ∧ s.writeX 0 v = s ∧ s.recordEX 0 v = s ∧ s.recordMEM 0 v = s

/-- R178, R302, R303, R145: what the description of every instruction reads and writes is what the tables of the spec say: the
integer sources, the floating sources, the floating destination, the class, `FpCond`, the integer destination and in which
stage it is known. -/
def Obligations.DescriptionsMatchTables : Prop :=
  ∀ i : Instr,
    (∀ j, (descOf i).readsX j = true ↔ j ≠ 0 ∧ j ∈ i.isrc)
    ∧ (∀ j, j ∈ ((descOf i).fop1.map FOpnd.regs).getD [] ++ ((descOf i).fop2.map FOpnd.regs).getD [] ↔ j ∈ i.fsrc)
    ∧ (∀ j, j ∈ (descOf i).fregs ↔ j ∈ i.fsrc ∨ j ∈ i.fdst)
    ∧ ((descOf i).fdst.map FOpnd.regs).getD [] = i.fdst
    ∧ (descOf i).fp.map Prod.fst = i.fpClass
    ∧ (descOf i).cond = i.isCompare
    ∧ (∀ d, (descOf i).wb = .gpr d ↔ i.intDest = some (d, true) ∨ i.intDest = some (d, false))
    ∧ (∀ d, i.intDest = some (d, false) ↔ (descOf i).wb = .gpr d ∧ (descOf i).mem = .pass)
    ∧ (∀ d, (descOf i).lateDest = some d ↔ i.intDest = some (d, true) ∧ d ≠ 0)

/-- R179 to R187: an instruction stalls in ID exactly when one of the conditions holds. -/
def Obligations.StallsExactly : Prop :=
  ∀ (s : State) (i : Instr),
    s.hazard (descOf i) = true ↔
      (∃ p j rt, s.pipe.memSlot = some p ∧ p.stage = .mem ∧ p.inst = .instr j ∧ j.intDest = some (rt, true) ∧ rt ≠ 0
        ∧ rt ∈ i.isrc)
      ∨ (i.issues.isSome = true ∧ (s.mdu.count ≠ 0 ∨ s.hiPresent = false ∨ s.loPresent = false))
      ∨ ((∃ rd, i = .mfhi rd) ∧ s.hiPresent = false)
      ∨ ((∃ rd, i = .mflo rd) ∧ s.loPresent = false)
      ∨ ((∃ rs, i = .mthi rs ∨ i = .mtlo rs) ∧ (s.mdu.count ≠ 0 ∨ s.hiPresent = false ∨ s.loPresent = false))
      ∨ (∃ j, (j ∈ i.fsrc ∨ j ∈ i.fdst) ∧ s.presentF j = false)
      ∨ (∃ c, i.fpClass = some c ∧ s.busy.canIssue c = false)
      ∨ (((∃ imm, i = .bc1t imm ∨ i = .bc1f imm) ∨ i.isCompare = true) ∧ s.fpCondPresent = false)

/-- R136 c, R189: a record that stalls in ID stays, and step 12 changes nothing but the stall flag; the IF record is then not
promoted: `fpc`, `fnpc` and `BDflag` keep their values. -/
def Obligations.StallHoldsIdAndIf : Prop :=
  ∀ (s : State) (r : Rec) (i : Instr), s.pipe.idSlot = some r → r.inst = .instr i → r.exception = none →
    i.wellFormed = true → (∀ code, i ≠ .syscall code) → (∀ code, i ≠ .brk code) → s.memStall = false →
    s.hazard (descOf i) = true →
    s.stepID = { s with idStall := true }
    ∧ s.stepID.stepIF.pipe.idSlot = some r ∧ s.stepID.stepIF.fpc = s.fpc ∧ s.stepID.stepIF.fnpc = s.fnpc
    ∧ s.stepID.stepIF.bdFlag = s.bdFlag

/-- R135 c, R145, R171: EX of a record whose integer result is known in EX or before (every instruction of R203 to R226, MFHI,
MFLO, MFC1, the links) puts the result into the record, records it in `bypEX` and moves on to MEM; an ADD, SUB or ADDI that
overflows is tagged and forwards nothing. -/
def Obligations.ExForwards : Prop :=
  ∀ (s : State) (r : Rec) (rd rs rt shamt : Reg) (imm : Imm) (target : BitVec 26), s.memStall = false →
    s.pipe.exSlot = some r → r.exception = none →
    (∀ p ∈ [ (Instr.addu rd rs rt, rd, r.op1 + r.op2), (.subu rd rs rt, rd, r.op1 - r.op2),
            (.and rd rs rt, rd, r.op1 &&& r.op2), (.or rd rs rt, rd, r.op1 ||| r.op2), (.xor rd rs rt, rd, r.op1 ^^^ r.op2),
            (.nor rd rs rt, rd, ~~~(r.op1 ||| r.op2)),
            (.slt rd rs rt, rd, if r.op1.toInt < r.op2.toInt then 1 else 0),
            (.sltu rd rs rt, rd, if r.op1.toNat < r.op2.toNat then 1 else 0),
            (.sllv rd rt rs, rd, r.op2 <<< (r.op1.toNat % 32)), (.srlv rd rt rs, rd, r.op2 >>> (r.op1.toNat % 32)),
            (.srav rd rt rs, rd, r.op2.sshiftRight (r.op1.toNat % 32)), (.sll rd rt shamt, rd, r.op2 <<< shamt.toNat),
            (.srl rd rt shamt, rd, r.op2 >>> shamt.toNat), (.sra rd rt shamt, rd, r.op2.sshiftRight shamt.toNat),
            (.addiu rt rs imm, rt, r.op1 + imm.signExtend 32),
            (.slti rt rs imm, rt, if r.op1.toInt < imm.toInt then 1 else 0),
            (.sltiu rt rs imm, rt, if r.op1.toNat < (imm.signExtend 32 : Word).toNat then 1 else 0),
            (.andi rt rs imm, rt, r.op1 &&& imm.zeroExtend 32), (.ori rt rs imm, rt, r.op1 ||| imm.zeroExtend 32),
            (.xori rt rs imm, rt, r.op1 ^^^ imm.zeroExtend 32), (.lui rt imm, rt, imm ++ 0#16),
            (.mfhi rd, rd, r.op3), (.mflo rd, rd, r.op3), (.mfc1 rt rs, rt, r.fop1.extractLsb' 0 32),
            (.jal target, 31, r.result), (.jalr rd rs, rd, r.result), (.bltzal rs imm, 31, r.result),
            (.bgezal rs imm, 31, r.result) ],
      r.inst = .instr p.1 → s.quiet = true →
      s.stepEX.pipe.memSlot = some { r with stage := .mem, result := p.2.2 } ∧ s.stepEX.pipe.exSlot = none
      ∧ s.stepEX.bypEX = (if p.2.1 = 0 then s.bypEX else some (p.2.1, p.2.2)))
    ∧ (∀ p ∈ [ (Instr.add rd rs rt, rd, r.op1.toInt + r.op2.toInt), (.sub rd rs rt, rd, r.op1.toInt - r.op2.toInt),
            (.addi rt rs imm, rt, r.op1.toInt + imm.toInt) ],
      r.inst = .instr p.1 →
      (-2147483648 ≤ p.2.2 → p.2.2 ≤ 2147483647 → s.quiet = true →
        s.stepEX.pipe.memSlot = some { r with stage := .mem, result := BitVec.ofInt 32 p.2.2 } ∧ s.stepEX.pipe.exSlot = none
        ∧ s.stepEX.bypEX = (if p.2.1 = 0 then s.bypEX else some (p.2.1, BitVec.ofInt 32 p.2.2)))
      ∧ (p.2.2 < -2147483648 ∨ 2147483647 < p.2.2 →
        s.stepEX.bypEX = s.bypEX
        ∧ ∃ q, s.stepEX.pipe.memSlot = some q ∧ q.exception = some .ov ∧ q.pc = r.pc ∧ q.inDelaySlot = r.inDelaySlot))

/-! ## The fault injector -/

/-- R408, R409: what is due at a check, by cycle and by event, is consumed and combines by bitwise OR; a check with nothing due
only counts the event. -/
def Obligations.CheckFault : Prop :=
  ∀ (j : Injector) (l : Loc) (now : Nat),
    (∀ (c e : FaultEntry) (cs es : List FaultEntry),
      (j.loc l).byCycle = c :: cs → (j.loc l).byEvent = e :: es → c.due ≤ now → e.due ≤ (j.loc l).count + 1 →
      c.mask ||| e.mask ≠ 0 →
      (j.check l now 1).1 = some (0, c.mask ||| e.mask)
      ∧ (j.check l now 1).2.loc l = { byCycle := cs, byEvent := es, count := (j.loc l).count + 1 }
      ∧ (∀ k, k ≠ l → (j.check l now 1).2.loc k = j.loc k))
    ∧ (∀ n,
      (∀ c cs, (j.loc l).byCycle = c :: cs → now < c.due) →
      (∀ e es, (j.loc l).byEvent = e :: es → (j.loc l).count + 1 < e.due) →
      (j.check l now n).1 = none
      ∧ (j.check l now n).2 = j.setLoc l { j.loc l with count := (j.loc l).count + 1 })

/-- R407: an unreadable schedule file, or one with a bad line, is a fatal configuration and nothing is scheduled; a line with an
unknown location, an unparsable trigger or number, or a zero mask is bad. The mode is the model's (log 21); what is a token and a
number is R404 as log 24 reads it. -/
def Obligations.BadScheduleFileIsFatal : Prop :=
  (∀ (s : State) (file : Option (List Char)) (draws : List Nat),
    (∀ text, file = some text → ∃ line ∈ splitLines text, parseLine line = .bad) →
    (s.initInjection (.file file) draws).outcome = some .fatal
    ∧ (s.initInjection (.file file) draws).mode = .fatal
    ∧ (s.initInjection (.file file) draws).quiet = true)
  ∧ ∀ line loc trigger due mask : List Char,
    splitTokens line [] = [loc, trigger, due, mask] → loc.contains '#' = false →
    parseLoc loc = none ∨ parseTrigger trigger = none ∨ parseNumber due = none ∨ parseNumber mask = none
      ∨ parseNumber mask = some 0 →
    parseLine line = .bad

/-- R410 row ALU, R415: the only fault scheduled, due at this cycle at ALU, flips exactly its mask in the result, and is consumed. -/
def Obligations.InjectedFaultFlipsResult : Prop :=
  ∀ (s : State) (rd rs rt : Reg) (due : Nat) (mask : Word),
    s.inj.alu.byCycle = [{ due := due, mask := mask }] → s.inj.alu.byEvent = [] → mask ≠ 0 → due ≤ s.cycle + 1 →
    (∀ l, l ≠ .alu → (s.inj.loc l).quiet = true) →
    Completes (.addu rd rs rt) s fun t =>
      WritesX rd ((s.readX rs + s.readX rt) ^^^ mask) s t ∧ InOrder s t ∧ t.quiet = true
end

