-- ==== Sys2Proof/Laws/State.lean ====
section
/-! SUPPORT. One lemma per field per update of the state: what each named operation leaves alone, and what it sets. -/

namespace Sys2Proof.Machine

variable (s : State)

/-! drawn -/

@[simp] theorem drawn_params : s.drawn.params = s.params := rfl
@[simp] theorem drawn_x : s.drawn.x = s.x := rfl
@[simp] theorem drawn_fpc : s.drawn.fpc = s.fpc := rfl
@[simp] theorem drawn_fnpc : s.drawn.fnpc = s.fnpc := rfl
@[simp] theorem drawn_hi : s.drawn.hi = s.hi := rfl
@[simp] theorem drawn_lo : s.drawn.lo = s.lo := rfl
@[simp] theorem drawn_hiPresent : s.drawn.hiPresent = s.hiPresent := rfl
@[simp] theorem drawn_loPresent : s.drawn.loPresent = s.loPresent := rfl
@[simp] theorem drawn_bdFlag : s.drawn.bdFlag = s.bdFlag := rfl
@[simp] theorem drawn_f : s.drawn.f = s.f := rfl
@[simp] theorem drawn_fPresent : s.drawn.fPresent = s.fPresent := rfl
@[simp] theorem drawn_fpCond : s.drawn.fpCond = s.fpCond := rfl
@[simp] theorem drawn_fpCondPresent : s.drawn.fpCondPresent = s.fpCondPresent := rfl
@[simp] theorem drawn_c0 : s.drawn.c0 = s.c0 := rfl
@[simp] theorem drawn_pipe : s.drawn.pipe = s.pipe := rfl
@[simp] theorem drawn_poolFree : s.drawn.poolFree = s.poolFree := rfl
@[simp] theorem drawn_bypEX : s.drawn.bypEX = s.bypEX := rfl
@[simp] theorem drawn_bypMEM : s.drawn.bypMEM = s.bypMEM := rfl
@[simp] theorem drawn_mdu : s.drawn.mdu = s.mdu := rfl
@[simp] theorem drawn_busy : s.drawn.busy = s.busy := rfl
@[simp] theorem drawn_idStall : s.drawn.idStall = s.idStall := rfl
@[simp] theorem drawn_busDone : s.drawn.busDone = s.busDone := rfl
@[simp] theorem drawn_nextTag : s.drawn.nextTag = s.nextTag := rfl
@[simp] theorem drawn_cycle : s.drawn.cycle = s.cycle := rfl
@[simp] theorem drawn_excFound : s.drawn.excFound = s.excFound := rfl
@[simp] theorem drawn_inj : s.drawn.inj = s.inj := rfl
@[simp] theorem drawn_mem : s.drawn.mem = s.mem := rfl
@[simp] theorem drawn_script : s.drawn.script = s.script := rfl
@[simp] theorem drawn_pending : s.drawn.pending = s.pending := rfl
@[simp] theorem drawn_mode : s.drawn.mode = s.mode := rfl
@[simp] theorem drawn_calls : s.drawn.calls = s.calls := rfl
@[simp] theorem drawn_outcome : s.drawn.outcome = s.outcome := rfl
@[simp] theorem drawn_earlier : s.drawn.earlier = s.earlier := rfl
@[simp] theorem drawn_draws : s.drawn.draws = s.draws + 1 := rfl

/-! writeX -/

@[simp] theorem writeX_params (i : Reg) (v : Word) : (s.writeX i v).params = s.params := by unfold State.writeX; split <;> rfl
@[simp] theorem writeX_fpc (i : Reg) (v : Word) : (s.writeX i v).fpc = s.fpc := by unfold State.writeX; split <;> rfl
@[simp] theorem writeX_fnpc (i : Reg) (v : Word) : (s.writeX i v).fnpc = s.fnpc := by unfold State.writeX; split <;> rfl
@[simp] theorem writeX_hi (i : Reg) (v : Word) : (s.writeX i v).hi = s.hi := by unfold State.writeX; split <;> rfl
@[simp] theorem writeX_lo (i : Reg) (v : Word) : (s.writeX i v).lo = s.lo := by unfold State.writeX; split <;> rfl
@[simp] theorem writeX_hiPresent (i : Reg) (v : Word) : (s.writeX i v).hiPresent = s.hiPresent := by unfold State.writeX; split <;> rfl
@[simp] theorem writeX_loPresent (i : Reg) (v : Word) : (s.writeX i v).loPresent = s.loPresent := by unfold State.writeX; split <;> rfl
@[simp] theorem writeX_bdFlag (i : Reg) (v : Word) : (s.writeX i v).bdFlag = s.bdFlag := by unfold State.writeX; split <;> rfl
@[simp] theorem writeX_f (i : Reg) (v : Word) : (s.writeX i v).f = s.f := by unfold State.writeX; split <;> rfl
@[simp] theorem writeX_fPresent (i : Reg) (v : Word) : (s.writeX i v).fPresent = s.fPresent := by unfold State.writeX; split <;> rfl
@[simp] theorem writeX_fpCond (i : Reg) (v : Word) : (s.writeX i v).fpCond = s.fpCond := by unfold State.writeX; split <;> rfl
@[simp] theorem writeX_fpCondPresent (i : Reg) (v : Word) : (s.writeX i v).fpCondPresent = s.fpCondPresent := by unfold State.writeX; split <;> rfl
@[simp] theorem writeX_c0 (i : Reg) (v : Word) : (s.writeX i v).c0 = s.c0 := by unfold State.writeX; split <;> rfl
@[simp] theorem writeX_pipe (i : Reg) (v : Word) : (s.writeX i v).pipe = s.pipe := by unfold State.writeX; split <;> rfl
@[simp] theorem writeX_poolFree (i : Reg) (v : Word) : (s.writeX i v).poolFree = s.poolFree := by unfold State.writeX; split <;> rfl
@[simp] theorem writeX_bypEX (i : Reg) (v : Word) : (s.writeX i v).bypEX = s.bypEX := by unfold State.writeX; split <;> rfl
@[simp] theorem writeX_bypMEM (i : Reg) (v : Word) : (s.writeX i v).bypMEM = s.bypMEM := by unfold State.writeX; split <;> rfl
@[simp] theorem writeX_mdu (i : Reg) (v : Word) : (s.writeX i v).mdu = s.mdu := by unfold State.writeX; split <;> rfl
@[simp] theorem writeX_busy (i : Reg) (v : Word) : (s.writeX i v).busy = s.busy := by unfold State.writeX; split <;> rfl
@[simp] theorem writeX_idStall (i : Reg) (v : Word) : (s.writeX i v).idStall = s.idStall := by unfold State.writeX; split <;> rfl
@[simp] theorem writeX_busDone (i : Reg) (v : Word) : (s.writeX i v).busDone = s.busDone := by unfold State.writeX; split <;> rfl
@[simp] theorem writeX_nextTag (i : Reg) (v : Word) : (s.writeX i v).nextTag = s.nextTag := by unfold State.writeX; split <;> rfl
@[simp] theorem writeX_cycle (i : Reg) (v : Word) : (s.writeX i v).cycle = s.cycle := by unfold State.writeX; split <;> rfl
@[simp] theorem writeX_excFound (i : Reg) (v : Word) : (s.writeX i v).excFound = s.excFound := by unfold State.writeX; split <;> rfl
@[simp] theorem writeX_inj (i : Reg) (v : Word) : (s.writeX i v).inj = s.inj := by unfold State.writeX; split <;> rfl
@[simp] theorem writeX_mem (i : Reg) (v : Word) : (s.writeX i v).mem = s.mem := by unfold State.writeX; split <;> rfl
@[simp] theorem writeX_script (i : Reg) (v : Word) : (s.writeX i v).script = s.script := by unfold State.writeX; split <;> rfl
@[simp] theorem writeX_pending (i : Reg) (v : Word) : (s.writeX i v).pending = s.pending := by unfold State.writeX; split <;> rfl
@[simp] theorem writeX_mode (i : Reg) (v : Word) : (s.writeX i v).mode = s.mode := by unfold State.writeX; split <;> rfl
@[simp] theorem writeX_calls (i : Reg) (v : Word) : (s.writeX i v).calls = s.calls := by unfold State.writeX; split <;> rfl
@[simp] theorem writeX_outcome (i : Reg) (v : Word) : (s.writeX i v).outcome = s.outcome := by unfold State.writeX; split <;> rfl
@[simp] theorem writeX_earlier (i : Reg) (v : Word) : (s.writeX i v).earlier = s.earlier := by unfold State.writeX; split <;> rfl
@[simp] theorem writeX_draws (i : Reg) (v : Word) : (s.writeX i v).draws = s.draws := by unfold State.writeX; split <;> rfl

/-! writeF -/

@[simp] theorem writeF_params (i : Reg) (v : Word) : (s.writeF i v).params = s.params := rfl
@[simp] theorem writeF_x (i : Reg) (v : Word) : (s.writeF i v).x = s.x := rfl
@[simp] theorem writeF_fpc (i : Reg) (v : Word) : (s.writeF i v).fpc = s.fpc := rfl
@[simp] theorem writeF_fnpc (i : Reg) (v : Word) : (s.writeF i v).fnpc = s.fnpc := rfl
@[simp] theorem writeF_hi (i : Reg) (v : Word) : (s.writeF i v).hi = s.hi := rfl
@[simp] theorem writeF_lo (i : Reg) (v : Word) : (s.writeF i v).lo = s.lo := rfl
@[simp] theorem writeF_hiPresent (i : Reg) (v : Word) : (s.writeF i v).hiPresent = s.hiPresent := rfl
@[simp] theorem writeF_loPresent (i : Reg) (v : Word) : (s.writeF i v).loPresent = s.loPresent := rfl
@[simp] theorem writeF_bdFlag (i : Reg) (v : Word) : (s.writeF i v).bdFlag = s.bdFlag := rfl
@[simp] theorem writeF_fPresent (i : Reg) (v : Word) : (s.writeF i v).fPresent = s.fPresent := rfl
@[simp] theorem writeF_fpCond (i : Reg) (v : Word) : (s.writeF i v).fpCond = s.fpCond := rfl
@[simp] theorem writeF_fpCondPresent (i : Reg) (v : Word) : (s.writeF i v).fpCondPresent = s.fpCondPresent := rfl
@[simp] theorem writeF_c0 (i : Reg) (v : Word) : (s.writeF i v).c0 = s.c0 := rfl
@[simp] theorem writeF_pipe (i : Reg) (v : Word) : (s.writeF i v).pipe = s.pipe := rfl
@[simp] theorem writeF_poolFree (i : Reg) (v : Word) : (s.writeF i v).poolFree = s.poolFree := rfl
@[simp] theorem writeF_bypEX (i : Reg) (v : Word) : (s.writeF i v).bypEX = s.bypEX := rfl
@[simp] theorem writeF_bypMEM (i : Reg) (v : Word) : (s.writeF i v).bypMEM = s.bypMEM := rfl
@[simp] theorem writeF_mdu (i : Reg) (v : Word) : (s.writeF i v).mdu = s.mdu := rfl
@[simp] theorem writeF_busy (i : Reg) (v : Word) : (s.writeF i v).busy = s.busy := rfl
@[simp] theorem writeF_idStall (i : Reg) (v : Word) : (s.writeF i v).idStall = s.idStall := rfl
@[simp] theorem writeF_busDone (i : Reg) (v : Word) : (s.writeF i v).busDone = s.busDone := rfl
@[simp] theorem writeF_nextTag (i : Reg) (v : Word) : (s.writeF i v).nextTag = s.nextTag := rfl
@[simp] theorem writeF_cycle (i : Reg) (v : Word) : (s.writeF i v).cycle = s.cycle := rfl
@[simp] theorem writeF_excFound (i : Reg) (v : Word) : (s.writeF i v).excFound = s.excFound := rfl
@[simp] theorem writeF_inj (i : Reg) (v : Word) : (s.writeF i v).inj = s.inj := rfl
@[simp] theorem writeF_mem (i : Reg) (v : Word) : (s.writeF i v).mem = s.mem := rfl
@[simp] theorem writeF_script (i : Reg) (v : Word) : (s.writeF i v).script = s.script := rfl
@[simp] theorem writeF_pending (i : Reg) (v : Word) : (s.writeF i v).pending = s.pending := rfl
@[simp] theorem writeF_mode (i : Reg) (v : Word) : (s.writeF i v).mode = s.mode := rfl
@[simp] theorem writeF_calls (i : Reg) (v : Word) : (s.writeF i v).calls = s.calls := rfl
@[simp] theorem writeF_outcome (i : Reg) (v : Word) : (s.writeF i v).outcome = s.outcome := rfl
@[simp] theorem writeF_earlier (i : Reg) (v : Word) : (s.writeF i v).earlier = s.earlier := rfl
@[simp] theorem writeF_draws (i : Reg) (v : Word) : (s.writeF i v).draws = s.draws := rfl

/-! writeFD -/

@[simp] theorem writeFD_params (i : Reg) (v : DWord) : (s.writeFD i v).params = s.params := rfl
@[simp] theorem writeFD_x (i : Reg) (v : DWord) : (s.writeFD i v).x = s.x := rfl
@[simp] theorem writeFD_fpc (i : Reg) (v : DWord) : (s.writeFD i v).fpc = s.fpc := rfl
@[simp] theorem writeFD_fnpc (i : Reg) (v : DWord) : (s.writeFD i v).fnpc = s.fnpc := rfl
@[simp] theorem writeFD_hi (i : Reg) (v : DWord) : (s.writeFD i v).hi = s.hi := rfl
@[simp] theorem writeFD_lo (i : Reg) (v : DWord) : (s.writeFD i v).lo = s.lo := rfl
@[simp] theorem writeFD_hiPresent (i : Reg) (v : DWord) : (s.writeFD i v).hiPresent = s.hiPresent := rfl
@[simp] theorem writeFD_loPresent (i : Reg) (v : DWord) : (s.writeFD i v).loPresent = s.loPresent := rfl
@[simp] theorem writeFD_bdFlag (i : Reg) (v : DWord) : (s.writeFD i v).bdFlag = s.bdFlag := rfl
@[simp] theorem writeFD_fPresent (i : Reg) (v : DWord) : (s.writeFD i v).fPresent = s.fPresent := rfl
@[simp] theorem writeFD_fpCond (i : Reg) (v : DWord) : (s.writeFD i v).fpCond = s.fpCond := rfl
@[simp] theorem writeFD_fpCondPresent (i : Reg) (v : DWord) : (s.writeFD i v).fpCondPresent = s.fpCondPresent := rfl
@[simp] theorem writeFD_c0 (i : Reg) (v : DWord) : (s.writeFD i v).c0 = s.c0 := rfl
@[simp] theorem writeFD_pipe (i : Reg) (v : DWord) : (s.writeFD i v).pipe = s.pipe := rfl
@[simp] theorem writeFD_poolFree (i : Reg) (v : DWord) : (s.writeFD i v).poolFree = s.poolFree := rfl
@[simp] theorem writeFD_bypEX (i : Reg) (v : DWord) : (s.writeFD i v).bypEX = s.bypEX := rfl
@[simp] theorem writeFD_bypMEM (i : Reg) (v : DWord) : (s.writeFD i v).bypMEM = s.bypMEM := rfl
@[simp] theorem writeFD_mdu (i : Reg) (v : DWord) : (s.writeFD i v).mdu = s.mdu := rfl
@[simp] theorem writeFD_busy (i : Reg) (v : DWord) : (s.writeFD i v).busy = s.busy := rfl
@[simp] theorem writeFD_idStall (i : Reg) (v : DWord) : (s.writeFD i v).idStall = s.idStall := rfl
@[simp] theorem writeFD_busDone (i : Reg) (v : DWord) : (s.writeFD i v).busDone = s.busDone := rfl
@[simp] theorem writeFD_nextTag (i : Reg) (v : DWord) : (s.writeFD i v).nextTag = s.nextTag := rfl
@[simp] theorem writeFD_cycle (i : Reg) (v : DWord) : (s.writeFD i v).cycle = s.cycle := rfl
@[simp] theorem writeFD_excFound (i : Reg) (v : DWord) : (s.writeFD i v).excFound = s.excFound := rfl
@[simp] theorem writeFD_inj (i : Reg) (v : DWord) : (s.writeFD i v).inj = s.inj := rfl
@[simp] theorem writeFD_mem (i : Reg) (v : DWord) : (s.writeFD i v).mem = s.mem := rfl
@[simp] theorem writeFD_script (i : Reg) (v : DWord) : (s.writeFD i v).script = s.script := rfl
@[simp] theorem writeFD_pending (i : Reg) (v : DWord) : (s.writeFD i v).pending = s.pending := rfl
@[simp] theorem writeFD_mode (i : Reg) (v : DWord) : (s.writeFD i v).mode = s.mode := rfl
@[simp] theorem writeFD_calls (i : Reg) (v : DWord) : (s.writeFD i v).calls = s.calls := rfl
@[simp] theorem writeFD_outcome (i : Reg) (v : DWord) : (s.writeFD i v).outcome = s.outcome := rfl
@[simp] theorem writeFD_earlier (i : Reg) (v : DWord) : (s.writeFD i v).earlier = s.earlier := rfl
@[simp] theorem writeFD_draws (i : Reg) (v : DWord) : (s.writeFD i v).draws = s.draws := rfl

/-! writeFOpnd -/

@[simp] theorem writeFOpnd_params (o : FOpnd) (v : DWord) : (s.writeFOpnd o v).params = s.params := by cases o <;> rfl
@[simp] theorem writeFOpnd_x (o : FOpnd) (v : DWord) : (s.writeFOpnd o v).x = s.x := by cases o <;> rfl
@[simp] theorem writeFOpnd_fpc (o : FOpnd) (v : DWord) : (s.writeFOpnd o v).fpc = s.fpc := by cases o <;> rfl
@[simp] theorem writeFOpnd_fnpc (o : FOpnd) (v : DWord) : (s.writeFOpnd o v).fnpc = s.fnpc := by cases o <;> rfl
@[simp] theorem writeFOpnd_hi (o : FOpnd) (v : DWord) : (s.writeFOpnd o v).hi = s.hi := by cases o <;> rfl
@[simp] theorem writeFOpnd_lo (o : FOpnd) (v : DWord) : (s.writeFOpnd o v).lo = s.lo := by cases o <;> rfl
@[simp] theorem writeFOpnd_hiPresent (o : FOpnd) (v : DWord) : (s.writeFOpnd o v).hiPresent = s.hiPresent := by cases o <;> rfl
@[simp] theorem writeFOpnd_loPresent (o : FOpnd) (v : DWord) : (s.writeFOpnd o v).loPresent = s.loPresent := by cases o <;> rfl
@[simp] theorem writeFOpnd_bdFlag (o : FOpnd) (v : DWord) : (s.writeFOpnd o v).bdFlag = s.bdFlag := by cases o <;> rfl
@[simp] theorem writeFOpnd_fPresent (o : FOpnd) (v : DWord) : (s.writeFOpnd o v).fPresent = s.fPresent := by cases o <;> rfl
@[simp] theorem writeFOpnd_fpCond (o : FOpnd) (v : DWord) : (s.writeFOpnd o v).fpCond = s.fpCond := by cases o <;> rfl
@[simp] theorem writeFOpnd_fpCondPresent (o : FOpnd) (v : DWord) : (s.writeFOpnd o v).fpCondPresent = s.fpCondPresent := by cases o <;> rfl
@[simp] theorem writeFOpnd_c0 (o : FOpnd) (v : DWord) : (s.writeFOpnd o v).c0 = s.c0 := by cases o <;> rfl
@[simp] theorem writeFOpnd_pipe (o : FOpnd) (v : DWord) : (s.writeFOpnd o v).pipe = s.pipe := by cases o <;> rfl
@[simp] theorem writeFOpnd_poolFree (o : FOpnd) (v : DWord) : (s.writeFOpnd o v).poolFree = s.poolFree := by cases o <;> rfl
@[simp] theorem writeFOpnd_bypEX (o : FOpnd) (v : DWord) : (s.writeFOpnd o v).bypEX = s.bypEX := by cases o <;> rfl
@[simp] theorem writeFOpnd_bypMEM (o : FOpnd) (v : DWord) : (s.writeFOpnd o v).bypMEM = s.bypMEM := by cases o <;> rfl
@[simp] theorem writeFOpnd_mdu (o : FOpnd) (v : DWord) : (s.writeFOpnd o v).mdu = s.mdu := by cases o <;> rfl
@[simp] theorem writeFOpnd_busy (o : FOpnd) (v : DWord) : (s.writeFOpnd o v).busy = s.busy := by cases o <;> rfl
@[simp] theorem writeFOpnd_idStall (o : FOpnd) (v : DWord) : (s.writeFOpnd o v).idStall = s.idStall := by cases o <;> rfl
@[simp] theorem writeFOpnd_busDone (o : FOpnd) (v : DWord) : (s.writeFOpnd o v).busDone = s.busDone := by cases o <;> rfl
@[simp] theorem writeFOpnd_nextTag (o : FOpnd) (v : DWord) : (s.writeFOpnd o v).nextTag = s.nextTag := by cases o <;> rfl
@[simp] theorem writeFOpnd_cycle (o : FOpnd) (v : DWord) : (s.writeFOpnd o v).cycle = s.cycle := by cases o <;> rfl
@[simp] theorem writeFOpnd_excFound (o : FOpnd) (v : DWord) : (s.writeFOpnd o v).excFound = s.excFound := by cases o <;> rfl
@[simp] theorem writeFOpnd_inj (o : FOpnd) (v : DWord) : (s.writeFOpnd o v).inj = s.inj := by cases o <;> rfl
@[simp] theorem writeFOpnd_mem (o : FOpnd) (v : DWord) : (s.writeFOpnd o v).mem = s.mem := by cases o <;> rfl
@[simp] theorem writeFOpnd_script (o : FOpnd) (v : DWord) : (s.writeFOpnd o v).script = s.script := by cases o <;> rfl
@[simp] theorem writeFOpnd_pending (o : FOpnd) (v : DWord) : (s.writeFOpnd o v).pending = s.pending := by cases o <;> rfl
@[simp] theorem writeFOpnd_mode (o : FOpnd) (v : DWord) : (s.writeFOpnd o v).mode = s.mode := by cases o <;> rfl
@[simp] theorem writeFOpnd_calls (o : FOpnd) (v : DWord) : (s.writeFOpnd o v).calls = s.calls := by cases o <;> rfl
@[simp] theorem writeFOpnd_outcome (o : FOpnd) (v : DWord) : (s.writeFOpnd o v).outcome = s.outcome := by cases o <;> rfl
@[simp] theorem writeFOpnd_earlier (o : FOpnd) (v : DWord) : (s.writeFOpnd o v).earlier = s.earlier := by cases o <;> rfl
@[simp] theorem writeFOpnd_draws (o : FOpnd) (v : DWord) : (s.writeFOpnd o v).draws = s.draws := by cases o <;> rfl

/-! setPresentF -/

@[simp] theorem setPresentF_params (i : Reg) (b : Bool) : (s.setPresentF i b).params = s.params := rfl
@[simp] theorem setPresentF_x (i : Reg) (b : Bool) : (s.setPresentF i b).x = s.x := rfl
@[simp] theorem setPresentF_fpc (i : Reg) (b : Bool) : (s.setPresentF i b).fpc = s.fpc := rfl
@[simp] theorem setPresentF_fnpc (i : Reg) (b : Bool) : (s.setPresentF i b).fnpc = s.fnpc := rfl
@[simp] theorem setPresentF_hi (i : Reg) (b : Bool) : (s.setPresentF i b).hi = s.hi := rfl
@[simp] theorem setPresentF_lo (i : Reg) (b : Bool) : (s.setPresentF i b).lo = s.lo := rfl
@[simp] theorem setPresentF_hiPresent (i : Reg) (b : Bool) : (s.setPresentF i b).hiPresent = s.hiPresent := rfl
@[simp] theorem setPresentF_loPresent (i : Reg) (b : Bool) : (s.setPresentF i b).loPresent = s.loPresent := rfl
@[simp] theorem setPresentF_bdFlag (i : Reg) (b : Bool) : (s.setPresentF i b).bdFlag = s.bdFlag := rfl
@[simp] theorem setPresentF_f (i : Reg) (b : Bool) : (s.setPresentF i b).f = s.f := rfl
@[simp] theorem setPresentF_fpCond (i : Reg) (b : Bool) : (s.setPresentF i b).fpCond = s.fpCond := rfl
@[simp] theorem setPresentF_fpCondPresent (i : Reg) (b : Bool) : (s.setPresentF i b).fpCondPresent = s.fpCondPresent := rfl
@[simp] theorem setPresentF_c0 (i : Reg) (b : Bool) : (s.setPresentF i b).c0 = s.c0 := rfl
@[simp] theorem setPresentF_pipe (i : Reg) (b : Bool) : (s.setPresentF i b).pipe = s.pipe := rfl
@[simp] theorem setPresentF_poolFree (i : Reg) (b : Bool) : (s.setPresentF i b).poolFree = s.poolFree := rfl
@[simp] theorem setPresentF_bypEX (i : Reg) (b : Bool) : (s.setPresentF i b).bypEX = s.bypEX := rfl
@[simp] theorem setPresentF_bypMEM (i : Reg) (b : Bool) : (s.setPresentF i b).bypMEM = s.bypMEM := rfl
@[simp] theorem setPresentF_mdu (i : Reg) (b : Bool) : (s.setPresentF i b).mdu = s.mdu := rfl
@[simp] theorem setPresentF_busy (i : Reg) (b : Bool) : (s.setPresentF i b).busy = s.busy := rfl
@[simp] theorem setPresentF_idStall (i : Reg) (b : Bool) : (s.setPresentF i b).idStall = s.idStall := rfl
@[simp] theorem setPresentF_busDone (i : Reg) (b : Bool) : (s.setPresentF i b).busDone = s.busDone := rfl
@[simp] theorem setPresentF_nextTag (i : Reg) (b : Bool) : (s.setPresentF i b).nextTag = s.nextTag := rfl
@[simp] theorem setPresentF_cycle (i : Reg) (b : Bool) : (s.setPresentF i b).cycle = s.cycle := rfl
@[simp] theorem setPresentF_excFound (i : Reg) (b : Bool) : (s.setPresentF i b).excFound = s.excFound := rfl
@[simp] theorem setPresentF_inj (i : Reg) (b : Bool) : (s.setPresentF i b).inj = s.inj := rfl
@[simp] theorem setPresentF_mem (i : Reg) (b : Bool) : (s.setPresentF i b).mem = s.mem := rfl
@[simp] theorem setPresentF_script (i : Reg) (b : Bool) : (s.setPresentF i b).script = s.script := rfl
@[simp] theorem setPresentF_pending (i : Reg) (b : Bool) : (s.setPresentF i b).pending = s.pending := rfl
@[simp] theorem setPresentF_mode (i : Reg) (b : Bool) : (s.setPresentF i b).mode = s.mode := rfl
@[simp] theorem setPresentF_calls (i : Reg) (b : Bool) : (s.setPresentF i b).calls = s.calls := rfl
@[simp] theorem setPresentF_outcome (i : Reg) (b : Bool) : (s.setPresentF i b).outcome = s.outcome := rfl
@[simp] theorem setPresentF_earlier (i : Reg) (b : Bool) : (s.setPresentF i b).earlier = s.earlier := rfl
@[simp] theorem setPresentF_draws (i : Reg) (b : Bool) : (s.setPresentF i b).draws = s.draws := rfl

/-! setPresentFOpnd -/

@[simp] theorem setPresentFOpnd_params (o : FOpnd) (b : Bool) : (s.setPresentFOpnd o b).params = s.params := by cases o <;> rfl
@[simp] theorem setPresentFOpnd_x (o : FOpnd) (b : Bool) : (s.setPresentFOpnd o b).x = s.x := by cases o <;> rfl
@[simp] theorem setPresentFOpnd_fpc (o : FOpnd) (b : Bool) : (s.setPresentFOpnd o b).fpc = s.fpc := by cases o <;> rfl
@[simp] theorem setPresentFOpnd_fnpc (o : FOpnd) (b : Bool) : (s.setPresentFOpnd o b).fnpc = s.fnpc := by cases o <;> rfl
@[simp] theorem setPresentFOpnd_hi (o : FOpnd) (b : Bool) : (s.setPresentFOpnd o b).hi = s.hi := by cases o <;> rfl
@[simp] theorem setPresentFOpnd_lo (o : FOpnd) (b : Bool) : (s.setPresentFOpnd o b).lo = s.lo := by cases o <;> rfl
@[simp] theorem setPresentFOpnd_hiPresent (o : FOpnd) (b : Bool) : (s.setPresentFOpnd o b).hiPresent = s.hiPresent := by cases o <;> rfl
@[simp] theorem setPresentFOpnd_loPresent (o : FOpnd) (b : Bool) : (s.setPresentFOpnd o b).loPresent = s.loPresent := by cases o <;> rfl
@[simp] theorem setPresentFOpnd_bdFlag (o : FOpnd) (b : Bool) : (s.setPresentFOpnd o b).bdFlag = s.bdFlag := by cases o <;> rfl
@[simp] theorem setPresentFOpnd_f (o : FOpnd) (b : Bool) : (s.setPresentFOpnd o b).f = s.f := by cases o <;> rfl
@[simp] theorem setPresentFOpnd_fpCond (o : FOpnd) (b : Bool) : (s.setPresentFOpnd o b).fpCond = s.fpCond := by cases o <;> rfl
@[simp] theorem setPresentFOpnd_fpCondPresent (o : FOpnd) (b : Bool) : (s.setPresentFOpnd o b).fpCondPresent = s.fpCondPresent := by cases o <;> rfl
@[simp] theorem setPresentFOpnd_c0 (o : FOpnd) (b : Bool) : (s.setPresentFOpnd o b).c0 = s.c0 := by cases o <;> rfl
@[simp] theorem setPresentFOpnd_pipe (o : FOpnd) (b : Bool) : (s.setPresentFOpnd o b).pipe = s.pipe := by cases o <;> rfl
@[simp] theorem setPresentFOpnd_poolFree (o : FOpnd) (b : Bool) : (s.setPresentFOpnd o b).poolFree = s.poolFree := by cases o <;> rfl
@[simp] theorem setPresentFOpnd_bypEX (o : FOpnd) (b : Bool) : (s.setPresentFOpnd o b).bypEX = s.bypEX := by cases o <;> rfl
@[simp] theorem setPresentFOpnd_bypMEM (o : FOpnd) (b : Bool) : (s.setPresentFOpnd o b).bypMEM = s.bypMEM := by cases o <;> rfl
@[simp] theorem setPresentFOpnd_mdu (o : FOpnd) (b : Bool) : (s.setPresentFOpnd o b).mdu = s.mdu := by cases o <;> rfl
@[simp] theorem setPresentFOpnd_busy (o : FOpnd) (b : Bool) : (s.setPresentFOpnd o b).busy = s.busy := by cases o <;> rfl
@[simp] theorem setPresentFOpnd_idStall (o : FOpnd) (b : Bool) : (s.setPresentFOpnd o b).idStall = s.idStall := by cases o <;> rfl
@[simp] theorem setPresentFOpnd_busDone (o : FOpnd) (b : Bool) : (s.setPresentFOpnd o b).busDone = s.busDone := by cases o <;> rfl
@[simp] theorem setPresentFOpnd_nextTag (o : FOpnd) (b : Bool) : (s.setPresentFOpnd o b).nextTag = s.nextTag := by cases o <;> rfl
@[simp] theorem setPresentFOpnd_cycle (o : FOpnd) (b : Bool) : (s.setPresentFOpnd o b).cycle = s.cycle := by cases o <;> rfl
@[simp] theorem setPresentFOpnd_excFound (o : FOpnd) (b : Bool) : (s.setPresentFOpnd o b).excFound = s.excFound := by cases o <;> rfl
@[simp] theorem setPresentFOpnd_inj (o : FOpnd) (b : Bool) : (s.setPresentFOpnd o b).inj = s.inj := by cases o <;> rfl
@[simp] theorem setPresentFOpnd_mem (o : FOpnd) (b : Bool) : (s.setPresentFOpnd o b).mem = s.mem := by cases o <;> rfl
@[simp] theorem setPresentFOpnd_script (o : FOpnd) (b : Bool) : (s.setPresentFOpnd o b).script = s.script := by cases o <;> rfl
@[simp] theorem setPresentFOpnd_pending (o : FOpnd) (b : Bool) : (s.setPresentFOpnd o b).pending = s.pending := by cases o <;> rfl
@[simp] theorem setPresentFOpnd_mode (o : FOpnd) (b : Bool) : (s.setPresentFOpnd o b).mode = s.mode := by cases o <;> rfl
@[simp] theorem setPresentFOpnd_calls (o : FOpnd) (b : Bool) : (s.setPresentFOpnd o b).calls = s.calls := by cases o <;> rfl
@[simp] theorem setPresentFOpnd_outcome (o : FOpnd) (b : Bool) : (s.setPresentFOpnd o b).outcome = s.outcome := by cases o <;> rfl
@[simp] theorem setPresentFOpnd_earlier (o : FOpnd) (b : Bool) : (s.setPresentFOpnd o b).earlier = s.earlier := by cases o <;> rfl
@[simp] theorem setPresentFOpnd_draws (o : FOpnd) (b : Bool) : (s.setPresentFOpnd o b).draws = s.draws := by cases o <;> rfl

/-! writeC0 -/

@[simp] theorem writeC0_params (i : Reg) (v : Word) : (s.writeC0 i v).params = s.params := rfl
@[simp] theorem writeC0_x (i : Reg) (v : Word) : (s.writeC0 i v).x = s.x := rfl
@[simp] theorem writeC0_fpc (i : Reg) (v : Word) : (s.writeC0 i v).fpc = s.fpc := rfl
@[simp] theorem writeC0_fnpc (i : Reg) (v : Word) : (s.writeC0 i v).fnpc = s.fnpc := rfl
@[simp] theorem writeC0_hi (i : Reg) (v : Word) : (s.writeC0 i v).hi = s.hi := rfl
@[simp] theorem writeC0_lo (i : Reg) (v : Word) : (s.writeC0 i v).lo = s.lo := rfl
@[simp] theorem writeC0_hiPresent (i : Reg) (v : Word) : (s.writeC0 i v).hiPresent = s.hiPresent := rfl
@[simp] theorem writeC0_loPresent (i : Reg) (v : Word) : (s.writeC0 i v).loPresent = s.loPresent := rfl
@[simp] theorem writeC0_bdFlag (i : Reg) (v : Word) : (s.writeC0 i v).bdFlag = s.bdFlag := rfl
@[simp] theorem writeC0_f (i : Reg) (v : Word) : (s.writeC0 i v).f = s.f := rfl
@[simp] theorem writeC0_fPresent (i : Reg) (v : Word) : (s.writeC0 i v).fPresent = s.fPresent := rfl
@[simp] theorem writeC0_fpCond (i : Reg) (v : Word) : (s.writeC0 i v).fpCond = s.fpCond := rfl
@[simp] theorem writeC0_fpCondPresent (i : Reg) (v : Word) : (s.writeC0 i v).fpCondPresent = s.fpCondPresent := rfl
@[simp] theorem writeC0_pipe (i : Reg) (v : Word) : (s.writeC0 i v).pipe = s.pipe := rfl
@[simp] theorem writeC0_poolFree (i : Reg) (v : Word) : (s.writeC0 i v).poolFree = s.poolFree := rfl
@[simp] theorem writeC0_bypEX (i : Reg) (v : Word) : (s.writeC0 i v).bypEX = s.bypEX := rfl
@[simp] theorem writeC0_bypMEM (i : Reg) (v : Word) : (s.writeC0 i v).bypMEM = s.bypMEM := rfl
@[simp] theorem writeC0_mdu (i : Reg) (v : Word) : (s.writeC0 i v).mdu = s.mdu := rfl
@[simp] theorem writeC0_busy (i : Reg) (v : Word) : (s.writeC0 i v).busy = s.busy := rfl
@[simp] theorem writeC0_idStall (i : Reg) (v : Word) : (s.writeC0 i v).idStall = s.idStall := rfl
@[simp] theorem writeC0_busDone (i : Reg) (v : Word) : (s.writeC0 i v).busDone = s.busDone := rfl
@[simp] theorem writeC0_nextTag (i : Reg) (v : Word) : (s.writeC0 i v).nextTag = s.nextTag := rfl
@[simp] theorem writeC0_cycle (i : Reg) (v : Word) : (s.writeC0 i v).cycle = s.cycle := rfl
@[simp] theorem writeC0_excFound (i : Reg) (v : Word) : (s.writeC0 i v).excFound = s.excFound := rfl
@[simp] theorem writeC0_inj (i : Reg) (v : Word) : (s.writeC0 i v).inj = s.inj := rfl
@[simp] theorem writeC0_mem (i : Reg) (v : Word) : (s.writeC0 i v).mem = s.mem := rfl
@[simp] theorem writeC0_script (i : Reg) (v : Word) : (s.writeC0 i v).script = s.script := rfl
@[simp] theorem writeC0_pending (i : Reg) (v : Word) : (s.writeC0 i v).pending = s.pending := rfl
@[simp] theorem writeC0_mode (i : Reg) (v : Word) : (s.writeC0 i v).mode = s.mode := rfl
@[simp] theorem writeC0_calls (i : Reg) (v : Word) : (s.writeC0 i v).calls = s.calls := rfl
@[simp] theorem writeC0_outcome (i : Reg) (v : Word) : (s.writeC0 i v).outcome = s.outcome := rfl
@[simp] theorem writeC0_earlier (i : Reg) (v : Word) : (s.writeC0 i v).earlier = s.earlier := rfl
@[simp] theorem writeC0_draws (i : Reg) (v : Word) : (s.writeC0 i v).draws = s.draws := rfl

/-! writeHiLo -/

@[simp] theorem writeHiLo_params (h : HiLo) (v : Word) : (s.writeHiLo h v).params = s.params := by cases h <;> rfl
@[simp] theorem writeHiLo_x (h : HiLo) (v : Word) : (s.writeHiLo h v).x = s.x := by cases h <;> rfl
@[simp] theorem writeHiLo_fpc (h : HiLo) (v : Word) : (s.writeHiLo h v).fpc = s.fpc := by cases h <;> rfl
@[simp] theorem writeHiLo_fnpc (h : HiLo) (v : Word) : (s.writeHiLo h v).fnpc = s.fnpc := by cases h <;> rfl
@[simp] theorem writeHiLo_bdFlag (h : HiLo) (v : Word) : (s.writeHiLo h v).bdFlag = s.bdFlag := by cases h <;> rfl
@[simp] theorem writeHiLo_f (h : HiLo) (v : Word) : (s.writeHiLo h v).f = s.f := by cases h <;> rfl
@[simp] theorem writeHiLo_fPresent (h : HiLo) (v : Word) : (s.writeHiLo h v).fPresent = s.fPresent := by cases h <;> rfl
@[simp] theorem writeHiLo_fpCond (h : HiLo) (v : Word) : (s.writeHiLo h v).fpCond = s.fpCond := by cases h <;> rfl
@[simp] theorem writeHiLo_fpCondPresent (h : HiLo) (v : Word) : (s.writeHiLo h v).fpCondPresent = s.fpCondPresent := by cases h <;> rfl
@[simp] theorem writeHiLo_c0 (h : HiLo) (v : Word) : (s.writeHiLo h v).c0 = s.c0 := by cases h <;> rfl
@[simp] theorem writeHiLo_pipe (h : HiLo) (v : Word) : (s.writeHiLo h v).pipe = s.pipe := by cases h <;> rfl
@[simp] theorem writeHiLo_poolFree (h : HiLo) (v : Word) : (s.writeHiLo h v).poolFree = s.poolFree := by cases h <;> rfl
@[simp] theorem writeHiLo_bypEX (h : HiLo) (v : Word) : (s.writeHiLo h v).bypEX = s.bypEX := by cases h <;> rfl
@[simp] theorem writeHiLo_bypMEM (h : HiLo) (v : Word) : (s.writeHiLo h v).bypMEM = s.bypMEM := by cases h <;> rfl
@[simp] theorem writeHiLo_mdu (h : HiLo) (v : Word) : (s.writeHiLo h v).mdu = s.mdu := by cases h <;> rfl
@[simp] theorem writeHiLo_busy (h : HiLo) (v : Word) : (s.writeHiLo h v).busy = s.busy := by cases h <;> rfl
@[simp] theorem writeHiLo_idStall (h : HiLo) (v : Word) : (s.writeHiLo h v).idStall = s.idStall := by cases h <;> rfl
@[simp] theorem writeHiLo_busDone (h : HiLo) (v : Word) : (s.writeHiLo h v).busDone = s.busDone := by cases h <;> rfl
@[simp] theorem writeHiLo_nextTag (h : HiLo) (v : Word) : (s.writeHiLo h v).nextTag = s.nextTag := by cases h <;> rfl
@[simp] theorem writeHiLo_cycle (h : HiLo) (v : Word) : (s.writeHiLo h v).cycle = s.cycle := by cases h <;> rfl
@[simp] theorem writeHiLo_excFound (h : HiLo) (v : Word) : (s.writeHiLo h v).excFound = s.excFound := by cases h <;> rfl
@[simp] theorem writeHiLo_inj (h : HiLo) (v : Word) : (s.writeHiLo h v).inj = s.inj := by cases h <;> rfl
@[simp] theorem writeHiLo_mem (h : HiLo) (v : Word) : (s.writeHiLo h v).mem = s.mem := by cases h <;> rfl
@[simp] theorem writeHiLo_script (h : HiLo) (v : Word) : (s.writeHiLo h v).script = s.script := by cases h <;> rfl
@[simp] theorem writeHiLo_pending (h : HiLo) (v : Word) : (s.writeHiLo h v).pending = s.pending := by cases h <;> rfl
@[simp] theorem writeHiLo_mode (h : HiLo) (v : Word) : (s.writeHiLo h v).mode = s.mode := by cases h <;> rfl
@[simp] theorem writeHiLo_calls (h : HiLo) (v : Word) : (s.writeHiLo h v).calls = s.calls := by cases h <;> rfl
@[simp] theorem writeHiLo_outcome (h : HiLo) (v : Word) : (s.writeHiLo h v).outcome = s.outcome := by cases h <;> rfl
@[simp] theorem writeHiLo_earlier (h : HiLo) (v : Word) : (s.writeHiLo h v).earlier = s.earlier := by cases h <;> rfl
@[simp] theorem writeHiLo_draws (h : HiLo) (v : Word) : (s.writeHiLo h v).draws = s.draws := by cases h <;> rfl

/-! clearHiLo -/

@[simp] theorem clearHiLo_params (h : HiLo) : (s.clearHiLo h).params = s.params := by cases h <;> rfl
@[simp] theorem clearHiLo_x (h : HiLo) : (s.clearHiLo h).x = s.x := by cases h <;> rfl
@[simp] theorem clearHiLo_fpc (h : HiLo) : (s.clearHiLo h).fpc = s.fpc := by cases h <;> rfl
@[simp] theorem clearHiLo_fnpc (h : HiLo) : (s.clearHiLo h).fnpc = s.fnpc := by cases h <;> rfl
@[simp] theorem clearHiLo_hi (h : HiLo) : (s.clearHiLo h).hi = s.hi := by cases h <;> rfl
@[simp] theorem clearHiLo_lo (h : HiLo) : (s.clearHiLo h).lo = s.lo := by cases h <;> rfl
@[simp] theorem clearHiLo_bdFlag (h : HiLo) : (s.clearHiLo h).bdFlag = s.bdFlag := by cases h <;> rfl
@[simp] theorem clearHiLo_f (h : HiLo) : (s.clearHiLo h).f = s.f := by cases h <;> rfl
@[simp] theorem clearHiLo_fPresent (h : HiLo) : (s.clearHiLo h).fPresent = s.fPresent := by cases h <;> rfl
@[simp] theorem clearHiLo_fpCond (h : HiLo) : (s.clearHiLo h).fpCond = s.fpCond := by cases h <;> rfl
@[simp] theorem clearHiLo_fpCondPresent (h : HiLo) : (s.clearHiLo h).fpCondPresent = s.fpCondPresent := by cases h <;> rfl
@[simp] theorem clearHiLo_c0 (h : HiLo) : (s.clearHiLo h).c0 = s.c0 := by cases h <;> rfl
@[simp] theorem clearHiLo_pipe (h : HiLo) : (s.clearHiLo h).pipe = s.pipe := by cases h <;> rfl
@[simp] theorem clearHiLo_poolFree (h : HiLo) : (s.clearHiLo h).poolFree = s.poolFree := by cases h <;> rfl
@[simp] theorem clearHiLo_bypEX (h : HiLo) : (s.clearHiLo h).bypEX = s.bypEX := by cases h <;> rfl
@[simp] theorem clearHiLo_bypMEM (h : HiLo) : (s.clearHiLo h).bypMEM = s.bypMEM := by cases h <;> rfl
@[simp] theorem clearHiLo_mdu (h : HiLo) : (s.clearHiLo h).mdu = s.mdu := by cases h <;> rfl
@[simp] theorem clearHiLo_busy (h : HiLo) : (s.clearHiLo h).busy = s.busy := by cases h <;> rfl
@[simp] theorem clearHiLo_idStall (h : HiLo) : (s.clearHiLo h).idStall = s.idStall := by cases h <;> rfl
@[simp] theorem clearHiLo_busDone (h : HiLo) : (s.clearHiLo h).busDone = s.busDone := by cases h <;> rfl
@[simp] theorem clearHiLo_nextTag (h : HiLo) : (s.clearHiLo h).nextTag = s.nextTag := by cases h <;> rfl
@[simp] theorem clearHiLo_cycle (h : HiLo) : (s.clearHiLo h).cycle = s.cycle := by cases h <;> rfl
@[simp] theorem clearHiLo_excFound (h : HiLo) : (s.clearHiLo h).excFound = s.excFound := by cases h <;> rfl
@[simp] theorem clearHiLo_inj (h : HiLo) : (s.clearHiLo h).inj = s.inj := by cases h <;> rfl
@[simp] theorem clearHiLo_mem (h : HiLo) : (s.clearHiLo h).mem = s.mem := by cases h <;> rfl
@[simp] theorem clearHiLo_script (h : HiLo) : (s.clearHiLo h).script = s.script := by cases h <;> rfl
@[simp] theorem clearHiLo_pending (h : HiLo) : (s.clearHiLo h).pending = s.pending := by cases h <;> rfl
@[simp] theorem clearHiLo_mode (h : HiLo) : (s.clearHiLo h).mode = s.mode := by cases h <;> rfl
@[simp] theorem clearHiLo_calls (h : HiLo) : (s.clearHiLo h).calls = s.calls := by cases h <;> rfl
@[simp] theorem clearHiLo_outcome (h : HiLo) : (s.clearHiLo h).outcome = s.outcome := by cases h <;> rfl
@[simp] theorem clearHiLo_earlier (h : HiLo) : (s.clearHiLo h).earlier = s.earlier := by cases h <;> rfl
@[simp] theorem clearHiLo_draws (h : HiLo) : (s.clearHiLo h).draws = s.draws := by cases h <;> rfl

/-! commitMdu -/

@[simp] theorem commitMdu_params : s.commitMdu.params = s.params := rfl
@[simp] theorem commitMdu_x : s.commitMdu.x = s.x := rfl
@[simp] theorem commitMdu_fpc : s.commitMdu.fpc = s.fpc := rfl
@[simp] theorem commitMdu_fnpc : s.commitMdu.fnpc = s.fnpc := rfl
@[simp] theorem commitMdu_hi : s.commitMdu.hi = cellOf s.mdu.hi := rfl
@[simp] theorem commitMdu_lo : s.commitMdu.lo = cellOf s.mdu.lo := rfl
@[simp] theorem commitMdu_hiPresent : s.commitMdu.hiPresent = true := rfl
@[simp] theorem commitMdu_loPresent : s.commitMdu.loPresent = true := rfl
@[simp] theorem commitMdu_bdFlag : s.commitMdu.bdFlag = s.bdFlag := rfl
@[simp] theorem commitMdu_f : s.commitMdu.f = s.f := rfl
@[simp] theorem commitMdu_fPresent : s.commitMdu.fPresent = s.fPresent := rfl
@[simp] theorem commitMdu_fpCond : s.commitMdu.fpCond = s.fpCond := rfl
@[simp] theorem commitMdu_fpCondPresent : s.commitMdu.fpCondPresent = s.fpCondPresent := rfl
@[simp] theorem commitMdu_c0 : s.commitMdu.c0 = s.c0 := rfl
@[simp] theorem commitMdu_pipe : s.commitMdu.pipe = s.pipe := rfl
@[simp] theorem commitMdu_poolFree : s.commitMdu.poolFree = s.poolFree := rfl
@[simp] theorem commitMdu_bypEX : s.commitMdu.bypEX = s.bypEX := rfl
@[simp] theorem commitMdu_bypMEM : s.commitMdu.bypMEM = s.bypMEM := rfl
@[simp] theorem commitMdu_mdu : s.commitMdu.mdu = { s.mdu with count := 0 } := rfl
@[simp] theorem commitMdu_busy : s.commitMdu.busy = s.busy := rfl
@[simp] theorem commitMdu_idStall : s.commitMdu.idStall = s.idStall := rfl
@[simp] theorem commitMdu_busDone : s.commitMdu.busDone = s.busDone := rfl
@[simp] theorem commitMdu_nextTag : s.commitMdu.nextTag = s.nextTag := rfl
@[simp] theorem commitMdu_cycle : s.commitMdu.cycle = s.cycle := rfl
@[simp] theorem commitMdu_excFound : s.commitMdu.excFound = s.excFound := rfl
@[simp] theorem commitMdu_inj : s.commitMdu.inj = s.inj := rfl
@[simp] theorem commitMdu_mem : s.commitMdu.mem = s.mem := rfl
@[simp] theorem commitMdu_script : s.commitMdu.script = s.script := rfl
@[simp] theorem commitMdu_pending : s.commitMdu.pending = s.pending := rfl
@[simp] theorem commitMdu_mode : s.commitMdu.mode = s.mode := rfl
@[simp] theorem commitMdu_calls : s.commitMdu.calls = s.calls := rfl
@[simp] theorem commitMdu_outcome : s.commitMdu.outcome = s.outcome := rfl
@[simp] theorem commitMdu_earlier : s.commitMdu.earlier = s.earlier := rfl
@[simp] theorem commitMdu_draws : s.commitMdu.draws = s.draws := rfl

/-! recordEX -/

@[simp] theorem recordEX_params (i : Reg) (v : Word) : (s.recordEX i v).params = s.params := by unfold State.recordEX; split <;> rfl
@[simp] theorem recordEX_x (i : Reg) (v : Word) : (s.recordEX i v).x = s.x := by unfold State.recordEX; split <;> rfl
@[simp] theorem recordEX_fpc (i : Reg) (v : Word) : (s.recordEX i v).fpc = s.fpc := by unfold State.recordEX; split <;> rfl
@[simp] theorem recordEX_fnpc (i : Reg) (v : Word) : (s.recordEX i v).fnpc = s.fnpc := by unfold State.recordEX; split <;> rfl
@[simp] theorem recordEX_hi (i : Reg) (v : Word) : (s.recordEX i v).hi = s.hi := by unfold State.recordEX; split <;> rfl
@[simp] theorem recordEX_lo (i : Reg) (v : Word) : (s.recordEX i v).lo = s.lo := by unfold State.recordEX; split <;> rfl
@[simp] theorem recordEX_hiPresent (i : Reg) (v : Word) : (s.recordEX i v).hiPresent = s.hiPresent := by unfold State.recordEX; split <;> rfl
@[simp] theorem recordEX_loPresent (i : Reg) (v : Word) : (s.recordEX i v).loPresent = s.loPresent := by unfold State.recordEX; split <;> rfl
@[simp] theorem recordEX_bdFlag (i : Reg) (v : Word) : (s.recordEX i v).bdFlag = s.bdFlag := by unfold State.recordEX; split <;> rfl
@[simp] theorem recordEX_f (i : Reg) (v : Word) : (s.recordEX i v).f = s.f := by unfold State.recordEX; split <;> rfl
@[simp] theorem recordEX_fPresent (i : Reg) (v : Word) : (s.recordEX i v).fPresent = s.fPresent := by unfold State.recordEX; split <;> rfl
@[simp] theorem recordEX_fpCond (i : Reg) (v : Word) : (s.recordEX i v).fpCond = s.fpCond := by unfold State.recordEX; split <;> rfl
@[simp] theorem recordEX_fpCondPresent (i : Reg) (v : Word) : (s.recordEX i v).fpCondPresent = s.fpCondPresent := by unfold State.recordEX; split <;> rfl
@[simp] theorem recordEX_c0 (i : Reg) (v : Word) : (s.recordEX i v).c0 = s.c0 := by unfold State.recordEX; split <;> rfl
@[simp] theorem recordEX_pipe (i : Reg) (v : Word) : (s.recordEX i v).pipe = s.pipe := by unfold State.recordEX; split <;> rfl
@[simp] theorem recordEX_poolFree (i : Reg) (v : Word) : (s.recordEX i v).poolFree = s.poolFree := by unfold State.recordEX; split <;> rfl
@[simp] theorem recordEX_bypMEM (i : Reg) (v : Word) : (s.recordEX i v).bypMEM = s.bypMEM := by unfold State.recordEX; split <;> rfl
@[simp] theorem recordEX_mdu (i : Reg) (v : Word) : (s.recordEX i v).mdu = s.mdu := by unfold State.recordEX; split <;> rfl
@[simp] theorem recordEX_busy (i : Reg) (v : Word) : (s.recordEX i v).busy = s.busy := by unfold State.recordEX; split <;> rfl
@[simp] theorem recordEX_idStall (i : Reg) (v : Word) : (s.recordEX i v).idStall = s.idStall := by unfold State.recordEX; split <;> rfl
@[simp] theorem recordEX_busDone (i : Reg) (v : Word) : (s.recordEX i v).busDone = s.busDone := by unfold State.recordEX; split <;> rfl
@[simp] theorem recordEX_nextTag (i : Reg) (v : Word) : (s.recordEX i v).nextTag = s.nextTag := by unfold State.recordEX; split <;> rfl
@[simp] theorem recordEX_cycle (i : Reg) (v : Word) : (s.recordEX i v).cycle = s.cycle := by unfold State.recordEX; split <;> rfl
@[simp] theorem recordEX_excFound (i : Reg) (v : Word) : (s.recordEX i v).excFound = s.excFound := by unfold State.recordEX; split <;> rfl
@[simp] theorem recordEX_inj (i : Reg) (v : Word) : (s.recordEX i v).inj = s.inj := by unfold State.recordEX; split <;> rfl
@[simp] theorem recordEX_mem (i : Reg) (v : Word) : (s.recordEX i v).mem = s.mem := by unfold State.recordEX; split <;> rfl
@[simp] theorem recordEX_script (i : Reg) (v : Word) : (s.recordEX i v).script = s.script := by unfold State.recordEX; split <;> rfl
@[simp] theorem recordEX_pending (i : Reg) (v : Word) : (s.recordEX i v).pending = s.pending := by unfold State.recordEX; split <;> rfl
@[simp] theorem recordEX_mode (i : Reg) (v : Word) : (s.recordEX i v).mode = s.mode := by unfold State.recordEX; split <;> rfl
@[simp] theorem recordEX_calls (i : Reg) (v : Word) : (s.recordEX i v).calls = s.calls := by unfold State.recordEX; split <;> rfl
@[simp] theorem recordEX_outcome (i : Reg) (v : Word) : (s.recordEX i v).outcome = s.outcome := by unfold State.recordEX; split <;> rfl
@[simp] theorem recordEX_earlier (i : Reg) (v : Word) : (s.recordEX i v).earlier = s.earlier := by unfold State.recordEX; split <;> rfl
@[simp] theorem recordEX_draws (i : Reg) (v : Word) : (s.recordEX i v).draws = s.draws := by unfold State.recordEX; split <;> rfl

/-! recordMEM -/

@[simp] theorem recordMEM_params (i : Reg) (v : Word) : (s.recordMEM i v).params = s.params := by unfold State.recordMEM; split <;> rfl
@[simp] theorem recordMEM_x (i : Reg) (v : Word) : (s.recordMEM i v).x = s.x := by unfold State.recordMEM; split <;> rfl
@[simp] theorem recordMEM_fpc (i : Reg) (v : Word) : (s.recordMEM i v).fpc = s.fpc := by unfold State.recordMEM; split <;> rfl
@[simp] theorem recordMEM_fnpc (i : Reg) (v : Word) : (s.recordMEM i v).fnpc = s.fnpc := by unfold State.recordMEM; split <;> rfl
@[simp] theorem recordMEM_hi (i : Reg) (v : Word) : (s.recordMEM i v).hi = s.hi := by unfold State.recordMEM; split <;> rfl
@[simp] theorem recordMEM_lo (i : Reg) (v : Word) : (s.recordMEM i v).lo = s.lo := by unfold State.recordMEM; split <;> rfl
@[simp] theorem recordMEM_hiPresent (i : Reg) (v : Word) : (s.recordMEM i v).hiPresent = s.hiPresent := by unfold State.recordMEM; split <;> rfl
@[simp] theorem recordMEM_loPresent (i : Reg) (v : Word) : (s.recordMEM i v).loPresent = s.loPresent := by unfold State.recordMEM; split <;> rfl
@[simp] theorem recordMEM_bdFlag (i : Reg) (v : Word) : (s.recordMEM i v).bdFlag = s.bdFlag := by unfold State.recordMEM; split <;> rfl
@[simp] theorem recordMEM_f (i : Reg) (v : Word) : (s.recordMEM i v).f = s.f := by unfold State.recordMEM; split <;> rfl
@[simp] theorem recordMEM_fPresent (i : Reg) (v : Word) : (s.recordMEM i v).fPresent = s.fPresent := by unfold State.recordMEM; split <;> rfl
@[simp] theorem recordMEM_fpCond (i : Reg) (v : Word) : (s.recordMEM i v).fpCond = s.fpCond := by unfold State.recordMEM; split <;> rfl
@[simp] theorem recordMEM_fpCondPresent (i : Reg) (v : Word) : (s.recordMEM i v).fpCondPresent = s.fpCondPresent := by unfold State.recordMEM; split <;> rfl
@[simp] theorem recordMEM_c0 (i : Reg) (v : Word) : (s.recordMEM i v).c0 = s.c0 := by unfold State.recordMEM; split <;> rfl
@[simp] theorem recordMEM_pipe (i : Reg) (v : Word) : (s.recordMEM i v).pipe = s.pipe := by unfold State.recordMEM; split <;> rfl
@[simp] theorem recordMEM_poolFree (i : Reg) (v : Word) : (s.recordMEM i v).poolFree = s.poolFree := by unfold State.recordMEM; split <;> rfl
@[simp] theorem recordMEM_bypEX (i : Reg) (v : Word) : (s.recordMEM i v).bypEX = s.bypEX := by unfold State.recordMEM; split <;> rfl
@[simp] theorem recordMEM_mdu (i : Reg) (v : Word) : (s.recordMEM i v).mdu = s.mdu := by unfold State.recordMEM; split <;> rfl
@[simp] theorem recordMEM_busy (i : Reg) (v : Word) : (s.recordMEM i v).busy = s.busy := by unfold State.recordMEM; split <;> rfl
@[simp] theorem recordMEM_idStall (i : Reg) (v : Word) : (s.recordMEM i v).idStall = s.idStall := by unfold State.recordMEM; split <;> rfl
@[simp] theorem recordMEM_busDone (i : Reg) (v : Word) : (s.recordMEM i v).busDone = s.busDone := by unfold State.recordMEM; split <;> rfl
@[simp] theorem recordMEM_nextTag (i : Reg) (v : Word) : (s.recordMEM i v).nextTag = s.nextTag := by unfold State.recordMEM; split <;> rfl
@[simp] theorem recordMEM_cycle (i : Reg) (v : Word) : (s.recordMEM i v).cycle = s.cycle := by unfold State.recordMEM; split <;> rfl
@[simp] theorem recordMEM_excFound (i : Reg) (v : Word) : (s.recordMEM i v).excFound = s.excFound := by unfold State.recordMEM; split <;> rfl
@[simp] theorem recordMEM_inj (i : Reg) (v : Word) : (s.recordMEM i v).inj = s.inj := by unfold State.recordMEM; split <;> rfl
@[simp] theorem recordMEM_mem (i : Reg) (v : Word) : (s.recordMEM i v).mem = s.mem := by unfold State.recordMEM; split <;> rfl
@[simp] theorem recordMEM_script (i : Reg) (v : Word) : (s.recordMEM i v).script = s.script := by unfold State.recordMEM; split <;> rfl
@[simp] theorem recordMEM_pending (i : Reg) (v : Word) : (s.recordMEM i v).pending = s.pending := by unfold State.recordMEM; split <;> rfl
@[simp] theorem recordMEM_mode (i : Reg) (v : Word) : (s.recordMEM i v).mode = s.mode := by unfold State.recordMEM; split <;> rfl
@[simp] theorem recordMEM_calls (i : Reg) (v : Word) : (s.recordMEM i v).calls = s.calls := by unfold State.recordMEM; split <;> rfl
@[simp] theorem recordMEM_outcome (i : Reg) (v : Word) : (s.recordMEM i v).outcome = s.outcome := by unfold State.recordMEM; split <;> rfl
@[simp] theorem recordMEM_earlier (i : Reg) (v : Word) : (s.recordMEM i v).earlier = s.earlier := by unfold State.recordMEM; split <;> rfl
@[simp] theorem recordMEM_draws (i : Reg) (v : Word) : (s.recordMEM i v).draws = s.draws := by unfold State.recordMEM; split <;> rfl

/-! writeBytes -/

@[simp] theorem writeBytes_params (a : Word) (bs : List Byte) : (s.writeBytes a bs).params = s.params := rfl
@[simp] theorem writeBytes_x (a : Word) (bs : List Byte) : (s.writeBytes a bs).x = s.x := rfl
@[simp] theorem writeBytes_fpc (a : Word) (bs : List Byte) : (s.writeBytes a bs).fpc = s.fpc := rfl
@[simp] theorem writeBytes_fnpc (a : Word) (bs : List Byte) : (s.writeBytes a bs).fnpc = s.fnpc := rfl
@[simp] theorem writeBytes_hi (a : Word) (bs : List Byte) : (s.writeBytes a bs).hi = s.hi := rfl
@[simp] theorem writeBytes_lo (a : Word) (bs : List Byte) : (s.writeBytes a bs).lo = s.lo := rfl
@[simp] theorem writeBytes_hiPresent (a : Word) (bs : List Byte) : (s.writeBytes a bs).hiPresent = s.hiPresent := rfl
@[simp] theorem writeBytes_loPresent (a : Word) (bs : List Byte) : (s.writeBytes a bs).loPresent = s.loPresent := rfl
@[simp] theorem writeBytes_bdFlag (a : Word) (bs : List Byte) : (s.writeBytes a bs).bdFlag = s.bdFlag := rfl
@[simp] theorem writeBytes_f (a : Word) (bs : List Byte) : (s.writeBytes a bs).f = s.f := rfl
@[simp] theorem writeBytes_fPresent (a : Word) (bs : List Byte) : (s.writeBytes a bs).fPresent = s.fPresent := rfl
@[simp] theorem writeBytes_fpCond (a : Word) (bs : List Byte) : (s.writeBytes a bs).fpCond = s.fpCond := rfl
@[simp] theorem writeBytes_fpCondPresent (a : Word) (bs : List Byte) : (s.writeBytes a bs).fpCondPresent = s.fpCondPresent := rfl
@[simp] theorem writeBytes_c0 (a : Word) (bs : List Byte) : (s.writeBytes a bs).c0 = s.c0 := rfl
@[simp] theorem writeBytes_pipe (a : Word) (bs : List Byte) : (s.writeBytes a bs).pipe = s.pipe := rfl
@[simp] theorem writeBytes_poolFree (a : Word) (bs : List Byte) : (s.writeBytes a bs).poolFree = s.poolFree := rfl
@[simp] theorem writeBytes_bypEX (a : Word) (bs : List Byte) : (s.writeBytes a bs).bypEX = s.bypEX := rfl
@[simp] theorem writeBytes_bypMEM (a : Word) (bs : List Byte) : (s.writeBytes a bs).bypMEM = s.bypMEM := rfl
@[simp] theorem writeBytes_mdu (a : Word) (bs : List Byte) : (s.writeBytes a bs).mdu = s.mdu := rfl
@[simp] theorem writeBytes_busy (a : Word) (bs : List Byte) : (s.writeBytes a bs).busy = s.busy := rfl
@[simp] theorem writeBytes_idStall (a : Word) (bs : List Byte) : (s.writeBytes a bs).idStall = s.idStall := rfl
@[simp] theorem writeBytes_busDone (a : Word) (bs : List Byte) : (s.writeBytes a bs).busDone = s.busDone := rfl
@[simp] theorem writeBytes_nextTag (a : Word) (bs : List Byte) : (s.writeBytes a bs).nextTag = s.nextTag := rfl
@[simp] theorem writeBytes_cycle (a : Word) (bs : List Byte) : (s.writeBytes a bs).cycle = s.cycle := rfl
@[simp] theorem writeBytes_excFound (a : Word) (bs : List Byte) : (s.writeBytes a bs).excFound = s.excFound := rfl
@[simp] theorem writeBytes_inj (a : Word) (bs : List Byte) : (s.writeBytes a bs).inj = s.inj := rfl
@[simp] theorem writeBytes_mem (a : Word) (bs : List Byte) : (s.writeBytes a bs).mem = storeBytes s.mem a bs := rfl
@[simp] theorem writeBytes_script (a : Word) (bs : List Byte) : (s.writeBytes a bs).script = s.script := rfl
@[simp] theorem writeBytes_pending (a : Word) (bs : List Byte) : (s.writeBytes a bs).pending = s.pending := rfl
@[simp] theorem writeBytes_mode (a : Word) (bs : List Byte) : (s.writeBytes a bs).mode = s.mode := rfl
@[simp] theorem writeBytes_calls (a : Word) (bs : List Byte) : (s.writeBytes a bs).calls = s.calls := rfl
@[simp] theorem writeBytes_outcome (a : Word) (bs : List Byte) : (s.writeBytes a bs).outcome = s.outcome := rfl
@[simp] theorem writeBytes_earlier (a : Word) (bs : List Byte) : (s.writeBytes a bs).earlier = s.earlier := rfl
@[simp] theorem writeBytes_draws (a : Word) (bs : List Byte) : (s.writeBytes a bs).draws = s.draws := rfl

/-! tagTaken -/

@[simp] theorem tagTaken_params : s.tagTaken.params = s.params := rfl
@[simp] theorem tagTaken_x : s.tagTaken.x = s.x := rfl
@[simp] theorem tagTaken_fpc : s.tagTaken.fpc = s.fpc := rfl
@[simp] theorem tagTaken_fnpc : s.tagTaken.fnpc = s.fnpc := rfl
@[simp] theorem tagTaken_hi : s.tagTaken.hi = s.hi := rfl
@[simp] theorem tagTaken_lo : s.tagTaken.lo = s.lo := rfl
@[simp] theorem tagTaken_hiPresent : s.tagTaken.hiPresent = s.hiPresent := rfl
@[simp] theorem tagTaken_loPresent : s.tagTaken.loPresent = s.loPresent := rfl
@[simp] theorem tagTaken_bdFlag : s.tagTaken.bdFlag = s.bdFlag := rfl
@[simp] theorem tagTaken_f : s.tagTaken.f = s.f := rfl
@[simp] theorem tagTaken_fPresent : s.tagTaken.fPresent = s.fPresent := rfl
@[simp] theorem tagTaken_fpCond : s.tagTaken.fpCond = s.fpCond := rfl
@[simp] theorem tagTaken_fpCondPresent : s.tagTaken.fpCondPresent = s.fpCondPresent := rfl
@[simp] theorem tagTaken_c0 : s.tagTaken.c0 = s.c0 := rfl
@[simp] theorem tagTaken_pipe : s.tagTaken.pipe = s.pipe := rfl
@[simp] theorem tagTaken_poolFree : s.tagTaken.poolFree = s.poolFree := rfl
@[simp] theorem tagTaken_bypEX : s.tagTaken.bypEX = s.bypEX := rfl
@[simp] theorem tagTaken_bypMEM : s.tagTaken.bypMEM = s.bypMEM := rfl
@[simp] theorem tagTaken_mdu : s.tagTaken.mdu = s.mdu := rfl
@[simp] theorem tagTaken_busy : s.tagTaken.busy = s.busy := rfl
@[simp] theorem tagTaken_idStall : s.tagTaken.idStall = s.idStall := rfl
@[simp] theorem tagTaken_busDone : s.tagTaken.busDone = s.busDone := rfl
@[simp] theorem tagTaken_nextTag : s.tagTaken.nextTag = s.nextTag + 1 := rfl
@[simp] theorem tagTaken_cycle : s.tagTaken.cycle = s.cycle := rfl
@[simp] theorem tagTaken_excFound : s.tagTaken.excFound = s.excFound := rfl
@[simp] theorem tagTaken_inj : s.tagTaken.inj = s.inj := rfl
@[simp] theorem tagTaken_mem : s.tagTaken.mem = s.mem := rfl
@[simp] theorem tagTaken_script : s.tagTaken.script = s.script := rfl
@[simp] theorem tagTaken_pending : s.tagTaken.pending = s.pending := rfl
@[simp] theorem tagTaken_mode : s.tagTaken.mode = s.mode := rfl
@[simp] theorem tagTaken_calls : s.tagTaken.calls = s.calls := rfl
@[simp] theorem tagTaken_outcome : s.tagTaken.outcome = s.outcome := rfl
@[simp] theorem tagTaken_earlier : s.tagTaken.earlier = s.earlier := rfl
@[simp] theorem tagTaken_draws : s.tagTaken.draws = s.draws := rfl

/-! perform -/

@[simp] theorem perform_params (k : Kind) (a w : Word) : (s.perform k a w).2.params = s.params := by cases k <;> rfl
@[simp] theorem perform_x (k : Kind) (a w : Word) : (s.perform k a w).2.x = s.x := by cases k <;> rfl
@[simp] theorem perform_fpc (k : Kind) (a w : Word) : (s.perform k a w).2.fpc = s.fpc := by cases k <;> rfl
@[simp] theorem perform_fnpc (k : Kind) (a w : Word) : (s.perform k a w).2.fnpc = s.fnpc := by cases k <;> rfl
@[simp] theorem perform_hi (k : Kind) (a w : Word) : (s.perform k a w).2.hi = s.hi := by cases k <;> rfl
@[simp] theorem perform_lo (k : Kind) (a w : Word) : (s.perform k a w).2.lo = s.lo := by cases k <;> rfl
@[simp] theorem perform_hiPresent (k : Kind) (a w : Word) : (s.perform k a w).2.hiPresent = s.hiPresent := by cases k <;> rfl
@[simp] theorem perform_loPresent (k : Kind) (a w : Word) : (s.perform k a w).2.loPresent = s.loPresent := by cases k <;> rfl
@[simp] theorem perform_bdFlag (k : Kind) (a w : Word) : (s.perform k a w).2.bdFlag = s.bdFlag := by cases k <;> rfl
@[simp] theorem perform_f (k : Kind) (a w : Word) : (s.perform k a w).2.f = s.f := by cases k <;> rfl
@[simp] theorem perform_fPresent (k : Kind) (a w : Word) : (s.perform k a w).2.fPresent = s.fPresent := by cases k <;> rfl
@[simp] theorem perform_fpCond (k : Kind) (a w : Word) : (s.perform k a w).2.fpCond = s.fpCond := by cases k <;> rfl
@[simp] theorem perform_fpCondPresent (k : Kind) (a w : Word) : (s.perform k a w).2.fpCondPresent = s.fpCondPresent := by cases k <;> rfl
@[simp] theorem perform_c0 (k : Kind) (a w : Word) : (s.perform k a w).2.c0 = s.c0 := by cases k <;> rfl
@[simp] theorem perform_pipe (k : Kind) (a w : Word) : (s.perform k a w).2.pipe = s.pipe := by cases k <;> rfl
@[simp] theorem perform_poolFree (k : Kind) (a w : Word) : (s.perform k a w).2.poolFree = s.poolFree := by cases k <;> rfl
@[simp] theorem perform_bypEX (k : Kind) (a w : Word) : (s.perform k a w).2.bypEX = s.bypEX := by cases k <;> rfl
@[simp] theorem perform_bypMEM (k : Kind) (a w : Word) : (s.perform k a w).2.bypMEM = s.bypMEM := by cases k <;> rfl
@[simp] theorem perform_mdu (k : Kind) (a w : Word) : (s.perform k a w).2.mdu = s.mdu := by cases k <;> rfl
@[simp] theorem perform_busy (k : Kind) (a w : Word) : (s.perform k a w).2.busy = s.busy := by cases k <;> rfl
@[simp] theorem perform_idStall (k : Kind) (a w : Word) : (s.perform k a w).2.idStall = s.idStall := by cases k <;> rfl
@[simp] theorem perform_busDone (k : Kind) (a w : Word) : (s.perform k a w).2.busDone = s.busDone := by cases k <;> rfl
@[simp] theorem perform_nextTag (k : Kind) (a w : Word) : (s.perform k a w).2.nextTag = s.nextTag := by cases k <;> rfl
@[simp] theorem perform_cycle (k : Kind) (a w : Word) : (s.perform k a w).2.cycle = s.cycle := by cases k <;> rfl
@[simp] theorem perform_excFound (k : Kind) (a w : Word) : (s.perform k a w).2.excFound = s.excFound := by cases k <;> rfl
@[simp] theorem perform_inj (k : Kind) (a w : Word) : (s.perform k a w).2.inj = s.inj := by cases k <;> rfl
@[simp] theorem perform_script (k : Kind) (a w : Word) : (s.perform k a w).2.script = s.script := by cases k <;> rfl
@[simp] theorem perform_pending (k : Kind) (a w : Word) : (s.perform k a w).2.pending = s.pending := by cases k <;> rfl
@[simp] theorem perform_mode (k : Kind) (a w : Word) : (s.perform k a w).2.mode = s.mode := by cases k <;> rfl
@[simp] theorem perform_calls (k : Kind) (a w : Word) : (s.perform k a w).2.calls = s.calls := by cases k <;> rfl
@[simp] theorem perform_outcome (k : Kind) (a w : Word) : (s.perform k a w).2.outcome = s.outcome := by cases k <;> rfl
@[simp] theorem perform_earlier (k : Kind) (a w : Word) : (s.perform k a w).2.earlier = s.earlier := by cases k <;> rfl
@[simp] theorem perform_draws (k : Kind) (a w : Word) : (s.perform k a w).2.draws = s.draws := by cases k <;> rfl

/-! completeNow -/

@[simp] theorem completeNow_params (a : Answer) : (s.completeNow a).params = s.params := by unfold State.completeNow; split <;> rfl
@[simp] theorem completeNow_x (a : Answer) : (s.completeNow a).x = s.x := by unfold State.completeNow; split <;> rfl
@[simp] theorem completeNow_fpc (a : Answer) : (s.completeNow a).fpc = s.fpc := by unfold State.completeNow; split <;> rfl
@[simp] theorem completeNow_fnpc (a : Answer) : (s.completeNow a).fnpc = s.fnpc := by unfold State.completeNow; split <;> rfl
@[simp] theorem completeNow_hi (a : Answer) : (s.completeNow a).hi = s.hi := by unfold State.completeNow; split <;> rfl
@[simp] theorem completeNow_lo (a : Answer) : (s.completeNow a).lo = s.lo := by unfold State.completeNow; split <;> rfl
@[simp] theorem completeNow_hiPresent (a : Answer) : (s.completeNow a).hiPresent = s.hiPresent := by unfold State.completeNow; split <;> rfl
@[simp] theorem completeNow_loPresent (a : Answer) : (s.completeNow a).loPresent = s.loPresent := by unfold State.completeNow; split <;> rfl
@[simp] theorem completeNow_bdFlag (a : Answer) : (s.completeNow a).bdFlag = s.bdFlag := by unfold State.completeNow; split <;> rfl
@[simp] theorem completeNow_f (a : Answer) : (s.completeNow a).f = s.f := by unfold State.completeNow; split <;> rfl
@[simp] theorem completeNow_fPresent (a : Answer) : (s.completeNow a).fPresent = s.fPresent := by unfold State.completeNow; split <;> rfl
@[simp] theorem completeNow_fpCond (a : Answer) : (s.completeNow a).fpCond = s.fpCond := by unfold State.completeNow; split <;> rfl
@[simp] theorem completeNow_fpCondPresent (a : Answer) : (s.completeNow a).fpCondPresent = s.fpCondPresent := by unfold State.completeNow; split <;> rfl
@[simp] theorem completeNow_c0 (a : Answer) : (s.completeNow a).c0 = s.c0 := by unfold State.completeNow; split <;> rfl
@[simp] theorem completeNow_pipe (a : Answer) : (s.completeNow a).pipe = s.pipe := by unfold State.completeNow; split <;> rfl
@[simp] theorem completeNow_poolFree (a : Answer) : (s.completeNow a).poolFree = s.poolFree := by unfold State.completeNow; split <;> rfl
@[simp] theorem completeNow_bypEX (a : Answer) : (s.completeNow a).bypEX = s.bypEX := by unfold State.completeNow; split <;> rfl
@[simp] theorem completeNow_bypMEM (a : Answer) : (s.completeNow a).bypMEM = s.bypMEM := by unfold State.completeNow; split <;> rfl
@[simp] theorem completeNow_mdu (a : Answer) : (s.completeNow a).mdu = s.mdu := by unfold State.completeNow; split <;> rfl
@[simp] theorem completeNow_busy (a : Answer) : (s.completeNow a).busy = s.busy := by unfold State.completeNow; split <;> rfl
@[simp] theorem completeNow_idStall (a : Answer) : (s.completeNow a).idStall = s.idStall := by unfold State.completeNow; split <;> rfl
@[simp] theorem completeNow_busDone (a : Answer) : (s.completeNow a).busDone = s.busDone := by unfold State.completeNow; split <;> rfl
@[simp] theorem completeNow_nextTag (a : Answer) : (s.completeNow a).nextTag = s.nextTag := by unfold State.completeNow; split <;> rfl
@[simp] theorem completeNow_cycle (a : Answer) : (s.completeNow a).cycle = s.cycle := by unfold State.completeNow; split <;> rfl
@[simp] theorem completeNow_excFound (a : Answer) : (s.completeNow a).excFound = s.excFound := by unfold State.completeNow; split <;> rfl
@[simp] theorem completeNow_inj (a : Answer) : (s.completeNow a).inj = s.inj := by unfold State.completeNow; split <;> rfl
@[simp] theorem completeNow_mem (a : Answer) : (s.completeNow a).mem = s.mem := by unfold State.completeNow; split <;> rfl
@[simp] theorem completeNow_script (a : Answer) : (s.completeNow a).script = s.script := by unfold State.completeNow; split <;> rfl
@[simp] theorem completeNow_mode (a : Answer) : (s.completeNow a).mode = s.mode := by unfold State.completeNow; split <;> rfl
@[simp] theorem completeNow_calls (a : Answer) : (s.completeNow a).calls = s.calls := by unfold State.completeNow; split <;> rfl
@[simp] theorem completeNow_outcome (a : Answer) : (s.completeNow a).outcome = s.outcome := by unfold State.completeNow; split <;> rfl
@[simp] theorem completeNow_earlier (a : Answer) : (s.completeNow a).earlier = s.earlier := by unfold State.completeNow; split <;> rfl
@[simp] theorem completeNow_draws (a : Answer) : (s.completeNow a).draws = s.draws := by unfold State.completeNow; split <;> rfl

/-! checkFault -/

@[simp] theorem checkFault_params (l : Loc) (n : Nat) : (s.checkFault l n).2.params = s.params := rfl
@[simp] theorem checkFault_x (l : Loc) (n : Nat) : (s.checkFault l n).2.x = s.x := rfl
@[simp] theorem checkFault_fpc (l : Loc) (n : Nat) : (s.checkFault l n).2.fpc = s.fpc := rfl
@[simp] theorem checkFault_fnpc (l : Loc) (n : Nat) : (s.checkFault l n).2.fnpc = s.fnpc := rfl
@[simp] theorem checkFault_hi (l : Loc) (n : Nat) : (s.checkFault l n).2.hi = s.hi := rfl
@[simp] theorem checkFault_lo (l : Loc) (n : Nat) : (s.checkFault l n).2.lo = s.lo := rfl
@[simp] theorem checkFault_hiPresent (l : Loc) (n : Nat) : (s.checkFault l n).2.hiPresent = s.hiPresent := rfl
@[simp] theorem checkFault_loPresent (l : Loc) (n : Nat) : (s.checkFault l n).2.loPresent = s.loPresent := rfl
@[simp] theorem checkFault_bdFlag (l : Loc) (n : Nat) : (s.checkFault l n).2.bdFlag = s.bdFlag := rfl
@[simp] theorem checkFault_f (l : Loc) (n : Nat) : (s.checkFault l n).2.f = s.f := rfl
@[simp] theorem checkFault_fPresent (l : Loc) (n : Nat) : (s.checkFault l n).2.fPresent = s.fPresent := rfl
@[simp] theorem checkFault_fpCond (l : Loc) (n : Nat) : (s.checkFault l n).2.fpCond = s.fpCond := rfl
@[simp] theorem checkFault_fpCondPresent (l : Loc) (n : Nat) : (s.checkFault l n).2.fpCondPresent = s.fpCondPresent := rfl
@[simp] theorem checkFault_c0 (l : Loc) (n : Nat) : (s.checkFault l n).2.c0 = s.c0 := rfl
@[simp] theorem checkFault_pipe (l : Loc) (n : Nat) : (s.checkFault l n).2.pipe = s.pipe := rfl
@[simp] theorem checkFault_poolFree (l : Loc) (n : Nat) : (s.checkFault l n).2.poolFree = s.poolFree := rfl
@[simp] theorem checkFault_bypEX (l : Loc) (n : Nat) : (s.checkFault l n).2.bypEX = s.bypEX := rfl
@[simp] theorem checkFault_bypMEM (l : Loc) (n : Nat) : (s.checkFault l n).2.bypMEM = s.bypMEM := rfl
@[simp] theorem checkFault_mdu (l : Loc) (n : Nat) : (s.checkFault l n).2.mdu = s.mdu := rfl
@[simp] theorem checkFault_busy (l : Loc) (n : Nat) : (s.checkFault l n).2.busy = s.busy := rfl
@[simp] theorem checkFault_idStall (l : Loc) (n : Nat) : (s.checkFault l n).2.idStall = s.idStall := rfl
@[simp] theorem checkFault_busDone (l : Loc) (n : Nat) : (s.checkFault l n).2.busDone = s.busDone := rfl
@[simp] theorem checkFault_nextTag (l : Loc) (n : Nat) : (s.checkFault l n).2.nextTag = s.nextTag := rfl
@[simp] theorem checkFault_cycle (l : Loc) (n : Nat) : (s.checkFault l n).2.cycle = s.cycle := rfl
@[simp] theorem checkFault_excFound (l : Loc) (n : Nat) : (s.checkFault l n).2.excFound = s.excFound := rfl
@[simp] theorem checkFault_mem (l : Loc) (n : Nat) : (s.checkFault l n).2.mem = s.mem := rfl
@[simp] theorem checkFault_script (l : Loc) (n : Nat) : (s.checkFault l n).2.script = s.script := rfl
@[simp] theorem checkFault_pending (l : Loc) (n : Nat) : (s.checkFault l n).2.pending = s.pending := rfl
@[simp] theorem checkFault_mode (l : Loc) (n : Nat) : (s.checkFault l n).2.mode = s.mode := rfl
@[simp] theorem checkFault_calls (l : Loc) (n : Nat) : (s.checkFault l n).2.calls = s.calls := rfl
@[simp] theorem checkFault_outcome (l : Loc) (n : Nat) : (s.checkFault l n).2.outcome = s.outcome := rfl
@[simp] theorem checkFault_earlier (l : Loc) (n : Nat) : (s.checkFault l n).2.earlier = s.earlier := rfl
@[simp] theorem checkFault_draws (l : Loc) (n : Nat) : (s.checkFault l n).2.draws = s.draws := rfl

/-! maskX -/

@[simp] theorem maskX_params (i : Reg) (m : Word) : (s.maskX i m).params = s.params := rfl
@[simp] theorem maskX_fpc (i : Reg) (m : Word) : (s.maskX i m).fpc = s.fpc := rfl
@[simp] theorem maskX_fnpc (i : Reg) (m : Word) : (s.maskX i m).fnpc = s.fnpc := rfl
@[simp] theorem maskX_hi (i : Reg) (m : Word) : (s.maskX i m).hi = s.hi := rfl
@[simp] theorem maskX_lo (i : Reg) (m : Word) : (s.maskX i m).lo = s.lo := rfl
@[simp] theorem maskX_hiPresent (i : Reg) (m : Word) : (s.maskX i m).hiPresent = s.hiPresent := rfl
@[simp] theorem maskX_loPresent (i : Reg) (m : Word) : (s.maskX i m).loPresent = s.loPresent := rfl
@[simp] theorem maskX_bdFlag (i : Reg) (m : Word) : (s.maskX i m).bdFlag = s.bdFlag := rfl
@[simp] theorem maskX_f (i : Reg) (m : Word) : (s.maskX i m).f = s.f := rfl
@[simp] theorem maskX_fPresent (i : Reg) (m : Word) : (s.maskX i m).fPresent = s.fPresent := rfl
@[simp] theorem maskX_fpCond (i : Reg) (m : Word) : (s.maskX i m).fpCond = s.fpCond := rfl
@[simp] theorem maskX_fpCondPresent (i : Reg) (m : Word) : (s.maskX i m).fpCondPresent = s.fpCondPresent := rfl
@[simp] theorem maskX_c0 (i : Reg) (m : Word) : (s.maskX i m).c0 = s.c0 := rfl
@[simp] theorem maskX_pipe (i : Reg) (m : Word) : (s.maskX i m).pipe = s.pipe := rfl
@[simp] theorem maskX_poolFree (i : Reg) (m : Word) : (s.maskX i m).poolFree = s.poolFree := rfl
@[simp] theorem maskX_bypEX (i : Reg) (m : Word) : (s.maskX i m).bypEX = s.bypEX := rfl
@[simp] theorem maskX_bypMEM (i : Reg) (m : Word) : (s.maskX i m).bypMEM = s.bypMEM := rfl
@[simp] theorem maskX_mdu (i : Reg) (m : Word) : (s.maskX i m).mdu = s.mdu := rfl
@[simp] theorem maskX_busy (i : Reg) (m : Word) : (s.maskX i m).busy = s.busy := rfl
@[simp] theorem maskX_idStall (i : Reg) (m : Word) : (s.maskX i m).idStall = s.idStall := rfl
@[simp] theorem maskX_busDone (i : Reg) (m : Word) : (s.maskX i m).busDone = s.busDone := rfl
@[simp] theorem maskX_nextTag (i : Reg) (m : Word) : (s.maskX i m).nextTag = s.nextTag := rfl
@[simp] theorem maskX_cycle (i : Reg) (m : Word) : (s.maskX i m).cycle = s.cycle := rfl
@[simp] theorem maskX_excFound (i : Reg) (m : Word) : (s.maskX i m).excFound = s.excFound := rfl
@[simp] theorem maskX_inj (i : Reg) (m : Word) : (s.maskX i m).inj = s.inj := rfl
@[simp] theorem maskX_mem (i : Reg) (m : Word) : (s.maskX i m).mem = s.mem := rfl
@[simp] theorem maskX_script (i : Reg) (m : Word) : (s.maskX i m).script = s.script := rfl
@[simp] theorem maskX_pending (i : Reg) (m : Word) : (s.maskX i m).pending = s.pending := rfl
@[simp] theorem maskX_mode (i : Reg) (m : Word) : (s.maskX i m).mode = s.mode := rfl
@[simp] theorem maskX_calls (i : Reg) (m : Word) : (s.maskX i m).calls = s.calls := rfl
@[simp] theorem maskX_outcome (i : Reg) (m : Word) : (s.maskX i m).outcome = s.outcome := rfl
@[simp] theorem maskX_earlier (i : Reg) (m : Word) : (s.maskX i m).earlier = s.earlier := rfl
@[simp] theorem maskX_draws (i : Reg) (m : Word) : (s.maskX i m).draws = s.draws := rfl

/-! checkRF -/

@[simp] theorem checkRF_params (a b : Option Reg) : (s.checkRF a b).params = s.params := by unfold State.checkRF; repeat (first | rfl | split)
@[simp] theorem checkRF_fpc (a b : Option Reg) : (s.checkRF a b).fpc = s.fpc := by unfold State.checkRF; repeat (first | rfl | split)
@[simp] theorem checkRF_fnpc (a b : Option Reg) : (s.checkRF a b).fnpc = s.fnpc := by unfold State.checkRF; repeat (first | rfl | split)
@[simp] theorem checkRF_hi (a b : Option Reg) : (s.checkRF a b).hi = s.hi := by unfold State.checkRF; repeat (first | rfl | split)
@[simp] theorem checkRF_lo (a b : Option Reg) : (s.checkRF a b).lo = s.lo := by unfold State.checkRF; repeat (first | rfl | split)
@[simp] theorem checkRF_hiPresent (a b : Option Reg) : (s.checkRF a b).hiPresent = s.hiPresent := by unfold State.checkRF; repeat (first | rfl | split)
@[simp] theorem checkRF_loPresent (a b : Option Reg) : (s.checkRF a b).loPresent = s.loPresent := by unfold State.checkRF; repeat (first | rfl | split)
@[simp] theorem checkRF_bdFlag (a b : Option Reg) : (s.checkRF a b).bdFlag = s.bdFlag := by unfold State.checkRF; repeat (first | rfl | split)
@[simp] theorem checkRF_f (a b : Option Reg) : (s.checkRF a b).f = s.f := by unfold State.checkRF; repeat (first | rfl | split)
@[simp] theorem checkRF_fPresent (a b : Option Reg) : (s.checkRF a b).fPresent = s.fPresent := by unfold State.checkRF; repeat (first | rfl | split)
@[simp] theorem checkRF_fpCond (a b : Option Reg) : (s.checkRF a b).fpCond = s.fpCond := by unfold State.checkRF; repeat (first | rfl | split)
@[simp] theorem checkRF_fpCondPresent (a b : Option Reg) : (s.checkRF a b).fpCondPresent = s.fpCondPresent := by unfold State.checkRF; repeat (first | rfl | split)
@[simp] theorem checkRF_c0 (a b : Option Reg) : (s.checkRF a b).c0 = s.c0 := by unfold State.checkRF; repeat (first | rfl | split)
@[simp] theorem checkRF_pipe (a b : Option Reg) : (s.checkRF a b).pipe = s.pipe := by unfold State.checkRF; repeat (first | rfl | split)
@[simp] theorem checkRF_poolFree (a b : Option Reg) : (s.checkRF a b).poolFree = s.poolFree := by unfold State.checkRF; repeat (first | rfl | split)
@[simp] theorem checkRF_bypEX (a b : Option Reg) : (s.checkRF a b).bypEX = s.bypEX := by unfold State.checkRF; repeat (first | rfl | split)
@[simp] theorem checkRF_bypMEM (a b : Option Reg) : (s.checkRF a b).bypMEM = s.bypMEM := by unfold State.checkRF; repeat (first | rfl | split)
@[simp] theorem checkRF_mdu (a b : Option Reg) : (s.checkRF a b).mdu = s.mdu := by unfold State.checkRF; repeat (first | rfl | split)
@[simp] theorem checkRF_busy (a b : Option Reg) : (s.checkRF a b).busy = s.busy := by unfold State.checkRF; repeat (first | rfl | split)
@[simp] theorem checkRF_idStall (a b : Option Reg) : (s.checkRF a b).idStall = s.idStall := by unfold State.checkRF; repeat (first | rfl | split)
@[simp] theorem checkRF_busDone (a b : Option Reg) : (s.checkRF a b).busDone = s.busDone := by unfold State.checkRF; repeat (first | rfl | split)
@[simp] theorem checkRF_nextTag (a b : Option Reg) : (s.checkRF a b).nextTag = s.nextTag := by unfold State.checkRF; repeat (first | rfl | split)
@[simp] theorem checkRF_cycle (a b : Option Reg) : (s.checkRF a b).cycle = s.cycle := by unfold State.checkRF; repeat (first | rfl | split)
@[simp] theorem checkRF_excFound (a b : Option Reg) : (s.checkRF a b).excFound = s.excFound := by unfold State.checkRF; repeat (first | rfl | split)
@[simp] theorem checkRF_mem (a b : Option Reg) : (s.checkRF a b).mem = s.mem := by unfold State.checkRF; repeat (first | rfl | split)
@[simp] theorem checkRF_script (a b : Option Reg) : (s.checkRF a b).script = s.script := by unfold State.checkRF; repeat (first | rfl | split)
@[simp] theorem checkRF_pending (a b : Option Reg) : (s.checkRF a b).pending = s.pending := by unfold State.checkRF; repeat (first | rfl | split)
@[simp] theorem checkRF_mode (a b : Option Reg) : (s.checkRF a b).mode = s.mode := by unfold State.checkRF; repeat (first | rfl | split)
@[simp] theorem checkRF_calls (a b : Option Reg) : (s.checkRF a b).calls = s.calls := by unfold State.checkRF; repeat (first | rfl | split)
@[simp] theorem checkRF_outcome (a b : Option Reg) : (s.checkRF a b).outcome = s.outcome := by unfold State.checkRF; repeat (first | rfl | split)
@[simp] theorem checkRF_earlier (a b : Option Reg) : (s.checkRF a b).earlier = s.earlier := by unfold State.checkRF; repeat (first | rfl | split)
@[simp] theorem checkRF_draws (a b : Option Reg) : (s.checkRF a b).draws = s.draws := by unfold State.checkRF; repeat (first | rfl | split)

/-! setClaim -/

@[simp] theorem setClaim_params (c : Claim) (b : Bool) : (s.setClaim c b).params = s.params := by unfold State.setClaim; repeat (first | rfl | simp only [setPresentFOpnd_params] | split)
@[simp] theorem setClaim_x (c : Claim) (b : Bool) : (s.setClaim c b).x = s.x := by unfold State.setClaim; repeat (first | rfl | simp only [setPresentFOpnd_x] | split)
@[simp] theorem setClaim_fpc (c : Claim) (b : Bool) : (s.setClaim c b).fpc = s.fpc := by unfold State.setClaim; repeat (first | rfl | simp only [setPresentFOpnd_fpc] | split)
@[simp] theorem setClaim_fnpc (c : Claim) (b : Bool) : (s.setClaim c b).fnpc = s.fnpc := by unfold State.setClaim; repeat (first | rfl | simp only [setPresentFOpnd_fnpc] | split)
@[simp] theorem setClaim_hi (c : Claim) (b : Bool) : (s.setClaim c b).hi = s.hi := by unfold State.setClaim; repeat (first | rfl | simp only [setPresentFOpnd_hi] | split)
@[simp] theorem setClaim_lo (c : Claim) (b : Bool) : (s.setClaim c b).lo = s.lo := by unfold State.setClaim; repeat (first | rfl | simp only [setPresentFOpnd_lo] | split)
@[simp] theorem setClaim_hiPresent (c : Claim) (b : Bool) : (s.setClaim c b).hiPresent = s.hiPresent := by unfold State.setClaim; repeat (first | rfl | simp only [setPresentFOpnd_hiPresent] | split)
@[simp] theorem setClaim_loPresent (c : Claim) (b : Bool) : (s.setClaim c b).loPresent = s.loPresent := by unfold State.setClaim; repeat (first | rfl | simp only [setPresentFOpnd_loPresent] | split)
@[simp] theorem setClaim_bdFlag (c : Claim) (b : Bool) : (s.setClaim c b).bdFlag = s.bdFlag := by unfold State.setClaim; repeat (first | rfl | simp only [setPresentFOpnd_bdFlag] | split)
@[simp] theorem setClaim_f (c : Claim) (b : Bool) : (s.setClaim c b).f = s.f := by unfold State.setClaim; repeat (first | rfl | simp only [setPresentFOpnd_f] | split)
@[simp] theorem setClaim_fpCond (c : Claim) (b : Bool) : (s.setClaim c b).fpCond = s.fpCond := by unfold State.setClaim; repeat (first | rfl | simp only [setPresentFOpnd_fpCond] | split)
@[simp] theorem setClaim_c0 (c : Claim) (b : Bool) : (s.setClaim c b).c0 = s.c0 := by unfold State.setClaim; repeat (first | rfl | simp only [setPresentFOpnd_c0] | split)
@[simp] theorem setClaim_pipe (c : Claim) (b : Bool) : (s.setClaim c b).pipe = s.pipe := by unfold State.setClaim; repeat (first | rfl | simp only [setPresentFOpnd_pipe] | split)
@[simp] theorem setClaim_poolFree (c : Claim) (b : Bool) : (s.setClaim c b).poolFree = s.poolFree := by unfold State.setClaim; repeat (first | rfl | simp only [setPresentFOpnd_poolFree] | split)
@[simp] theorem setClaim_bypEX (c : Claim) (b : Bool) : (s.setClaim c b).bypEX = s.bypEX := by unfold State.setClaim; repeat (first | rfl | simp only [setPresentFOpnd_bypEX] | split)
@[simp] theorem setClaim_bypMEM (c : Claim) (b : Bool) : (s.setClaim c b).bypMEM = s.bypMEM := by unfold State.setClaim; repeat (first | rfl | simp only [setPresentFOpnd_bypMEM] | split)
@[simp] theorem setClaim_mdu (c : Claim) (b : Bool) : (s.setClaim c b).mdu = s.mdu := by unfold State.setClaim; repeat (first | rfl | simp only [setPresentFOpnd_mdu] | split)
@[simp] theorem setClaim_busy (c : Claim) (b : Bool) : (s.setClaim c b).busy = s.busy := by unfold State.setClaim; repeat (first | rfl | simp only [setPresentFOpnd_busy] | split)
@[simp] theorem setClaim_idStall (c : Claim) (b : Bool) : (s.setClaim c b).idStall = s.idStall := by unfold State.setClaim; repeat (first | rfl | simp only [setPresentFOpnd_idStall] | split)
@[simp] theorem setClaim_busDone (c : Claim) (b : Bool) : (s.setClaim c b).busDone = s.busDone := by unfold State.setClaim; repeat (first | rfl | simp only [setPresentFOpnd_busDone] | split)
@[simp] theorem setClaim_nextTag (c : Claim) (b : Bool) : (s.setClaim c b).nextTag = s.nextTag := by unfold State.setClaim; repeat (first | rfl | simp only [setPresentFOpnd_nextTag] | split)
@[simp] theorem setClaim_cycle (c : Claim) (b : Bool) : (s.setClaim c b).cycle = s.cycle := by unfold State.setClaim; repeat (first | rfl | simp only [setPresentFOpnd_cycle] | split)
@[simp] theorem setClaim_excFound (c : Claim) (b : Bool) : (s.setClaim c b).excFound = s.excFound := by unfold State.setClaim; repeat (first | rfl | simp only [setPresentFOpnd_excFound] | split)
@[simp] theorem setClaim_inj (c : Claim) (b : Bool) : (s.setClaim c b).inj = s.inj := by unfold State.setClaim; repeat (first | rfl | simp only [setPresentFOpnd_inj] | split)
@[simp] theorem setClaim_mem (c : Claim) (b : Bool) : (s.setClaim c b).mem = s.mem := by unfold State.setClaim; repeat (first | rfl | simp only [setPresentFOpnd_mem] | split)
@[simp] theorem setClaim_script (c : Claim) (b : Bool) : (s.setClaim c b).script = s.script := by unfold State.setClaim; repeat (first | rfl | simp only [setPresentFOpnd_script] | split)
@[simp] theorem setClaim_pending (c : Claim) (b : Bool) : (s.setClaim c b).pending = s.pending := by unfold State.setClaim; repeat (first | rfl | simp only [setPresentFOpnd_pending] | split)
@[simp] theorem setClaim_mode (c : Claim) (b : Bool) : (s.setClaim c b).mode = s.mode := by unfold State.setClaim; repeat (first | rfl | simp only [setPresentFOpnd_mode] | split)
@[simp] theorem setClaim_calls (c : Claim) (b : Bool) : (s.setClaim c b).calls = s.calls := by unfold State.setClaim; repeat (first | rfl | simp only [setPresentFOpnd_calls] | split)
@[simp] theorem setClaim_outcome (c : Claim) (b : Bool) : (s.setClaim c b).outcome = s.outcome := by unfold State.setClaim; repeat (first | rfl | simp only [setPresentFOpnd_outcome] | split)
@[simp] theorem setClaim_earlier (c : Claim) (b : Bool) : (s.setClaim c b).earlier = s.earlier := by unfold State.setClaim; repeat (first | rfl | simp only [setPresentFOpnd_earlier] | split)
@[simp] theorem setClaim_draws (c : Claim) (b : Bool) : (s.setClaim c b).draws = s.draws := by unfold State.setClaim; repeat (first | rfl | simp only [setPresentFOpnd_draws] | split)

/-! restoreClaims -/

@[simp] theorem restoreClaims_params (cs : List Claim) : (s.restoreClaims cs).params = s.params := by
  induction cs generalizing s with
  | nil => rfl
  | cons c rest ih => exact (ih _).trans (setClaim_params s c true)
@[simp] theorem restoreClaims_x (cs : List Claim) : (s.restoreClaims cs).x = s.x := by
  induction cs generalizing s with
  | nil => rfl
  | cons c rest ih => exact (ih _).trans (setClaim_x s c true)
@[simp] theorem restoreClaims_fpc (cs : List Claim) : (s.restoreClaims cs).fpc = s.fpc := by
  induction cs generalizing s with
  | nil => rfl
  | cons c rest ih => exact (ih _).trans (setClaim_fpc s c true)
@[simp] theorem restoreClaims_fnpc (cs : List Claim) : (s.restoreClaims cs).fnpc = s.fnpc := by
  induction cs generalizing s with
  | nil => rfl
  | cons c rest ih => exact (ih _).trans (setClaim_fnpc s c true)
@[simp] theorem restoreClaims_hi (cs : List Claim) : (s.restoreClaims cs).hi = s.hi := by
  induction cs generalizing s with
  | nil => rfl
  | cons c rest ih => exact (ih _).trans (setClaim_hi s c true)
@[simp] theorem restoreClaims_lo (cs : List Claim) : (s.restoreClaims cs).lo = s.lo := by
  induction cs generalizing s with
  | nil => rfl
  | cons c rest ih => exact (ih _).trans (setClaim_lo s c true)
@[simp] theorem restoreClaims_hiPresent (cs : List Claim) : (s.restoreClaims cs).hiPresent = s.hiPresent := by
  induction cs generalizing s with
  | nil => rfl
  | cons c rest ih => exact (ih _).trans (setClaim_hiPresent s c true)
@[simp] theorem restoreClaims_loPresent (cs : List Claim) : (s.restoreClaims cs).loPresent = s.loPresent := by
  induction cs generalizing s with
  | nil => rfl
  | cons c rest ih => exact (ih _).trans (setClaim_loPresent s c true)
@[simp] theorem restoreClaims_bdFlag (cs : List Claim) : (s.restoreClaims cs).bdFlag = s.bdFlag := by
  induction cs generalizing s with
  | nil => rfl
  | cons c rest ih => exact (ih _).trans (setClaim_bdFlag s c true)
@[simp] theorem restoreClaims_f (cs : List Claim) : (s.restoreClaims cs).f = s.f := by
  induction cs generalizing s with
  | nil => rfl
  | cons c rest ih => exact (ih _).trans (setClaim_f s c true)
@[simp] theorem restoreClaims_fpCond (cs : List Claim) : (s.restoreClaims cs).fpCond = s.fpCond := by
  induction cs generalizing s with
  | nil => rfl
  | cons c rest ih => exact (ih _).trans (setClaim_fpCond s c true)
@[simp] theorem restoreClaims_c0 (cs : List Claim) : (s.restoreClaims cs).c0 = s.c0 := by
  induction cs generalizing s with
  | nil => rfl
  | cons c rest ih => exact (ih _).trans (setClaim_c0 s c true)
@[simp] theorem restoreClaims_pipe (cs : List Claim) : (s.restoreClaims cs).pipe = s.pipe := by
  induction cs generalizing s with
  | nil => rfl
  | cons c rest ih => exact (ih _).trans (setClaim_pipe s c true)
@[simp] theorem restoreClaims_poolFree (cs : List Claim) : (s.restoreClaims cs).poolFree = s.poolFree := by
  induction cs generalizing s with
  | nil => rfl
  | cons c rest ih => exact (ih _).trans (setClaim_poolFree s c true)
@[simp] theorem restoreClaims_bypEX (cs : List Claim) : (s.restoreClaims cs).bypEX = s.bypEX := by
  induction cs generalizing s with
  | nil => rfl
  | cons c rest ih => exact (ih _).trans (setClaim_bypEX s c true)
@[simp] theorem restoreClaims_bypMEM (cs : List Claim) : (s.restoreClaims cs).bypMEM = s.bypMEM := by
  induction cs generalizing s with
  | nil => rfl
  | cons c rest ih => exact (ih _).trans (setClaim_bypMEM s c true)
@[simp] theorem restoreClaims_mdu (cs : List Claim) : (s.restoreClaims cs).mdu = s.mdu := by
  induction cs generalizing s with
  | nil => rfl
  | cons c rest ih => exact (ih _).trans (setClaim_mdu s c true)
@[simp] theorem restoreClaims_busy (cs : List Claim) : (s.restoreClaims cs).busy = s.busy := by
  induction cs generalizing s with
  | nil => rfl
  | cons c rest ih => exact (ih _).trans (setClaim_busy s c true)
@[simp] theorem restoreClaims_idStall (cs : List Claim) : (s.restoreClaims cs).idStall = s.idStall := by
  induction cs generalizing s with
  | nil => rfl
  | cons c rest ih => exact (ih _).trans (setClaim_idStall s c true)
@[simp] theorem restoreClaims_busDone (cs : List Claim) : (s.restoreClaims cs).busDone = s.busDone := by
  induction cs generalizing s with
  | nil => rfl
  | cons c rest ih => exact (ih _).trans (setClaim_busDone s c true)
@[simp] theorem restoreClaims_nextTag (cs : List Claim) : (s.restoreClaims cs).nextTag = s.nextTag := by
  induction cs generalizing s with
  | nil => rfl
  | cons c rest ih => exact (ih _).trans (setClaim_nextTag s c true)
@[simp] theorem restoreClaims_cycle (cs : List Claim) : (s.restoreClaims cs).cycle = s.cycle := by
  induction cs generalizing s with
  | nil => rfl
  | cons c rest ih => exact (ih _).trans (setClaim_cycle s c true)
@[simp] theorem restoreClaims_excFound (cs : List Claim) : (s.restoreClaims cs).excFound = s.excFound := by
  induction cs generalizing s with
  | nil => rfl
  | cons c rest ih => exact (ih _).trans (setClaim_excFound s c true)
@[simp] theorem restoreClaims_inj (cs : List Claim) : (s.restoreClaims cs).inj = s.inj := by
  induction cs generalizing s with
  | nil => rfl
  | cons c rest ih => exact (ih _).trans (setClaim_inj s c true)
@[simp] theorem restoreClaims_mem (cs : List Claim) : (s.restoreClaims cs).mem = s.mem := by
  induction cs generalizing s with
  | nil => rfl
  | cons c rest ih => exact (ih _).trans (setClaim_mem s c true)
@[simp] theorem restoreClaims_script (cs : List Claim) : (s.restoreClaims cs).script = s.script := by
  induction cs generalizing s with
  | nil => rfl
  | cons c rest ih => exact (ih _).trans (setClaim_script s c true)
@[simp] theorem restoreClaims_pending (cs : List Claim) : (s.restoreClaims cs).pending = s.pending := by
  induction cs generalizing s with
  | nil => rfl
  | cons c rest ih => exact (ih _).trans (setClaim_pending s c true)
@[simp] theorem restoreClaims_mode (cs : List Claim) : (s.restoreClaims cs).mode = s.mode := by
  induction cs generalizing s with
  | nil => rfl
  | cons c rest ih => exact (ih _).trans (setClaim_mode s c true)
@[simp] theorem restoreClaims_calls (cs : List Claim) : (s.restoreClaims cs).calls = s.calls := by
  induction cs generalizing s with
  | nil => rfl
  | cons c rest ih => exact (ih _).trans (setClaim_calls s c true)
@[simp] theorem restoreClaims_outcome (cs : List Claim) : (s.restoreClaims cs).outcome = s.outcome := by
  induction cs generalizing s with
  | nil => rfl
  | cons c rest ih => exact (ih _).trans (setClaim_outcome s c true)
@[simp] theorem restoreClaims_earlier (cs : List Claim) : (s.restoreClaims cs).earlier = s.earlier := by
  induction cs generalizing s with
  | nil => rfl
  | cons c rest ih => exact (ih _).trans (setClaim_earlier s c true)
@[simp] theorem restoreClaims_draws (cs : List Claim) : (s.restoreClaims cs).draws = s.draws := by
  induction cs generalizing s with
  | nil => rfl
  | cons c rest ih => exact (ih _).trans (setClaim_draws s c true)

/-! commitException -/

@[simp] theorem commitException_params (r : Rec) (e : Exc) : (s.commitException r e).params = s.params := by unfold State.commitException; repeat (first | rfl | split)
@[simp] theorem commitException_x (r : Rec) (e : Exc) : (s.commitException r e).x = s.x := by unfold State.commitException; repeat (first | rfl | split)
@[simp] theorem commitException_fpc (r : Rec) (e : Exc) : (s.commitException r e).fpc = s.fpc := by unfold State.commitException; repeat (first | rfl | split)
@[simp] theorem commitException_fnpc (r : Rec) (e : Exc) : (s.commitException r e).fnpc = s.fnpc := by unfold State.commitException; repeat (first | rfl | split)
@[simp] theorem commitException_hi (r : Rec) (e : Exc) : (s.commitException r e).hi = s.hi := by unfold State.commitException; repeat (first | rfl | split)
@[simp] theorem commitException_lo (r : Rec) (e : Exc) : (s.commitException r e).lo = s.lo := by unfold State.commitException; repeat (first | rfl | split)
@[simp] theorem commitException_hiPresent (r : Rec) (e : Exc) : (s.commitException r e).hiPresent = s.hiPresent := by unfold State.commitException; repeat (first | rfl | split)
@[simp] theorem commitException_loPresent (r : Rec) (e : Exc) : (s.commitException r e).loPresent = s.loPresent := by unfold State.commitException; repeat (first | rfl | split)
@[simp] theorem commitException_bdFlag (r : Rec) (e : Exc) : (s.commitException r e).bdFlag = s.bdFlag := by unfold State.commitException; repeat (first | rfl | split)
@[simp] theorem commitException_f (r : Rec) (e : Exc) : (s.commitException r e).f = s.f := by unfold State.commitException; repeat (first | rfl | split)
@[simp] theorem commitException_fPresent (r : Rec) (e : Exc) : (s.commitException r e).fPresent = s.fPresent := by unfold State.commitException; repeat (first | rfl | split)
@[simp] theorem commitException_fpCond (r : Rec) (e : Exc) : (s.commitException r e).fpCond = s.fpCond := by unfold State.commitException; repeat (first | rfl | split)
@[simp] theorem commitException_fpCondPresent (r : Rec) (e : Exc) : (s.commitException r e).fpCondPresent = s.fpCondPresent := by unfold State.commitException; repeat (first | rfl | split)
@[simp] theorem commitException_pipe (r : Rec) (e : Exc) : (s.commitException r e).pipe = s.pipe := by unfold State.commitException; repeat (first | rfl | split)
@[simp] theorem commitException_poolFree (r : Rec) (e : Exc) : (s.commitException r e).poolFree = s.poolFree := by unfold State.commitException; repeat (first | rfl | split)
@[simp] theorem commitException_bypEX (r : Rec) (e : Exc) : (s.commitException r e).bypEX = s.bypEX := by unfold State.commitException; repeat (first | rfl | split)
@[simp] theorem commitException_bypMEM (r : Rec) (e : Exc) : (s.commitException r e).bypMEM = s.bypMEM := by unfold State.commitException; repeat (first | rfl | split)
@[simp] theorem commitException_mdu (r : Rec) (e : Exc) : (s.commitException r e).mdu = s.mdu := by unfold State.commitException; repeat (first | rfl | split)
@[simp] theorem commitException_busy (r : Rec) (e : Exc) : (s.commitException r e).busy = s.busy := by unfold State.commitException; repeat (first | rfl | split)
@[simp] theorem commitException_idStall (r : Rec) (e : Exc) : (s.commitException r e).idStall = s.idStall := by unfold State.commitException; repeat (first | rfl | split)
@[simp] theorem commitException_busDone (r : Rec) (e : Exc) : (s.commitException r e).busDone = s.busDone := by unfold State.commitException; repeat (first | rfl | split)
@[simp] theorem commitException_nextTag (r : Rec) (e : Exc) : (s.commitException r e).nextTag = s.nextTag := by unfold State.commitException; repeat (first | rfl | split)
@[simp] theorem commitException_cycle (r : Rec) (e : Exc) : (s.commitException r e).cycle = s.cycle := by unfold State.commitException; repeat (first | rfl | split)
@[simp] theorem commitException_excFound (r : Rec) (e : Exc) : (s.commitException r e).excFound = true := rfl
@[simp] theorem commitException_inj (r : Rec) (e : Exc) : (s.commitException r e).inj = s.inj := by unfold State.commitException; repeat (first | rfl | split)
@[simp] theorem commitException_mem (r : Rec) (e : Exc) : (s.commitException r e).mem = s.mem := by unfold State.commitException; repeat (first | rfl | split)
@[simp] theorem commitException_script (r : Rec) (e : Exc) : (s.commitException r e).script = s.script := by unfold State.commitException; repeat (first | rfl | split)
@[simp] theorem commitException_pending (r : Rec) (e : Exc) : (s.commitException r e).pending = s.pending := by unfold State.commitException; repeat (first | rfl | split)
@[simp] theorem commitException_mode (r : Rec) (e : Exc) : (s.commitException r e).mode = s.mode := by unfold State.commitException; repeat (first | rfl | split)
@[simp] theorem commitException_calls (r : Rec) (e : Exc) : (s.commitException r e).calls = s.calls := by unfold State.commitException; repeat (first | rfl | split)
@[simp] theorem commitException_outcome (r : Rec) (e : Exc) : (s.commitException r e).outcome = s.outcome := by unfold State.commitException; repeat (first | rfl | split)
@[simp] theorem commitException_earlier (r : Rec) (e : Exc) : (s.commitException r e).earlier = s.earlier := by unfold State.commitException; repeat (first | rfl | split)
@[simp] theorem commitException_draws (r : Rec) (e : Exc) : (s.commitException r e).draws = s.draws := by unfold State.commitException; repeat (first | rfl | split)

/-! flush -/

@[simp] theorem flush_params (cs : List Claim) : (s.flush cs).params = s.params := by simp [State.flush]
@[simp] theorem flush_x (cs : List Claim) : (s.flush cs).x = s.x := by simp [State.flush]
@[simp] theorem flush_fpc (cs : List Claim) : (s.flush cs).fpc = Config.freePc s.draws := by simp [State.flush]
@[simp] theorem flush_fnpc (cs : List Claim) : (s.flush cs).fnpc = Config.freePc (s.draws + 1) := by simp [State.flush]
@[simp] theorem flush_hi (cs : List Claim) : (s.flush cs).hi = s.hi := by simp [State.flush]
@[simp] theorem flush_lo (cs : List Claim) : (s.flush cs).lo = s.lo := by simp [State.flush]
@[simp] theorem flush_hiPresent (cs : List Claim) : (s.flush cs).hiPresent = s.hiPresent := by simp [State.flush]
@[simp] theorem flush_loPresent (cs : List Claim) : (s.flush cs).loPresent = s.loPresent := by simp [State.flush]
@[simp] theorem flush_bdFlag (cs : List Claim) : (s.flush cs).bdFlag = false := by simp [State.flush]
@[simp] theorem flush_f (cs : List Claim) : (s.flush cs).f = s.f := by simp [State.flush]
@[simp] theorem flush_fPresent (cs : List Claim) : (s.flush cs).fPresent = (s.restoreClaims cs).fPresent := by simp [State.flush]
@[simp] theorem flush_fpCond (cs : List Claim) : (s.flush cs).fpCond = s.fpCond := by simp [State.flush]
@[simp] theorem flush_fpCondPresent (cs : List Claim) : (s.flush cs).fpCondPresent = (s.restoreClaims cs).fpCondPresent := by simp [State.flush]
@[simp] theorem flush_c0 (cs : List Claim) : (s.flush cs).c0 = s.c0 := by simp [State.flush]
@[simp] theorem flush_poolFree (cs : List Claim) : (s.flush cs).poolFree = s.poolFree + s.pipe.slotRecords := by simp [State.flush]
@[simp] theorem flush_bypEX (cs : List Claim) : (s.flush cs).bypEX = none := by simp [State.flush]
@[simp] theorem flush_bypMEM (cs : List Claim) : (s.flush cs).bypMEM = none := by simp [State.flush]
@[simp] theorem flush_mdu (cs : List Claim) : (s.flush cs).mdu = s.mdu := by simp [State.flush]
@[simp] theorem flush_busy (cs : List Claim) : (s.flush cs).busy = s.busy := by simp [State.flush]
@[simp] theorem flush_idStall (cs : List Claim) : (s.flush cs).idStall = false := by simp [State.flush]
@[simp] theorem flush_busDone (cs : List Claim) : (s.flush cs).busDone = s.busDone := by simp [State.flush]
@[simp] theorem flush_nextTag (cs : List Claim) : (s.flush cs).nextTag = s.nextTag := by simp [State.flush]
@[simp] theorem flush_cycle (cs : List Claim) : (s.flush cs).cycle = s.cycle := by simp [State.flush]
@[simp] theorem flush_excFound (cs : List Claim) : (s.flush cs).excFound = s.excFound := by simp [State.flush]
@[simp] theorem flush_inj (cs : List Claim) : (s.flush cs).inj = s.inj := by simp [State.flush]
@[simp] theorem flush_mem (cs : List Claim) : (s.flush cs).mem = s.mem := by simp [State.flush]
@[simp] theorem flush_script (cs : List Claim) : (s.flush cs).script = s.script := by simp [State.flush]
@[simp] theorem flush_pending (cs : List Claim) : (s.flush cs).pending = s.pending := by simp [State.flush]
@[simp] theorem flush_mode (cs : List Claim) : (s.flush cs).mode = s.mode := by simp [State.flush]
@[simp] theorem flush_calls (cs : List Claim) : (s.flush cs).calls = s.calls := by simp [State.flush]
@[simp] theorem flush_outcome (cs : List Claim) : (s.flush cs).outcome = s.outcome := by simp [State.flush]
@[simp] theorem flush_earlier (cs : List Claim) : (s.flush cs).earlier = s.earlier := by simp [State.flush]
@[simp] theorem flush_draws (cs : List Claim) : (s.flush cs).draws = s.draws + 2 := by simp [State.flush]

/-! prologue -/

@[simp] theorem prologue_params : s.prologue.params = s.params := rfl
@[simp] theorem prologue_x : s.prologue.x = s.x := rfl
@[simp] theorem prologue_fpc : s.prologue.fpc = s.fpc := rfl
@[simp] theorem prologue_fnpc : s.prologue.fnpc = s.fnpc := rfl
@[simp] theorem prologue_hi : s.prologue.hi = s.hi := rfl
@[simp] theorem prologue_lo : s.prologue.lo = s.lo := rfl
@[simp] theorem prologue_hiPresent : s.prologue.hiPresent = s.hiPresent := rfl
@[simp] theorem prologue_loPresent : s.prologue.loPresent = s.loPresent := rfl
@[simp] theorem prologue_bdFlag : s.prologue.bdFlag = s.bdFlag := rfl
@[simp] theorem prologue_f : s.prologue.f = s.f := rfl
@[simp] theorem prologue_fPresent : s.prologue.fPresent = s.fPresent := rfl
@[simp] theorem prologue_fpCond : s.prologue.fpCond = s.fpCond := rfl
@[simp] theorem prologue_fpCondPresent : s.prologue.fpCondPresent = s.fpCondPresent := rfl
@[simp] theorem prologue_c0 : s.prologue.c0 = s.c0 := rfl
@[simp] theorem prologue_pipe : s.prologue.pipe = s.pipe := rfl
@[simp] theorem prologue_poolFree : s.prologue.poolFree = s.poolFree := rfl
@[simp] theorem prologue_bypEX : s.prologue.bypEX = none := rfl
@[simp] theorem prologue_bypMEM : s.prologue.bypMEM = none := rfl
@[simp] theorem prologue_mdu : s.prologue.mdu = s.mdu := rfl
@[simp] theorem prologue_busy : s.prologue.busy = s.busy := rfl
@[simp] theorem prologue_idStall : s.prologue.idStall = false := rfl
@[simp] theorem prologue_busDone : s.prologue.busDone = none := rfl
@[simp] theorem prologue_nextTag : s.prologue.nextTag = s.nextTag := rfl
@[simp] theorem prologue_cycle : s.prologue.cycle = s.cycle + 1 := rfl
@[simp] theorem prologue_excFound : s.prologue.excFound = false := rfl
@[simp] theorem prologue_inj : s.prologue.inj = s.inj := rfl
@[simp] theorem prologue_mem : s.prologue.mem = s.mem := rfl
@[simp] theorem prologue_script : s.prologue.script = s.script := rfl
@[simp] theorem prologue_pending : s.prologue.pending = s.pending := rfl
@[simp] theorem prologue_mode : s.prologue.mode = s.mode := rfl
@[simp] theorem prologue_calls : s.prologue.calls = s.calls := rfl
@[simp] theorem prologue_outcome : s.prologue.outcome = s.outcome := rfl
@[simp] theorem prologue_earlier : s.prologue.earlier = s.earlier := rfl
@[simp] theorem prologue_draws : s.prologue.draws = s.draws := rfl

/-! commitPc -/

@[simp] theorem commitPc_params : s.commitPc.params = s.params := rfl
@[simp] theorem commitPc_x : s.commitPc.x = s.x := rfl
@[simp] theorem commitPc_fpc : s.commitPc.fpc = s.fnpc := rfl
@[simp] theorem commitPc_fnpc : s.commitPc.fnpc = s.fnpc + 4 := rfl
@[simp] theorem commitPc_hi : s.commitPc.hi = s.hi := rfl
@[simp] theorem commitPc_lo : s.commitPc.lo = s.lo := rfl
@[simp] theorem commitPc_hiPresent : s.commitPc.hiPresent = s.hiPresent := rfl
@[simp] theorem commitPc_loPresent : s.commitPc.loPresent = s.loPresent := rfl
@[simp] theorem commitPc_bdFlag : s.commitPc.bdFlag = s.bdFlag := rfl
@[simp] theorem commitPc_f : s.commitPc.f = s.f := rfl
@[simp] theorem commitPc_fPresent : s.commitPc.fPresent = s.fPresent := rfl
@[simp] theorem commitPc_fpCond : s.commitPc.fpCond = s.fpCond := rfl
@[simp] theorem commitPc_fpCondPresent : s.commitPc.fpCondPresent = s.fpCondPresent := rfl
@[simp] theorem commitPc_c0 : s.commitPc.c0 = s.c0 := rfl
@[simp] theorem commitPc_pipe : s.commitPc.pipe = s.pipe := rfl
@[simp] theorem commitPc_poolFree : s.commitPc.poolFree = s.poolFree := rfl
@[simp] theorem commitPc_bypEX : s.commitPc.bypEX = s.bypEX := rfl
@[simp] theorem commitPc_bypMEM : s.commitPc.bypMEM = s.bypMEM := rfl
@[simp] theorem commitPc_mdu : s.commitPc.mdu = s.mdu := rfl
@[simp] theorem commitPc_busy : s.commitPc.busy = s.busy := rfl
@[simp] theorem commitPc_idStall : s.commitPc.idStall = s.idStall := rfl
@[simp] theorem commitPc_busDone : s.commitPc.busDone = s.busDone := rfl
@[simp] theorem commitPc_nextTag : s.commitPc.nextTag = s.nextTag := rfl
@[simp] theorem commitPc_cycle : s.commitPc.cycle = s.cycle := rfl
@[simp] theorem commitPc_excFound : s.commitPc.excFound = s.excFound := rfl
@[simp] theorem commitPc_inj : s.commitPc.inj = s.inj := rfl
@[simp] theorem commitPc_mem : s.commitPc.mem = s.mem := rfl
@[simp] theorem commitPc_script : s.commitPc.script = s.script := rfl
@[simp] theorem commitPc_pending : s.commitPc.pending = s.pending := rfl
@[simp] theorem commitPc_mode : s.commitPc.mode = s.mode := rfl
@[simp] theorem commitPc_calls : s.commitPc.calls = s.calls := rfl
@[simp] theorem commitPc_outcome : s.commitPc.outcome = s.outcome := rfl
@[simp] theorem commitPc_earlier : s.commitPc.earlier = s.earlier := rfl
@[simp] theorem commitPc_draws : s.commitPc.draws = s.draws := rfl

/-! afterException -/

@[simp] theorem afterException_params : s.afterException.params = s.params := by unfold State.afterException; split <;> rfl
@[simp] theorem afterException_x : s.afterException.x = s.x := by unfold State.afterException; split <;> rfl
@[simp] theorem afterException_hi : s.afterException.hi = s.hi := by unfold State.afterException; split <;> rfl
@[simp] theorem afterException_lo : s.afterException.lo = s.lo := by unfold State.afterException; split <;> rfl
@[simp] theorem afterException_hiPresent : s.afterException.hiPresent = s.hiPresent := by unfold State.afterException; split <;> rfl
@[simp] theorem afterException_loPresent : s.afterException.loPresent = s.loPresent := by unfold State.afterException; split <;> rfl
@[simp] theorem afterException_f : s.afterException.f = s.f := by unfold State.afterException; split <;> rfl
@[simp] theorem afterException_fPresent : s.afterException.fPresent = s.fPresent := by unfold State.afterException; split <;> rfl
@[simp] theorem afterException_fpCond : s.afterException.fpCond = s.fpCond := by unfold State.afterException; split <;> rfl
@[simp] theorem afterException_fpCondPresent : s.afterException.fpCondPresent = s.fpCondPresent := by unfold State.afterException; split <;> rfl
@[simp] theorem afterException_c0 : s.afterException.c0 = s.c0 := by unfold State.afterException; split <;> rfl
@[simp] theorem afterException_pipe : s.afterException.pipe = s.pipe := by unfold State.afterException; split <;> rfl
@[simp] theorem afterException_poolFree : s.afterException.poolFree = s.poolFree := by unfold State.afterException; split <;> rfl
@[simp] theorem afterException_bypEX : s.afterException.bypEX = s.bypEX := by unfold State.afterException; split <;> rfl
@[simp] theorem afterException_bypMEM : s.afterException.bypMEM = s.bypMEM := by unfold State.afterException; split <;> rfl
@[simp] theorem afterException_mdu : s.afterException.mdu = s.mdu := by unfold State.afterException; split <;> rfl
@[simp] theorem afterException_busy : s.afterException.busy = s.busy := by unfold State.afterException; split <;> rfl
@[simp] theorem afterException_idStall : s.afterException.idStall = s.idStall := by unfold State.afterException; split <;> rfl
@[simp] theorem afterException_busDone : s.afterException.busDone = s.busDone := by unfold State.afterException; split <;> rfl
@[simp] theorem afterException_nextTag : s.afterException.nextTag = s.nextTag := by unfold State.afterException; split <;> rfl
@[simp] theorem afterException_cycle : s.afterException.cycle = s.cycle := by unfold State.afterException; split <;> rfl
@[simp] theorem afterException_excFound : s.afterException.excFound = s.excFound := by unfold State.afterException; split <;> rfl
@[simp] theorem afterException_inj : s.afterException.inj = s.inj := by unfold State.afterException; split <;> rfl
@[simp] theorem afterException_mem : s.afterException.mem = s.mem := by unfold State.afterException; split <;> rfl
@[simp] theorem afterException_script : s.afterException.script = s.script := by unfold State.afterException; split <;> rfl
@[simp] theorem afterException_pending : s.afterException.pending = s.pending := by unfold State.afterException; split <;> rfl
@[simp] theorem afterException_calls : s.afterException.calls = s.calls := by unfold State.afterException; split <;> rfl
@[simp] theorem afterException_earlier : s.afterException.earlier = s.earlier := by unfold State.afterException; split <;> rfl
@[simp] theorem afterException_draws : s.afterException.draws = s.draws := by unfold State.afterException; split <;> rfl

end Sys2Proof.Machine
end

