-- ==== Sys2Proof/Laws/Stages.lean ====
section
/-! SUPPORT. What each stage of one instruction does in the fault-free machine: one lemma per shared operation, which proofs
about instructions cite instead of unfolding it. -/

namespace Sys2Proof.Machine

variable (s : State) (d : Desc) (r : Rec)

/-! ## The quiet injector -/

theorem loc_quiet {j : Injector} (h : j.quiet = true) (l : Loc) : (j.loc l).byCycle = [] ∧ (j.loc l).byEvent = [] := by
  simp only [Injector.quiet, LocFaults.quiet, Bool.and_eq_true, List.isEmpty_iff] at h
  cases l <;> simp [Injector.loc, h]

/-- A check of a quiet location only counts the event (R408 steps 1 and 3). -/
theorem check_quiet {j : Injector} (h : j.quiet = true) (l : Loc) (c n : Nat) :
    j.check l c n = (none, j.setLoc l { byCycle := [], byEvent := [], count := (j.loc l).count + 1 }) := by
  obtain ⟨h1, h2⟩ := loc_quiet h l
  simp [Injector.check, LocFaults.dueMask, LocFaults.count1, h1, h2, popDue, combineMasks]

theorem setLoc_quiet {j : Injector} (h : j.quiet = true) (l : Loc) (n : Nat) :
    (j.setLoc l { byCycle := [], byEvent := [], count := n }).quiet = true := by
  simp only [Injector.quiet, Bool.and_eq_true] at h
  obtain ⟨⟨⟨⟨⟨⟨h1, h2⟩, h3⟩, h4⟩, h5⟩, h6⟩, h7⟩ := h
  have hq : LocFaults.quiet { byCycle := [], byEvent := [], count := n } = true := rfl
  cases l <;> simp [Injector.setLoc, Injector.quiet, *]

/-- A check in the fault-free machine hits no target. -/
@[simp] theorem checkFault_none {s : State} (h : s.inj.quiet = true) (l : Loc) (n : Nat) : (s.checkFault l n).1 = none := by
  simp [State.checkFault, check_quiet h]

@[simp] theorem checkFault_inj_quiet {s : State} (h : s.inj.quiet = true) (l : Loc) (n : Nat) :
    (s.checkFault l n).2.inj.quiet = true := by
  simp [State.checkFault, check_quiet h, setLoc_quiet h]

@[simp] theorem hitTarget_none (n : Nat) (v : Word) : hitTarget none n v = v := rfl

@[simp] theorem checkRF_x {s : State} (h : s.inj.quiet = true) (a b : Option Reg) : (s.checkRF a b).x = s.x := by
  unfold State.checkRF
  split
  · rfl
  · simp [h]

@[simp] theorem checkRF_inj_quiet {s : State} (h : s.inj.quiet = true) (a b : Option Reg) :
    (s.checkRF a b).inj.quiet = true := by
  unfold State.checkRF
  split
  · exact h
  · simp [h]

/-! ## Reads depend on their own fields only -/

theorem readX_congr {s t : State} (h : t.x = s.x) (i : Reg) : t.readX i = s.readX i := by simp [State.readX, h]
theorem readF_congr {s t : State} (h : t.f = s.f) (i : Reg) : t.readF i = s.readF i := by simp [State.readF, h]
theorem readFD_congr {s t : State} (h : t.f = s.f) (i : Reg) : t.readFD i = s.readFD i := by
  simp [State.readFD, readF_congr h]
theorem readFOpnd_congr {s t : State} (h : t.f = s.f) (o : FOpnd) : t.readFOpnd o = s.readFOpnd o := by
  cases o <;> simp [State.readFOpnd, readF_congr h, readFD_congr h]
theorem readHiLo_congr {s t : State} (h : t.hi = s.hi) (h' : t.lo = s.lo) (o : HiLo) : t.readHiLo o = s.readHiLo o := by
  cases o <;> simp [State.readHiLo, h, h']
theorem readC0_congr {s t : State} (h : t.c0 = s.c0) (i : Reg) : t.readC0 i = s.readC0 i := by simp [State.readC0, h]
theorem presentF_congr {s t : State} (h : t.fPresent = s.fPresent) (i : Reg) : t.presentF i = s.presentF i := by
  simp [State.presentF, h]
theorem readByte_congr {s t : State} (h : t.mem = s.mem) (a : Word) : t.readByte a = s.readByte a := by
  simp [State.readByte, h]
theorem rd_congr {s t : State} (h : t.x = s.x) (h1 : t.bypEX = s.bypEX) (h2 : t.bypMEM = s.bypMEM) (i : Reg) :
    t.rd i = s.rd i := by simp [State.rd, readX_congr h, h1, h2]

/-- With nothing bypassed `Rd` is the architectural file (R173). -/
theorem rd_of_none {s : State} (h1 : s.bypEX = none) (h2 : s.bypMEM = none) (i : Reg) : s.rd i = s.readX i := by
  by_cases hi : i = 0#5 <;> simp [State.rd, h1, h2, bypassed, State.readX, hi]

/-! ## Register files after a write -/

theorem toNat_ne {i j : Reg} (h : i ≠ j) : i.toNat ≠ j.toNat := fun e => h (BitVec.eq_of_toNat_eq e)

@[simp] theorem read_cellOf (v : Word) : (cellOf v).read = v := by simp [cellOf, RegCell.read]

theorem readX_writeX (i j : Reg) (v : Word) : (s.writeX i v).readX j = if j = i ∧ i ≠ 0#5 then v else s.readX j := by
  unfold State.writeX State.readX
  by_cases hi : i = 0#5
  · simp [hi]
  · by_cases hj : j = i
    · subst hj; simp [hi]
    · simp [hi, hj, Vector.getElem_set_ne, toNat_ne (Ne.symm hj)]

theorem readF_writeF (i j : Reg) (v : Word) : (s.writeF i v).readF j = if j = i then v else s.readF j := by
  unfold State.writeF State.readF
  by_cases hj : j = i
  · subst hj; simp
  · simp [hj, Vector.getElem_set_ne, toNat_ne (Ne.symm hj)]

theorem presentF_setPresentF (i j : Reg) (b : Bool) :
    (s.setPresentF i b).presentF j = if j = i then b else s.presentF j := by
  unfold State.setPresentF State.presentF
  by_cases hj : j = i
  · subst hj; simp
  · simp [hj, Vector.getElem_set_ne, toNat_ne (Ne.symm hj)]

theorem readC0_writeC0 (i j : Reg) (v : Word) : (s.writeC0 i v).readC0 j = if j = i then v else s.readC0 j := by
  unfold State.writeC0 State.readC0
  by_cases hj : j = i
  · subst hj; simp
  · simp [hj, Vector.getElem_set_ne, toNat_ne (Ne.symm hj)]

theorem ne_succ (r : Reg) : r ≠ r + 1 := by
  revert r; decide

theorem readF_writeFOpnd (o : FOpnd) (v : DWord) (j : Reg) (h : j ∉ o.regs) : (s.writeFOpnd o v).readF j = s.readF j := by
  cases o <;> simp_all [FOpnd.regs, State.writeFOpnd, State.writeFD, readF_writeF]

theorem readF_writeFOpnd_single (r : Reg) (v : DWord) : (s.writeFOpnd (.single r) v).readF r = v.extractLsb' 0 32 := by
  simp [State.writeFOpnd, readF_writeF]

theorem readFD_writeFOpnd_double (r : Reg) (v : DWord) : (s.writeFOpnd (.double r) v).readFD r = v := by
  simp only [State.writeFOpnd, State.writeFD, State.readFD, readF_writeF, if_true, ne_succ r, if_false]
  ext i hi
  simp only [BitVec.getElem_append, BitVec.getElem_extractLsb']
  split
  · simp [BitVec.getLsbD_eq_getElem hi]
  · rename_i h; simp only [show 32 + (i - 32) = i by omega, BitVec.getLsbD_eq_getElem hi]

theorem presentF_setPresentFOpnd (o : FOpnd) (b : Bool) (j : Reg) :
    (s.setPresentFOpnd o b).presentF j = if j ∈ o.regs then b else s.presentF j := by
  cases o with
  | single r => simp [FOpnd.regs, State.setPresentFOpnd, presentF_setPresentF]
  | double r =>
    simp only [FOpnd.regs, State.setPresentFOpnd, presentF_setPresentF, List.mem_cons, List.not_mem_nil, or_false]
    by_cases h1 : j = r + 1 <;> by_cases h2 : j = r <;> simp [h1, h2]

/-- A claim taken and given back leaves a flag that was true as it was; only the flags of the claim can change (R441 a). -/
theorem presentF_setClaim (c : Claim) (b : Bool) (j : Reg) :
    (s.setClaim c b).presentF j = if j ∈ (c.fdst.map FOpnd.regs).getD [] then b else s.presentF j := by
  unfold State.setClaim
  cases c.fdst with
  | none => cases c.cond <;> simp [State.presentF]
  | some o =>
    have h := presentF_setPresentFOpnd s o b j
    cases c.cond <;> simpa [State.presentF] using h

/-! ## ID -/

@[simp] theorem checkID_params : (d.checkID s).2.params = s.params := by unfold Desc.checkID; split <;> simp
@[simp] theorem checkID_fpc : (d.checkID s).2.fpc = s.fpc := by unfold Desc.checkID; split <;> simp
@[simp] theorem checkID_hi : (d.checkID s).2.hi = s.hi := by unfold Desc.checkID; split <;> simp
@[simp] theorem checkID_lo : (d.checkID s).2.lo = s.lo := by unfold Desc.checkID; split <;> simp
@[simp] theorem checkID_hiPresent : (d.checkID s).2.hiPresent = s.hiPresent := by unfold Desc.checkID; split <;> simp
@[simp] theorem checkID_loPresent : (d.checkID s).2.loPresent = s.loPresent := by unfold Desc.checkID; split <;> simp
@[simp] theorem checkID_f : (d.checkID s).2.f = s.f := by unfold Desc.checkID; split <;> simp
@[simp] theorem checkID_fpCond : (d.checkID s).2.fpCond = s.fpCond := by unfold Desc.checkID; split <;> simp
@[simp] theorem checkID_c0 : (d.checkID s).2.c0 = s.c0 := by unfold Desc.checkID; split <;> simp
@[simp] theorem checkID_pipe : (d.checkID s).2.pipe = s.pipe := by unfold Desc.checkID; split <;> simp
@[simp] theorem checkID_poolFree : (d.checkID s).2.poolFree = s.poolFree := by unfold Desc.checkID; split <;> simp
@[simp] theorem checkID_bypEX : (d.checkID s).2.bypEX = s.bypEX := by unfold Desc.checkID; split <;> simp
@[simp] theorem checkID_bypMEM : (d.checkID s).2.bypMEM = s.bypMEM := by unfold Desc.checkID; split <;> simp
@[simp] theorem checkID_mdu : (d.checkID s).2.mdu = s.mdu := by unfold Desc.checkID; split <;> simp
@[simp] theorem checkID_busy : (d.checkID s).2.busy = s.busy := by unfold Desc.checkID; split <;> simp
@[simp] theorem checkID_idStall : (d.checkID s).2.idStall = s.idStall := by unfold Desc.checkID; split <;> simp
@[simp] theorem checkID_busDone : (d.checkID s).2.busDone = s.busDone := by unfold Desc.checkID; split <;> simp
@[simp] theorem checkID_nextTag : (d.checkID s).2.nextTag = s.nextTag := by unfold Desc.checkID; split <;> simp
@[simp] theorem checkID_cycle : (d.checkID s).2.cycle = s.cycle := by unfold Desc.checkID; split <;> simp
@[simp] theorem checkID_excFound : (d.checkID s).2.excFound = s.excFound := by unfold Desc.checkID; split <;> simp
@[simp] theorem checkID_mem : (d.checkID s).2.mem = s.mem := by unfold Desc.checkID; split <;> simp
@[simp] theorem checkID_script : (d.checkID s).2.script = s.script := by unfold Desc.checkID; split <;> simp
@[simp] theorem checkID_pending : (d.checkID s).2.pending = s.pending := by unfold Desc.checkID; split <;> simp
@[simp] theorem checkID_mode : (d.checkID s).2.mode = s.mode := by unfold Desc.checkID; split <;> simp
@[simp] theorem checkID_calls : (d.checkID s).2.calls = s.calls := by unfold Desc.checkID; split <;> simp
@[simp] theorem checkID_outcome : (d.checkID s).2.outcome = s.outcome := by unfold Desc.checkID; split <;> simp
@[simp] theorem checkID_draws : (d.checkID s).2.draws = s.draws := by unfold Desc.checkID; split <;> simp
@[simp] theorem checkID_fPresent : (d.checkID s).2.fPresent = s.fPresent := by unfold Desc.checkID; split <;> simp
@[simp] theorem checkID_fpCondPresent : (d.checkID s).2.fpCondPresent = s.fpCondPresent := by unfold Desc.checkID; split <;> simp
@[simp] theorem checkID_fnpc : (d.checkID s).2.fnpc = s.fnpc := by unfold Desc.checkID; split <;> simp
@[simp] theorem checkID_bdFlag : (d.checkID s).2.bdFlag = s.bdFlag := by unfold Desc.checkID; split <;> simp
@[simp] theorem checkID_x : (d.checkID s).2.x = s.x := by unfold Desc.checkID; split <;> simp
@[simp] theorem advance_params : (d.advance r s).params = s.params := by simp [Desc.advance]
@[simp] theorem advance_fpc : (d.advance r s).fpc = s.fpc := by simp [Desc.advance]
@[simp] theorem advance_hi : (d.advance r s).hi = s.hi := by simp [Desc.advance]
@[simp] theorem advance_lo : (d.advance r s).lo = s.lo := by simp [Desc.advance]
@[simp] theorem advance_hiPresent : (d.advance r s).hiPresent = s.hiPresent := by simp [Desc.advance]
@[simp] theorem advance_loPresent : (d.advance r s).loPresent = s.loPresent := by simp [Desc.advance]
@[simp] theorem advance_f : (d.advance r s).f = s.f := by simp [Desc.advance]
@[simp] theorem advance_fpCond : (d.advance r s).fpCond = s.fpCond := by simp [Desc.advance]
@[simp] theorem advance_c0 : (d.advance r s).c0 = s.c0 := by simp [Desc.advance]
@[simp] theorem advance_pipe : (d.advance r s).pipe = s.pipe := by simp [Desc.advance]
@[simp] theorem advance_poolFree : (d.advance r s).poolFree = s.poolFree := by simp [Desc.advance]
@[simp] theorem advance_bypEX : (d.advance r s).bypEX = s.bypEX := by simp [Desc.advance]
@[simp] theorem advance_bypMEM : (d.advance r s).bypMEM = s.bypMEM := by simp [Desc.advance]
@[simp] theorem advance_mdu : (d.advance r s).mdu = s.mdu := by simp [Desc.advance]
@[simp] theorem advance_busy : (d.advance r s).busy = s.busy := by simp [Desc.advance]
@[simp] theorem advance_idStall : (d.advance r s).idStall = s.idStall := by simp [Desc.advance]
@[simp] theorem advance_busDone : (d.advance r s).busDone = s.busDone := by simp [Desc.advance]
@[simp] theorem advance_nextTag : (d.advance r s).nextTag = s.nextTag := by simp [Desc.advance]
@[simp] theorem advance_cycle : (d.advance r s).cycle = s.cycle := by simp [Desc.advance]
@[simp] theorem advance_excFound : (d.advance r s).excFound = s.excFound := by simp [Desc.advance]
@[simp] theorem advance_mem : (d.advance r s).mem = s.mem := by simp [Desc.advance]
@[simp] theorem advance_script : (d.advance r s).script = s.script := by simp [Desc.advance]
@[simp] theorem advance_pending : (d.advance r s).pending = s.pending := by simp [Desc.advance]
@[simp] theorem advance_mode : (d.advance r s).mode = s.mode := by simp [Desc.advance]
@[simp] theorem advance_calls : (d.advance r s).calls = s.calls := by simp [Desc.advance]
@[simp] theorem advance_outcome : (d.advance r s).outcome = s.outcome := by simp [Desc.advance]
@[simp] theorem advance_draws : (d.advance r s).draws = s.draws := by simp [Desc.advance]
@[simp] theorem advance_x : (d.advance r s).x = s.x := by simp [Desc.advance]
@[simp] theorem advance_inj : (d.advance r s).inj = s.inj := by simp [Desc.advance]
@[simp] theorem checkID_none {s : State} (h : s.inj.quiet = true) : (d.checkID s).1 = none := by
  unfold Desc.checkID; split <;> simp [h]

@[simp] theorem checkID_inj_quiet {s : State} (h : s.inj.quiet = true) : (d.checkID s).2.inj.quiet = true := by
  unfold Desc.checkID; split <;> simp [h]

@[simp] theorem injectOps_none : d.injectOps none r = r := by unfold Desc.injectOps; split <;> simp

@[simp] theorem idStage_params : (d.idStage r s).2.params = s.params := by simp [Desc.idStage]
@[simp] theorem idStage_fpc : (d.idStage r s).2.fpc = s.fpc := by simp [Desc.idStage]
@[simp] theorem idStage_hi : (d.idStage r s).2.hi = s.hi := by simp [Desc.idStage]
@[simp] theorem idStage_lo : (d.idStage r s).2.lo = s.lo := by simp [Desc.idStage]
@[simp] theorem idStage_hiPresent : (d.idStage r s).2.hiPresent = s.hiPresent := by simp [Desc.idStage]
@[simp] theorem idStage_loPresent : (d.idStage r s).2.loPresent = s.loPresent := by simp [Desc.idStage]
@[simp] theorem idStage_f : (d.idStage r s).2.f = s.f := by simp [Desc.idStage]
@[simp] theorem idStage_fpCond : (d.idStage r s).2.fpCond = s.fpCond := by simp [Desc.idStage]
@[simp] theorem idStage_c0 : (d.idStage r s).2.c0 = s.c0 := by simp [Desc.idStage]
@[simp] theorem idStage_pipe : (d.idStage r s).2.pipe = s.pipe := by simp [Desc.idStage]
@[simp] theorem idStage_poolFree : (d.idStage r s).2.poolFree = s.poolFree := by simp [Desc.idStage]
@[simp] theorem idStage_bypEX : (d.idStage r s).2.bypEX = s.bypEX := by simp [Desc.idStage]
@[simp] theorem idStage_bypMEM : (d.idStage r s).2.bypMEM = s.bypMEM := by simp [Desc.idStage]
@[simp] theorem idStage_mdu : (d.idStage r s).2.mdu = s.mdu := by simp [Desc.idStage]
@[simp] theorem idStage_busy : (d.idStage r s).2.busy = s.busy := by simp [Desc.idStage]
@[simp] theorem idStage_idStall : (d.idStage r s).2.idStall = s.idStall := by simp [Desc.idStage]
@[simp] theorem idStage_busDone : (d.idStage r s).2.busDone = s.busDone := by simp [Desc.idStage]
@[simp] theorem idStage_nextTag : (d.idStage r s).2.nextTag = s.nextTag := by simp [Desc.idStage]
@[simp] theorem idStage_cycle : (d.idStage r s).2.cycle = s.cycle := by simp [Desc.idStage]
@[simp] theorem idStage_excFound : (d.idStage r s).2.excFound = s.excFound := by simp [Desc.idStage]
@[simp] theorem idStage_mem : (d.idStage r s).2.mem = s.mem := by simp [Desc.idStage]
@[simp] theorem idStage_script : (d.idStage r s).2.script = s.script := by simp [Desc.idStage]
@[simp] theorem idStage_pending : (d.idStage r s).2.pending = s.pending := by simp [Desc.idStage]
@[simp] theorem idStage_mode : (d.idStage r s).2.mode = s.mode := by simp [Desc.idStage]
@[simp] theorem idStage_calls : (d.idStage r s).2.calls = s.calls := by simp [Desc.idStage]
@[simp] theorem idStage_outcome : (d.idStage r s).2.outcome = s.outcome := by simp [Desc.idStage]
@[simp] theorem idStage_draws : (d.idStage r s).2.draws = s.draws := by simp [Desc.idStage]
@[simp] theorem idStage_x {s : State} (h : s.inj.quiet = true) : (d.idStage r s).2.x = s.x := by simp [Desc.idStage, h]

@[simp] theorem idStage_inj_quiet {s : State} (h : s.inj.quiet = true) : (d.idStage r s).2.inj.quiet = true := by
  simp [Desc.idStage, h]

theorem setClaim_fPresent_congr {s t : State} (h : t.fPresent = s.fPresent) (c : Claim) (b : Bool) :
    (t.setClaim c b).fPresent = (s.setClaim c b).fPresent := by
  unfold State.setClaim
  cases c.fdst with
  | none => cases c.cond <;> simp [h]
  | some o => cases o <;> cases c.cond <;> simp [State.setPresentFOpnd, State.setPresentF, h]

theorem setClaim_fpCondPresent_eq (c : Claim) (b : Bool) :
    (s.setClaim c b).fpCondPresent = if c.cond then b else s.fpCondPresent := by
  unfold State.setClaim
  cases c.fdst with
  | none => cases c.cond <;> simp
  | some o => cases c.cond <;> simp

@[simp] theorem idStage_fPresent : (d.idStage r s).2.fPresent = (s.setClaim d.claim false).fPresent := by
  simp only [Desc.idStage, Desc.advance]
  exact setClaim_fPresent_congr (by simp) _ _

@[simp] theorem idStage_fpCondPresent :
    (d.idStage r s).2.fpCondPresent = if d.cond then false else s.fpCondPresent := by
  simp [Desc.idStage, Desc.advance, setClaim_fpCondPresent_eq, Desc.claim]

@[simp] theorem idStage_bdFlag : (d.idStage r s).2.bdFlag = d.isBranch := rfl

@[simp] theorem idStage_fnpc :
    (d.idStage r s).2.fnpc = (d.ctrl.target (d.idStage r s).1 s.fpCond).getD s.fnpc := by
  simp [Desc.idStage, Desc.advance]

/-- The record after ID in the fault-free machine, of the instruction at `fpc` executed alone: its operands read from the
register files (R136 d). -/
def Desc.idRec (d : Desc) (s : State) : Rec :=
  d.linkRec
    { s.promotedRec with
      op1 := (d.op1.map s.readX).getD 0
      op2 := (d.op2.map s.readX).getD 0
      op3 := (d.op3.map s.readHiLo).getD 0
      fop1 := (d.fop1.map s.readFOpnd).getD 0
      fop2 := (d.fop2.map s.readFOpnd).getD 0 }

theorem idStage_rec {s : State} (h : s.inj.quiet = true) :
    (d.idStage s.promotedRec s.prologue.commitPc).1 = d.idRec s := by
  have hx : ∀ i, (s.prologue.commitPc.checkRF d.op1 d.op2).rd i = s.readX i := fun i => by
    rw [rd_of_none (by simp) (by simp), readX_congr]; simp [h]
  have hh : ∀ o, (s.prologue.commitPc.checkRF d.op1 d.op2).readHiLo o = s.readHiLo o := fun o =>
    readHiLo_congr (by simp) (by simp) o
  have hf : ∀ o, (s.prologue.commitPc.checkRF d.op1 d.op2).readFOpnd o = s.readFOpnd o := fun o =>
    readFOpnd_congr (by simp) o
  have hq : (s.prologue.commitPc.checkRF d.op1 d.op2).inj.quiet = true := by simp [h]
  simp only [Desc.idStage, checkID_none d hq, injectOps_none, Desc.idRec]
  congr 1
  simp only [Desc.readOps, funext hx, funext hh, funext hf]
  rfl

end Sys2Proof.Machine
end

