-- ==== Sys2Proof/Laws/Sequential.lean ====
section
/-! SUPPORT. One instruction executed alone in the fault-free machine: what each class of instruction leaves, said once per
class over the stage functions. -/

namespace Sys2Proof.Machine

/-- Two states agree on everything a frame speaks of, but for the floating presence flags and the PC. -/
structure Agrees (s u : State) : Prop where
  x : u.x = s.x
  f : u.f = s.f
  hi : u.hi = s.hi
  lo : u.lo = s.lo
  hiPresent : u.hiPresent = s.hiPresent
  loPresent : u.loPresent = s.loPresent
  fpCond : u.fpCond = s.fpCond
  c0 : u.c0 = s.c0
  mem : u.mem = s.mem
  pipe : u.pipe = s.pipe
  poolFree : u.poolFree = s.poolFree
  params : u.params = s.params
  busy : u.busy = s.busy
  mode : u.mode = s.mode
  calls : u.calls = s.calls
  outcome : u.outcome = s.outcome

/-- The presence flags agree too. -/
structure AgreesP (s u : State) : Prop extends Agrees s u where
  fPresent : u.fPresent = s.fPresent
  fpCondPresent : u.fpCondPresent = s.fpCondPresent

section
variable {s u : State}

theorem Agrees.sameX (h : Agrees s u) : SameX s u := fun i => readX_congr h.x i
theorem AgreesP.sameF (h : AgreesP s u) : SameF s u := fun i => ⟨readF_congr h.f i, presentF_congr h.fPresent i⟩
theorem Agrees.sameHiLo (h : Agrees s u) : SameHiLo s u := ⟨h.hi, h.lo, h.hiPresent, h.loPresent⟩
theorem AgreesP.sameCond (h : AgreesP s u) : SameCond s u := ⟨h.fpCond, h.fpCondPresent⟩
theorem Agrees.sameC0 (h : Agrees s u) : SameC0 s u := fun i => readC0_congr h.c0 i
theorem Agrees.sameMem (h : Agrees s u) : SameMem s u := fun a => readByte_congr h.mem a
theorem Agrees.sameMachine (h : Agrees s u) : SameMachine s u :=
  ⟨h.pipe, h.poolFree, h.params, h.busy, h.mode, h.calls, h.outcome⟩

theorem AgreesP.writesNothing (h : AgreesP s u) : WritesNothing s u :=
  ⟨h.sameX, h.sameF, h.sameHiLo, h.sameCond, h.sameC0, h.sameMem, h.sameMachine⟩

theorem AgreesP.checkFault (h : AgreesP s u) (l : Loc) (n : Nat) : AgreesP s (u.checkFault l n).2 :=
  { x := h.x, f := h.f, hi := h.hi, lo := h.lo, hiPresent := h.hiPresent, loPresent := h.loPresent, fpCond := h.fpCond
    c0 := h.c0, mem := h.mem, pipe := h.pipe, poolFree := h.poolFree, params := h.params, busy := h.busy, mode := h.mode
    calls := h.calls, outcome := h.outcome, fPresent := h.fPresent, fpCondPresent := h.fpCondPresent }

theorem AgreesP.drawn (h : AgreesP s u) : AgreesP s u.drawn :=
  { x := h.x, f := h.f, hi := h.hi, lo := h.lo, hiPresent := h.hiPresent, loPresent := h.loPresent, fpCond := h.fpCond
    c0 := h.c0, mem := h.mem, pipe := h.pipe, poolFree := h.poolFree, params := h.params, busy := h.busy, mode := h.mode
    calls := h.calls, outcome := h.outcome, fPresent := h.fPresent, fpCondPresent := h.fpCondPresent }

end

/-! ## Requests -/

theorem memReq_exc (u : State) (k : Kind) (a w : Word) : (u.memReq k a w).1.exc = u.refusal k a := by
  unfold State.memReq State.refusal
  by_cases hm : misaligned k a = true
  · simp [hm, answerRefused]
  · simp only [hm, Bool.false_eq_true, if_false]
    rcases u.script with _ | ⟨_ | _ | why, rest⟩
    · rfl
    · rfl
    · rfl
    · cases h : refusalCode k why <;> simp [h, State.answerHit, answerRefused]

/-- A request that is not refused is performed, hit or miss (R64 b, c; log 7). -/
theorem memReq_performed {u : State} {k : Kind} {a : Word} (h : u.refusal k a = none) (w : Word) :
    (u.memReq k a w).1.datum = (u.perform k a w).1 ∧ (u.memReq k a w).2.mem = (u.perform k a w).2.mem := by
  have hd : ∀ v : State, v.mem = u.mem → v.params = u.params →
      (v.perform k a w).1 = (u.perform k a w).1 ∧ (v.perform k a w).2.mem = (u.perform k a w).2.mem := fun v h1 h2 => by
    cases k <;> simp [State.perform, State.readWord, State.readHalf, State.readByte, State.writeBytes, h1, h2]
  unfold State.refusal at h
  unfold State.memReq
  by_cases hm : misaligned k a = true
  · simp [hm] at h
  · simp only [hm, Bool.false_eq_true, if_false] at h ⊢
    cases hs : u.script with
    | nil => exact hd _ rfl rfl
    | cons x rest =>
      cases x with
      | hit => exact hd _ rfl rfl
      | miss n => exact hd _ rfl rfl
      | refuse why =>
        simp only [hs] at h
        simp only [h]
        exact hd _ rfl rfl

/-- A refused request performs nothing (R64 a). -/
theorem memReq_refused {u : State} {k : Kind} {a : Word} {e : Exc} (h : u.refusal k a = some e) (w : Word) :
    (u.memReq k a w).2.mem = u.mem := by
  unfold State.refusal at h
  unfold State.memReq
  by_cases hm : misaligned k a = true
  · simp [hm, answerRefused]
  · simp only [hm, Bool.false_eq_true, if_false] at h ⊢
    cases hs : u.script with
    | nil => simp [hs] at h
    | cons x rest =>
      cases x with
      | hit => simp [hs] at h
      | miss n => simp [hs] at h
      | refuse why =>
        simp only [hs] at h
        simp [h, answerRefused]

/-! A request changes the bus tags, the collaborator's script and pending list, and the memory; nothing else. -/

@[simp] theorem memReq_params (u : State) (k : Kind) (a w : Word) : (u.memReq k a w).2.params = u.params := by
  unfold State.memReq; repeat' split
  all_goals simp [State.answerHit, State.answerMiss, answerRefused]
@[simp] theorem memReq_x (u : State) (k : Kind) (a w : Word) : (u.memReq k a w).2.x = u.x := by
  unfold State.memReq; repeat' split
  all_goals simp [State.answerHit, State.answerMiss, answerRefused]
@[simp] theorem memReq_fpc (u : State) (k : Kind) (a w : Word) : (u.memReq k a w).2.fpc = u.fpc := by
  unfold State.memReq; repeat' split
  all_goals simp [State.answerHit, State.answerMiss, answerRefused]
@[simp] theorem memReq_fnpc (u : State) (k : Kind) (a w : Word) : (u.memReq k a w).2.fnpc = u.fnpc := by
  unfold State.memReq; repeat' split
  all_goals simp [State.answerHit, State.answerMiss, answerRefused]
@[simp] theorem memReq_hi (u : State) (k : Kind) (a w : Word) : (u.memReq k a w).2.hi = u.hi := by
  unfold State.memReq; repeat' split
  all_goals simp [State.answerHit, State.answerMiss, answerRefused]
@[simp] theorem memReq_lo (u : State) (k : Kind) (a w : Word) : (u.memReq k a w).2.lo = u.lo := by
  unfold State.memReq; repeat' split
  all_goals simp [State.answerHit, State.answerMiss, answerRefused]
@[simp] theorem memReq_hiPresent (u : State) (k : Kind) (a w : Word) : (u.memReq k a w).2.hiPresent = u.hiPresent := by
  unfold State.memReq; repeat' split
  all_goals simp [State.answerHit, State.answerMiss, answerRefused]
@[simp] theorem memReq_loPresent (u : State) (k : Kind) (a w : Word) : (u.memReq k a w).2.loPresent = u.loPresent := by
  unfold State.memReq; repeat' split
  all_goals simp [State.answerHit, State.answerMiss, answerRefused]
@[simp] theorem memReq_bdFlag (u : State) (k : Kind) (a w : Word) : (u.memReq k a w).2.bdFlag = u.bdFlag := by
  unfold State.memReq; repeat' split
  all_goals simp [State.answerHit, State.answerMiss, answerRefused]
@[simp] theorem memReq_f (u : State) (k : Kind) (a w : Word) : (u.memReq k a w).2.f = u.f := by
  unfold State.memReq; repeat' split
  all_goals simp [State.answerHit, State.answerMiss, answerRefused]
@[simp] theorem memReq_fPresent (u : State) (k : Kind) (a w : Word) : (u.memReq k a w).2.fPresent = u.fPresent := by
  unfold State.memReq; repeat' split
  all_goals simp [State.answerHit, State.answerMiss, answerRefused]
@[simp] theorem memReq_fpCond (u : State) (k : Kind) (a w : Word) : (u.memReq k a w).2.fpCond = u.fpCond := by
  unfold State.memReq; repeat' split
  all_goals simp [State.answerHit, State.answerMiss, answerRefused]
@[simp] theorem memReq_fpCondPresent (u : State) (k : Kind) (a w : Word) : (u.memReq k a w).2.fpCondPresent = u.fpCondPresent := by
  unfold State.memReq; repeat' split
  all_goals simp [State.answerHit, State.answerMiss, answerRefused]
@[simp] theorem memReq_c0 (u : State) (k : Kind) (a w : Word) : (u.memReq k a w).2.c0 = u.c0 := by
  unfold State.memReq; repeat' split
  all_goals simp [State.answerHit, State.answerMiss, answerRefused]
@[simp] theorem memReq_pipe (u : State) (k : Kind) (a w : Word) : (u.memReq k a w).2.pipe = u.pipe := by
  unfold State.memReq; repeat' split
  all_goals simp [State.answerHit, State.answerMiss, answerRefused]
@[simp] theorem memReq_poolFree (u : State) (k : Kind) (a w : Word) : (u.memReq k a w).2.poolFree = u.poolFree := by
  unfold State.memReq; repeat' split
  all_goals simp [State.answerHit, State.answerMiss, answerRefused]
@[simp] theorem memReq_bypEX (u : State) (k : Kind) (a w : Word) : (u.memReq k a w).2.bypEX = u.bypEX := by
  unfold State.memReq; repeat' split
  all_goals simp [State.answerHit, State.answerMiss, answerRefused]
@[simp] theorem memReq_bypMEM (u : State) (k : Kind) (a w : Word) : (u.memReq k a w).2.bypMEM = u.bypMEM := by
  unfold State.memReq; repeat' split
  all_goals simp [State.answerHit, State.answerMiss, answerRefused]
@[simp] theorem memReq_mdu (u : State) (k : Kind) (a w : Word) : (u.memReq k a w).2.mdu = u.mdu := by
  unfold State.memReq; repeat' split
  all_goals simp [State.answerHit, State.answerMiss, answerRefused]
@[simp] theorem memReq_busy (u : State) (k : Kind) (a w : Word) : (u.memReq k a w).2.busy = u.busy := by
  unfold State.memReq; repeat' split
  all_goals simp [State.answerHit, State.answerMiss, answerRefused]
@[simp] theorem memReq_idStall (u : State) (k : Kind) (a w : Word) : (u.memReq k a w).2.idStall = u.idStall := by
  unfold State.memReq; repeat' split
  all_goals simp [State.answerHit, State.answerMiss, answerRefused]
@[simp] theorem memReq_busDone (u : State) (k : Kind) (a w : Word) : (u.memReq k a w).2.busDone = u.busDone := by
  unfold State.memReq; repeat' split
  all_goals simp [State.answerHit, State.answerMiss, answerRefused]
@[simp] theorem memReq_cycle (u : State) (k : Kind) (a w : Word) : (u.memReq k a w).2.cycle = u.cycle := by
  unfold State.memReq; repeat' split
  all_goals simp [State.answerHit, State.answerMiss, answerRefused]
@[simp] theorem memReq_excFound (u : State) (k : Kind) (a w : Word) : (u.memReq k a w).2.excFound = u.excFound := by
  unfold State.memReq; repeat' split
  all_goals simp [State.answerHit, State.answerMiss, answerRefused]
@[simp] theorem memReq_inj (u : State) (k : Kind) (a w : Word) : (u.memReq k a w).2.inj = u.inj := by
  unfold State.memReq; repeat' split
  all_goals simp [State.answerHit, State.answerMiss, answerRefused]
@[simp] theorem memReq_mode (u : State) (k : Kind) (a w : Word) : (u.memReq k a w).2.mode = u.mode := by
  unfold State.memReq; repeat' split
  all_goals simp [State.answerHit, State.answerMiss, answerRefused]
@[simp] theorem memReq_calls (u : State) (k : Kind) (a w : Word) : (u.memReq k a w).2.calls = u.calls := by
  unfold State.memReq; repeat' split
  all_goals simp [State.answerHit, State.answerMiss, answerRefused]
@[simp] theorem memReq_outcome (u : State) (k : Kind) (a w : Word) : (u.memReq k a w).2.outcome = u.outcome := by
  unfold State.memReq; repeat' split
  all_goals simp [State.answerHit, State.answerMiss, answerRefused]
@[simp] theorem memReq_draws (u : State) (k : Kind) (a w : Word) : (u.memReq k a w).2.draws = u.draws := by
  unfold State.memReq; repeat' split
  all_goals simp [State.answerHit, State.answerMiss, answerRefused]

end Sys2Proof.Machine
end

