-- ==== Sys2Proof/Laws/Classes.lean ====
section
/-! SUPPORT. The classes of instructions executed alone: what `transit` comes to for a description of each form. -/

namespace Sys2Proof.Machine

variable {s u : State} {d : Desc}

/-- The state after ID of the instruction at `fpc` executed alone. -/
def Desc.idState (d : Desc) (s : State) : State := (d.idStage s.promotedRec s.prologue.commitPc).2

theorem transit_int (hid : d.idException = none) (hfp : d.fp = none) (hq : s.quiet = true) :
    transit d s = d.finish (d.idRec s) (d.idState s) := by
  simp only [transit, hid, hfp, Desc.idState, idStage_rec d hq]

theorem transit_fp {c : FpClass} {f : FPNumerics → DWord → DWord → FpVal} (hid : d.idException = none) (hfp : d.fp = some (c, f))
    (hq : s.quiet = true) :
    transit d s = d.fwbCommit (fpResult f (d.idRec s) (d.idState s)).1 (fpResult f (d.idRec s) (d.idState s)).2 := by
  simp only [transit, hid, hfp, Desc.idState, idStage_rec d hq]

theorem idState_agrees (hq : s.quiet = true) : Agrees s (d.idState s) := by
  have hq' : s.inj.quiet = true := hq
  constructor <;> simp [Desc.idState, hq']

theorem idState_agreesP (hq : s.quiet = true) (h1 : d.fdst = none) (h2 : d.cond = false) : AgreesP s (d.idState s) := by
  refine { idState_agrees hq with fPresent := ?_, fpCondPresent := ?_ }
  · simp [Desc.idState, State.setClaim, Desc.claim, h1, h2]
  · simp [Desc.idState, h2]

theorem idState_quiet (hq : s.quiet = true) : (d.idState s).inj.quiet = true := by
  have hq' : s.inj.quiet = true := hq
  simp [Desc.idState, hq']

@[simp] theorem idState_fpc : (d.idState s).fpc = s.fnpc := by simp [Desc.idState]
@[simp] theorem idState_bdFlag : (d.idState s).bdFlag = d.isBranch := by simp [Desc.idState]
@[simp] theorem idState_excFound : (d.idState s).excFound = false := by simp [Desc.idState]
@[simp] theorem idState_script : (d.idState s).script = s.script := by simp [Desc.idState]
@[simp] theorem idState_draws : (d.idState s).draws = s.draws := by simp [Desc.idState]
@[simp] theorem idState_params : (d.idState s).params = s.params := by simp [Desc.idState]
@[simp] theorem idState_mem : (d.idState s).mem = s.mem := by simp [Desc.idState]

theorem idState_fnpc (hq : s.quiet = true) :
    (d.idState s).fnpc = (d.ctrl.target (d.idRec s) s.fpCond).getD (s.fnpc + 4) := by
  simp [Desc.idState, idStage_rec d hq]

theorem idState_presentF (i : Reg) :
    (d.idState s).presentF i = if i ∈ (d.fdst.map FOpnd.regs).getD [] then false else s.presentF i := by
  rw [show d.fdst = d.claim.fdst from rfl, ← presentF_setClaim s d.claim false i]
  exact presentF_congr (by simpa [Desc.idState] using setClaim_fPresent_congr (by simp) _ _) i

/-- Nothing but one integer register written. -/
theorem writesX_of (h : AgreesP s u) (i : Reg) (v : Word) : WritesX i v s (u.writeX i v) := by
  refine ⟨?_, ?_, ?_, ?_, ?_, ?_, ?_, ?_⟩
  · by_cases hi : i = 0#5 <;> simp [readX_writeX, hi]
    simp [State.readX]
  · intro j hj
    simp [readX_writeX, hj, readX_congr h.x]
  · exact fun j => ⟨by simpa [State.readF] using readF_congr h.f j, by simpa [State.presentF] using presentF_congr h.fPresent j⟩
  · exact ⟨by simp [h.hi], by simp [h.lo], by simp [h.hiPresent], by simp [h.loPresent]⟩
  · exact ⟨by simp [h.fpCond], by simp [h.fpCondPresent]⟩
  · exact fun j => by simpa [State.readC0] using readC0_congr h.c0 j
  · exact fun a => by simpa [State.readByte] using readByte_congr h.mem a
  · exact ⟨by simp [h.pipe], by simp [h.poolFree], by simp [h.params], by simp [h.busy], by simp [h.mode], by simp [h.calls],
      by simp [h.outcome]⟩

@[simp] theorem idRec_exception : (d.idRec s).exception = none := by unfold Desc.idRec Desc.linkRec; split <;> rfl
@[simp] theorem idRec_op1 : (d.idRec s).op1 = (d.op1.map s.readX).getD 0 := by unfold Desc.idRec Desc.linkRec; split <;> rfl
@[simp] theorem idRec_op2 : (d.idRec s).op2 = (d.op2.map s.readX).getD 0 := by unfold Desc.idRec Desc.linkRec; split <;> rfl
@[simp] theorem idRec_op3 : (d.idRec s).op3 = (d.op3.map s.readHiLo).getD 0 := by unfold Desc.idRec Desc.linkRec; split <;> rfl
@[simp] theorem idRec_fop1 : (d.idRec s).fop1 = (d.fop1.map s.readFOpnd).getD 0 := by unfold Desc.idRec Desc.linkRec; split <;> rfl
@[simp] theorem idRec_fop2 : (d.idRec s).fop2 = (d.fop2.map s.readFOpnd).getD 0 := by unfold Desc.idRec Desc.linkRec; split <;> rfl
@[simp] theorem idRec_pc : (d.idRec s).pc = s.fpc := by unfold Desc.idRec Desc.linkRec; split <;> rfl
@[simp] theorem idRec_inDelaySlot : (d.idRec s).inDelaySlot = s.bdFlag := by unfold Desc.idRec Desc.linkRec; split <;> rfl
@[simp] theorem idRec_ce : (d.idRec s).ce = 0 := by unfold Desc.idRec Desc.linkRec; split <;> rfl
@[simp] theorem idRec_addr : (d.idRec s).addr = 0 := by unfold Desc.idRec Desc.linkRec; split <;> rfl
theorem idRec_result (h : d.link = true) : (d.idRec s).result = s.fpc + 8 := by simp [Desc.idRec, Desc.linkRec, h]; rfl

/-! ## What the integer stages come to -/

variable {r : Rec} {dst : Reg}

theorem finish_alu {f : Word → Word → Option Word} {v : Word} (h1 : d.ex = .alu f) (h2 : d.mem = .pass)
    (h3 : d.wb = .gpr dst) (hv : f r.op1 r.op2 = some v) (hr : r.exception = none) (hq : u.inj.quiet = true) :
    d.finish r u = ((u.checkFault .alu 1).2.checkFault .wb 1).2.writeX dst v := by
  simp [Desc.finish, Desc.exStage, h1, h2, h3, aluResult, hv, hr, hq, Desc.memStage, Desc.request, Desc.memMove,
    Desc.settleMdu, Desc.retire, Desc.toEX3, Desc.wbStage]

/-- An overflow is the exception Ov of a record whose result is free (R202). -/
theorem finish_overflow {f : Word → Word → Option Word} (h1 : d.ex = .alu f) (h4 : d.fdst = none)
    (hv : f r.op1 r.op2 = none) :
    d.finish r u = u.drawn.trap { r with exception := some .ov, result := Config.overflowResult u.draws } .ov [] := by
  simp [Desc.finish, Desc.exStage, h1, h4, aluResult, hv, Desc.retire]

/-- An instruction whose value is known in ID, or that only moves one: EX, then WB (R135, R145). -/
theorem finish_move {v : Word} (hex : (d.exStage false r u) = ({ r with result := v }, u)) (h1 : ∀ b f, d.ex ≠ .mdu b f)
    (h2 : d.mem = .pass) (h3 : d.wb = .gpr dst) (hr : r.exception = none) (hq : u.inj.quiet = true) :
    d.finish r u = (u.checkFault .wb 1).2.writeX dst v := by
  have hs : d.settleMdu u = u := by
    unfold Desc.settleMdu
    split <;> first | rfl | exact absurd ‹_› (h1 _ _)
  simp [Desc.finish, hex, h2, h3, hr, hq, hs, Desc.memStage, Desc.request, Desc.memMove, Desc.retire, Desc.toEX3,
    Desc.wbStage]

/-- A branch or jump without link does nothing after ID (R280). -/
theorem finish_idle (h1 : d.ex = .idle) (h2 : d.mem = .pass) (h3 : d.wb = .none) (hr : r.exception = none) :
    d.finish r u = u := by
  simp [Desc.finish, Desc.exStage, h1, h2, h3, hr, Desc.memStage, Desc.request, Desc.memMove, Desc.settleMdu, Desc.retire,
    Desc.toEX3, Desc.wbStage]

/-- An MDU issue, committed at once (R242, R243; log 32). -/
theorem finish_mdu {isDiv : Bool} {f : Word → Word → Option (Word × Word)} (h1 : d.ex = .mdu isDiv f) (h2 : d.mem = .pass)
    (h3 : d.wb = .none) (hr : r.exception = none) :
    d.finish r u = (issueMdu isDiv (f r.op1 r.op2) u).commitMdu := by
  simp [Desc.finish, Desc.exStage, h1, h2, h3, hr, Desc.memStage, Desc.request, Desc.memMove, Desc.settleMdu, Desc.retire,
    Desc.toEX3, Desc.wbStage]

/-- MTHI, MTLO (R254, R255). -/
theorem finish_mtHiLo {h : HiLo} (h1 : d.ex = .mtHiLo h) (h2 : d.mem = .pass) (h3 : d.wb = .hiLo h)
    (hr : r.exception = none) : d.finish r u = (u.clearHiLo h).writeHiLo h r.op1 := by
  simp [Desc.finish, Desc.exStage, h1, h2, h3, hr, Desc.memStage, Desc.request, Desc.memMove, Desc.settleMdu, Desc.retire,
    Desc.toEX3, Desc.wbStage]

/-- MTC0 (R385). -/
theorem finish_mtc0 (h1 : d.ex = .moveOp2) (h2 : d.mem = .pass) (h3 : d.wb = .c0 dst) (hr : r.exception = none) :
    d.finish r u = u.writeC0 dst r.op2 := by
  simp [Desc.finish, Desc.exStage, h1, h2, h3, hr, Desc.memStage, Desc.request, Desc.memMove, Desc.settleMdu, Desc.retire,
    Desc.toEX3, Desc.wbStage]

/-- MFC0 (R384). -/
theorem finish_mfc0 {rd : Reg} (h1 : d.ex = .idle) (h2 : d.mem = .mfc0 rd) (h3 : d.wb = .gpr dst)
    (hr : r.exception = none) (hq : u.inj.quiet = true) :
    d.finish r u = ((u.mfc0Read rd).2.checkFault .wb 1).2.writeX dst (u.mfc0Read rd).1 := by
  have hq' : (u.mfc0Read rd).2.inj.quiet = true := by unfold State.mfc0Read; split <;> simpa using hq
  simp [Desc.finish, Desc.exStage, h1, h2, h3, hr, hq', Desc.memStage, Desc.request, Desc.memMove, Desc.settleMdu,
    Desc.retire, Desc.toEX3, Desc.wbStage]

/-- MTC1 (R349). -/
theorem finish_mtc1 (h1 : d.ex = .idle) (h2 : d.mem = .mtc1) (hr : r.exception = none) :
    d.finish r u = d.fwbCommit { r with fresult := r.op2.zeroExtend 64 } u := by
  simp [Desc.finish, Desc.exStage, h1, h2, hr, Desc.memStage, Desc.request, Desc.memMove, Desc.settleMdu, Desc.retire,
    Desc.toEX3]

/-- The data request of a load or store executed alone, in the fault-free machine. -/
def State.dataAnswer (u : State) (k : Kind) (a w : Word) : Answer × State :=
  (u.checkFault .memPre (if k.writes then 2 else 1)).2.memReq k a w

theorem dataRequest_quiet {k : Kind} (hk : k.writes = d.stores) (hq : u.inj.quiet = true) :
    d.dataRequest k r u = (r, (u.dataAnswer k r.addr r.result).1, (u.dataAnswer k r.addr r.result).2) := by
  simp [Desc.dataRequest, Desc.memPre, State.dataAnswer, hq, hk]

/-- An integer load that is not refused (R261). -/
theorem finish_load {imm : Imm} {k : Kind} {signed : Bool} (h1 : d.ex = .address imm) (h2 : d.mem = .load k signed)
    (h3 : d.wb = .gpr dst) (hk : k.writes = false) (hr : r.exception = none) (hq : u.inj.quiet = true)
    (ha : (u.dataAnswer k (r.op1 + imm.signExtend 32) r.result).1.exc = none) :
    d.finish r u =
      ((((u.dataAnswer k (r.op1 + imm.signExtend 32) r.result).2.completeNow
          (u.dataAnswer k (r.op1 + imm.signExtend 32) r.result).1).checkFault .memPost 1).2.checkFault .wb 1).2.writeX dst
        (extendDatum signed (u.dataAnswer k (r.op1 + imm.signExtend 32) r.result).1.datum) := by
  have hd : d.stores = false := by simp [Desc.stores, h2]
  have hq' : (u.dataAnswer k (r.op1 + imm.signExtend 32) r.result).2.inj.quiet = true := by simp [State.dataAnswer, hq]
  simp [Desc.finish, Desc.exStage, h1, hr, Desc.settleMdu, Desc.memStage, Desc.request, h2, dataRequest_quiet (hk.trans hd.symm) hq,
    ha, Desc.complete, hq', Desc.retire, Desc.toEX3, Desc.wbStage, h3]

/-- LWC1 that is not refused (R346). -/
theorem finish_loadF {imm : Imm} (h1 : d.ex = .address imm) (h2 : d.mem = .loadF)
    (hr : r.exception = none) (hq : u.inj.quiet = true)
    (ha : (u.dataAnswer .rdW (r.op1 + imm.signExtend 32) r.result).1.exc = none) :
    d.finish r u =
      d.fwbCommit
        { r with
          addr := r.op1 + imm.signExtend 32
          fresult := (extendDatum false (u.dataAnswer .rdW (r.op1 + imm.signExtend 32) r.result).1.datum).zeroExtend 64 }
        ((u.dataAnswer .rdW (r.op1 + imm.signExtend 32) r.result).2.completeNow
          (u.dataAnswer .rdW (r.op1 + imm.signExtend 32) r.result).1) := by
  have hd : d.stores = false := by simp [Desc.stores, h2]
  simp [Desc.finish, Desc.exStage, h1, hr, Desc.settleMdu, Desc.memStage, Desc.request, h2,
    dataRequest_quiet (k := .rdW) (show Kind.rdW.writes = d.stores by rw [hd]; rfl) hq, ha, Desc.complete, Desc.retire, Desc.toEX3]

/-- A store that is not refused (R262); `e` is what EX makes of the record: the address and the datum. -/
theorem finish_store {k : Kind} {e : Rec} (h1 : d.exStage false r u = (e, u)) (hx : ∀ b f, d.ex ≠ .mdu b f)
    (h2 : d.mem = .store k) (h3 : d.wb = .none) (hk : k.writes = true) (hr : e.exception = none) (hq : u.inj.quiet = true)
    (ha : (u.dataAnswer k e.addr e.result).1.exc = none) :
    d.finish r u = (u.dataAnswer k e.addr e.result).2.completeNow (u.dataAnswer k e.addr e.result).1 := by
  have hd : d.stores = true := by simp [Desc.stores, h2]
  have hs : d.settleMdu u = u := by
    unfold Desc.settleMdu
    split <;> first | rfl | exact absurd ‹_› (hx _ _)
  simp [Desc.finish, h1, hr, hs, Desc.memStage, Desc.request, h2, dataRequest_quiet (hk.trans hd.symm) hq, ha, Desc.complete,
    Desc.retire, Desc.toEX3, Desc.wbStage, h3]

/-- A data request that is refused: the record takes the exception (R133 b, R433). -/
theorem finish_refused {k : Kind} {x : Exc} {e : Rec} (h1 : d.exStage false r u = (e, u)) (hx : ∀ b f, d.ex ≠ .mdu b f)
    (h2 : d.request = some k) (hk : k.writes = d.stores) (hr : e.exception = none) (hq : u.inj.quiet = true)
    (ha : (u.dataAnswer k e.addr e.result).1.exc = some x) :
    d.finish r u =
      (u.dataAnswer k e.addr e.result).2.trap { e with exception := some x } x (if d.fdst.isSome then [d.claim] else []) := by
  have hs : d.settleMdu u = u := by
    unfold Desc.settleMdu
    split <;> first | rfl | exact absurd ‹_› (hx _ _)
  simp [Desc.finish, h1, hr, hs, Desc.memStage, h2, dataRequest_quiet hk hq, ha, Desc.retire]

/-! ## The trap -/

theorem reg_ne : causeReg ≠ epcReg ∧ causeReg ≠ badVAddrReg ∧ epcReg ≠ badVAddrReg := by decide

/-- Exception commit, register by register (R440). -/
theorem commitException_readC0 (u : State) (r : Rec) (e : Exc) (i : Reg) :
    (u.commitException r e).readC0 i =
      if i = badVAddrReg ∧ savesAddress e = true then r.addr
      else if i = epcReg then epcWord r.inDelaySlot r.pc
      else if i = causeReg then causeWord u.params.codes r.inDelaySlot r.ce e
      else u.readC0 i := by
  have hb : ∀ v : State, ({ v with excFound := true } : State).readC0 i = v.readC0 i := fun v => rfl
  unfold State.commitException
  by_cases hs : savesAddress e = true
  · simp only [hs, if_true, and_true]
    rw [hb, readC0_writeC0, readC0_writeC0, readC0_writeC0]
  · simp only [hs, Bool.false_eq_true, if_false, and_false]
    rw [hb, readC0_writeC0, readC0_writeC0]

@[simp] theorem trap_x (c : List Claim) (e : Exc) : (u.trap r e c).x = u.x := by simp [State.trap, State.takeException]
@[simp] theorem trap_f (c : List Claim) (e : Exc) : (u.trap r e c).f = u.f := by simp [State.trap, State.takeException]
@[simp] theorem trap_hi (c : List Claim) (e : Exc) : (u.trap r e c).hi = u.hi := by simp [State.trap, State.takeException]
@[simp] theorem trap_lo (c : List Claim) (e : Exc) : (u.trap r e c).lo = u.lo := by simp [State.trap, State.takeException]
@[simp] theorem trap_hiPresent (c : List Claim) (e : Exc) : (u.trap r e c).hiPresent = u.hiPresent := by
  simp [State.trap, State.takeException]
@[simp] theorem trap_loPresent (c : List Claim) (e : Exc) : (u.trap r e c).loPresent = u.loPresent := by
  simp [State.trap, State.takeException]
@[simp] theorem trap_fpCond (c : List Claim) (e : Exc) : (u.trap r e c).fpCond = u.fpCond := by
  simp [State.trap, State.takeException]
@[simp] theorem trap_mem (c : List Claim) (e : Exc) : (u.trap r e c).mem = u.mem := by simp [State.trap, State.takeException]
@[simp] theorem trap_params (c : List Claim) (e : Exc) : (u.trap r e c).params = u.params := by
  simp [State.trap, State.takeException]
@[simp] theorem trap_excFound (c : List Claim) (e : Exc) : (u.trap r e c).excFound = true := by
  simp [State.trap, State.takeException]
@[simp] theorem trap_bdFlag (c : List Claim) (e : Exc) : (u.trap r e c).bdFlag = false := by
  simp [State.trap, State.takeException, State.afterException]; split <;> rfl
@[simp] theorem trap_c0 (c : List Claim) (e : Exc) : (u.trap r e c).c0 = (u.commitException r e).c0 := by
  simp [State.trap, State.takeException]
@[simp] theorem trap_fPresent (e : Exc) : (u.trap r e []).fPresent = u.fPresent := by
  simp [State.trap, State.takeException, State.restoreClaims]
@[simp] theorem trap_fpCondPresent (e : Exc) : (u.trap r e []).fpCondPresent = u.fpCondPresent := by
  simp [State.trap, State.takeException, State.restoreClaims]

/-- The harness's part (R444). -/
theorem trap_resumed (c : List Claim) (e : Exc) (hp : u.params = s.params) (hm : u.mode = s.mode) :
    Resumed s (u.trap r e c) := by
  have hc : (u.trap r e c).readC0 causeReg = (u.takeException r e c).readC0 causeReg :=
    readC0_congr (by simp [State.trap]) _
  unfold Resumed
  rw [hc]
  unfold State.trap State.afterException
  have h1 : (u.takeException r e c).params = s.params := by simp [State.takeException, hp]
  have h2 : (u.takeException r e c).mode = s.mode := by simp [State.takeException, hm]
  rw [h1]
  by_cases h : policyContinues s.params.policy ((u.takeException r e c).readC0 causeReg) = true
  · simp [h, h2]
  · simp [h]

/-- What an exception of the instruction at `fpc` executed alone leaves, when its record and the state before it agree with s
(R440, R441). -/
theorem trapped_of {e : Exc} {ce : BitVec 2} {bad : Word} (h : AgreesP s u) (h1 : r.inDelaySlot = s.bdFlag)
    (h2 : r.pc = s.fpc) (h3 : r.ce = ce) (h4 : savesAddress e = true → r.addr = bad) :
    Trapped e ce bad s (u.trap r e []) := by
  obtain ⟨n1, n2, n3⟩ := reg_ne
  have hc : ∀ i, (u.trap r e []).readC0 i = (u.commitException r e).readC0 i := fun i => readC0_congr (by simp) i
  refine ⟨?_, ?_, ?_, ?_, by simp, ?_, ?_, ?_, ?_, ?_, ?_, by simp⟩
  · rw [hc, commitException_readC0]; simp [n1, n2, h1, h3, h.params]
  · rw [hc, commitException_readC0]; simp [n3, h1, h2]
  · rw [hc, commitException_readC0]
    by_cases hs : savesAddress e = true
    · simp [hs, h4 hs]
    · simp [hs, n2.symm, n3.symm, readC0_congr h.c0]
  · intro i h1 h2 h3
    rw [hc, commitException_readC0]; simp [h1, h2, h3, readC0_congr h.c0]
  · exact fun i => readX_congr (by simp [h.x]) i
  · exact fun i => ⟨readF_congr (by simp [h.f]) i, presentF_congr (by simp [h.fPresent]) i⟩
  · exact ⟨by simp [h.hi], by simp [h.lo], by simp [h.hiPresent], by simp [h.loPresent]⟩
  · exact ⟨by simp [h.fpCond], by simp [h.fpCondPresent]⟩
  · exact fun a => readByte_congr (by simp [h.mem]) a
  · simp [h.params]

end Sys2Proof.Machine
end

