-- ==== Sys2Proof/Laws/Memory.lean ====
section
/-! SUPPORT. Memory: what a byte reads as after a write, and that every operation keeps the canonical form. -/

namespace Sys2Proof.Machine

/-! ## Read after write -/

theorem loadByte_dropByte (m : List Host.Cell) (a c : Nat) :
    loadByte (dropByte m a) c = if c = a then unlistedByte else loadByte m c := by
  induction m with
  | nil => simp [dropByte, loadByte]
  | cons e rest ih =>
    obtain ⟨k, b⟩ := e
    simp only [dropByte]
    split
    · rename_i h
      subst h
      rw [ih]
      by_cases hc : c = k
      · simp [hc]
      · simp [hc, loadByte, Ne.symm hc]
    · rename_i h
      simp only [loadByte]
      split
      · rename_i hk
        subst hk
        simp [h]
      · exact ih

theorem loadByte_insertByte (m : List Host.Cell) (a c : Nat) (b : Byte) :
    loadByte (insertByte (dropByte m a) a b) c = if c = a then b else loadByte m c := by
  induction m with
  | nil =>
    simp only [dropByte, insertByte, loadByte]
    by_cases hc : c = a
    · simp [hc]
    · simp [hc, Ne.symm hc]
  | cons e rest ih =>
    obtain ⟨k, d⟩ := e
    simp only [dropByte]
    split
    · rename_i h
      subst h
      rw [ih]
      by_cases hc : c = k
      · simp [hc]
      · simp [hc, loadByte, Ne.symm hc]
    · rename_i h
      simp only [insertByte]
      split
      · simp only [loadByte]
        by_cases hc : c = a
        · subst hc; simp
        · have := loadByte_dropByte rest a c
          simp only [hc, if_false] at this
          simp [hc, Ne.symm hc, this]
      · simp only [loadByte]
        split
        · rename_i hk
          subst hk
          simp [h]
        · exact ih

/-- A byte reads as last written; every other byte is left alone (R67, R74). -/
theorem loadByte_storeByte (m : List Host.Cell) (a c : Nat) (b : Byte) :
    loadByte (storeByte m a b) c = if c = a then b else loadByte m c := by
  unfold storeByte
  split
  · rename_i h
    rw [loadByte_dropByte, h]
  · exact loadByte_insertByte m a c b

/-- The bytes of a store, one after the other from its address on (R67): byte i stands at address `a + i`. -/
theorem loadByte_storeBytes (bytes : List Byte) (m : List Host.Cell) (a : Word) (c : Word)
    (hlen : bytes.length ≤ 4294967296) :
    loadByte (storeBytes m a bytes) c.toNat = (bytes[(c - a).toNat]?).getD (loadByte m c.toNat) := by
  induction bytes generalizing m a with
  | nil => simp [storeBytes]
  | cons b rest ih =>
    simp only [List.length_cons] at hlen
    rw [storeBytes, ih _ _ (by omega), loadByte_storeByte]
    by_cases hc : c = a
    · subst hc
      have hr : rest[(c - (c + 1)).toNat]? = none := by
        rw [List.getElem?_eq_none]
        have : (c - (c + 1)).toNat = 4294967295 := by
          have : c - (c + 1) = 4294967295#32 := by bv_omega
          rw [this]; rfl
        omega
      rw [hr]
      simp
    · have hn : c.toNat ≠ a.toNat := fun e => hc (BitVec.eq_of_toNat_eq e)
      have hs : (c - a).toNat = (c - (a + 1)).toNat + 1 := by bv_omega
      rw [hs]
      simp [hn]

/-! ## The canonical form -/

theorem wfFrom_mono {low low' : Nat} {m : List Host.Cell} (h : low' ≤ low) (hm : wfFrom low m = true) :
    wfFrom low' m = true := by
  cases m with
  | nil => rfl
  | cons e rest =>
    obtain ⟨k, b⟩ := e
    simp only [wfFrom, Bool.and_eq_true, decide_eq_true_eq] at hm ⊢
    exact ⟨⟨⟨by omega, hm.1.1.2⟩, hm.1.2⟩, hm.2⟩

theorem wfFrom_dropByte (m : List Host.Cell) (low a : Nat) (hm : wfFrom low m = true) :
    wfFrom low (dropByte m a) = true := by
  induction m generalizing low with
  | nil => rfl
  | cons e rest ih =>
    obtain ⟨k, b⟩ := e
    simp only [wfFrom, Bool.and_eq_true, decide_eq_true_eq] at hm
    simp only [dropByte]
    split
    · exact ih _ (wfFrom_mono (by omega) hm.2)
    · simp only [wfFrom, Bool.and_eq_true, decide_eq_true_eq]
      exact ⟨⟨⟨hm.1.1.1, hm.1.1.2⟩, hm.1.2⟩, ih _ hm.2⟩

theorem wfFrom_insertByte (m : List Host.Cell) (low a : Nat) (b : Byte) (hm : wfFrom low m = true)
    (ha : ∀ e ∈ m, e.1 ≠ a) (hlow : low ≤ a) (hmax : a < 4294967296) (hb : b ≠ unlistedByte) :
    wfFrom low (insertByte m a b) = true := by
  induction m generalizing low with
  | nil => simp [insertByte, wfFrom, hlow, hmax, hb]
  | cons e rest ih =>
    obtain ⟨k, d⟩ := e
    simp only [wfFrom, Bool.and_eq_true, decide_eq_true_eq] at hm
    have hk : k ≠ a := ha (k, d) (by simp)
    simp only [insertByte]
    split
    · simp only [wfFrom, Bool.and_eq_true, decide_eq_true_eq, bne_iff_ne, ne_eq]
      exact ⟨⟨⟨hlow, hmax⟩, hb⟩, ⟨⟨by omega, hm.1.1.2⟩, by simpa using hm.1.2⟩, hm.2⟩
    · simp only [wfFrom, Bool.and_eq_true, decide_eq_true_eq]
      exact ⟨⟨⟨hm.1.1.1, hm.1.1.2⟩, hm.1.2⟩, ih _ hm.2 (fun e he => ha e (by simp [he])) (by omega)⟩

theorem dropByte_ne (m : List Host.Cell) (a : Nat) : ∀ e ∈ dropByte m a, e.1 ≠ a := by
  induction m with
  | nil => simp [dropByte]
  | cons e rest ih =>
    obtain ⟨k, b⟩ := e
    simp only [dropByte]
    split
    · exact ih
    · rename_i h
      intro e he
      rcases List.mem_cons.1 he with rfl | he
      · exact h
      · exact ih e he

/-- Writing a byte keeps the canonical form. -/
theorem wf_storeByte {m : List Host.Cell} {a : Nat} (b : Byte) (hm : Memory.wf m = true) (ha : a < 4294967296) :
    Memory.wf (storeByte m a b) = true := by
  unfold storeByte
  split
  · exact wfFrom_dropByte m 0 a hm
  · rename_i hb
    exact wfFrom_insertByte _ 0 a b (wfFrom_dropByte m 0 a hm) (dropByte_ne m a) (Nat.zero_le a) ha hb

/-- Writing bytes keeps the canonical form. -/
theorem wf_storeBytes (bytes : List Byte) {m : List Host.Cell} (a : Word) (hm : Memory.wf m = true) :
    Memory.wf (storeBytes m a bytes) = true := by
  induction bytes generalizing m a with
  | nil => exact hm
  | cons b rest ih => exact ih _ (wf_storeByte b hm a.isLt)

theorem wf_writeBytes {s : State} (a : Word) (bytes : List Byte) (hm : Memory.wf s.mem = true) :
    Memory.wf (s.writeBytes a bytes).mem = true := wf_storeBytes bytes a hm

theorem wf_perform {s : State} (k : Kind) (a w : Word) (hm : Memory.wf s.mem = true) :
    Memory.wf (s.perform k a w).2.mem = true := by
  cases k <;> first | exact hm | exact wf_writeBytes a _ hm

/-- A request keeps the canonical form. -/
theorem wf_memReq {s : State} (k : Kind) (a w : Word) (hm : Memory.wf s.mem = true) :
    Memory.wf (s.memReq k a w).2.mem = true := by
  unfold State.memReq
  repeat' split
  all_goals
    first
    | exact hm
    | exact wf_perform (s := { s.tagTaken with script := _ }) k a w hm
    | exact wf_perform (s := s.tagTaken) k a w hm

/-- The memory of the reset state has the canonical form. -/
theorem wf_reset : Memory.wf State.reset.mem = true := rfl

/-! ## Two memories of the canonical form that read alike are equal -/

theorem loadByte_below {low a : Nat} {m : List Host.Cell} (hm : wfFrom low m = true) (ha : a < low) :
    loadByte m a = unlistedByte := by
  induction m generalizing low with
  | nil => rfl
  | cons e rest ih =>
    obtain ⟨k, b⟩ := e
    simp only [wfFrom, Bool.and_eq_true, decide_eq_true_eq] at hm
    simp only [loadByte]
    rw [if_neg (by omega)]
    exact ih hm.2 (by omega)

theorem wfFrom_ext {low : Nat} {m n : List Host.Cell} (hm : wfFrom low m = true) (hn : wfFrom low n = true)
    (h : ∀ a, loadByte m a = loadByte n a) : m = n := by
  induction m generalizing low n with
  | nil =>
    cases n with
    | nil => rfl
    | cons e rest =>
      obtain ⟨k, b⟩ := e
      simp only [wfFrom, Bool.and_eq_true, decide_eq_true_eq, bne_iff_ne, ne_eq] at hn
      have := h k
      simp only [loadByte, if_true] at this
      exact absurd this.symm hn.1.2
  | cons e rest ih =>
    obtain ⟨k, b⟩ := e
    cases n with
    | nil =>
      simp only [wfFrom, Bool.and_eq_true, decide_eq_true_eq, bne_iff_ne, ne_eq] at hm
      have := h k
      simp only [loadByte, if_true] at this
      exact absurd this hm.1.2
    | cons e' rest' =>
      obtain ⟨k', b'⟩ := e'
      have hm' := hm
      have hn' := hn
      simp only [wfFrom, Bool.and_eq_true, decide_eq_true_eq, bne_iff_ne, ne_eq] at hm hn
      have hk : k = k' := by
        rcases Nat.lt_trichotomy k k' with hlt | heq | hgt
        · have := h k
          simp only [loadByte, if_true] at this
          rw [if_neg (by omega), loadByte_below hn.2 (by omega)] at this
          exact absurd this hm.1.2
        · exact heq
        · have := h k'
          simp only [loadByte, if_true] at this
          rw [if_neg (by omega), loadByte_below hm.2 (by omega)] at this
          exact absurd this.symm hn.1.2
      subst hk
      have hb : b = b' := by simpa [loadByte] using h k
      subst hb
      congr 1
      refine ih hm.2 hn.2 fun a => ?_
      by_cases ha : a ≤ k
      · rw [loadByte_below hm.2 (by omega), loadByte_below hn.2 (by omega)]
      · simpa [loadByte, show k ≠ a by omega] using h a

end Sys2Proof.Machine
end

