-- ==== Sys2Proof/Laws/Complete.lean ====
section
/-! SUPPORT. The classes of instructions executed alone in the fault-free machine: that each completes, what it writes and what
it leaves alone, said once per class for any description of that form. -/

namespace Sys2Proof.Machine

variable {s u : State} {d : Desc} {i : Instr} {dst : Reg}

/-! ## The next instruction -/

theorem inOrder_idState (hq : s.quiet = true) (h : d.ctrl = .seq) : InOrder s (d.idState s) := by
  simp [InOrder, idState_fnpc hq, Desc.isBranch, Ctrl.target, h]

theorem InOrder.writeX (h : InOrder s u) (j : Reg) (v : Word) : InOrder s ((u.checkFault .wb 1).2.writeX j v) := by
  simpa [InOrder] using h

theorem branched_idState {n : Word} (hq : s.quiet = true) (hb : d.isBranch = true)
    (hn : (d.ctrl.target (d.idRec s) s.fpCond).getD (s.fnpc + 4) = n) : Branched n s (d.idState s) :=
  ⟨by simp, by rw [idState_fnpc hq, hn], by simp [hb], by simp⟩

/-! ## Integer arithmetic -/

/-- An ALU instruction whose function has a value. -/
theorem alu_completes {f : Word → Word → Option Word} {v : Word} (hi : exec i s = .next (transit d s))
    (hid : d.idException = none) (hfp : d.fp = none) (hq : s.quiet = true) (h1 : d.ex = .alu f) (h2 : d.mem = .pass)
    (h3 : d.wb = .gpr dst) (h4 : d.fdst = none) (h5 : d.cond = false) (h6 : d.ctrl = .seq)
    (hv : f (d.idRec s).op1 (d.idRec s).op2 = some v) :
    Completes i s fun t => WritesX dst v s t ∧ InOrder s t := by
  refine ⟨_, hi, ?_⟩
  rw [transit_int hid hfp hq, finish_alu h1 h2 h3 hv (by simp) (idState_quiet hq)]
  refine ⟨writesX_of (((idState_agreesP hq h4 h5).checkFault _ _).checkFault _ _) _ _, ?_⟩
  simpa [InOrder] using inOrder_idState hq h6

/-- An ALU instruction that overflows. -/
theorem overflow_traps {f : Word → Word → Option Word} (hi : exec i s = .next (transit d s)) (hid : d.idException = none)
    (hfp : d.fp = none) (hq : s.quiet = true) (h1 : d.ex = .alu f) (h4 : d.fdst = none) (h5 : d.cond = false)
    (hv : f (d.idRec s).op1 (d.idRec s).op2 = none) :
    Completes i s fun t => Trapped .ov 0 0 s t ∧ Resumed s t := by
  refine ⟨_, hi, ?_⟩
  rw [transit_int hid hfp hq, finish_overflow h1 h4 hv]
  exact ⟨trapped_of (idState_agreesP hq h4 h5).drawn (by simp) (by simp) (by simp) (by simp [savesAddress]),
    trap_resumed _ _ (by simp) (by simp [Desc.idState])⟩

/-- An instruction that writes a register with a value known in ID. -/
theorem move_completes {v : Word} (hi : exec i s = .next (transit d s)) (hid : d.idException = none) (hfp : d.fp = none)
    (hq : s.quiet = true) (hex : d.exStage false (d.idRec s) (d.idState s) = ({ d.idRec s with result := v }, d.idState s))
    (h1 : ∀ b f, d.ex ≠ .mdu b f) (h2 : d.mem = .pass) (h3 : d.wb = .gpr dst) (h4 : d.fdst = none) (h5 : d.cond = false)
    (h6 : d.ctrl = .seq) :
    Completes i s fun t => WritesX dst v s t ∧ InOrder s t := by
  refine ⟨_, hi, ?_⟩
  rw [transit_int hid hfp hq, finish_move hex h1 h2 h3 (by simp) (idState_quiet hq)]
  exact ⟨writesX_of ((idState_agreesP hq h4 h5).checkFault _ _) _ _, (inOrder_idState hq h6).writeX _ _⟩

/-! ## HI and LO -/

/-- An instruction of the multiply/divide unit: the pair it computes, or for a division by zero the free pair. -/
theorem mdu_completes {b : Bool} {f : Word → Word → Option (Word × Word)} {h l : Word}
    (hi : exec i s = .next (transit d s)) (hid : d.idException = none) (hfp : d.fp = none) (hq : s.quiet = true)
    (h1 : d.ex = .mdu b f) (h2 : d.mem = .pass) (h3 : d.wb = .none) (h4 : d.fdst = none) (h5 : d.cond = false)
    (h6 : d.ctrl = .seq)
    (hv : (f (d.idRec s).op1 (d.idRec s).op2).getD (Config.divZeroHi s.draws, Config.divZeroLo s.draws) = (h, l)) :
    Completes i s fun t => WritesHiLo h l s t ∧ InOrder s t := by
  refine ⟨_, hi, ?_⟩
  rw [transit_int hid hfp hq, finish_mdu h1 h2 h3 (by simp)]
  have hq' : (if (f (d.idRec s).op1 (d.idRec s).op2).isNone then (d.idState s).drawn else d.idState s).inj.quiet = true := by
    split <;> simp [idState_quiet hq, State.drawn]
  have a := idState_agreesP hq h4 h5
  have o := inOrder_idState hq h6
  unfold issueMdu State.commitMdu
  simp only [checkFault_none hq', hitTarget_none, idState_draws, hv]
  split <;> exact ⟨⟨read_cellOf _, read_cellOf _, rfl, rfl, fun j => readX_congr a.x j,
    fun j => ⟨readF_congr a.f j, presentF_congr a.fPresent j⟩, ⟨a.fpCond, a.fpCondPresent⟩, fun j => readC0_congr a.c0 j,
    fun j => readByte_congr a.mem j, ⟨a.pipe, a.poolFree, a.params, a.busy, a.mode, a.calls, a.outcome⟩⟩, o⟩

/-- MTHI; LO is present. -/
theorem AgreesP.writesHi (a : AgreesP s u) (w : Word) (h : s.loPresent = true) :
    WritesHiLo w s.lo.read s ((u.clearHiLo .hi).writeHiLo .hi w) :=
  ⟨read_cellOf _, congrArg RegCell.read a.lo, rfl, a.loPresent.trans h, fun j => readX_congr a.x j,
    fun j => ⟨readF_congr a.f j, presentF_congr a.fPresent j⟩, ⟨a.fpCond, a.fpCondPresent⟩, fun j => readC0_congr a.c0 j,
    fun j => readByte_congr a.mem j, ⟨a.pipe, a.poolFree, a.params, a.busy, a.mode, a.calls, a.outcome⟩⟩

/-- MTLO; HI is present. -/
theorem AgreesP.writesLo (a : AgreesP s u) (w : Word) (h : s.hiPresent = true) :
    WritesHiLo s.hi.read w s ((u.clearHiLo .lo).writeHiLo .lo w) :=
  ⟨congrArg RegCell.read a.hi, read_cellOf _, a.hiPresent.trans h, rfl, fun j => readX_congr a.x j,
    fun j => ⟨readF_congr a.f j, presentF_congr a.fPresent j⟩, ⟨a.fpCond, a.fpCondPresent⟩, fun j => readC0_congr a.c0 j,
    fun j => readByte_congr a.mem j, ⟨a.pipe, a.poolFree, a.params, a.busy, a.mode, a.calls, a.outcome⟩⟩

/-! ## Branches and jumps -/

/-- A branch or jump without link. -/
theorem branch_completes {n : Word} (hi : exec i s = .next (transit d s)) (hid : d.idException = none) (hfp : d.fp = none)
    (hq : s.quiet = true) (h1 : d.ex = .idle) (h2 : d.mem = .pass) (h3 : d.wb = .none) (h4 : d.fdst = none)
    (h5 : d.cond = false) (hb : d.isBranch = true)
    (hn : (d.ctrl.target (d.idRec s) s.fpCond).getD (s.fnpc + 4) = n) :
    Completes i s fun t => WritesNothing s t ∧ Branched n s t := by
  refine ⟨_, hi, ?_⟩
  rw [transit_int hid hfp hq, finish_idle h1 h2 h3 (by simp)]
  exact ⟨(idState_agreesP hq h4 h5).writesNothing, branched_idState hq hb hn⟩

/-- A branch or jump that links. -/
theorem link_completes {n : Word} (hi : exec i s = .next (transit d s)) (hid : d.idException = none) (hfp : d.fp = none)
    (hq : s.quiet = true) (h1 : d.ex = .idle) (h2 : d.mem = .pass) (h3 : d.wb = .gpr dst) (h4 : d.fdst = none)
    (h5 : d.cond = false) (hb : d.isBranch = true) (hl : d.link = true)
    (hn : (d.ctrl.target (d.idRec s) s.fpCond).getD (s.fnpc + 4) = n) :
    Completes i s fun t => WritesX dst (s.fpc + 8) s t ∧ Branched n s t := by
  refine ⟨_, hi, ?_⟩
  rw [transit_int hid hfp hq, finish_move (v := s.fpc + 8) (by simp only [Desc.exStage, h1, ← idRec_result (s := s) hl])
    (by simp [h1]) h2 h3 (by simp) (idState_quiet hq)]
  exact ⟨writesX_of ((idState_agreesP hq h4 h5).checkFault _ _) _ _, by simpa [Branched] using branched_idState hq hb hn⟩

/-! ## Loads and stores -/

theorem refusal_congr (h : u.script = s.script) (k : Kind) (a : Word) : u.refusal k a = s.refusal k a := by
  simp [State.refusal, h]

theorem perform_congr (hm : u.mem = s.mem) (hp : u.params = s.params) (k : Kind) (a w : Word) :
    (u.perform k a w).1 = (s.perform k a w).1 ∧ (u.perform k a w).2.mem = (s.perform k a w).2.mem := by
  cases k <;> simp [State.perform, State.readWord, State.readHalf, State.readByte, State.writeBytes, hm, hp]

/-- A data request that is not refused is answered with the access performed on the memory before the instruction. -/
theorem dataAnswer_performed {k : Kind} {a w : Word} (h : AgreesP s u) (hs : u.script = s.script)
    (hr : s.refusal k a = none) :
    (u.dataAnswer k a w).1.exc = none ∧ (u.dataAnswer k a w).1.datum = (s.perform k a w).1
      ∧ (u.dataAnswer k a w).2.mem = (s.perform k a w).2.mem := by
  unfold State.dataAnswer
  have hr' : (u.checkFault .memPre (if k.writes then 2 else 1)).2.refusal k a = none := by
    rw [refusal_congr (s := s) (by simp [hs])]; exact hr
  have h1 := memReq_performed hr' w
  have h2 := perform_congr (s := s) (u := (u.checkFault .memPre (if k.writes then 2 else 1)).2) (by simp [h.mem])
    (by simp [h.params]) k a w
  exact ⟨by rw [memReq_exc]; exact hr', h1.1.trans h2.1, h1.2.trans h2.2⟩

/-- A request that leaves memory alone leaves everything alone that a frame speaks of. -/
theorem dataAnswer_agrees {k : Kind} {a w : Word} (h : AgreesP s u) (hm : (u.dataAnswer k a w).2.mem = u.mem) :
    AgreesP s ((u.dataAnswer k a w).2.completeNow (u.dataAnswer k a w).1) := by
  unfold State.dataAnswer at *
  constructor
  · constructor <;> simp [h.x, h.f, h.hi, h.lo, h.hiPresent, h.loPresent, h.fpCond, h.c0, h.pipe, h.poolFree, h.params,
      h.busy, h.mode, h.calls, h.outcome]
    simpa [h.mem] using hm
  · simp [h.fPresent]
  · simp [h.fpCondPresent]

/-- An integer load that is not refused. -/
theorem load_completes {rs : Reg} {imm : Imm} {k : Kind} {signed : Bool} (hi : exec i s = .next (transit d s))
    (hid : d.idException = none) (hfp : d.fp = none) (hq : s.quiet = true) (h1 : d.ex = .address imm)
    (h2 : d.mem = .load k signed) (h3 : d.wb = .gpr dst) (h4 : d.fdst = none) (h5 : d.cond = false) (h6 : d.ctrl = .seq)
    (h7 : d.op1 = some rs) (hk : k.writes = false) (hr : s.refusal k (s.effAddr rs imm) = none) :
    Completes i s fun t =>
      WritesX dst (extendDatum signed (s.perform k (s.effAddr rs imm) 0).1) s t ∧ InOrder s t := by
  refine ⟨_, hi, ?_⟩
  have ho : (d.idRec s).op1 + imm.signExtend 32 = s.effAddr rs imm := by simp [h7, State.effAddr]
  have ha := idState_agreesP hq h4 h5
  have hans := dataAnswer_performed (w := (d.idRec s).result) ha idState_script hr
  rw [transit_int hid hfp hq, finish_load h1 h2 h3 hk (by simp) (idState_quiet hq) (by rw [ho]; exact hans.1), ho]
  have hd : (s.perform k (s.effAddr rs imm) (d.idRec s).result).1 = (s.perform k (s.effAddr rs imm) 0).1 := by
    cases k <;> first | rfl | cases hk
  rw [hans.2.1, hd]
  have hmem : (s.perform k (s.effAddr rs imm) (d.idRec s).result).2.mem = s.mem := by
    cases k <;> first | rfl | cases hk
  have hm : ((d.idState s).dataAnswer k (s.effAddr rs imm) (d.idRec s).result).2.mem = (d.idState s).mem := by
    rw [hans.2.2, ha.mem, hmem]
  refine ⟨writesX_of (((dataAnswer_agrees ha hm).checkFault _ _).checkFault _ _) _ _, ?_⟩
  simpa [InOrder, State.dataAnswer] using inOrder_idState hq h6

theorem readByte_writeBytes (a b : Word) (l : List Byte) (h : l.length ≤ 4294967296) :
    (s.writeBytes a l).readByte b = (l[(b - a).toNat]?).getD (s.readByte b) := by
  unfold State.readByte State.writeBytes
  exact loadByte_storeBytes l s.mem a b h

/-- A store that is not refused; l lists the bytes it writes. -/
theorem store_completes {rs : Reg} {imm : Imm} {k : Kind} {w : Word} {l : List Byte} (hi : exec i s = .next (transit d s))
    (hid : d.idException = none) (hfp : d.fp = none) (hq : s.quiet = true) (h2 : d.mem = .store k) (h3 : d.wb = .none)
    (h4 : d.fdst = none) (h5 : d.cond = false) (h6 : d.ctrl = .seq)
    (he : d.exStage false (d.idRec s) (d.idState s) =
      ({ d.idRec s with addr := s.effAddr rs imm, result := w }, d.idState s))
    (hx : ∀ b f, d.ex ≠ .mdu b f) (hk : k.writes = true) (hr : s.refusal k (s.effAddr rs imm) = none)
    (hl : (s.perform k (s.effAddr rs imm) w).2 = s.writeBytes (s.effAddr rs imm) l) (hn : l.length ≤ 4) :
    Completes i s fun t =>
      (∀ b, t.readByte b = (l[(b - s.effAddr rs imm).toNat]?).getD (s.readByte b))
        ∧ WritesMem (s.effAddr rs imm) l.length s t ∧ InOrder s t ∧ t.script = ((d.idState s).dataAnswer k (s.effAddr rs imm) w).2.script
        ∧ t.inj = ((d.idState s).dataAnswer k (s.effAddr rs imm) w).2.inj := by
  refine ⟨_, hi, ?_⟩
  have ha := idState_agreesP hq h4 h5
  have hans := dataAnswer_performed (w := w) ha idState_script hr
  rw [transit_int hid hfp hq, finish_store he hx h2 h3 hk (by simp) (idState_quiet hq) hans.1]
  generalize ht : ((d.idState s).dataAnswer k (s.effAddr rs imm) w).2.completeNow
    ((d.idState s).dataAnswer k (s.effAddr rs imm) w).1 = t
  have hm : t.mem = (s.writeBytes (s.effAddr rs imm) l).mem := by rw [← hl, ← hans.2.2, ← ht]; simp
  have hb : ∀ b, t.readByte b = (l[(b - s.effAddr rs imm).toNat]?).getD (s.readByte b) := fun b => by
    rw [readByte_congr hm, readByte_writeBytes _ _ _ (by omega)]
  have ag : AgreesP { s with mem := t.mem } t := by
    subst ht
    constructor
    · constructor <;> simp [State.dataAnswer, ha.x, ha.f, ha.hi, ha.lo, ha.hiPresent, ha.loPresent, ha.fpCond, ha.c0, ha.pipe,
        ha.poolFree, ha.busy, ha.mode, ha.calls, ha.outcome]
    · simp [State.dataAnswer, ha.fPresent]
    · simp [State.dataAnswer, ha.fpCondPresent]
  refine ⟨hb, ⟨?_, ag.sameX, ag.sameF, ag.sameHiLo, ag.sameCond, ag.sameC0, ag.sameMachine⟩,
    by simpa [← ht, InOrder, State.dataAnswer] using inOrder_idState hq h6, by simp [← ht], by simp [← ht]⟩
  intro b hb'
  rw [hb, List.getElem?_eq_none hb']; rfl

/-- What an exception of the instruction at `fpc` leaves, when its claims are restored. -/
theorem trapped_of_restored {r : Rec} {e : Exc} {ce : BitVec 2} {bad : Word} {c : List Claim} (h : Agrees s u)
    (hf : (u.trap r e c).fPresent = s.fPresent) (hc' : (u.trap r e c).fpCondPresent = s.fpCondPresent)
    (h1 : r.inDelaySlot = s.bdFlag) (h2 : r.pc = s.fpc) (h3 : r.ce = ce) (h4 : savesAddress e = true → r.addr = bad) :
    Trapped e ce bad s (u.trap r e c) := by
  obtain ⟨n1, n2, n3⟩ := reg_ne
  have hc : ∀ j, (u.trap r e c).readC0 j = (u.commitException r e).readC0 j := fun j => readC0_congr (by simp) j
  refine ⟨?_, ?_, ?_, ?_, by simp, ?_, ?_, ?_, ?_, ?_, ?_, by simp⟩
  · rw [hc, commitException_readC0]; simp [n1, n2, h1, h3, h.params]
  · rw [hc, commitException_readC0]; simp [n3, h1, h2]
  · rw [hc, commitException_readC0]
    by_cases hs : savesAddress e = true
    · simp [hs, h4 hs]
    · simp [hs, n2.symm, n3.symm, readC0_congr h.c0]
  · intro j h1 h2 h3
    rw [hc, commitException_readC0]; simp [h1, h2, h3, readC0_congr h.c0]
  · exact fun j => readX_congr (by simp [h.x]) j
  · exact fun j => ⟨readF_congr (by simp [h.f]) j, presentF_congr hf j⟩
  · exact ⟨by simp [h.hi], by simp [h.lo], by simp [h.hiPresent], by simp [h.loPresent]⟩
  · exact ⟨by simp [h.fpCond], by simp [hc']⟩
  · exact fun a => readByte_congr (by simp [h.mem]) a
  · simp [h.params]

/-- A load or store that is refused; a floating destination was present. -/
theorem refused_traps {rs : Reg} {imm : Imm} {k : Kind} {x : Exc} {w : Word} (hi : exec i s = .next (transit d s))
    (hid : d.idException = none) (hfp : d.fp = none) (hq : s.quiet = true) (h2 : d.request = some k)
    (hk : k.writes = d.stores) (h5 : d.cond = false)
    (h4 : d.fdst = none ∨ ∃ r, d.fdst = some (.single r) ∧ s.presentF r = true)
    (he : d.exStage false (d.idRec s) (d.idState s) =
      ({ d.idRec s with addr := s.effAddr rs imm, result := w }, d.idState s))
    (hx : ∀ b f, d.ex ≠ .mdu b f) (hr : s.refusal k (s.effAddr rs imm) = some x) :
    Completes i s fun t => Trapped x 0 (s.effAddr rs imm) s t ∧ Resumed s t := by
  refine ⟨_, hi, ?_⟩
  have ha := idState_agrees (d := d) hq
  have hr' : ((d.idState s).checkFault .memPre (if k.writes then 2 else 1)).2.refusal k (s.effAddr rs imm) = some x := by
    rw [refusal_congr (s := s) (by simp)]; exact hr
  rw [transit_int hid hfp hq,
    finish_refused he hx h2 hk (by simp) (idState_quiet hq) (by unfold State.dataAnswer; rw [memReq_exc]; exact hr')]
  have hm := memReq_refused hr' w
  have hag : Agrees s ((d.idState s).dataAnswer k (s.effAddr rs imm) w).2 := by
    unfold State.dataAnswer
    constructor <;> try simp [ha.x, ha.f, ha.hi, ha.lo, ha.hiPresent, ha.loPresent, ha.fpCond, ha.c0, ha.pipe, ha.poolFree,
      ha.busy, ha.mode, ha.calls, ha.outcome]
    exact hm.trans ha.mem
  refine ⟨trapped_of_restored hag ?_ ?_ (by simp) (by simp) (by simp) (by simp), trap_resumed _ _ hag.params hag.mode⟩
  · rcases h4 with h4 | ⟨r, h4, hp⟩
    · simp [h4, State.dataAnswer]
      exact (idState_agreesP hq h4 h5).fPresent
    · simp [h4, State.dataAnswer, Desc.claim, State.trap, State.takeException, h5, State.restoreClaims, State.setClaim,
        State.setPresentFOpnd, State.setPresentF, Desc.idState]
      rw [show s.fPresent = s.fPresent.set r.toNat true r.isLt by rw [← hp]; simp [State.presentF]]
      simp
  · rcases h4 with h4 | ⟨r, h4, hp⟩
    · simp [h4, State.dataAnswer]
      exact (idState_agreesP hq h4 h5).fpCondPresent
    · simp [h4, State.dataAnswer, Desc.claim, State.trap, State.takeException, h5, State.restoreClaims, State.setClaim,
        Desc.idState]

/-! ## Floating point -/

/-- The commit of a floating destination. -/
theorem writesF_fwbCommit {r : Rec} {o : FOpnd} (h : Agrees s u) (hc : u.fpCondPresent = s.fpCondPresent)
    (hp : ∀ j, j ∉ o.regs → u.presentF j = s.presentF j) (hd : d.fdst = some o) (h5 : d.cond = false) :
    WritesF o r.fresult s (d.fwbCommit r u) := by
  have e : d.fwbCommit r u = (u.writeFOpnd o r.fresult).setPresentFOpnd o true := by simp [Desc.fwbCommit, hd, h5]
  have rf : ∀ (v : State) b j, (v.setPresentFOpnd o b).readF j = v.readF j := by intro v b j; cases o <;> rfl
  have pr : ∀ (v : State) w j, (v.writeFOpnd o w).presentF j = v.presentF j := by intro v w j; cases o <;> rfl
  rw [e]
  refine ⟨?_, ?_, ?_, ?_, ?_, ?_, ?_, ?_, ?_⟩
  · cases o with
    | single r => simp only [rf]; exact readF_writeFOpnd_single _ _ _
    | double r => simp only [State.readFD, rf]; exact readFD_writeFOpnd_double _ _ _
  · intro j hj; rw [presentF_setPresentFOpnd, if_pos hj]
  · intro j hj
    rw [rf, readF_writeFOpnd _ _ _ _ hj, presentF_setPresentFOpnd, if_neg hj, pr, hp j hj]
    exact ⟨readF_congr h.f j, rfl⟩
  all_goals cases o
  all_goals first
    | exact fun j => readX_congr h.x j
    | exact ⟨h.hi, h.lo, h.hiPresent, h.loPresent⟩
    | exact ⟨h.fpCond, hc⟩
    | exact fun j => readC0_congr h.c0 j
    | exact fun j => readByte_congr h.mem j
    | exact ⟨h.pipe, h.poolFree, h.params, h.busy, h.mode, h.calls, h.outcome⟩

theorem InOrder.fwbCommit {r : Rec} (h : InOrder s u) : InOrder s (d.fwbCommit r u) := by
  have e : (d.fwbCommit r u).fpc = u.fpc ∧ (d.fwbCommit r u).fnpc = u.fnpc ∧ (d.fwbCommit r u).bdFlag = u.bdFlag
      ∧ (d.fwbCommit r u).excFound = u.excFound := by
    unfold Desc.fwbCommit
    cases d.fdst with
    | none => cases d.cond <;> simp
    | some o =>
      cases o <;> cases d.cond <;>
        simp [State.writeFOpnd, State.writeFD, State.writeF, State.setPresentFOpnd, State.setPresentF]
  obtain ⟨e1, e2, e3, e4⟩ := e
  unfold InOrder at *
  rw [e1, e2, e3, e4]; exact h

/-- The record `FPNumerics` depends on the parameters alone. -/
theorem numerics_congr {s t : State} (h : t.params = s.params) : t.numerics = s.numerics := by
  unfold State.numerics; rw [h]

/-- A floating operation with a register destination. -/
theorem float_completes {c : FpClass} {f : FPNumerics → DWord → DWord → FpVal} {o : FOpnd} (hi : exec i s = .next (transit d s))
    (hid : d.idException = none) (hfp : d.fp = some (c, f)) (hq : s.quiet = true) (h4 : d.fdst = some o)
    (h5 : d.cond = false) (h6 : d.ctrl = .seq) :
    Completes i s fun t => WritesF o ((f s.numerics (d.idRec s).fop1 (d.idRec s).fop2).pattern s.draws) s t ∧ InOrder s t := by
  refine ⟨_, hi, ?_⟩
  rw [transit_fp hid hfp hq]
  have ha := idState_agrees (d := d) hq
  have hp : ∀ j, j ∉ o.regs → (d.idState s).presentF j = s.presentF j := fun j hj => by
    rw [idState_presentF, if_neg (by simpa [h4] using hj)]
  have hc : (d.idState s).fpCondPresent = s.fpCondPresent := by simp [Desc.idState, h5]
  have key : ∀ v : State, (v = d.idState s ∨ v = (d.idState s).drawn) → ∀ r,
      WritesF o r.fresult s (d.fwbCommit r v) ∧ InOrder s (d.fwbCommit r v) := by
    rintro v (rfl | rfl) r
    · exact ⟨writesF_fwbCommit ha hc hp h4 h5, (inOrder_idState hq h6).fwbCommit⟩
    · exact ⟨writesF_fwbCommit ⟨ha.x, ha.f, ha.hi, ha.lo, ha.hiPresent, ha.loPresent, ha.fpCond, ha.c0, ha.mem, ha.pipe,
        ha.poolFree, ha.params, ha.busy, ha.mode, ha.calls, ha.outcome⟩ hc hp h4 h5,
        InOrder.fwbCommit (inOrder_idState (d := d) hq h6)⟩
  have := key (fpResult f (d.idRec s) (d.idState s)).2 (by simp only [fpResult]; split <;> simp)
    (fpResult f (d.idRec s) (d.idState s)).1
  simpa [fpResult, numerics_congr ha.params] using this

/-- A floating compare. -/
theorem compare_completes {c : FpClass} {f : FPNumerics → DWord → DWord → FpVal} {b : Bool} (hi : exec i s = .next (transit d s))
    (hid : d.idException = none) (hfp : d.fp = some (c, f)) (hq : s.quiet = true) (h4 : d.fdst = none) (h5 : d.cond = true)
    (h6 : d.ctrl = .seq) (hv : f s.numerics (d.idRec s).fop1 (d.idRec s).fop2 = .bits (if b then 1 else 0)) :
    Completes i s fun t => WritesCond b s t ∧ InOrder s t := by
  refine ⟨_, hi, ?_⟩
  have ha := idState_agrees (d := d) hq
  have hp : (d.idState s).fPresent = s.fPresent := by simp [Desc.idState, State.setClaim, Desc.claim, h4, h5]
  rw [transit_fp hid hfp hq, fpResult, numerics_congr ha.params, hv]
  simp only [FpVal.isFree, Desc.fwbCommit, h4, h5, FpVal.pattern, if_true, Bool.false_eq_true, if_false]
  exact ⟨⟨by cases b <;> simp, rfl, fun j => readX_congr ha.x j,
    fun j => ⟨readF_congr ha.f j, presentF_congr hp j⟩, ⟨ha.hi, ha.lo, ha.hiPresent, ha.loPresent⟩,
    fun j => readC0_congr ha.c0 j, fun j => readByte_congr ha.mem j,
    ⟨ha.pipe, ha.poolFree, ha.params, ha.busy, ha.mode, ha.calls, ha.outcome⟩⟩, inOrder_idState (d := d) hq h6⟩

end Sys2Proof.Machine
end

