-- ==== Sys2Proof/Laws/Decode.lean ====
section
/-! SUPPORT. The fields of a word built by a format of R92, and a word rebuilt from its fields: what the proofs that decoding and
encoding agree cite. -/

namespace Sys2Proof

variable (w : Word) (op funct : BitVec 6) (rs rt rd shamt : Reg) (imm : Imm) (target : BitVec 26) (code : BitVec 20)

/-! ## A field read back from the format that wrote it -/

@[simp] theorem opcodeOf_rForm : opcodeOf (rForm op rs rt rd shamt funct) = op := by
  unfold opcodeOf rForm
  ext i hi
  simp only [BitVec.getElem_extractLsb', BitVec.getLsbD_append]
  repeat' split
  all_goals first | omega | (rw [← BitVec.getLsbD_eq_getElem hi]; congr 1; omega)
@[simp] theorem rsOf_rForm : rsOf (rForm op rs rt rd shamt funct) = rs := by
  unfold rsOf rForm
  ext i hi
  simp only [BitVec.getElem_extractLsb', BitVec.getLsbD_append]
  repeat' split
  all_goals first | omega | (rw [← BitVec.getLsbD_eq_getElem hi]; congr 1; omega)
@[simp] theorem rtOf_rForm : rtOf (rForm op rs rt rd shamt funct) = rt := by
  unfold rtOf rForm
  ext i hi
  simp only [BitVec.getElem_extractLsb', BitVec.getLsbD_append]
  repeat' split
  all_goals first | omega | (rw [← BitVec.getLsbD_eq_getElem hi]; congr 1; omega)
@[simp] theorem rdOf_rForm : rdOf (rForm op rs rt rd shamt funct) = rd := by
  unfold rdOf rForm
  ext i hi
  simp only [BitVec.getElem_extractLsb', BitVec.getLsbD_append]
  repeat' split
  all_goals first | omega | (rw [← BitVec.getLsbD_eq_getElem hi]; congr 1; omega)
@[simp] theorem shamtOf_rForm : shamtOf (rForm op rs rt rd shamt funct) = shamt := by
  unfold shamtOf rForm
  ext i hi
  simp only [BitVec.getElem_extractLsb', BitVec.getLsbD_append]
  repeat' split
  all_goals first | omega | (rw [← BitVec.getLsbD_eq_getElem hi]; congr 1; omega)
@[simp] theorem functOf_rForm : functOf (rForm op rs rt rd shamt funct) = funct := by
  unfold functOf rForm
  ext i hi
  simp only [BitVec.getElem_extractLsb', BitVec.getLsbD_append]
  repeat' split
  all_goals first | omega | (rw [← BitVec.getLsbD_eq_getElem hi]; congr 1; omega)

@[simp] theorem opcodeOf_iForm : opcodeOf (iForm op rs rt imm) = op := by
  unfold opcodeOf iForm
  ext i hi
  simp only [BitVec.getElem_extractLsb', BitVec.getLsbD_append]
  repeat' split
  all_goals first | omega | (rw [← BitVec.getLsbD_eq_getElem hi]; congr 1; omega)
@[simp] theorem rsOf_iForm : rsOf (iForm op rs rt imm) = rs := by
  unfold rsOf iForm
  ext i hi
  simp only [BitVec.getElem_extractLsb', BitVec.getLsbD_append]
  repeat' split
  all_goals first | omega | (rw [← BitVec.getLsbD_eq_getElem hi]; congr 1; omega)
@[simp] theorem rtOf_iForm : rtOf (iForm op rs rt imm) = rt := by
  unfold rtOf iForm
  ext i hi
  simp only [BitVec.getElem_extractLsb', BitVec.getLsbD_append]
  repeat' split
  all_goals first | omega | (rw [← BitVec.getLsbD_eq_getElem hi]; congr 1; omega)
@[simp] theorem immOf_iForm : immOf (iForm op rs rt imm) = imm := by
  unfold immOf iForm
  ext i hi
  simp only [BitVec.getElem_extractLsb', BitVec.getLsbD_append]
  repeat' split
  all_goals first | omega | (rw [← BitVec.getLsbD_eq_getElem hi]; congr 1; omega)

@[simp] theorem opcodeOf_jForm : opcodeOf (jForm op target) = op := by
  unfold opcodeOf jForm
  ext i hi
  simp only [BitVec.getElem_extractLsb', BitVec.getLsbD_append]
  repeat' split
  all_goals first | omega | (rw [← BitVec.getLsbD_eq_getElem hi]; congr 1; omega)
@[simp] theorem targetOf_jForm : targetOf (jForm op target) = target := by
  unfold targetOf jForm
  ext i hi
  simp only [BitVec.getElem_extractLsb', BitVec.getLsbD_append]
  repeat' split
  all_goals first | omega | (rw [← BitVec.getLsbD_eq_getElem hi]; congr 1; omega)

@[simp] theorem opcodeOf_scForm : opcodeOf (scForm code funct) = 0#6 := by
  unfold opcodeOf scForm
  ext i hi
  simp only [BitVec.getElem_extractLsb', BitVec.getLsbD_append]
  repeat' split
  all_goals first | omega | (rw [← BitVec.getLsbD_eq_getElem hi]; congr 1; omega)
@[simp] theorem codeOf_scForm : codeOf (scForm code funct) = code := by
  unfold codeOf scForm
  ext i hi
  simp only [BitVec.getElem_extractLsb', BitVec.getLsbD_append]
  repeat' split
  all_goals first | omega | (rw [← BitVec.getLsbD_eq_getElem hi]; congr 1; omega)
@[simp] theorem functOf_scForm : functOf (scForm code funct) = funct := by
  unfold functOf scForm
  ext i hi
  simp only [BitVec.getElem_extractLsb', BitVec.getLsbD_append]
  repeat' split
  all_goals first | omega | (rw [← BitVec.getLsbD_eq_getElem hi]; congr 1; omega)

/-! ## A word is what the format makes of its fields -/

theorem rForm_fields : rForm (opcodeOf w) (rsOf w) (rtOf w) (rdOf w) (shamtOf w) (functOf w) = w := by
  unfold rForm opcodeOf rsOf rtOf rdOf shamtOf functOf
  ext i hi
  simp only [BitVec.getElem_append, BitVec.getElem_extractLsb']
  repeat' split
  all_goals (rw [← BitVec.getLsbD_eq_getElem]; congr 1; omega)

theorem iForm_fields : iForm (opcodeOf w) (rsOf w) (rtOf w) (immOf w) = w := by
  unfold iForm opcodeOf rsOf rtOf immOf
  ext i hi
  simp only [BitVec.getElem_append, BitVec.getElem_extractLsb']
  repeat' split
  all_goals (rw [← BitVec.getLsbD_eq_getElem]; congr 1; omega)

theorem jForm_fields : jForm (opcodeOf w) (targetOf w) = w := by
  unfold jForm opcodeOf targetOf
  ext i hi
  simp only [BitVec.getElem_append, BitVec.getElem_extractLsb']
  repeat' split
  all_goals (rw [← BitVec.getLsbD_eq_getElem]; congr 1; omega)

theorem scForm_fields (h : opcodeOf w = 0#6) : scForm (codeOf w) (functOf w) = w := by
  have hw : opcodeOf w ++ codeOf w ++ functOf w = w := by
    unfold opcodeOf codeOf functOf
    ext i hi
    simp only [BitVec.getElem_append, BitVec.getElem_extractLsb']
    repeat' split
    all_goals (rw [← BitVec.getLsbD_eq_getElem]; congr 1; omega)
  rw [h] at hw
  exact hw

/-! ## The fixed bits of a format -/

theorem rForm_and (op' funct' : BitVec 6) (rs' rt' rd' shamt' : Reg) :
    rForm op rs rt rd shamt funct &&& rForm op' rs' rt' rd' shamt' funct' =
      rForm (op &&& op') (rs &&& rs') (rt &&& rt') (rd &&& rd') (shamt &&& shamt') (funct &&& funct') := by
  unfold rForm; erw [BitVec.and_append, BitVec.and_append, BitVec.and_append, BitVec.and_append, BitVec.and_append]

theorem iForm_and (op' : BitVec 6) (rs' rt' : Reg) (imm' : Imm) :
    iForm op rs rt imm &&& iForm op' rs' rt' imm' = iForm (op &&& op') (rs &&& rs') (rt &&& rt') (imm &&& imm') := by
  unfold iForm; erw [BitVec.and_append, BitVec.and_append, BitVec.and_append]

theorem scForm_and (code' : BitVec 20) (funct' : BitVec 6) :
    scForm code funct &&& (63#6 ++ code' ++ funct') = scForm (code &&& code') (funct &&& funct') := by
  unfold scForm; erw [BitVec.and_append, BitVec.and_append]; simp

theorem jForm_and (op' : BitVec 6) (target' : BitVec 26) :
    jForm op target &&& jForm op' target' = jForm (op &&& op') (target &&& target') := by
  unfold jForm; erw [BitVec.and_append]

/-- A field as the opcode table numbers it: the bits from `lo` on. -/
theorem field_toNat (lo len : Nat) : w.toNat / 2 ^ lo % 2 ^ len = (w.extractLsb' lo len).toNat := by
  rw [BitVec.extractLsb'_toNat, Nat.shiftRight_eq_div_pow]

/-- The part of the primary opcode that says whether a word names a coprocessor (R98). -/
theorem copMajor_eq : (w.extractLsb' 28 4 : BitVec 4) = (opcodeOf w).extractLsb' 2 4 := by
  unfold opcodeOf
  ext i hi
  simp only [BitVec.getElem_extractLsb', BitVec.getLsbD_extractLsb']
  simp [show 2 + i < 6 by omega, show 26 + (2 + i) = 28 + i by omega]

/-- The part of the primary opcode that numbers the coprocessor (R98). -/
theorem copNumber_eq : (w.extractLsb' 26 2 : BitVec 2) = (opcodeOf w).extractLsb' 0 2 := by
  unfold opcodeOf
  ext i hi
  simp only [BitVec.getElem_extractLsb', BitVec.getLsbD_extractLsb']
  simp [show i < 6 by omega]

end Sys2Proof
end

