-- ==== Sys2Proof/Laws/Fetch.lean ====
section
/-! SUPPORT. The fetch of an instruction executed alone (R78, log 39): the words it can answer, what it leaves, and the memories
kept for the fetches to come. -/

namespace Sys2Proof.Machine

variable {s : State}

/-- The first fetch of a sequence reads the present memory. -/
theorem fetchWords_first (h : s.earlier = []) : s.fetchWords = [s.readWord s.fpc] := by
  have hv : s.views = [s.mem] := by simp [State.views, h]
  rw [State.fetchWords, hv]; rfl

/-- The second fetch of a sequence reads the memory before the first instruction. -/
theorem fetchWords_second {m : List Host.Cell} (hx : s.excFound = false) (h : s.earlier = [m]) : s.fetchWords = [s.wordIn s.fpc m] := by
  simp [State.fetchWords, State.views, hx, h]

/-- Every later fetch reads a memory before the last two instructions. -/
theorem fetchWords_later {m n : List Host.Cell} {ms : List (List Host.Cell)} (hx : s.excFound = false)
    (h : s.earlier = m :: n :: ms) : s.fetchWords = (n :: ms).map (s.wordIn s.fpc) := by
  simp [State.fetchWords, State.views, hx, h]

theorem fetchWords_ne_nil (s : State) : s.fetchWords ≠ [] := by
  unfold State.fetchWords State.views
  split
  · simp
  · split <;> simp_all

/-- All a fetched word can be: one of the words of R78, and the state as it was but for the free choices taken. -/
theorem fetchWord_spec (s : State) : s.fetchWord.1 ∈ s.fetchWords ∧ (s.fetchWord.2 = s ∨ s.fetchWord.2 = s.drawn) := by
  have hne := fetchWords_ne_nil s
  have hpos : 0 < s.fetchWords.length := List.length_pos_iff.mpr hne
  unfold State.fetchWord
  simp only
  split
  · refine ⟨?_, .inl rfl⟩
    cases h : s.fetchWords with
    | nil => exact absurd h hne
    | cons a rest => simp
  · refine ⟨?_, .inr rfl⟩
    rw [List.getD_eq_getElem?_getD, List.getElem?_eq_getElem (Nat.mod_lt _ hpos)]
    exact List.getElem_mem _

/-- Where the memories agree on the word, it is fetched and nothing is chosen. -/
theorem fetchWord_agreed {w : Word} (h : ∀ v ∈ s.fetchWords, v = w) : s.fetchWord = (w, s) := by
  have hne := fetchWords_ne_nil s
  have hd : s.fetchWords.headD (s.readWord s.fpc) = w := by
    cases hs : s.fetchWords with
    | nil => exact absurd hs hne
    | cons a rest => exact h a (by simp [hs])
  have ha : s.fetchWords.all (· == w) = true := List.all_eq_true.mpr fun v hv => by simp [h v hv]
  simp only [State.fetchWord, hd, ha, if_true]

@[simp] theorem remembered_mem (s : State) : s.remembered.mem = s.mem := rfl
@[simp] theorem remembered_fpc (s : State) : s.remembered.fpc = s.fpc := rfl
@[simp] theorem remembered_pipe (s : State) : s.remembered.pipe = s.pipe := rfl
@[simp] theorem remembered_draws (s : State) : s.remembered.draws = s.draws := rfl
theorem remembered_length (s : State) : s.remembered.earlier.length ≤ 3 := by
  unfold State.remembered
  split
  · simp
  · rw [List.length_take]; omega

end Sys2Proof.Machine
end

