-- ==== Sys2Proof/Laws/Float.lean ====
section
/-! SUPPORT. The results of the floating pipeline by format: a one-register result has upper half 0 (R313), whatever the record
`FPNumerics` and the free values. -/

namespace Sys2Proof.Machine

/-- The pattern of a result lies in the low half, whatever the free values are. -/
def FpVal.OneRegister (v : FpVal) : Prop := ∀ n, (v.pattern n).toNat < 2 ^ 32

theorem oneRegister_zeroExtend (w : Word) : (FpVal.bits (w.zeroExtend 64)).OneRegister := fun _ => by
  show (w.setWidth 64).toNat < _
  rw [BitVec.toNat_setWidth, Nat.mod_eq_of_lt (by have := w.isLt; omega)]
  exact w.isLt

theorem oneRegister_nan32 : FpVal.nan32.OneRegister := fun n => oneRegister_zeroExtend (nanPattern32 (Config.nanBits32 n)) n
theorem oneRegister_cvtInvalid : FpVal.cvtInvalid.OneRegister := fun n => oneRegister_zeroExtend (Config.cvtWInvalid n) n
theorem oneRegister_single (v : FpVal) : v.single.OneRegister := by cases v <;> first | exact oneRegister_zeroExtend _ | exact oneRegister_nan32
theorem oneRegister_word (v : FpVal) : v.word.OneRegister := by cases v <;> first | exact oneRegister_zeroExtend _ | exact oneRegister_cvtInvalid

theorem oneRegister_bits {n : Nat} (h : n < 2 ^ 32) : (FpVal.bits (BitVec.ofNat 64 n)).OneRegister := fun _ => by
  show (BitVec.ofNat 64 n).toNat < _
  rw [BitVec.toNat_ofNat]; exact Nat.lt_of_le_of_lt (Nat.mod_le _ _) h

theorem oneRegister_masked (a m : DWord) (h : m.toNat < 2 ^ 32) : (FpVal.bits (a &&& m)).OneRegister := fun _ => by
  show (a &&& m).toNat < _
  rw [BitVec.toNat_and]; exact Nat.lt_of_le_of_lt Nat.and_le_right h

theorem oneRegister_negated (a : DWord) : (FpVal.bits ((a &&& 0xFFFFFFFF) ^^^ 0x80000000)).OneRegister := fun _ => by
  show ((a &&& 0xFFFFFFFF) ^^^ 0x80000000 : DWord).toNat < _
  rw [BitVec.toNat_xor]
  exact Nat.xor_lt_two_pow (oneRegister_masked a 0xFFFFFFFF (by decide) 0) (by decide)

/-! ## What an operation of a format can answer: its NaN, an infinity, a rounded number or a zero -/

section
variable {m : Format} {P : FpVal → Prop} (hn : P m.nan) (hi : ∀ neg, P (m.infinity neg))
  (hr : ∀ neg sig pow, P (m.roundPack neg sig pow))
include hn hi hr

theorem add_answers (a b : FpNum) : P (m.add a b) := by
  unfold Format.add
  repeat' split
  all_goals first | exact hn | exact hi _ | skip
  all_goals dsimp only; split <;> exact hr _ _ _

theorem mul_answers (a b : FpNum) : P (m.mul a b) := by
  unfold Format.mul
  repeat' split
  all_goals first | exact hn | exact hi _ | exact hr _ _ _

theorem div_answers (hz : ∀ neg, P (.bits (BitVec.ofNat 64 (m.signBit neg)))) (a b : FpNum) : P (m.div a b) := by
  unfold Format.div
  repeat' split
  all_goals first | exact hn | exact hi _ | exact hz _ | exact hr _ _ _

theorem convert_answers (a : FpNum) : P (m.convert a) := by
  cases a
  · exact hn
  · exact hi _
  · exact hr _ _ _

end

/-! ## The default record -/

theorem signBit_single (neg : Bool) : fmtS.signBit neg ≤ 2 ^ 31 := by cases neg <;> decide

theorem zero_single (neg : Bool) : (FpVal.bits (BitVec.ofNat 64 (fmtS.signBit neg))).OneRegister :=
  oneRegister_bits (Nat.lt_of_le_of_lt (signBit_single neg) (by decide))

theorem infinity_single (neg : Bool) : (fmtS.infinity neg).OneRegister := by
  cases neg <;> exact oneRegister_bits (by decide)

theorem roundPack_single (neg : Bool) (sig : Nat) (pow : Int) : (fmtS.roundPack neg sig pow).OneRegister := by
  have hs := signBit_single neg
  have hm : fmtS.maxExp * 2 ^ fmtS.fracBits < 2 ^ 31 := by decide
  by_cases h0 : sig = 0
  · rw [Format.roundPack, if_pos h0]; exact zero_single neg
  · rw [Format.roundPack, if_neg h0]
    extract_lets last q magnitude
    by_cases h : magnitude ≥ fmtS.maxExp * 2 ^ fmtS.fracBits
    · rw [if_pos h]; exact infinity_single neg
    · rw [if_neg h]
      exact oneRegister_bits (Nat.lt_of_lt_of_le (Nat.add_lt_add_of_le_of_lt hs (Nat.lt_trans (Nat.not_le.mp h) hm)) (by decide))

theorem nan_single : fmtS.nan.OneRegister := oneRegister_nan32

theorem toWordVal_single (a : FpNum) : (toWordVal a).OneRegister := by
  cases a with
  | nan => exact oneRegister_cvtInvalid
  | inf s => exact oneRegister_cvtInvalid
  | fin s x p =>
    rw [toWordVal]
    generalize signedSig s _ = v
    by_cases h : fitsSigned v = true
    · rw [if_pos h]; exact oneRegister_zeroExtend _
    · rw [if_neg h]; exact oneRegister_cvtInvalid

/-- All that the default record can answer where the result takes one register. -/
theorem ieee_oneRegister (a b : FpNum) :
    (fmtS.add a b).OneRegister ∧ (fmtS.mul a b).OneRegister ∧ (fmtS.div a b).OneRegister ∧ (fmtS.convert a).OneRegister :=
  ⟨add_answers nan_single infinity_single roundPack_single a b, mul_answers nan_single infinity_single roundPack_single a b,
    div_answers nan_single infinity_single roundPack_single zero_single a b,
    convert_answers nan_single infinity_single roundPack_single a⟩

/-! ## Every record -/

/-- All that the record in force can answer where the result takes one register (R313). -/
structure FPNumerics.OneRegister (n : FPNumerics) : Prop where
  addS : ∀ a b, (n.addS a b).OneRegister
  subS : ∀ a b, (n.subS a b).OneRegister
  mulS : ∀ a b, (n.mulS a b).OneRegister
  divS : ∀ a b, (n.divS a b).OneRegister
  cvtSD : ∀ a, (n.cvtSD a).OneRegister
  cvtSW : ∀ a, (n.cvtSW a).OneRegister
  cvtWS : ∀ a, (n.cvtWS a).OneRegister
  cvtWD : ∀ a, (n.cvtWD a).OneRegister

theorem numerics_oneRegister (p : Numerics) : (numericsOf p).OneRegister := by
  cases p with
  | ieee =>
    exact ⟨fun _ _ => (ieee_oneRegister _ _).1, fun _ _ => (ieee_oneRegister _ _).1, fun _ _ => (ieee_oneRegister _ _).2.1,
      fun _ _ => (ieee_oneRegister _ _).2.2.1, fun v => (ieee_oneRegister (numD v) .nan).2.2.2, fun w => (ieee_oneRegister (intNum w) .nan).2.2.2,
      fun _ => toWordVal_single _, fun _ => toWordVal_single _⟩
  | other index => constructor <;> intros <;> first | exact oneRegister_single _ | exact oneRegister_word _

/-- R313: "a one-register result occupies `fresult[31:0]`, upper half 0". -/
theorem fpResult_oneRegister {i : Instr} {c : FpClass} {f : FPNumerics → DWord → DWord → FpVal} {d : Reg}
    (hf : (descOf i).fp = some (c, f)) (hd : (descOf i).fdst = some (.single d)) (r : Rec) (s : State) :
    (fpResult f r s).1.fresult.toNat < 2 ^ 32 := by
  have hn := numerics_oneRegister s.params.numerics
  suffices h : (f s.numerics r.fop1 r.fop2).OneRegister from h s.draws
  cases i <;> first | (cases hf; done) | (cases hd; done) | cases hf
  case addS => exact hn.addS _ _
  case subS => exact hn.subS _ _
  case mulS => exact hn.mulS _ _
  case divS => exact hn.divS _ _
  case cvtSD => exact hn.cvtSD _
  case cvtSW => exact hn.cvtSW _
  case cvtWS => exact hn.cvtWS _
  case cvtWD => exact hn.cvtWD _
  case absS => exact oneRegister_masked _ _ (by decide)
  case movS => exact oneRegister_masked _ _ (by decide)
  case negS => exact oneRegister_negated _

end Sys2Proof.Machine
end

