-- ==== Sys2Proof/Laws/Invariant.lean ====
section
/-! SUPPORT. What keeps the invariant `State.Inv`: the operations that leave the pipeline alone (`Inert`), and each of the fifteen
steps of a cycle. -/

namespace Sys2Proof.Machine

/-! ## Operations that leave the pipeline alone -/

/-- The records, the pool, the parameters and the cell of register 0 are as before, and a memory in canonical form stays so. -/
structure Inert (s u : State) : Prop where
  wf : Memory.wf s.mem = true → Memory.wf u.mem = true
  x0 : u.x[0] = s.x[0]
  pipe : u.pipe = s.pipe
  poolFree : u.poolFree = s.poolFree
  params : u.params = s.params

theorem Inert.refl (s : State) : Inert s s := ⟨id, rfl, rfl, rfl, rfl⟩

theorem Inert.trans {s u v : State} (h : Inert s u) (k : Inert u v) : Inert s v :=
  ⟨k.wf ∘ h.wf, k.x0.trans h.x0, k.pipe.trans h.pipe, k.poolFree.trans h.poolFree, k.params.trans h.params⟩

/-- A state that differs only in fields `Inert` does not speak of. -/
theorem Inert.of_eq {s u : State} (h1 : u.mem = s.mem) (h2 : u.x = s.x) (h3 : u.pipe = s.pipe) (h4 : u.poolFree = s.poolFree)
    (h5 : u.params = s.params) : Inert s u := ⟨fun h => by rw [h1]; exact h, by simp [h2], h3, h4, h5⟩

variable (s : State) (d : Desc) (r : Rec)

theorem writeX_inert (i : Reg) (v : Word) : Inert s (s.writeX i v) := by
  refine ⟨by simp, ?_, by simp, by simp, by simp⟩
  unfold State.writeX
  split
  · rfl
  · rename_i h
    have : i.toNat ≠ 0 := toNat_ne h
    exact Vector.getElem_set_ne i.isLt (by omega) this

theorem maskX_inert {i : Reg} (h : i ≠ 0#5) (m : Word) : Inert s (s.maskX i m) := by
  refine ⟨by simp, ?_, by simp, by simp, by simp⟩
  have : i.toNat ≠ 0 := toNat_ne h
  exact Vector.getElem_set_ne i.isLt (by omega) this

theorem checkFault_inert (l : Loc) (n : Nat) : Inert s (s.checkFault l n).2 := .of_eq rfl rfl rfl rfl rfl

theorem rfTargets_ne (a b : Option Reg) : ∀ i ∈ rfTargets a b, i ≠ 0#5 := by
  unfold rfTargets
  intro i hi
  split at hi
  · simp at hi
  · split at hi <;> simp_all
  · split at hi <;> simp_all
  · split at hi
    · split at hi <;> simp_all
    · split at hi
      · simp_all
      · rename_i h1 h2
        simp only [List.mem_cons, List.not_mem_nil, or_false] at hi
        rcases hi with rfl | rfl
        · exact h1
        · exact fun h => h2 (Or.inl h)

/-- "`x[0]` is never a target" (R416). -/
theorem checkRF_inert (a b : Option Reg) : Inert s (s.checkRF a b) := by
  unfold State.checkRF
  split
  · exact .refl s
  · rename_i c rest h
    have hne : ∀ k, (c :: rest).getD k c ≠ 0#5 := fun k => by
      rw [← h]
      rw [List.getD_eq_getElem?_getD]
      cases hk : (rfTargets a b)[k]? with
      | none => exact rfTargets_ne a b c (by rw [h]; simp)
      | some i => exact rfTargets_ne a b i (List.mem_of_getElem? hk)
    split
    · exact checkFault_inert s _ _
    · exact (checkFault_inert s _ _).trans (maskX_inert _ (hne _) _)

theorem setClaim_inert (c : Claim) (b : Bool) : Inert s (s.setClaim c b) :=
  .of_eq (by simp) (by simp) (by simp) (by simp) (by simp)

theorem checkID_inert : Inert s (d.checkID s).2 := .of_eq (by simp) (by simp) (by simp) (by simp) (by simp)

theorem advance_inert : Inert s (d.advance r s) := .of_eq (by simp) (by simp) (by simp) (by simp) (by simp)

theorem idStage_inert : Inert s (d.idStage r s).2 := by
  unfold Desc.idStage
  exact (checkRF_inert s _ _).trans ((checkID_inert _ d).trans (advance_inert _ d _))

theorem fpResult_inert (f : FPNumerics → DWord → DWord → FpVal) : Inert s (fpResult f r s).2 := by
  unfold fpResult
  split <;> exact .of_eq rfl rfl rfl rfl rfl

theorem fwbCommit_inert : Inert s (d.fwbCommit r s) := by
  unfold Desc.fwbCommit
  split <;> split <;> exact .of_eq (by simp) (by simp) (by simp) (by simp) (by simp)

theorem issueMdu_inert (isDiv : Bool) (v : Option (Word × Word)) : Inert s (issueMdu isDiv v s) := by
  unfold issueMdu
  refine Inert.trans (u := if v.isNone then s.drawn else s) ?_ (.of_eq rfl rfl rfl rfl rfl)
  split <;> exact .of_eq rfl rfl rfl rfl rfl

theorem exStage_inert (squash : Bool) : Inert s (d.exStage squash r s).2 := by
  unfold Desc.exStage
  split
  · exact .refl s
  · unfold aluResult
    split <;> exact .of_eq rfl rfl rfl rfl rfl
  · exact .refl s
  · exact .refl s
  · exact .refl s
  · split
    · exact .refl s
    · exact .of_eq (by simp) (by simp) (by simp) (by simp) (by simp)
  · exact .refl s
  · exact .refl s
  · exact .refl s
  · split
    · exact .refl s
    · exact issueMdu_inert s _ _

theorem memReq_inert (k : Kind) (a w : Word) : Inert s (s.memReq k a w).2 :=
  ⟨fun h => wf_memReq k a w h, by simp, by simp, by simp, by simp⟩

theorem dataRequest_inert (k : Kind) : Inert s (d.dataRequest k r s).2.2 :=
  (checkFault_inert s _ _).trans (memReq_inert _ _ _ _)

theorem complete_inert (datum : Datum) : Inert s (d.complete datum r s).2 := by
  unfold Desc.complete
  split <;> first | exact checkFault_inert s _ _ | exact .refl s

theorem memMove_inert : Inert s (d.memMove r s).2 := by
  unfold Desc.memMove
  split
  · unfold State.mfc0Read
    split <;> exact .of_eq rfl rfl rfl rfl rfl
  all_goals exact .refl s

theorem completeNow_inert (a : Answer) : Inert s (s.completeNow a) :=
  .of_eq (by simp) (by simp) (by simp) (by simp) (by simp)

theorem memStage_inert : Inert s (d.memStage r s).2 := by
  unfold Desc.memStage
  split
  · rename_i k _
    simp only
    split
    · exact dataRequest_inert s d r k
    · exact (dataRequest_inert s d r k).trans ((completeNow_inert _ _).trans (complete_inert _ d _ _))
  · exact memMove_inert s d r

theorem wbStage_inert : Inert s (d.wbStage r s) := by
  unfold Desc.wbStage
  split
  · exact .refl s
  · exact (checkFault_inert s _ _).trans (writeX_inert _ _ _)
  · exact .of_eq (by simp) (by simp) (by simp) (by simp) (by simp)
  · exact .of_eq (by simp) (by simp) (by simp) (by simp) (by simp)

theorem settleMdu_inert : Inert s (d.settleMdu s) := by
  unfold Desc.settleMdu
  split <;> first | exact .refl s | exact .of_eq (by simp) (by simp) (by simp) (by simp) (by simp)

theorem recordEX_inert (i : Reg) (v : Word) : Inert s (s.recordEX i v) :=
  .of_eq (by simp) (by simp) (by simp) (by simp) (by simp)

theorem recordMEM_inert (i : Reg) (v : Word) : Inert s (s.recordMEM i v) :=
  .of_eq (by simp) (by simp) (by simp) (by simp) (by simp)

theorem forwardMEM_inert : Inert s (s.forwardMEM r) := by
  unfold State.forwardMEM
  split <;> first | exact recordMEM_inert s _ _ | exact .refl s

theorem forwardEX_inert : Inert s (s.forwardEX r) := by
  unfold State.forwardEX
  split <;> first | exact recordEX_inert s _ _ | exact .refl s

/-! ## The invariant in parts -/

/-- `State.Inv`, taken apart. -/
structure Good (s : State) : Prop where
  wf : Memory.wf s.mem = true
  x0 : s.x[0] = zeroCell
  pool : s.poolFree + s.pipe.records = s.params.poolCapacity
  tagged : s.pipe.tagged = true
  clean : s.pipe.fpClean = true

theorem good_iff : s.Inv = true ↔ Good s := by
  simp only [State.Inv, State.poolExact, Bool.and_eq_true, beq_iff_eq]
  exact ⟨fun h => ⟨h.1.1.1.1, h.1.1.1.2, h.1.1.2, h.1.2, h.2⟩, fun h => ⟨⟨⟨⟨h.wf, h.x0⟩, h.pool⟩, h.tagged⟩, h.clean⟩⟩

variable {s}

theorem Inert.good {u : State} (h : Inert s u) (g : Good s) : Good u :=
  ⟨h.wf g.wf, h.x0.trans g.x0, by rw [h.pipe, h.poolFree, h.params]; exact g.pool, by rw [h.pipe]; exact g.tagged,
    by rw [h.pipe]; exact g.clean⟩

theorem Good.same {u : State} (g : Good s) (h1 : u.mem = s.mem) (h2 : u.x = s.x) (h3 : u.pipe = s.pipe)
    (h4 : u.poolFree = s.poolFree) (h5 : u.params = s.params) : Good u := (Inert.of_eq h1 h2 h3 h4 h5).good g

/-- After an inert operation, the pipeline and the pool changed. -/
theorem Inert.goodPipe {u : State} (h : Inert s u) (g : Good s) (p : Pipe) (n : Nat)
    (hp : n + p.records = s.poolFree + s.pipe.records) (ht : p.tagged = true) (hc : p.fpClean = true) :
    Good { u with pipe := p, poolFree := n } :=
  ⟨h.wf g.wf, h.x0.trans g.x0, by
    show n + p.records = u.params.poolCapacity
    rw [hp, h.params]; exact g.pool, ht, hc⟩

/-! ## Records keep their exception through the stages that do not detect one -/

@[simp] theorem injectOps_exception (hit : Option (Nat × Word)) : (d.injectOps hit r).exception = r.exception := by
  unfold Desc.injectOps; split <;> rfl

@[simp] theorem linkRec_exception : (d.linkRec r).exception = r.exception := by unfold Desc.linkRec; split <;> rfl

@[simp] theorem idStage_exception : (d.idStage r s).1.exception = r.exception := by simp [Desc.idStage, Desc.readOps]

@[simp] theorem fpResult_exception (f : FPNumerics → DWord → DWord → FpVal) : (fpResult f r s).1.exception = r.exception := rfl

@[simp] theorem complete_exception (datum : Datum) : (d.complete datum r s).1.exception = r.exception := by
  unfold Desc.complete; split <;> rfl

@[simp] theorem memMove_exception : (d.memMove r s).1.exception = r.exception := by unfold Desc.memMove; split <;> rfl

/-! ## The fifteen steps -/

/-- The sum of what the pipeline holds, tag and exception conditions, unfolded. -/
theorem pipe_facts (p : Pipe) :
    p.records = (slotCount p.ifSlot + slotCount p.idSlot + slotCount p.exSlot + slotCount p.memSlot + slotCount p.wbSlot
      + slotCount p.ex1Slot + slotCount p.ex2Slot) + p.ex3List.length + p.fwbList.length := rfl

theorem stepBus_inert (s : State) : Inert s s.stepBus := .of_eq rfl rfl rfl rfl rfl

theorem stepMdu_inert (s : State) : Inert s s.stepMdu := by
  unfold State.stepMdu
  split <;> exact .of_eq rfl rfl rfl rfl rfl

theorem stepBusy_inert (s : State) : Inert s s.stepBusy := .of_eq rfl rfl rfl rfl rfl

theorem prologue_inert (s : State) : Inert s s.prologue := .of_eq rfl rfl rfl rfl rfl

/-- Committing a list frees a record for each entry and touches no other record (R128). -/
theorem commitAll_spec (l : List Rec) (s : State) :
    Inert s { s.commitAll l with poolFree := s.poolFree } ∧ (s.commitAll l).poolFree = s.poolFree + l.length := by
  induction l generalizing s with
  | nil => exact ⟨.refl s, rfl⟩
  | cons r rest ih =>
    have h := fwbCommit_inert s r.desc r
    obtain ⟨h1, h2⟩ := ih { r.desc.fwbCommit r s with poolFree := (r.desc.fwbCommit r s).poolFree + 1 }
    refine ⟨⟨fun hw => h1.wf (h.wf hw), h1.x0.trans h.x0, h1.pipe.trans h.pipe, rfl, h1.params.trans h.params⟩, ?_⟩
    show (State.commitAll _ rest).poolFree = _
    rw [h2, List.length_cons]
    show (r.desc.fwbCommit r s).poolFree + 1 + _ = _
    rw [h.poolFree]; omega

theorem stepFWB_good (g : Good s) : Good s.stepFWB := by
  obtain ⟨h1, h2⟩ := commitAll_spec s.pipe.fwbList s
  have hp : (s.commitAll s.pipe.fwbList).pipe = s.pipe := h1.pipe
  have ht := g.tagged
  have hc := g.clean
  have := h1.goodPipe g { s.pipe with fwbList := [] } (s.poolFree + s.pipe.fwbList.length)
    (by simp only [pipe_facts, List.length_nil]; omega)
    (by simp only [Pipe.tagged, Bool.and_eq_true] at ht ⊢; exact ⟨ht.1, rfl⟩)
    (by simp only [Pipe.fpClean, Bool.and_eq_true] at hc ⊢; exact ⟨hc.1, rfl⟩)
  unfold State.stepFWB
  simp only [hp]
  rw [← h2] at this
  exact this

theorem serviceSteps_good (g : Good s) : Good s.serviceSteps :=
  stepFWB_good ((((prologue_inert s).trans (stepBus_inert _)).trans (stepMdu_inert _)).trans (stepBusy_inert _) |>.good g)

theorem retireWB_good (g : Good s) (r : Rec) (h : s.pipe.wbSlot = some r) :
    Good (s.retireWB r) ∧ (s.retireWB r).pipe.wbSlot = none := by
  have hi := wbStage_inert s r.desc r
  refine ⟨?_, rfl⟩
  have ht := g.tagged
  have hc := g.clean
  have := hi.goodPipe g { s.pipe with wbSlot := none } (s.poolFree + 1)
    (by simp only [pipe_facts, h, slotCount, Option.isSome_none, Option.isSome_some, if_true, Bool.false_eq_true, if_false]; omega)
    (by simp only [Pipe.tagged, h, Bool.and_eq_true] at ht ⊢; simp_all [slotTag])
    (by simpa only [Pipe.fpClean] using hc)
  unfold State.retireWB
  simp only [hi.pipe, hi.poolFree]
  exact this

theorem length_filter_split (l : List Rec) (p : Rec → Bool) :
    (l.filter fun e => !p e).length + (l.filter p).length = l.length := by
  induction l with
  | nil => rfl
  | cons a rest ih => cases h : p a <;> simp_all <;> omega

theorem stepEX3_good (g : Good s) : Good s.stepEX3 := by
  have ht := g.tagged
  have hc := g.clean
  refine (Inert.refl s).goodPipe g _ s.poolFree ?_ ?_ ?_
  · have := length_filter_split s.pipe.ex3List (fun e => e.count == 0)
    simp only [pipe_facts, List.length_map, List.length_append]
    simp only [bne] at this ⊢
    omega
  · simp only [Pipe.tagged, Bool.and_eq_true, List.all_eq_true] at ht ⊢
    refine ⟨⟨ht.1.1, ?_⟩, ?_⟩
    · intro e he
      obtain ⟨e', he', rfl⟩ := List.mem_map.1 he
      exact ht.1.2 e' (List.mem_filter.1 he').1
    · intro e he
      rcases List.mem_append.1 he with he | he
      · exact ht.2 e he
      · obtain ⟨e', he', rfl⟩ := List.mem_map.1 he
        rfl
  · simp only [Pipe.fpClean, Bool.and_eq_true, List.all_eq_true] at hc ⊢
    refine ⟨⟨hc.1.1, ?_⟩, ?_⟩
    · intro e he
      obtain ⟨e', he', rfl⟩ := List.mem_map.1 he
      exact hc.1.2 e' (List.mem_filter.1 he').1
    · intro e he
      rcases List.mem_append.1 he with he | he
      · exact hc.2 e he
      · obtain ⟨e', he', rfl⟩ := List.mem_map.1 he
        exact hc.1.2 e' (List.mem_filter.1 he').1

theorem stepEX2_good (g : Good s) : Good s.stepEX2 ∧ s.stepEX2.pipe.ex2Slot = none := by
  have ht := g.tagged
  have hc := g.clean
  unfold State.stepEX2
  split
  · rename_i r h
    refine ⟨(Inert.refl s).goodPipe g _ s.poolFree ?_ ?_ ?_, rfl⟩
    · simp only [pipe_facts, h, slotCount, List.length_append, List.length_cons, List.length_nil, Option.isSome_none, Option.isSome_some, if_true, Bool.false_eq_true, if_false]
      omega
    · simp only [Pipe.tagged, h, Bool.and_eq_true, List.all_append] at ht ⊢
      simp_all [slotTag]
    · simp only [Pipe.fpClean, h, Bool.and_eq_true, List.all_append] at hc ⊢
      simp_all
  · rename_i h
    exact ⟨g, h⟩

/-- A record routed out of MEM when WBslot is empty (R143). -/
theorem route_good {u : State} (g : Good u) {q : Rec} (h : u.pipe.memSlot = some q) (hw : u.pipe.wbSlot = none) (r : Rec) :
    Good (u.route r) ∧ (u.route r).pipe.memSlot = none ∧ (u.route r).pipe.ex2Slot = u.pipe.ex2Slot := by
  have ht := g.tagged
  have hc := g.clean
  unfold State.route State.toWB
  split
  · rename_i hr
    simp only [Bool.and_eq_true] at hr
    refine ⟨(Inert.refl u).goodPipe g _ u.poolFree ?_ ?_ ?_, rfl, rfl⟩
    · simp only [pipe_facts, h, slotCount, List.length_append, List.length_cons, List.length_nil, Option.isSome_none,
        Option.isSome_some, if_true, Bool.false_eq_true, if_false] <;> omega
    · simp only [Pipe.tagged, h, Bool.and_eq_true, List.all_append] at ht ⊢
      simp_all [slotTag]
    · simp only [Pipe.fpClean, Bool.and_eq_true, List.all_append] at hc ⊢
      simp_all
  · refine ⟨(Inert.refl u).goodPipe g _ u.poolFree ?_ ?_ ?_, rfl, rfl⟩
    · simp only [pipe_facts, h, hw, slotCount, Option.isSome_none, Option.isSome_some, if_true, Bool.false_eq_true, if_false] <;> omega
    · simp only [Pipe.tagged, h, hw, Bool.and_eq_true] at ht ⊢
      simp_all [slotTag]
    · simpa only [Pipe.fpClean] using hc

theorem toWB_good {u : State} (g : Good u) {q : Rec} (h : u.pipe.memSlot = some q) (hw : u.pipe.wbSlot = none) (r : Rec) :
    Good (u.toWB r) ∧ (u.toWB r).pipe.memSlot = none ∧ (u.toWB r).pipe.ex2Slot = u.pipe.ex2Slot := by
  have ht := g.tagged
  have hc := g.clean
  refine ⟨(Inert.refl u).goodPipe g _ u.poolFree ?_ ?_ ?_, rfl, rfl⟩
  · simp only [pipe_facts, h, hw, slotCount, Option.isSome_none, Option.isSome_some, if_true, Bool.false_eq_true, if_false] <;> omega
  · simp only [Pipe.tagged, h, hw, Bool.and_eq_true] at ht ⊢
    simp_all [slotTag]
  · simpa only [Pipe.fpClean] using hc

theorem finishAccess_good (g : Good s) {q : Rec} (h : s.pipe.memSlot = some q) (hw : s.pipe.wbSlot = none) (r : Rec)
    (datum : Datum) :
    Good (s.finishAccess r datum) ∧ (s.finishAccess r datum).pipe.memSlot = none
      ∧ (s.finishAccess r datum).pipe.ex2Slot = s.pipe.ex2Slot := by
  have hi := (complete_inert s r.desc r datum).trans (forwardMEM_inert _ (r.desc.complete datum r s).1)
  have := route_good (hi.good g) (by rw [hi.pipe]; exact h) (by rw [hi.pipe]; exact hw) (r.desc.complete datum r s).1
  rw [hi.pipe] at this
  exact this

theorem stepUnstall_good (g : Good s) (hw : s.pipe.wbSlot = none) :
    Good s.stepUnstall ∧ (s.stepUnstall.pipe.wbSlot = none ∨ s.stepUnstall.pipe.memSlot = none)
      ∧ s.stepUnstall.pipe.ex2Slot = s.pipe.ex2Slot := by
  unfold State.stepUnstall
  split
  · rename_i r tag datum h _
    split
    · have := finishAccess_good g h hw r datum
      exact ⟨this.1, .inr this.2.1, this.2.2⟩
    · exact ⟨g, .inl hw, rfl⟩
  · exact ⟨g, .inl hw, rfl⟩

theorem memStall_of_stage {u : State} {r : Rec} (h : u.pipe.memSlot = some r) (hs : r.stage = .memStall) : u.memStall = true := by
  simp [State.memStall, h, hs]

theorem stepMEM_good (g : Good s) (h0 : s.pipe.wbSlot = none ∨ s.pipe.memSlot = none) :
    Good s.stepMEM ∧ (s.stepMEM.memStall = true ∨ s.stepMEM.pipe.memSlot = none)
      ∧ s.stepMEM.pipe.ex2Slot = s.pipe.ex2Slot := by
  unfold State.stepMEM
  split
  · rename_i r h
    have hw : s.pipe.wbSlot = none := h0.resolve_right (by simp [h])
    split
    · split
      · have := toWB_good g h hw r
        exact ⟨this.1, .inr this.2.1, this.2.2⟩
      · rename_i k _ _
        unfold State.access
        have hi := dataRequest_inert s r.desc r k
        simp only
        split
        · rename_i e _
          have := toWB_good (hi.good g) (q := r) (by rw [hi.pipe]; exact h) (by rw [hi.pipe]; exact hw)
            { (r.desc.dataRequest k r s).1 with exception := some e }
          rw [hi.pipe] at this
          exact ⟨this.1, .inr this.2.1, this.2.2⟩
        · split
          · have := finishAccess_good (hi.good g) (q := r) (by rw [hi.pipe]; exact h) (by rw [hi.pipe]; exact hw)
              (r.desc.dataRequest k r s).1 (r.desc.dataRequest k r s).2.1.datum
            rw [hi.pipe] at this
            exact ⟨this.1, .inr this.2.1, this.2.2⟩
          · have ht := g.tagged
            have hc := g.clean
            rw [hi.pipe]
            refine ⟨?_, .inl rfl, rfl⟩
            have := hi.goodPipe g
              { s.pipe with
                memSlot := some
                  { (r.desc.dataRequest k r s).1 with stage := .memStall, busTag := (r.desc.dataRequest k r s).2.1.tag } }
              s.poolFree
              (by simp only [pipe_facts, h, slotCount, Option.isSome_some])
              (by simp only [Pipe.tagged, h, Bool.and_eq_true] at ht ⊢; simp_all [slotTag])
              (by simpa only [Pipe.fpClean] using hc)
            rw [← hi.poolFree] at this
            exact this
      · have hi := (memMove_inert s r.desc r).trans (forwardMEM_inert _ (r.desc.memMove r s).1)
        have := route_good (hi.good g) (q := r) (by rw [hi.pipe]; exact h) (by rw [hi.pipe]; exact hw) (r.desc.memMove r s).1
        rw [hi.pipe] at this
        exact ⟨this.1, .inr this.2.1, this.2.2⟩
    · rename_i hs
      refine ⟨g, .inl ?_, rfl⟩
      have ht := g.tagged
      simp only [Pipe.tagged, h, slotTag, Bool.and_eq_true] at ht
      have : r.stage = .mem ∨ r.stage = .memStall := by
        have := ht.1.1.1.1.1.2
        simpa using this
      exact memStall_of_stage h (this.resolve_left hs)
  · rename_i h
    exact ⟨g, .inr h, rfl⟩

theorem stepEX1_good (g : Good s) (h2 : s.pipe.ex2Slot = none) :
    Good s.stepEX1 ∧ s.stepEX1.pipe.ex1Slot = none ∧ s.stepEX1.pipe.memSlot = s.pipe.memSlot := by
  have ht := g.tagged
  have hc := g.clean
  unfold State.stepEX1
  split
  · rename_i r h
    have hr : r.exception = none := by
      simp only [Pipe.fpClean, h, Bool.and_eq_true] at hc
      simpa using hc.1.1.1
    split
    · rename_i c f _
      have hi := fpResult_inert s r f
      simp only [hi.pipe]
      refine ⟨?_, by simp, by simp⟩
      have := Inert.goodPipe (u := { (fpResult f r s).2 with busy := (fpResult f r s).2.busy.charge (fpResult f r s).2.params.busy c })
        (hi.trans (.of_eq rfl rfl rfl rfl rfl)) g
        { s.pipe with
          ex1Slot := none
          ex2Slot := some { (fpResult f r s).1 with stage := .ex2, count := fpCountOf (fpResult f r s).2.params.fpCount c } }
        s.poolFree
        (by simp only [pipe_facts, h, h2, slotCount, Option.isSome_none, Option.isSome_some, if_true, Bool.false_eq_true, if_false] <;> omega)
        (by simp only [Pipe.tagged, h, h2, Bool.and_eq_true] at ht ⊢; simp_all [slotTag])
        (by simp only [Pipe.fpClean, h, h2, Bool.and_eq_true] at hc ⊢; simp_all)
      rw [← hi.poolFree] at this
      exact this
    · refine ⟨(Inert.refl s).goodPipe g _ s.poolFree ?_ ?_ ?_, rfl, rfl⟩
      · simp only [pipe_facts, h, h2, slotCount, Option.isSome_none, Option.isSome_some, if_true, Bool.false_eq_true, if_false] <;> omega
      · simp only [Pipe.tagged, h, h2, Bool.and_eq_true] at ht ⊢; simp_all [slotTag]
      · simp only [Pipe.fpClean, h, h2, Bool.and_eq_true] at hc ⊢; simp_all
  · rename_i h
    exact ⟨g, h, rfl⟩

theorem toMEM_good {u : State} (g : Good u) {q : Rec} (h : u.pipe.exSlot = some q) (hm : u.pipe.memSlot = none) (r : Rec) :
    Good (u.toMEM r) ∧ (u.toMEM r).pipe.exSlot = none ∧ (u.toMEM r).pipe.ex1Slot = u.pipe.ex1Slot := by
  have ht := g.tagged
  have hc := g.clean
  refine ⟨(Inert.refl u).goodPipe g _ u.poolFree ?_ ?_ ?_, rfl, rfl⟩
  · simp only [pipe_facts, h, hm, slotCount, Option.isSome_none, Option.isSome_some, if_true, Bool.false_eq_true, if_false] <;> omega
  · simp only [Pipe.tagged, h, hm, Bool.and_eq_true] at ht ⊢; simp_all [slotTag]
  · simpa only [Pipe.fpClean] using hc

theorem stepEX_good (g : Good s) (hm : s.memStall = true ∨ s.pipe.memSlot = none) :
    Good s.stepEX ∧ (s.stepEX.memStall = true ∨ s.stepEX.pipe.exSlot = none)
      ∧ s.stepEX.pipe.ex1Slot = s.pipe.ex1Slot := by
  unfold State.stepEX
  split
  · rename_i r h
    split
    · rename_i hs
      exact ⟨g, .inl hs, rfl⟩
    · rename_i hs
      have hm' := hm.resolve_left hs
      split
      · have := toMEM_good g h hm' r
        exact ⟨this.1, .inr this.2.1, this.2.2⟩
      · have hi := (exStage_inert s r.desc r s.squash).trans (forwardEX_inert _ (r.desc.exStage s.squash r s).1)
        have := toMEM_good (hi.good g) (q := r) (by rw [hi.pipe]; exact h) (by rw [hi.pipe]; exact hm')
          (r.desc.exStage s.squash r s).1
        rw [hi.pipe] at this
        exact ⟨this.1, .inr this.2.1, this.2.2⟩
  · rename_i h
    exact ⟨g, .inr h, rfl⟩

theorem toEX_good {u : State} (g : Good u) {q : Rec} (h : u.pipe.idSlot = some q) (he : u.pipe.exSlot = none) (r : Rec) :
    Good (u.toEX r) ∧ (u.toEX r).pipe.idSlot = none := by
  have ht := g.tagged
  have hc := g.clean
  refine ⟨(Inert.refl u).goodPipe g _ u.poolFree ?_ ?_ ?_, rfl⟩
  · simp only [pipe_facts, h, he, slotCount, Option.isSome_none, Option.isSome_some, if_true, Bool.false_eq_true, if_false] <;> omega
  · simp only [Pipe.tagged, h, he, Bool.and_eq_true] at ht ⊢; simp_all [slotTag]
  · simpa only [Pipe.fpClean] using hc

theorem toEX1_good {u : State} (g : Good u) {q : Rec} (h : u.pipe.idSlot = some q) (he : u.pipe.ex1Slot = none) {r : Rec}
    (hr : r.exception = none) : Good (u.toEX1 r) ∧ (u.toEX1 r).pipe.idSlot = none := by
  have ht := g.tagged
  have hc := g.clean
  refine ⟨(Inert.refl u).goodPipe g _ u.poolFree ?_ ?_ ?_, rfl⟩
  · simp only [pipe_facts, h, he, slotCount, Option.isSome_none, Option.isSome_some, if_true, Bool.false_eq_true, if_false] <;> omega
  · simp only [Pipe.tagged, h, he, Bool.and_eq_true] at ht ⊢; simp_all [slotTag]
  · simp only [Pipe.fpClean, he, Bool.and_eq_true] at hc ⊢; simp_all

theorem stepID_good (g : Good s) (hx : s.memStall = true ∨ s.pipe.exSlot = none) (h1 : s.pipe.ex1Slot = none) :
    Good s.stepID ∧ (s.stepID.memStall = true ∨ s.stepID.idStall = true ∨ s.stepID.pipe.idSlot = none) := by
  unfold State.stepID
  split
  · rename_i r h
    split
    · rename_i hs
      exact ⟨g, .inl hs⟩
    · rename_i hs
      have hx' := hx.resolve_left hs
      have gb : Good { s with bdFlag := false } := g.same rfl rfl rfl rfl rfl
      split
      · have := toEX_good gb h hx' r
        exact ⟨this.1, .inr (.inr this.2)⟩
      · rename_i hr
        unfold State.decodeID
        split
        · rename_i e _
          have := toEX_good gb h hx' { r with exception := some e, ce := r.desc.ce }
          exact ⟨this.1, .inr (.inr this.2)⟩
        · split
          · exact ⟨g.same rfl rfl rfl rfl rfl, .inr (.inl rfl)⟩
          · have hi := idStage_inert s r.desc r
            simp only
            split
            · have := toEX1_good (hi.good g) (q := r) (by rw [hi.pipe]; exact h) (by rw [hi.pipe]; exact h1)
                (r := (r.desc.idStage r s).1) (by simp [hr])
              exact ⟨this.1, .inr (.inr this.2)⟩
            · have := toEX_good (hi.good g) (q := r) (by rw [hi.pipe]; exact h) (by rw [hi.pipe]; exact hx')
                (r.desc.idStage r s).1
              exact ⟨this.1, .inr (.inr this.2)⟩
  · rename_i h
    exact ⟨g, .inr (.inr h)⟩

theorem promoteOrStay_good {u : State} (g : Good u) {q : Rec} (h : u.pipe.ifSlot = some q)
    (hid : u.memStall = true ∨ u.idStall = true ∨ u.pipe.idSlot = none) {r : Rec} (hr : r.stage = q.stage) :
    Good (u.promoteOrStay r) := by
  have ht := g.tagged
  have hc := g.clean
  unfold State.promoteOrStay
  split
  · refine (Inert.refl u).goodPipe g _ u.poolFree ?_ ?_ ?_
    · simp only [pipe_facts, h, slotCount, Option.isSome_some]
    · simp only [Pipe.tagged, h, Bool.and_eq_true] at ht ⊢
      simp_all [slotTag]
    · simpa only [Pipe.fpClean] using hc
  · rename_i hs
    simp only [Bool.or_eq_true, not_or] at hs
    have hid' := (hid.resolve_left hs.1).resolve_left hs.2
    refine Inert.goodPipe (s := u) (u := u.commitPc) (.of_eq rfl rfl rfl rfl rfl) g _ u.poolFree ?_ ?_ ?_
    · simp only [pipe_facts, h, hid', slotCount, Option.isSome_none, Option.isSome_some, if_true, Bool.false_eq_true, if_false] <;> omega
    · simp only [Pipe.tagged, h, hid', Bool.and_eq_true] at ht ⊢
      simp_all [slotTag]
    · simpa only [Pipe.fpClean] using hc

theorem memStall_congr {u v : State} (h : u.pipe = v.pipe) : u.memStall = v.memStall := by simp [State.memStall, h]

theorem stepIF_good (g : Good s) (hid : s.memStall = true ∨ s.idStall = true ∨ s.pipe.idSlot = none) : Good s.stepIF := by
  have ht := g.tagged
  have hc := g.clean
  unfold State.stepIF
  split
  · rename_i r h
    have keep : ∀ (q : Rec) (u : State), Inert s u → q.stage = .ifetch ∨ q.stage = .ifStall →
        Good { u with pipe := { u.pipe with ifSlot := some q } } := fun q u hi hq => by
      have := hi.goodPipe g { s.pipe with ifSlot := some q } s.poolFree
        (by simp only [pipe_facts, h, slotCount, Option.isSome_some])
        (by simp only [Pipe.tagged, h, Bool.and_eq_true] at ht ⊢; rcases hq with hq | hq <;> simp_all [slotTag])
        (by simpa only [Pipe.fpClean] using hc)
      rw [← hi.poolFree] at this
      rw [hi.pipe]
      exact this
    split
    · rename_i hs
      have hl : (s.latchFetch r).stage = r.stage := by
        unfold State.latchFetch Rec.fetched
        split
        · split
          · simp only; split <;> rfl
          · rfl
        · rfl
      simp only
      split
      · exact promoteOrStay_good g h hid hl
      · exact keep _ s (.refl s) (.inr (hl.trans hs))
    · rename_i hs
      have hq : r.stage = .ifetch := by
        simp only [Pipe.tagged, h, slotTag, Bool.and_eq_true] at ht
        have : r.stage = .ifetch ∨ r.stage = .ifStall := by simpa using ht.1.1.1.1.1.1.1.1
        exact this.resolve_right hs
      have hi := memReq_inert s .ifetch r.pc 0
      have hid' : (s.memReq .ifetch r.pc 0).2.memStall = true ∨ (s.memReq .ifetch r.pc 0).2.idStall = true
          ∨ (s.memReq .ifetch r.pc 0).2.pipe.idSlot = none := by
        rw [memStall_congr hi.pipe, hi.pipe, memReq_idStall]; exact hid
      unfold State.fetchIF
      simp only
      split
      · exact promoteOrStay_good (hi.good g) (q := r) (by rw [hi.pipe]; exact h) hid' rfl
      · split
        · exact promoteOrStay_good (hi.good g) (q := r) (by rw [hi.pipe]; exact h) hid' (by unfold Rec.fetched; split <;> rfl)
        · exact keep _ _ hi (.inr rfl)
  · exact g

theorem advanceSteps_good (g : Good s) (hw : s.pipe.wbSlot = none) : Good s.advanceSteps := by
  have g1 := stepEX3_good g
  have hw1 : s.stepEX3.pipe.wbSlot = none := hw
  obtain ⟨g2, h2⟩ := stepEX2_good g1
  have hw2 : s.stepEX3.stepEX2.pipe.wbSlot = none := by
    unfold State.stepEX2; split <;> exact hw1
  obtain ⟨g3, h3, e3⟩ := stepUnstall_good g2 hw2
  obtain ⟨g4, h4, e4⟩ := stepMEM_good g3 h3
  obtain ⟨g5, h5, e5⟩ := stepEX1_good g4 (by rw [e4, e3]; exact h2)
  have h4' := h4
  rw [show s.stepEX3.stepEX2.stepUnstall.stepMEM.memStall = s.stepEX3.stepEX2.stepUnstall.stepMEM.stepEX1.memStall by
    simp [State.memStall, e5], ← e5] at h4'
  obtain ⟨g6, h6, e6⟩ := stepEX_good g5 h4'
  obtain ⟨g7, h7⟩ := stepID_good g6 h6 (by rw [e6]; exact h5)
  exact stepIF_good g7 h7

theorem allocate_good (g : Good s) {t : State} (h : s.allocate = some t) : Good t := by
  have ht := g.tagged
  have hc := g.clean
  unfold State.allocate at h
  split at h
  · cases h; exact g
  · rename_i hi
    split at h
    · cases h
    · cases h
      refine (Inert.refl s).goodPipe g _ _ ?_ ?_ ?_
      · simp only [pipe_facts, hi, slotCount, Option.isSome_none, Option.isSome_some, if_true, Bool.false_eq_true, if_false] <;> omega
      · simp only [Pipe.tagged, hi, Bool.and_eq_true] at ht ⊢
        simp_all [slotTag, freshRec]
      · simpa only [Pipe.fpClean] using hc

theorem restoreClaims_inert (c : List Claim) (s : State) : Inert s (s.restoreClaims c) :=
  .of_eq (by simp) (by simp) (by simp) (by simp) (by simp)

theorem takeException_good (g : Good s) (r : Rec) (e : Exc) (c : List Claim) : Good (s.takeException r e c) := by
  have ht := g.tagged
  have hc := g.clean
  have hi : Inert s ((s.commitException r e).restoreClaims c) :=
    .of_eq (by simp) (by simp) (by simp) (by simp) (by simp)
  unfold State.takeException State.flush
  have := Inert.goodPipe (u := { (s.commitException r e).restoreClaims c with
      bdFlag := false, idStall := false, bypEX := none, bypMEM := none
      fpc := Config.freePc ((s.commitException r e).restoreClaims c).draws
      fnpc := Config.freePc (((s.commitException r e).restoreClaims c).draws + 1)
      draws := ((s.commitException r e).restoreClaims c).draws + 2 })
    (hi.trans (.of_eq rfl rfl rfl rfl rfl)) g
    { emptyPipe with ex3List := s.pipe.ex3List, fwbList := s.pipe.fwbList } (s.poolFree + s.pipe.slotRecords)
    (by simp only [Pipe.records, Pipe.slotRecords, emptyPipe, slotCount, Option.isSome_none, Bool.false_eq_true, if_false] <;> omega)
    (by simp only [Pipe.tagged, emptyPipe, Bool.and_eq_true, slotTag] at ht ⊢; simp_all)
    (by simp only [Pipe.fpClean, emptyPipe, Bool.and_eq_true] at hc ⊢; simp_all)
  simp only [hi.pipe, hi.poolFree]
  exact this

theorem runCycle_good (g : Good s) {t : State} (h : s.runCycle = some t) : Good t := by
  have g1 := serviceSteps_good g
  unfold State.runCycle at h
  simp only at h
  split at h
  · rename_i hw
    exact allocate_good (advanceSteps_good g1 hw) h
  · rename_i r hw
    split at h
    · cases h
      exact takeException_good g1 _ _ _
    · obtain ⟨g2, hw2⟩ := retireWB_good g1 r hw
      exact allocate_good (advanceSteps_good g2 hw2) h

/-! ## Runs, traps, instructions alone, calls -/

theorem startRun_good (g : Good s) (a : Word) (n : Nat) : Good (s.startRun a n) := by
  unfold State.startRun
  split
  · exact g.same rfl rfl rfl rfl rfl
  · split
    · rename_i t h
      have := allocate_good (s := s.startAt a) (g.same rfl rfl rfl rfl rfl) h
      exact this.same rfl rfl rfl rfl rfl
    · exact g.same rfl rfl rfl rfl rfl

theorem runOne_good (g : Good s) (n : Nat) : Good (s.runOne n) := by
  unfold State.runOne
  split
  · rename_i t h
    have g1 := runCycle_good g h
    unfold State.afterCycle
    split
    · split
      · refine startRun_good ?_ _ _; exact g1.same rfl rfl rfl rfl rfl
      · exact g1.same rfl rfl rfl rfl rfl
    · exact g1.same rfl rfl rfl rfl rfl
  · exact g.same rfl rfl rfl rfl rfl

theorem afterException_good (g : Good s) : Good s.afterException :=
  g.same (by simp) (by simp) (by simp) (by simp) (by simp)

theorem trap_good (g : Good s) (r e c) : Good (s.trap r e c) := afterException_good (takeException_good g r e c)

theorem retire_good (g : Good s) (d : Desc) (r) : Good (d.retire r s) := by
  unfold Desc.retire
  split
  · exact trap_good g _ _ _
  · split
    · exact (fwbCommit_inert _ _ _).good g
    · exact (wbStage_inert _ _ _).good g

theorem transit_good (g : Good s) (d : Desc) : Good (transit d s) := by
  unfold transit
  split
  · refine trap_good ?_ _ _ _; exact g.same rfl rfl rfl rfl rfl
  · have hi := idStage_inert s.prologue.commitPc d s.promotedRec
    have g1 : Good s.prologue.commitPc := g.same rfl rfl rfl rfl rfl
    simp only
    split
    · exact ((fpResult_inert _ _ _).trans (fwbCommit_inert _ _ _)).good (hi.good g1)
    · unfold Desc.finish
      simp only
      split
      · exact retire_good ((exStage_inert _ _ _ _).good (hi.good g1)) _ _
      · exact retire_good (((exStage_inert _ _ _ _).trans ((settleMdu_inert _ _).trans (memStage_inert _ _ _))).good (hi.good g1)) _ _

/-- Every instruction completes: what it does is its description carried through the stages. -/
theorem exec_eq (i : Instr) (s : State) : exec i s = .next (transit (descOf i) s) := by cases i <;> rfl

theorem settle_good (g : Good s) : Good s.settle := by
  obtain ⟨h1, h2⟩ := commitAll_spec s.pipe.fwbList s
  obtain ⟨h3, h4⟩ := commitAll_spec s.pipe.ex3List (s.commitAll s.pipe.fwbList)
  have hp : (s.commitAll s.pipe.fwbList).pipe = s.pipe := h1.pipe
  have ht := g.tagged
  have hc := g.clean
  have h13 : Inert s { (s.commitAll s.pipe.fwbList).commitAll s.pipe.ex3List with poolFree := s.poolFree } :=
    ⟨fun hw => h3.wf (h1.wf hw), h3.x0.trans h1.x0, h3.pipe.trans h1.pipe, rfl, h3.params.trans h1.params⟩
  have := h13.goodPipe g { s.pipe with fwbList := [], ex3List := [] } (s.poolFree + s.pipe.fwbList.length + s.pipe.ex3List.length)
    (by simp only [pipe_facts, List.length_nil]; omega)
    (by simp only [Pipe.tagged, Bool.and_eq_true] at ht ⊢; simp_all)
    (by simp only [Pipe.fpClean, Bool.and_eq_true] at hc ⊢; simp_all)
  have hpool : ((s.commitAll s.pipe.fwbList).commitAll s.pipe.ex3List).poolFree = s.poolFree + s.pipe.fwbList.length + s.pipe.ex3List.length := by
    rw [h4, h2]
  have hpp : ((s.commitAll s.pipe.fwbList).commitAll s.pipe.ex3List).pipe = s.pipe := h13.pipe
  rw [← hpool] at this
  unfold State.settle
  simp only [hpp]
  split
  · exact this.same rfl rfl rfl rfl rfl
  · exact this.same rfl rfl rfl rfl rfl

theorem fetchWord_inert (s : State) : Inert s s.fetchWord.2 := by
  obtain ⟨-, h | h⟩ := fetchWord_spec s
  · rw [h]; exact .refl s
  · rw [h]; exact ⟨id, rfl, rfl, rfl, rfl⟩

theorem fetch_good (g : Good s) : Good s.fetch.2 :=
  (((fetchWord_inert s).trans ((memReq_inert _ _ _ _).trans (completeNow_inert _ _))).good g).same rfl rfl rfl rfl rfl

theorem initInjection_good (g : Good s) (a b) : Good (s.initInjection a b) := by
  unfold State.initInjection
  split <;> exact g.same rfl rfl rfl rfl rfl

theorem resetCall_good (g : Good s) : Good s.resetCall := by
  refine ⟨g.wf, by rfl, by show s.params.poolCapacity + 0 = _; rfl, rfl, rfl⟩

theorem call_good (g : Good s) (c) : Good (s.call c) := by
  unfold State.call
  split
  · exact resetCall_good g
  · exact initInjection_good g _ _
  · exact startRun_good g _ _
  · split
    · exact g.same rfl rfl rfl rfl rfl
    · exact g
  · exact Inert.good ⟨fun h => wf_writeBytes _ _ h, rfl, rfl, rfl, rfl⟩ g

end Sys2Proof.Machine
end

