-- ==== Sys2Proof/Laws/PerInstr.lean ====
section
/-! SUPPORT. The family TableBits: the encoding of every instruction has the fixed bits its row of spec/opcode_table.json gives
it, and each of its operands in the bits the row names. -/

namespace Sys2Proof.Laws.TableBits

/-- A row of spec/opcode_table.json: its mask, its match, and for each field its lowest bit, its width and the operand. -/
structure Row where
  mask : Word
  bits : Word
  fields : List (Nat × Nat × Nat)
  deriving DecidableEq, Repr

/-- The row of an instruction (spec/opcode_table.json, "mask", "match", "fields"). -/
def row : Instr → Row
  | .add rd rs rt => ⟨0xFC0007FF, 0x00000020, [(21, 5, rs.toNat), (16, 5, rt.toNat), (11, 5, rd.toNat)]⟩
  | .addu rd rs rt => ⟨0xFC0007FF, 0x00000021, [(21, 5, rs.toNat), (16, 5, rt.toNat), (11, 5, rd.toNat)]⟩
  | .sub rd rs rt => ⟨0xFC0007FF, 0x00000022, [(21, 5, rs.toNat), (16, 5, rt.toNat), (11, 5, rd.toNat)]⟩
  | .subu rd rs rt => ⟨0xFC0007FF, 0x00000023, [(21, 5, rs.toNat), (16, 5, rt.toNat), (11, 5, rd.toNat)]⟩
  | .and rd rs rt => ⟨0xFC0007FF, 0x00000024, [(21, 5, rs.toNat), (16, 5, rt.toNat), (11, 5, rd.toNat)]⟩
  | .or rd rs rt => ⟨0xFC0007FF, 0x00000025, [(21, 5, rs.toNat), (16, 5, rt.toNat), (11, 5, rd.toNat)]⟩
  | .xor rd rs rt => ⟨0xFC0007FF, 0x00000026, [(21, 5, rs.toNat), (16, 5, rt.toNat), (11, 5, rd.toNat)]⟩
  | .nor rd rs rt => ⟨0xFC0007FF, 0x00000027, [(21, 5, rs.toNat), (16, 5, rt.toNat), (11, 5, rd.toNat)]⟩
  | .slt rd rs rt => ⟨0xFC0007FF, 0x0000002A, [(21, 5, rs.toNat), (16, 5, rt.toNat), (11, 5, rd.toNat)]⟩
  | .sltu rd rs rt => ⟨0xFC0007FF, 0x0000002B, [(21, 5, rs.toNat), (16, 5, rt.toNat), (11, 5, rd.toNat)]⟩
  | .sll rd rt shamt => ⟨0xFFE0003F, 0x00000000, [(16, 5, rt.toNat), (11, 5, rd.toNat), (6, 5, shamt.toNat)]⟩
  | .srl rd rt shamt => ⟨0xFFE0003F, 0x00000002, [(16, 5, rt.toNat), (11, 5, rd.toNat), (6, 5, shamt.toNat)]⟩
  | .sra rd rt shamt => ⟨0xFFE0003F, 0x00000003, [(16, 5, rt.toNat), (11, 5, rd.toNat), (6, 5, shamt.toNat)]⟩
  | .sllv rd rt rs => ⟨0xFC0007FF, 0x00000004, [(21, 5, rs.toNat), (16, 5, rt.toNat), (11, 5, rd.toNat)]⟩
  | .srlv rd rt rs => ⟨0xFC0007FF, 0x00000006, [(21, 5, rs.toNat), (16, 5, rt.toNat), (11, 5, rd.toNat)]⟩
  | .srav rd rt rs => ⟨0xFC0007FF, 0x00000007, [(21, 5, rs.toNat), (16, 5, rt.toNat), (11, 5, rd.toNat)]⟩
  | .addi rt rs imm => ⟨0xFC000000, 0x20000000, [(21, 5, rs.toNat), (16, 5, rt.toNat), (0, 16, imm.toNat)]⟩
  | .addiu rt rs imm => ⟨0xFC000000, 0x24000000, [(21, 5, rs.toNat), (16, 5, rt.toNat), (0, 16, imm.toNat)]⟩
  | .slti rt rs imm => ⟨0xFC000000, 0x28000000, [(21, 5, rs.toNat), (16, 5, rt.toNat), (0, 16, imm.toNat)]⟩
  | .sltiu rt rs imm => ⟨0xFC000000, 0x2C000000, [(21, 5, rs.toNat), (16, 5, rt.toNat), (0, 16, imm.toNat)]⟩
  | .andi rt rs imm => ⟨0xFC000000, 0x30000000, [(21, 5, rs.toNat), (16, 5, rt.toNat), (0, 16, imm.toNat)]⟩
  | .ori rt rs imm => ⟨0xFC000000, 0x34000000, [(21, 5, rs.toNat), (16, 5, rt.toNat), (0, 16, imm.toNat)]⟩
  | .xori rt rs imm => ⟨0xFC000000, 0x38000000, [(21, 5, rs.toNat), (16, 5, rt.toNat), (0, 16, imm.toNat)]⟩
  | .lui rt imm => ⟨0xFFE00000, 0x3C000000, [(16, 5, rt.toNat), (0, 16, imm.toNat)]⟩
  | .mult rs rt => ⟨0xFC00FFFF, 0x00000018, [(21, 5, rs.toNat), (16, 5, rt.toNat)]⟩
  | .multu rs rt => ⟨0xFC00FFFF, 0x00000019, [(21, 5, rs.toNat), (16, 5, rt.toNat)]⟩
  | .div rs rt => ⟨0xFC00FFFF, 0x0000001A, [(21, 5, rs.toNat), (16, 5, rt.toNat)]⟩
  | .divu rs rt => ⟨0xFC00FFFF, 0x0000001B, [(21, 5, rs.toNat), (16, 5, rt.toNat)]⟩
  | .mfhi rd => ⟨0xFFFF07FF, 0x00000010, [(11, 5, rd.toNat)]⟩
  | .mflo rd => ⟨0xFFFF07FF, 0x00000012, [(11, 5, rd.toNat)]⟩
  | .mthi rs => ⟨0xFC1FFFFF, 0x00000011, [(21, 5, rs.toNat)]⟩
  | .mtlo rs => ⟨0xFC1FFFFF, 0x00000013, [(21, 5, rs.toNat)]⟩
  | .lb rt imm rs => ⟨0xFC000000, 0x80000000, [(21, 5, rs.toNat), (16, 5, rt.toNat), (0, 16, imm.toNat)]⟩
  | .lbu rt imm rs => ⟨0xFC000000, 0x90000000, [(21, 5, rs.toNat), (16, 5, rt.toNat), (0, 16, imm.toNat)]⟩
  | .lh rt imm rs => ⟨0xFC000000, 0x84000000, [(21, 5, rs.toNat), (16, 5, rt.toNat), (0, 16, imm.toNat)]⟩
  | .lhu rt imm rs => ⟨0xFC000000, 0x94000000, [(21, 5, rs.toNat), (16, 5, rt.toNat), (0, 16, imm.toNat)]⟩
  | .lw rt imm rs => ⟨0xFC000000, 0x8C000000, [(21, 5, rs.toNat), (16, 5, rt.toNat), (0, 16, imm.toNat)]⟩
  | .sb rt imm rs => ⟨0xFC000000, 0xA0000000, [(21, 5, rs.toNat), (16, 5, rt.toNat), (0, 16, imm.toNat)]⟩
  | .sh rt imm rs => ⟨0xFC000000, 0xA4000000, [(21, 5, rs.toNat), (16, 5, rt.toNat), (0, 16, imm.toNat)]⟩
  | .sw rt imm rs => ⟨0xFC000000, 0xAC000000, [(21, 5, rs.toNat), (16, 5, rt.toNat), (0, 16, imm.toNat)]⟩
  | .beq rs rt imm => ⟨0xFC000000, 0x10000000, [(21, 5, rs.toNat), (16, 5, rt.toNat), (0, 16, imm.toNat)]⟩
  | .bne rs rt imm => ⟨0xFC000000, 0x14000000, [(21, 5, rs.toNat), (16, 5, rt.toNat), (0, 16, imm.toNat)]⟩
  | .blez rs imm => ⟨0xFC1F0000, 0x18000000, [(21, 5, rs.toNat), (0, 16, imm.toNat)]⟩
  | .bgtz rs imm => ⟨0xFC1F0000, 0x1C000000, [(21, 5, rs.toNat), (0, 16, imm.toNat)]⟩
  | .bltz rs imm => ⟨0xFC1F0000, 0x04000000, [(21, 5, rs.toNat), (0, 16, imm.toNat)]⟩
  | .bgez rs imm => ⟨0xFC1F0000, 0x04010000, [(21, 5, rs.toNat), (0, 16, imm.toNat)]⟩
  | .bltzal rs imm => ⟨0xFC1F0000, 0x04100000, [(21, 5, rs.toNat), (0, 16, imm.toNat)]⟩
  | .bgezal rs imm => ⟨0xFC1F0000, 0x04110000, [(21, 5, rs.toNat), (0, 16, imm.toNat)]⟩
  | .j target => ⟨0xFC000000, 0x08000000, [(0, 26, target.toNat)]⟩
  | .jal target => ⟨0xFC000000, 0x0C000000, [(0, 26, target.toNat)]⟩
  | .jr rs => ⟨0xFC1FFFFF, 0x00000008, [(21, 5, rs.toNat)]⟩
  | .jalr rd rs => ⟨0xFC1F07FF, 0x00000009, [(21, 5, rs.toNat), (11, 5, rd.toNat)]⟩
  | .addS fd fs ft => ⟨0xFFE0003F, 0x46000000, [(16, 5, ft.toNat), (11, 5, fs.toNat), (6, 5, fd.toNat)]⟩
  | .addD fd fs ft => ⟨0xFFE0003F, 0x46200000, [(16, 5, ft.toNat), (11, 5, fs.toNat), (6, 5, fd.toNat)]⟩
  | .subS fd fs ft => ⟨0xFFE0003F, 0x46000001, [(16, 5, ft.toNat), (11, 5, fs.toNat), (6, 5, fd.toNat)]⟩
  | .subD fd fs ft => ⟨0xFFE0003F, 0x46200001, [(16, 5, ft.toNat), (11, 5, fs.toNat), (6, 5, fd.toNat)]⟩
  | .mulS fd fs ft => ⟨0xFFE0003F, 0x46000002, [(16, 5, ft.toNat), (11, 5, fs.toNat), (6, 5, fd.toNat)]⟩
  | .mulD fd fs ft => ⟨0xFFE0003F, 0x46200002, [(16, 5, ft.toNat), (11, 5, fs.toNat), (6, 5, fd.toNat)]⟩
  | .divS fd fs ft => ⟨0xFFE0003F, 0x46000003, [(16, 5, ft.toNat), (11, 5, fs.toNat), (6, 5, fd.toNat)]⟩
  | .divD fd fs ft => ⟨0xFFE0003F, 0x46200003, [(16, 5, ft.toNat), (11, 5, fs.toNat), (6, 5, fd.toNat)]⟩
  | .absS fd fs => ⟨0xFFFF003F, 0x46000005, [(11, 5, fs.toNat), (6, 5, fd.toNat)]⟩
  | .absD fd fs => ⟨0xFFFF003F, 0x46200005, [(11, 5, fs.toNat), (6, 5, fd.toNat)]⟩
  | .negS fd fs => ⟨0xFFFF003F, 0x46000007, [(11, 5, fs.toNat), (6, 5, fd.toNat)]⟩
  | .negD fd fs => ⟨0xFFFF003F, 0x46200007, [(11, 5, fs.toNat), (6, 5, fd.toNat)]⟩
  | .movS fd fs => ⟨0xFFFF003F, 0x46000006, [(11, 5, fs.toNat), (6, 5, fd.toNat)]⟩
  | .movD fd fs => ⟨0xFFFF003F, 0x46200006, [(11, 5, fs.toNat), (6, 5, fd.toNat)]⟩
  | .cvtSD fd fs => ⟨0xFFFF003F, 0x46200020, [(11, 5, fs.toNat), (6, 5, fd.toNat)]⟩
  | .cvtSW fd fs => ⟨0xFFFF003F, 0x46800020, [(11, 5, fs.toNat), (6, 5, fd.toNat)]⟩
  | .cvtDS fd fs => ⟨0xFFFF003F, 0x46000021, [(11, 5, fs.toNat), (6, 5, fd.toNat)]⟩
  | .cvtDW fd fs => ⟨0xFFFF003F, 0x46800021, [(11, 5, fs.toNat), (6, 5, fd.toNat)]⟩
  | .cvtWS fd fs => ⟨0xFFFF003F, 0x46000024, [(11, 5, fs.toNat), (6, 5, fd.toNat)]⟩
  | .cvtWD fd fs => ⟨0xFFFF003F, 0x46200024, [(11, 5, fs.toNat), (6, 5, fd.toNat)]⟩
  | .cFS fs ft => ⟨0xFFE007FF, 0x46000030, [(16, 5, ft.toNat), (11, 5, fs.toNat)]⟩
  | .cUnS fs ft => ⟨0xFFE007FF, 0x46000031, [(16, 5, ft.toNat), (11, 5, fs.toNat)]⟩
  | .cEqS fs ft => ⟨0xFFE007FF, 0x46000032, [(16, 5, ft.toNat), (11, 5, fs.toNat)]⟩
  | .cUeqS fs ft => ⟨0xFFE007FF, 0x46000033, [(16, 5, ft.toNat), (11, 5, fs.toNat)]⟩
  | .cOltS fs ft => ⟨0xFFE007FF, 0x46000034, [(16, 5, ft.toNat), (11, 5, fs.toNat)]⟩
  | .cUltS fs ft => ⟨0xFFE007FF, 0x46000035, [(16, 5, ft.toNat), (11, 5, fs.toNat)]⟩
  | .cOleS fs ft => ⟨0xFFE007FF, 0x46000036, [(16, 5, ft.toNat), (11, 5, fs.toNat)]⟩
  | .cUleS fs ft => ⟨0xFFE007FF, 0x46000037, [(16, 5, ft.toNat), (11, 5, fs.toNat)]⟩
  | .cSfS fs ft => ⟨0xFFE007FF, 0x46000038, [(16, 5, ft.toNat), (11, 5, fs.toNat)]⟩
  | .cNgleS fs ft => ⟨0xFFE007FF, 0x46000039, [(16, 5, ft.toNat), (11, 5, fs.toNat)]⟩
  | .cSeqS fs ft => ⟨0xFFE007FF, 0x4600003A, [(16, 5, ft.toNat), (11, 5, fs.toNat)]⟩
  | .cNglS fs ft => ⟨0xFFE007FF, 0x4600003B, [(16, 5, ft.toNat), (11, 5, fs.toNat)]⟩
  | .cLtS fs ft => ⟨0xFFE007FF, 0x4600003C, [(16, 5, ft.toNat), (11, 5, fs.toNat)]⟩
  | .cNgeS fs ft => ⟨0xFFE007FF, 0x4600003D, [(16, 5, ft.toNat), (11, 5, fs.toNat)]⟩
  | .cLeS fs ft => ⟨0xFFE007FF, 0x4600003E, [(16, 5, ft.toNat), (11, 5, fs.toNat)]⟩
  | .cNgtS fs ft => ⟨0xFFE007FF, 0x4600003F, [(16, 5, ft.toNat), (11, 5, fs.toNat)]⟩
  | .cFD fs ft => ⟨0xFFE007FF, 0x46200030, [(16, 5, ft.toNat), (11, 5, fs.toNat)]⟩
  | .cUnD fs ft => ⟨0xFFE007FF, 0x46200031, [(16, 5, ft.toNat), (11, 5, fs.toNat)]⟩
  | .cEqD fs ft => ⟨0xFFE007FF, 0x46200032, [(16, 5, ft.toNat), (11, 5, fs.toNat)]⟩
  | .cUeqD fs ft => ⟨0xFFE007FF, 0x46200033, [(16, 5, ft.toNat), (11, 5, fs.toNat)]⟩
  | .cOltD fs ft => ⟨0xFFE007FF, 0x46200034, [(16, 5, ft.toNat), (11, 5, fs.toNat)]⟩
  | .cUltD fs ft => ⟨0xFFE007FF, 0x46200035, [(16, 5, ft.toNat), (11, 5, fs.toNat)]⟩
  | .cOleD fs ft => ⟨0xFFE007FF, 0x46200036, [(16, 5, ft.toNat), (11, 5, fs.toNat)]⟩
  | .cUleD fs ft => ⟨0xFFE007FF, 0x46200037, [(16, 5, ft.toNat), (11, 5, fs.toNat)]⟩
  | .cSfD fs ft => ⟨0xFFE007FF, 0x46200038, [(16, 5, ft.toNat), (11, 5, fs.toNat)]⟩
  | .cNgleD fs ft => ⟨0xFFE007FF, 0x46200039, [(16, 5, ft.toNat), (11, 5, fs.toNat)]⟩
  | .cSeqD fs ft => ⟨0xFFE007FF, 0x4620003A, [(16, 5, ft.toNat), (11, 5, fs.toNat)]⟩
  | .cNglD fs ft => ⟨0xFFE007FF, 0x4620003B, [(16, 5, ft.toNat), (11, 5, fs.toNat)]⟩
  | .cLtD fs ft => ⟨0xFFE007FF, 0x4620003C, [(16, 5, ft.toNat), (11, 5, fs.toNat)]⟩
  | .cNgeD fs ft => ⟨0xFFE007FF, 0x4620003D, [(16, 5, ft.toNat), (11, 5, fs.toNat)]⟩
  | .cLeD fs ft => ⟨0xFFE007FF, 0x4620003E, [(16, 5, ft.toNat), (11, 5, fs.toNat)]⟩
  | .cNgtD fs ft => ⟨0xFFE007FF, 0x4620003F, [(16, 5, ft.toNat), (11, 5, fs.toNat)]⟩
  | .lwc1 ft imm rs => ⟨0xFC000000, 0xC4000000, [(21, 5, rs.toNat), (16, 5, ft.toNat), (0, 16, imm.toNat)]⟩
  | .swc1 ft imm rs => ⟨0xFC000000, 0xE4000000, [(21, 5, rs.toNat), (16, 5, ft.toNat), (0, 16, imm.toNat)]⟩
  | .mfc1 rt fs => ⟨0xFFE007FF, 0x44000000, [(16, 5, rt.toNat), (11, 5, fs.toNat)]⟩
  | .mtc1 rt fs => ⟨0xFFE007FF, 0x44800000, [(16, 5, rt.toNat), (11, 5, fs.toNat)]⟩
  | .bc1t imm => ⟨0xFFFF0000, 0x45010000, [(0, 16, imm.toNat)]⟩
  | .bc1f imm => ⟨0xFFFF0000, 0x45000000, [(0, 16, imm.toNat)]⟩
  | .syscall code => ⟨0xFC00003F, 0x0000000C, [(6, 20, code.toNat)]⟩
  | .brk code => ⟨0xFC00003F, 0x0000000D, [(6, 20, code.toNat)]⟩
  | .mfc0 rt rd => ⟨0xFFE007FF, 0x40000000, [(16, 5, rt.toNat), (11, 5, rd.toNat)]⟩
  | .mtc0 rt rd => ⟨0xFFE007FF, 0x40800000, [(16, 5, rt.toNat), (11, 5, rd.toNat)]⟩

/-- The encoding of an instruction agrees with its row. -/
def Statement (i : Instr) : Prop :=
  encode i &&& (row i).mask = (row i).bits ∧ ∀ f ∈ (row i).fields, (encode i).toNat / 2 ^ f.1 % 2 ^ f.2.1 = f.2.2

theorem add (rd rs rt : Reg) : Statement (.add rd rs rt) := by
  refine ⟨?_, ?_⟩
  · show rForm _ _ _ _ _ _ &&& (0xFC0007FF : Word) = 0x00000020
    rw [show (0xFC0007FF : Word) = rForm 63 0 0 0 31 63 from by decide, rForm_and]; simp; rfl
  · simp only [row, List.forall_mem_cons]
    exact ⟨(field_toNat _ _ _).trans (congrArg BitVec.toNat (rsOf_rForm _ _ _ _ _ _)), (field_toNat _ _ _).trans (congrArg BitVec.toNat (rtOf_rForm _ _ _ _ _ _)), (field_toNat _ _ _).trans (congrArg BitVec.toNat (rdOf_rForm _ _ _ _ _ _)), by simp⟩
theorem addu (rd rs rt : Reg) : Statement (.addu rd rs rt) := by
  refine ⟨?_, ?_⟩
  · show rForm _ _ _ _ _ _ &&& (0xFC0007FF : Word) = 0x00000021
    rw [show (0xFC0007FF : Word) = rForm 63 0 0 0 31 63 from by decide, rForm_and]; simp; rfl
  · simp only [row, List.forall_mem_cons]
    exact ⟨(field_toNat _ _ _).trans (congrArg BitVec.toNat (rsOf_rForm _ _ _ _ _ _)), (field_toNat _ _ _).trans (congrArg BitVec.toNat (rtOf_rForm _ _ _ _ _ _)), (field_toNat _ _ _).trans (congrArg BitVec.toNat (rdOf_rForm _ _ _ _ _ _)), by simp⟩
theorem sub (rd rs rt : Reg) : Statement (.sub rd rs rt) := by
  refine ⟨?_, ?_⟩
  · show rForm _ _ _ _ _ _ &&& (0xFC0007FF : Word) = 0x00000022
    rw [show (0xFC0007FF : Word) = rForm 63 0 0 0 31 63 from by decide, rForm_and]; simp; rfl
  · simp only [row, List.forall_mem_cons]
    exact ⟨(field_toNat _ _ _).trans (congrArg BitVec.toNat (rsOf_rForm _ _ _ _ _ _)), (field_toNat _ _ _).trans (congrArg BitVec.toNat (rtOf_rForm _ _ _ _ _ _)), (field_toNat _ _ _).trans (congrArg BitVec.toNat (rdOf_rForm _ _ _ _ _ _)), by simp⟩
theorem subu (rd rs rt : Reg) : Statement (.subu rd rs rt) := by
  refine ⟨?_, ?_⟩
  · show rForm _ _ _ _ _ _ &&& (0xFC0007FF : Word) = 0x00000023
    rw [show (0xFC0007FF : Word) = rForm 63 0 0 0 31 63 from by decide, rForm_and]; simp; rfl
  · simp only [row, List.forall_mem_cons]
    exact ⟨(field_toNat _ _ _).trans (congrArg BitVec.toNat (rsOf_rForm _ _ _ _ _ _)), (field_toNat _ _ _).trans (congrArg BitVec.toNat (rtOf_rForm _ _ _ _ _ _)), (field_toNat _ _ _).trans (congrArg BitVec.toNat (rdOf_rForm _ _ _ _ _ _)), by simp⟩
theorem and (rd rs rt : Reg) : Statement (.and rd rs rt) := by
  refine ⟨?_, ?_⟩
  · show rForm _ _ _ _ _ _ &&& (0xFC0007FF : Word) = 0x00000024
    rw [show (0xFC0007FF : Word) = rForm 63 0 0 0 31 63 from by decide, rForm_and]; simp; rfl
  · simp only [row, List.forall_mem_cons]
    exact ⟨(field_toNat _ _ _).trans (congrArg BitVec.toNat (rsOf_rForm _ _ _ _ _ _)), (field_toNat _ _ _).trans (congrArg BitVec.toNat (rtOf_rForm _ _ _ _ _ _)), (field_toNat _ _ _).trans (congrArg BitVec.toNat (rdOf_rForm _ _ _ _ _ _)), by simp⟩
theorem or (rd rs rt : Reg) : Statement (.or rd rs rt) := by
  refine ⟨?_, ?_⟩
  · show rForm _ _ _ _ _ _ &&& (0xFC0007FF : Word) = 0x00000025
    rw [show (0xFC0007FF : Word) = rForm 63 0 0 0 31 63 from by decide, rForm_and]; simp; rfl
  · simp only [row, List.forall_mem_cons]
    exact ⟨(field_toNat _ _ _).trans (congrArg BitVec.toNat (rsOf_rForm _ _ _ _ _ _)), (field_toNat _ _ _).trans (congrArg BitVec.toNat (rtOf_rForm _ _ _ _ _ _)), (field_toNat _ _ _).trans (congrArg BitVec.toNat (rdOf_rForm _ _ _ _ _ _)), by simp⟩
theorem xor (rd rs rt : Reg) : Statement (.xor rd rs rt) := by
  refine ⟨?_, ?_⟩
  · show rForm _ _ _ _ _ _ &&& (0xFC0007FF : Word) = 0x00000026
    rw [show (0xFC0007FF : Word) = rForm 63 0 0 0 31 63 from by decide, rForm_and]; simp; rfl
  · simp only [row, List.forall_mem_cons]
    exact ⟨(field_toNat _ _ _).trans (congrArg BitVec.toNat (rsOf_rForm _ _ _ _ _ _)), (field_toNat _ _ _).trans (congrArg BitVec.toNat (rtOf_rForm _ _ _ _ _ _)), (field_toNat _ _ _).trans (congrArg BitVec.toNat (rdOf_rForm _ _ _ _ _ _)), by simp⟩
theorem nor (rd rs rt : Reg) : Statement (.nor rd rs rt) := by
  refine ⟨?_, ?_⟩
  · show rForm _ _ _ _ _ _ &&& (0xFC0007FF : Word) = 0x00000027
    rw [show (0xFC0007FF : Word) = rForm 63 0 0 0 31 63 from by decide, rForm_and]; simp; rfl
  · simp only [row, List.forall_mem_cons]
    exact ⟨(field_toNat _ _ _).trans (congrArg BitVec.toNat (rsOf_rForm _ _ _ _ _ _)), (field_toNat _ _ _).trans (congrArg BitVec.toNat (rtOf_rForm _ _ _ _ _ _)), (field_toNat _ _ _).trans (congrArg BitVec.toNat (rdOf_rForm _ _ _ _ _ _)), by simp⟩
theorem slt (rd rs rt : Reg) : Statement (.slt rd rs rt) := by
  refine ⟨?_, ?_⟩
  · show rForm _ _ _ _ _ _ &&& (0xFC0007FF : Word) = 0x0000002A
    rw [show (0xFC0007FF : Word) = rForm 63 0 0 0 31 63 from by decide, rForm_and]; simp; rfl
  · simp only [row, List.forall_mem_cons]
    exact ⟨(field_toNat _ _ _).trans (congrArg BitVec.toNat (rsOf_rForm _ _ _ _ _ _)), (field_toNat _ _ _).trans (congrArg BitVec.toNat (rtOf_rForm _ _ _ _ _ _)), (field_toNat _ _ _).trans (congrArg BitVec.toNat (rdOf_rForm _ _ _ _ _ _)), by simp⟩
theorem sltu (rd rs rt : Reg) : Statement (.sltu rd rs rt) := by
  refine ⟨?_, ?_⟩
  · show rForm _ _ _ _ _ _ &&& (0xFC0007FF : Word) = 0x0000002B
    rw [show (0xFC0007FF : Word) = rForm 63 0 0 0 31 63 from by decide, rForm_and]; simp; rfl
  · simp only [row, List.forall_mem_cons]
    exact ⟨(field_toNat _ _ _).trans (congrArg BitVec.toNat (rsOf_rForm _ _ _ _ _ _)), (field_toNat _ _ _).trans (congrArg BitVec.toNat (rtOf_rForm _ _ _ _ _ _)), (field_toNat _ _ _).trans (congrArg BitVec.toNat (rdOf_rForm _ _ _ _ _ _)), by simp⟩
theorem sll (rd rt shamt : Reg) : Statement (.sll rd rt shamt) := by
  refine ⟨?_, ?_⟩
  · show rForm _ _ _ _ _ _ &&& (0xFFE0003F : Word) = 0x00000000
    rw [show (0xFFE0003F : Word) = rForm 63 31 0 0 0 63 from by decide, rForm_and]; simp; rfl
  · simp only [row, List.forall_mem_cons]
    exact ⟨(field_toNat _ _ _).trans (congrArg BitVec.toNat (rtOf_rForm _ _ _ _ _ _)), (field_toNat _ _ _).trans (congrArg BitVec.toNat (rdOf_rForm _ _ _ _ _ _)), (field_toNat _ _ _).trans (congrArg BitVec.toNat (shamtOf_rForm _ _ _ _ _ _)), by simp⟩
theorem srl (rd rt shamt : Reg) : Statement (.srl rd rt shamt) := by
  refine ⟨?_, ?_⟩
  · show rForm _ _ _ _ _ _ &&& (0xFFE0003F : Word) = 0x00000002
    rw [show (0xFFE0003F : Word) = rForm 63 31 0 0 0 63 from by decide, rForm_and]; simp; rfl
  · simp only [row, List.forall_mem_cons]
    exact ⟨(field_toNat _ _ _).trans (congrArg BitVec.toNat (rtOf_rForm _ _ _ _ _ _)), (field_toNat _ _ _).trans (congrArg BitVec.toNat (rdOf_rForm _ _ _ _ _ _)), (field_toNat _ _ _).trans (congrArg BitVec.toNat (shamtOf_rForm _ _ _ _ _ _)), by simp⟩
theorem sra (rd rt shamt : Reg) : Statement (.sra rd rt shamt) := by
  refine ⟨?_, ?_⟩
  · show rForm _ _ _ _ _ _ &&& (0xFFE0003F : Word) = 0x00000003
    rw [show (0xFFE0003F : Word) = rForm 63 31 0 0 0 63 from by decide, rForm_and]; simp; rfl
  · simp only [row, List.forall_mem_cons]
    exact ⟨(field_toNat _ _ _).trans (congrArg BitVec.toNat (rtOf_rForm _ _ _ _ _ _)), (field_toNat _ _ _).trans (congrArg BitVec.toNat (rdOf_rForm _ _ _ _ _ _)), (field_toNat _ _ _).trans (congrArg BitVec.toNat (shamtOf_rForm _ _ _ _ _ _)), by simp⟩
theorem sllv (rd rt rs : Reg) : Statement (.sllv rd rt rs) := by
  refine ⟨?_, ?_⟩
  · show rForm _ _ _ _ _ _ &&& (0xFC0007FF : Word) = 0x00000004
    rw [show (0xFC0007FF : Word) = rForm 63 0 0 0 31 63 from by decide, rForm_and]; simp; rfl
  · simp only [row, List.forall_mem_cons]
    exact ⟨(field_toNat _ _ _).trans (congrArg BitVec.toNat (rsOf_rForm _ _ _ _ _ _)), (field_toNat _ _ _).trans (congrArg BitVec.toNat (rtOf_rForm _ _ _ _ _ _)), (field_toNat _ _ _).trans (congrArg BitVec.toNat (rdOf_rForm _ _ _ _ _ _)), by simp⟩
theorem srlv (rd rt rs : Reg) : Statement (.srlv rd rt rs) := by
  refine ⟨?_, ?_⟩
  · show rForm _ _ _ _ _ _ &&& (0xFC0007FF : Word) = 0x00000006
    rw [show (0xFC0007FF : Word) = rForm 63 0 0 0 31 63 from by decide, rForm_and]; simp; rfl
  · simp only [row, List.forall_mem_cons]
    exact ⟨(field_toNat _ _ _).trans (congrArg BitVec.toNat (rsOf_rForm _ _ _ _ _ _)), (field_toNat _ _ _).trans (congrArg BitVec.toNat (rtOf_rForm _ _ _ _ _ _)), (field_toNat _ _ _).trans (congrArg BitVec.toNat (rdOf_rForm _ _ _ _ _ _)), by simp⟩
theorem srav (rd rt rs : Reg) : Statement (.srav rd rt rs) := by
  refine ⟨?_, ?_⟩
  · show rForm _ _ _ _ _ _ &&& (0xFC0007FF : Word) = 0x00000007
    rw [show (0xFC0007FF : Word) = rForm 63 0 0 0 31 63 from by decide, rForm_and]; simp; rfl
  · simp only [row, List.forall_mem_cons]
    exact ⟨(field_toNat _ _ _).trans (congrArg BitVec.toNat (rsOf_rForm _ _ _ _ _ _)), (field_toNat _ _ _).trans (congrArg BitVec.toNat (rtOf_rForm _ _ _ _ _ _)), (field_toNat _ _ _).trans (congrArg BitVec.toNat (rdOf_rForm _ _ _ _ _ _)), by simp⟩
theorem addi (rt rs : Reg) (imm : Imm) : Statement (.addi rt rs imm) := by
  refine ⟨?_, ?_⟩
  · show iForm _ _ _ _ &&& (0xFC000000 : Word) = 0x20000000
    rw [show (0xFC000000 : Word) = iForm 63 0 0 0 from by decide, iForm_and]; simp; rfl
  · simp only [row, List.forall_mem_cons]
    exact ⟨(field_toNat _ _ _).trans (congrArg BitVec.toNat (rsOf_iForm _ _ _ _)), (field_toNat _ _ _).trans (congrArg BitVec.toNat (rtOf_iForm _ _ _ _)), (field_toNat _ _ _).trans (congrArg BitVec.toNat (immOf_iForm _ _ _ _)), by simp⟩
theorem addiu (rt rs : Reg) (imm : Imm) : Statement (.addiu rt rs imm) := by
  refine ⟨?_, ?_⟩
  · show iForm _ _ _ _ &&& (0xFC000000 : Word) = 0x24000000
    rw [show (0xFC000000 : Word) = iForm 63 0 0 0 from by decide, iForm_and]; simp; rfl
  · simp only [row, List.forall_mem_cons]
    exact ⟨(field_toNat _ _ _).trans (congrArg BitVec.toNat (rsOf_iForm _ _ _ _)), (field_toNat _ _ _).trans (congrArg BitVec.toNat (rtOf_iForm _ _ _ _)), (field_toNat _ _ _).trans (congrArg BitVec.toNat (immOf_iForm _ _ _ _)), by simp⟩
theorem slti (rt rs : Reg) (imm : Imm) : Statement (.slti rt rs imm) := by
  refine ⟨?_, ?_⟩
  · show iForm _ _ _ _ &&& (0xFC000000 : Word) = 0x28000000
    rw [show (0xFC000000 : Word) = iForm 63 0 0 0 from by decide, iForm_and]; simp; rfl
  · simp only [row, List.forall_mem_cons]
    exact ⟨(field_toNat _ _ _).trans (congrArg BitVec.toNat (rsOf_iForm _ _ _ _)), (field_toNat _ _ _).trans (congrArg BitVec.toNat (rtOf_iForm _ _ _ _)), (field_toNat _ _ _).trans (congrArg BitVec.toNat (immOf_iForm _ _ _ _)), by simp⟩
theorem sltiu (rt rs : Reg) (imm : Imm) : Statement (.sltiu rt rs imm) := by
  refine ⟨?_, ?_⟩
  · show iForm _ _ _ _ &&& (0xFC000000 : Word) = 0x2C000000
    rw [show (0xFC000000 : Word) = iForm 63 0 0 0 from by decide, iForm_and]; simp; rfl
  · simp only [row, List.forall_mem_cons]
    exact ⟨(field_toNat _ _ _).trans (congrArg BitVec.toNat (rsOf_iForm _ _ _ _)), (field_toNat _ _ _).trans (congrArg BitVec.toNat (rtOf_iForm _ _ _ _)), (field_toNat _ _ _).trans (congrArg BitVec.toNat (immOf_iForm _ _ _ _)), by simp⟩
theorem andi (rt rs : Reg) (imm : Imm) : Statement (.andi rt rs imm) := by
  refine ⟨?_, ?_⟩
  · show iForm _ _ _ _ &&& (0xFC000000 : Word) = 0x30000000
    rw [show (0xFC000000 : Word) = iForm 63 0 0 0 from by decide, iForm_and]; simp; rfl
  · simp only [row, List.forall_mem_cons]
    exact ⟨(field_toNat _ _ _).trans (congrArg BitVec.toNat (rsOf_iForm _ _ _ _)), (field_toNat _ _ _).trans (congrArg BitVec.toNat (rtOf_iForm _ _ _ _)), (field_toNat _ _ _).trans (congrArg BitVec.toNat (immOf_iForm _ _ _ _)), by simp⟩
theorem ori (rt rs : Reg) (imm : Imm) : Statement (.ori rt rs imm) := by
  refine ⟨?_, ?_⟩
  · show iForm _ _ _ _ &&& (0xFC000000 : Word) = 0x34000000
    rw [show (0xFC000000 : Word) = iForm 63 0 0 0 from by decide, iForm_and]; simp; rfl
  · simp only [row, List.forall_mem_cons]
    exact ⟨(field_toNat _ _ _).trans (congrArg BitVec.toNat (rsOf_iForm _ _ _ _)), (field_toNat _ _ _).trans (congrArg BitVec.toNat (rtOf_iForm _ _ _ _)), (field_toNat _ _ _).trans (congrArg BitVec.toNat (immOf_iForm _ _ _ _)), by simp⟩
theorem xori (rt rs : Reg) (imm : Imm) : Statement (.xori rt rs imm) := by
  refine ⟨?_, ?_⟩
  · show iForm _ _ _ _ &&& (0xFC000000 : Word) = 0x38000000
    rw [show (0xFC000000 : Word) = iForm 63 0 0 0 from by decide, iForm_and]; simp; rfl
  · simp only [row, List.forall_mem_cons]
    exact ⟨(field_toNat _ _ _).trans (congrArg BitVec.toNat (rsOf_iForm _ _ _ _)), (field_toNat _ _ _).trans (congrArg BitVec.toNat (rtOf_iForm _ _ _ _)), (field_toNat _ _ _).trans (congrArg BitVec.toNat (immOf_iForm _ _ _ _)), by simp⟩
theorem lui (rt : Reg) (imm : Imm) : Statement (.lui rt imm) := by
  refine ⟨?_, ?_⟩
  · show iForm _ _ _ _ &&& (0xFFE00000 : Word) = 0x3C000000
    rw [show (0xFFE00000 : Word) = iForm 63 31 0 0 from by decide, iForm_and]; simp; rfl
  · simp only [row, List.forall_mem_cons]
    exact ⟨(field_toNat _ _ _).trans (congrArg BitVec.toNat (rtOf_iForm _ _ _ _)), (field_toNat _ _ _).trans (congrArg BitVec.toNat (immOf_iForm _ _ _ _)), by simp⟩
theorem mult (rs rt : Reg) : Statement (.mult rs rt) := by
  refine ⟨?_, ?_⟩
  · show rForm _ _ _ _ _ _ &&& (0xFC00FFFF : Word) = 0x00000018
    rw [show (0xFC00FFFF : Word) = rForm 63 0 0 31 31 63 from by decide, rForm_and]; simp; rfl
  · simp only [row, List.forall_mem_cons]
    exact ⟨(field_toNat _ _ _).trans (congrArg BitVec.toNat (rsOf_rForm _ _ _ _ _ _)), (field_toNat _ _ _).trans (congrArg BitVec.toNat (rtOf_rForm _ _ _ _ _ _)), by simp⟩
theorem multu (rs rt : Reg) : Statement (.multu rs rt) := by
  refine ⟨?_, ?_⟩
  · show rForm _ _ _ _ _ _ &&& (0xFC00FFFF : Word) = 0x00000019
    rw [show (0xFC00FFFF : Word) = rForm 63 0 0 31 31 63 from by decide, rForm_and]; simp; rfl
  · simp only [row, List.forall_mem_cons]
    exact ⟨(field_toNat _ _ _).trans (congrArg BitVec.toNat (rsOf_rForm _ _ _ _ _ _)), (field_toNat _ _ _).trans (congrArg BitVec.toNat (rtOf_rForm _ _ _ _ _ _)), by simp⟩
theorem div (rs rt : Reg) : Statement (.div rs rt) := by
  refine ⟨?_, ?_⟩
  · show rForm _ _ _ _ _ _ &&& (0xFC00FFFF : Word) = 0x0000001A
    rw [show (0xFC00FFFF : Word) = rForm 63 0 0 31 31 63 from by decide, rForm_and]; simp; rfl
  · simp only [row, List.forall_mem_cons]
    exact ⟨(field_toNat _ _ _).trans (congrArg BitVec.toNat (rsOf_rForm _ _ _ _ _ _)), (field_toNat _ _ _).trans (congrArg BitVec.toNat (rtOf_rForm _ _ _ _ _ _)), by simp⟩
theorem divu (rs rt : Reg) : Statement (.divu rs rt) := by
  refine ⟨?_, ?_⟩
  · show rForm _ _ _ _ _ _ &&& (0xFC00FFFF : Word) = 0x0000001B
    rw [show (0xFC00FFFF : Word) = rForm 63 0 0 31 31 63 from by decide, rForm_and]; simp; rfl
  · simp only [row, List.forall_mem_cons]
    exact ⟨(field_toNat _ _ _).trans (congrArg BitVec.toNat (rsOf_rForm _ _ _ _ _ _)), (field_toNat _ _ _).trans (congrArg BitVec.toNat (rtOf_rForm _ _ _ _ _ _)), by simp⟩
theorem mfhi (rd : Reg) : Statement (.mfhi rd) := by
  refine ⟨?_, ?_⟩
  · show rForm _ _ _ _ _ _ &&& (0xFFFF07FF : Word) = 0x00000010
    rw [show (0xFFFF07FF : Word) = rForm 63 31 31 0 31 63 from by decide, rForm_and]; simp; rfl
  · simp only [row, List.forall_mem_cons]
    exact ⟨(field_toNat _ _ _).trans (congrArg BitVec.toNat (rdOf_rForm _ _ _ _ _ _)), by simp⟩
theorem mflo (rd : Reg) : Statement (.mflo rd) := by
  refine ⟨?_, ?_⟩
  · show rForm _ _ _ _ _ _ &&& (0xFFFF07FF : Word) = 0x00000012
    rw [show (0xFFFF07FF : Word) = rForm 63 31 31 0 31 63 from by decide, rForm_and]; simp; rfl
  · simp only [row, List.forall_mem_cons]
    exact ⟨(field_toNat _ _ _).trans (congrArg BitVec.toNat (rdOf_rForm _ _ _ _ _ _)), by simp⟩
theorem mthi (rs : Reg) : Statement (.mthi rs) := by
  refine ⟨?_, ?_⟩
  · show rForm _ _ _ _ _ _ &&& (0xFC1FFFFF : Word) = 0x00000011
    rw [show (0xFC1FFFFF : Word) = rForm 63 0 31 31 31 63 from by decide, rForm_and]; simp; rfl
  · simp only [row, List.forall_mem_cons]
    exact ⟨(field_toNat _ _ _).trans (congrArg BitVec.toNat (rsOf_rForm _ _ _ _ _ _)), by simp⟩
theorem mtlo (rs : Reg) : Statement (.mtlo rs) := by
  refine ⟨?_, ?_⟩
  · show rForm _ _ _ _ _ _ &&& (0xFC1FFFFF : Word) = 0x00000013
    rw [show (0xFC1FFFFF : Word) = rForm 63 0 31 31 31 63 from by decide, rForm_and]; simp; rfl
  · simp only [row, List.forall_mem_cons]
    exact ⟨(field_toNat _ _ _).trans (congrArg BitVec.toNat (rsOf_rForm _ _ _ _ _ _)), by simp⟩
theorem lb (rt rs : Reg) (imm : Imm) : Statement (.lb rt imm rs) := by
  refine ⟨?_, ?_⟩
  · show iForm _ _ _ _ &&& (0xFC000000 : Word) = 0x80000000
    rw [show (0xFC000000 : Word) = iForm 63 0 0 0 from by decide, iForm_and]; simp; rfl
  · simp only [row, List.forall_mem_cons]
    exact ⟨(field_toNat _ _ _).trans (congrArg BitVec.toNat (rsOf_iForm _ _ _ _)), (field_toNat _ _ _).trans (congrArg BitVec.toNat (rtOf_iForm _ _ _ _)), (field_toNat _ _ _).trans (congrArg BitVec.toNat (immOf_iForm _ _ _ _)), by simp⟩
theorem lbu (rt rs : Reg) (imm : Imm) : Statement (.lbu rt imm rs) := by
  refine ⟨?_, ?_⟩
  · show iForm _ _ _ _ &&& (0xFC000000 : Word) = 0x90000000
    rw [show (0xFC000000 : Word) = iForm 63 0 0 0 from by decide, iForm_and]; simp; rfl
  · simp only [row, List.forall_mem_cons]
    exact ⟨(field_toNat _ _ _).trans (congrArg BitVec.toNat (rsOf_iForm _ _ _ _)), (field_toNat _ _ _).trans (congrArg BitVec.toNat (rtOf_iForm _ _ _ _)), (field_toNat _ _ _).trans (congrArg BitVec.toNat (immOf_iForm _ _ _ _)), by simp⟩
theorem lh (rt rs : Reg) (imm : Imm) : Statement (.lh rt imm rs) := by
  refine ⟨?_, ?_⟩
  · show iForm _ _ _ _ &&& (0xFC000000 : Word) = 0x84000000
    rw [show (0xFC000000 : Word) = iForm 63 0 0 0 from by decide, iForm_and]; simp; rfl
  · simp only [row, List.forall_mem_cons]
    exact ⟨(field_toNat _ _ _).trans (congrArg BitVec.toNat (rsOf_iForm _ _ _ _)), (field_toNat _ _ _).trans (congrArg BitVec.toNat (rtOf_iForm _ _ _ _)), (field_toNat _ _ _).trans (congrArg BitVec.toNat (immOf_iForm _ _ _ _)), by simp⟩
theorem lhu (rt rs : Reg) (imm : Imm) : Statement (.lhu rt imm rs) := by
  refine ⟨?_, ?_⟩
  · show iForm _ _ _ _ &&& (0xFC000000 : Word) = 0x94000000
    rw [show (0xFC000000 : Word) = iForm 63 0 0 0 from by decide, iForm_and]; simp; rfl
  · simp only [row, List.forall_mem_cons]
    exact ⟨(field_toNat _ _ _).trans (congrArg BitVec.toNat (rsOf_iForm _ _ _ _)), (field_toNat _ _ _).trans (congrArg BitVec.toNat (rtOf_iForm _ _ _ _)), (field_toNat _ _ _).trans (congrArg BitVec.toNat (immOf_iForm _ _ _ _)), by simp⟩
theorem lw (rt rs : Reg) (imm : Imm) : Statement (.lw rt imm rs) := by
  refine ⟨?_, ?_⟩
  · show iForm _ _ _ _ &&& (0xFC000000 : Word) = 0x8C000000
    rw [show (0xFC000000 : Word) = iForm 63 0 0 0 from by decide, iForm_and]; simp; rfl
  · simp only [row, List.forall_mem_cons]
    exact ⟨(field_toNat _ _ _).trans (congrArg BitVec.toNat (rsOf_iForm _ _ _ _)), (field_toNat _ _ _).trans (congrArg BitVec.toNat (rtOf_iForm _ _ _ _)), (field_toNat _ _ _).trans (congrArg BitVec.toNat (immOf_iForm _ _ _ _)), by simp⟩
theorem sb (rt rs : Reg) (imm : Imm) : Statement (.sb rt imm rs) := by
  refine ⟨?_, ?_⟩
  · show iForm _ _ _ _ &&& (0xFC000000 : Word) = 0xA0000000
    rw [show (0xFC000000 : Word) = iForm 63 0 0 0 from by decide, iForm_and]; simp; rfl
  · simp only [row, List.forall_mem_cons]
    exact ⟨(field_toNat _ _ _).trans (congrArg BitVec.toNat (rsOf_iForm _ _ _ _)), (field_toNat _ _ _).trans (congrArg BitVec.toNat (rtOf_iForm _ _ _ _)), (field_toNat _ _ _).trans (congrArg BitVec.toNat (immOf_iForm _ _ _ _)), by simp⟩
theorem sh (rt rs : Reg) (imm : Imm) : Statement (.sh rt imm rs) := by
  refine ⟨?_, ?_⟩
  · show iForm _ _ _ _ &&& (0xFC000000 : Word) = 0xA4000000
    rw [show (0xFC000000 : Word) = iForm 63 0 0 0 from by decide, iForm_and]; simp; rfl
  · simp only [row, List.forall_mem_cons]
    exact ⟨(field_toNat _ _ _).trans (congrArg BitVec.toNat (rsOf_iForm _ _ _ _)), (field_toNat _ _ _).trans (congrArg BitVec.toNat (rtOf_iForm _ _ _ _)), (field_toNat _ _ _).trans (congrArg BitVec.toNat (immOf_iForm _ _ _ _)), by simp⟩
theorem sw (rt rs : Reg) (imm : Imm) : Statement (.sw rt imm rs) := by
  refine ⟨?_, ?_⟩
  · show iForm _ _ _ _ &&& (0xFC000000 : Word) = 0xAC000000
    rw [show (0xFC000000 : Word) = iForm 63 0 0 0 from by decide, iForm_and]; simp; rfl
  · simp only [row, List.forall_mem_cons]
    exact ⟨(field_toNat _ _ _).trans (congrArg BitVec.toNat (rsOf_iForm _ _ _ _)), (field_toNat _ _ _).trans (congrArg BitVec.toNat (rtOf_iForm _ _ _ _)), (field_toNat _ _ _).trans (congrArg BitVec.toNat (immOf_iForm _ _ _ _)), by simp⟩
theorem beq (rs rt : Reg) (imm : Imm) : Statement (.beq rs rt imm) := by
  refine ⟨?_, ?_⟩
  · show iForm _ _ _ _ &&& (0xFC000000 : Word) = 0x10000000
    rw [show (0xFC000000 : Word) = iForm 63 0 0 0 from by decide, iForm_and]; simp; rfl
  · simp only [row, List.forall_mem_cons]
    exact ⟨(field_toNat _ _ _).trans (congrArg BitVec.toNat (rsOf_iForm _ _ _ _)), (field_toNat _ _ _).trans (congrArg BitVec.toNat (rtOf_iForm _ _ _ _)), (field_toNat _ _ _).trans (congrArg BitVec.toNat (immOf_iForm _ _ _ _)), by simp⟩
theorem bne (rs rt : Reg) (imm : Imm) : Statement (.bne rs rt imm) := by
  refine ⟨?_, ?_⟩
  · show iForm _ _ _ _ &&& (0xFC000000 : Word) = 0x14000000
    rw [show (0xFC000000 : Word) = iForm 63 0 0 0 from by decide, iForm_and]; simp; rfl
  · simp only [row, List.forall_mem_cons]
    exact ⟨(field_toNat _ _ _).trans (congrArg BitVec.toNat (rsOf_iForm _ _ _ _)), (field_toNat _ _ _).trans (congrArg BitVec.toNat (rtOf_iForm _ _ _ _)), (field_toNat _ _ _).trans (congrArg BitVec.toNat (immOf_iForm _ _ _ _)), by simp⟩
theorem blez (rs : Reg) (imm : Imm) : Statement (.blez rs imm) := by
  refine ⟨?_, ?_⟩
  · show iForm _ _ _ _ &&& (0xFC1F0000 : Word) = 0x18000000
    rw [show (0xFC1F0000 : Word) = iForm 63 0 31 0 from by decide, iForm_and]; simp; rfl
  · simp only [row, List.forall_mem_cons]
    exact ⟨(field_toNat _ _ _).trans (congrArg BitVec.toNat (rsOf_iForm _ _ _ _)), (field_toNat _ _ _).trans (congrArg BitVec.toNat (immOf_iForm _ _ _ _)), by simp⟩
theorem bgtz (rs : Reg) (imm : Imm) : Statement (.bgtz rs imm) := by
  refine ⟨?_, ?_⟩
  · show iForm _ _ _ _ &&& (0xFC1F0000 : Word) = 0x1C000000
    rw [show (0xFC1F0000 : Word) = iForm 63 0 31 0 from by decide, iForm_and]; simp; rfl
  · simp only [row, List.forall_mem_cons]
    exact ⟨(field_toNat _ _ _).trans (congrArg BitVec.toNat (rsOf_iForm _ _ _ _)), (field_toNat _ _ _).trans (congrArg BitVec.toNat (immOf_iForm _ _ _ _)), by simp⟩
theorem bltz (rs : Reg) (imm : Imm) : Statement (.bltz rs imm) := by
  refine ⟨?_, ?_⟩
  · show iForm _ _ _ _ &&& (0xFC1F0000 : Word) = 0x04000000
    rw [show (0xFC1F0000 : Word) = iForm 63 0 31 0 from by decide, iForm_and]; simp; rfl
  · simp only [row, List.forall_mem_cons]
    exact ⟨(field_toNat _ _ _).trans (congrArg BitVec.toNat (rsOf_iForm _ _ _ _)), (field_toNat _ _ _).trans (congrArg BitVec.toNat (immOf_iForm _ _ _ _)), by simp⟩
theorem bgez (rs : Reg) (imm : Imm) : Statement (.bgez rs imm) := by
  refine ⟨?_, ?_⟩
  · show iForm _ _ _ _ &&& (0xFC1F0000 : Word) = 0x04010000
    rw [show (0xFC1F0000 : Word) = iForm 63 0 31 0 from by decide, iForm_and]; simp; rfl
  · simp only [row, List.forall_mem_cons]
    exact ⟨(field_toNat _ _ _).trans (congrArg BitVec.toNat (rsOf_iForm _ _ _ _)), (field_toNat _ _ _).trans (congrArg BitVec.toNat (immOf_iForm _ _ _ _)), by simp⟩
theorem bltzal (rs : Reg) (imm : Imm) : Statement (.bltzal rs imm) := by
  refine ⟨?_, ?_⟩
  · show iForm _ _ _ _ &&& (0xFC1F0000 : Word) = 0x04100000
    rw [show (0xFC1F0000 : Word) = iForm 63 0 31 0 from by decide, iForm_and]; simp; rfl
  · simp only [row, List.forall_mem_cons]
    exact ⟨(field_toNat _ _ _).trans (congrArg BitVec.toNat (rsOf_iForm _ _ _ _)), (field_toNat _ _ _).trans (congrArg BitVec.toNat (immOf_iForm _ _ _ _)), by simp⟩
theorem bgezal (rs : Reg) (imm : Imm) : Statement (.bgezal rs imm) := by
  refine ⟨?_, ?_⟩
  · show iForm _ _ _ _ &&& (0xFC1F0000 : Word) = 0x04110000
    rw [show (0xFC1F0000 : Word) = iForm 63 0 31 0 from by decide, iForm_and]; simp; rfl
  · simp only [row, List.forall_mem_cons]
    exact ⟨(field_toNat _ _ _).trans (congrArg BitVec.toNat (rsOf_iForm _ _ _ _)), (field_toNat _ _ _).trans (congrArg BitVec.toNat (immOf_iForm _ _ _ _)), by simp⟩
theorem j (target : BitVec 26) : Statement (.j target) := by
  refine ⟨?_, ?_⟩
  · show jForm _ _ &&& (0xFC000000 : Word) = 0x08000000
    rw [show (0xFC000000 : Word) = jForm 63 0 from by decide, jForm_and]; simp; rfl
  · simp only [row, List.forall_mem_cons]
    exact ⟨(field_toNat _ _ _).trans (congrArg BitVec.toNat (targetOf_jForm _ _)), by simp⟩
theorem jal (target : BitVec 26) : Statement (.jal target) := by
  refine ⟨?_, ?_⟩
  · show jForm _ _ &&& (0xFC000000 : Word) = 0x0C000000
    rw [show (0xFC000000 : Word) = jForm 63 0 from by decide, jForm_and]; simp; rfl
  · simp only [row, List.forall_mem_cons]
    exact ⟨(field_toNat _ _ _).trans (congrArg BitVec.toNat (targetOf_jForm _ _)), by simp⟩
theorem jr (rs : Reg) : Statement (.jr rs) := by
  refine ⟨?_, ?_⟩
  · show rForm _ _ _ _ _ _ &&& (0xFC1FFFFF : Word) = 0x00000008
    rw [show (0xFC1FFFFF : Word) = rForm 63 0 31 31 31 63 from by decide, rForm_and]; simp; rfl
  · simp only [row, List.forall_mem_cons]
    exact ⟨(field_toNat _ _ _).trans (congrArg BitVec.toNat (rsOf_rForm _ _ _ _ _ _)), by simp⟩
theorem jalr (rd rs : Reg) : Statement (.jalr rd rs) := by
  refine ⟨?_, ?_⟩
  · show rForm _ _ _ _ _ _ &&& (0xFC1F07FF : Word) = 0x00000009
    rw [show (0xFC1F07FF : Word) = rForm 63 0 31 0 31 63 from by decide, rForm_and]; simp; rfl
  · simp only [row, List.forall_mem_cons]
    exact ⟨(field_toNat _ _ _).trans (congrArg BitVec.toNat (rsOf_rForm _ _ _ _ _ _)), (field_toNat _ _ _).trans (congrArg BitVec.toNat (rdOf_rForm _ _ _ _ _ _)), by simp⟩
theorem addS (fd fs ft : Reg) : Statement (.addS fd fs ft) := by
  refine ⟨?_, ?_⟩
  · show rForm _ _ _ _ _ _ &&& (0xFFE0003F : Word) = 0x46000000
    rw [show (0xFFE0003F : Word) = rForm 63 31 0 0 0 63 from by decide, rForm_and]; simp; rfl
  · simp only [row, List.forall_mem_cons]
    exact ⟨(field_toNat _ _ _).trans (congrArg BitVec.toNat (rtOf_rForm _ _ _ _ _ _)), (field_toNat _ _ _).trans (congrArg BitVec.toNat (rdOf_rForm _ _ _ _ _ _)), (field_toNat _ _ _).trans (congrArg BitVec.toNat (shamtOf_rForm _ _ _ _ _ _)), by simp⟩
theorem addD (fd fs ft : Reg) : Statement (.addD fd fs ft) := by
  refine ⟨?_, ?_⟩
  · show rForm _ _ _ _ _ _ &&& (0xFFE0003F : Word) = 0x46200000
    rw [show (0xFFE0003F : Word) = rForm 63 31 0 0 0 63 from by decide, rForm_and]; simp; rfl
  · simp only [row, List.forall_mem_cons]
    exact ⟨(field_toNat _ _ _).trans (congrArg BitVec.toNat (rtOf_rForm _ _ _ _ _ _)), (field_toNat _ _ _).trans (congrArg BitVec.toNat (rdOf_rForm _ _ _ _ _ _)), (field_toNat _ _ _).trans (congrArg BitVec.toNat (shamtOf_rForm _ _ _ _ _ _)), by simp⟩
theorem subS (fd fs ft : Reg) : Statement (.subS fd fs ft) := by
  refine ⟨?_, ?_⟩
  · show rForm _ _ _ _ _ _ &&& (0xFFE0003F : Word) = 0x46000001
    rw [show (0xFFE0003F : Word) = rForm 63 31 0 0 0 63 from by decide, rForm_and]; simp; rfl
  · simp only [row, List.forall_mem_cons]
    exact ⟨(field_toNat _ _ _).trans (congrArg BitVec.toNat (rtOf_rForm _ _ _ _ _ _)), (field_toNat _ _ _).trans (congrArg BitVec.toNat (rdOf_rForm _ _ _ _ _ _)), (field_toNat _ _ _).trans (congrArg BitVec.toNat (shamtOf_rForm _ _ _ _ _ _)), by simp⟩
theorem subD (fd fs ft : Reg) : Statement (.subD fd fs ft) := by
  refine ⟨?_, ?_⟩
  · show rForm _ _ _ _ _ _ &&& (0xFFE0003F : Word) = 0x46200001
    rw [show (0xFFE0003F : Word) = rForm 63 31 0 0 0 63 from by decide, rForm_and]; simp; rfl
  · simp only [row, List.forall_mem_cons]
    exact ⟨(field_toNat _ _ _).trans (congrArg BitVec.toNat (rtOf_rForm _ _ _ _ _ _)), (field_toNat _ _ _).trans (congrArg BitVec.toNat (rdOf_rForm _ _ _ _ _ _)), (field_toNat _ _ _).trans (congrArg BitVec.toNat (shamtOf_rForm _ _ _ _ _ _)), by simp⟩
theorem mulS (fd fs ft : Reg) : Statement (.mulS fd fs ft) := by
  refine ⟨?_, ?_⟩
  · show rForm _ _ _ _ _ _ &&& (0xFFE0003F : Word) = 0x46000002
    rw [show (0xFFE0003F : Word) = rForm 63 31 0 0 0 63 from by decide, rForm_and]; simp; rfl
  · simp only [row, List.forall_mem_cons]
    exact ⟨(field_toNat _ _ _).trans (congrArg BitVec.toNat (rtOf_rForm _ _ _ _ _ _)), (field_toNat _ _ _).trans (congrArg BitVec.toNat (rdOf_rForm _ _ _ _ _ _)), (field_toNat _ _ _).trans (congrArg BitVec.toNat (shamtOf_rForm _ _ _ _ _ _)), by simp⟩
theorem mulD (fd fs ft : Reg) : Statement (.mulD fd fs ft) := by
  refine ⟨?_, ?_⟩
  · show rForm _ _ _ _ _ _ &&& (0xFFE0003F : Word) = 0x46200002
    rw [show (0xFFE0003F : Word) = rForm 63 31 0 0 0 63 from by decide, rForm_and]; simp; rfl
  · simp only [row, List.forall_mem_cons]
    exact ⟨(field_toNat _ _ _).trans (congrArg BitVec.toNat (rtOf_rForm _ _ _ _ _ _)), (field_toNat _ _ _).trans (congrArg BitVec.toNat (rdOf_rForm _ _ _ _ _ _)), (field_toNat _ _ _).trans (congrArg BitVec.toNat (shamtOf_rForm _ _ _ _ _ _)), by simp⟩
theorem divS (fd fs ft : Reg) : Statement (.divS fd fs ft) := by
  refine ⟨?_, ?_⟩
  · show rForm _ _ _ _ _ _ &&& (0xFFE0003F : Word) = 0x46000003
    rw [show (0xFFE0003F : Word) = rForm 63 31 0 0 0 63 from by decide, rForm_and]; simp; rfl
  · simp only [row, List.forall_mem_cons]
    exact ⟨(field_toNat _ _ _).trans (congrArg BitVec.toNat (rtOf_rForm _ _ _ _ _ _)), (field_toNat _ _ _).trans (congrArg BitVec.toNat (rdOf_rForm _ _ _ _ _ _)), (field_toNat _ _ _).trans (congrArg BitVec.toNat (shamtOf_rForm _ _ _ _ _ _)), by simp⟩
theorem divD (fd fs ft : Reg) : Statement (.divD fd fs ft) := by
  refine ⟨?_, ?_⟩
  · show rForm _ _ _ _ _ _ &&& (0xFFE0003F : Word) = 0x46200003
    rw [show (0xFFE0003F : Word) = rForm 63 31 0 0 0 63 from by decide, rForm_and]; simp; rfl
  · simp only [row, List.forall_mem_cons]
    exact ⟨(field_toNat _ _ _).trans (congrArg BitVec.toNat (rtOf_rForm _ _ _ _ _ _)), (field_toNat _ _ _).trans (congrArg BitVec.toNat (rdOf_rForm _ _ _ _ _ _)), (field_toNat _ _ _).trans (congrArg BitVec.toNat (shamtOf_rForm _ _ _ _ _ _)), by simp⟩
theorem absS (fd fs : Reg) : Statement (.absS fd fs) := by
  refine ⟨?_, ?_⟩
  · show rForm _ _ _ _ _ _ &&& (0xFFFF003F : Word) = 0x46000005
    rw [show (0xFFFF003F : Word) = rForm 63 31 31 0 0 63 from by decide, rForm_and]; simp; rfl
  · simp only [row, List.forall_mem_cons]
    exact ⟨(field_toNat _ _ _).trans (congrArg BitVec.toNat (rdOf_rForm _ _ _ _ _ _)), (field_toNat _ _ _).trans (congrArg BitVec.toNat (shamtOf_rForm _ _ _ _ _ _)), by simp⟩
theorem absD (fd fs : Reg) : Statement (.absD fd fs) := by
  refine ⟨?_, ?_⟩
  · show rForm _ _ _ _ _ _ &&& (0xFFFF003F : Word) = 0x46200005
    rw [show (0xFFFF003F : Word) = rForm 63 31 31 0 0 63 from by decide, rForm_and]; simp; rfl
  · simp only [row, List.forall_mem_cons]
    exact ⟨(field_toNat _ _ _).trans (congrArg BitVec.toNat (rdOf_rForm _ _ _ _ _ _)), (field_toNat _ _ _).trans (congrArg BitVec.toNat (shamtOf_rForm _ _ _ _ _ _)), by simp⟩
theorem negS (fd fs : Reg) : Statement (.negS fd fs) := by
  refine ⟨?_, ?_⟩
  · show rForm _ _ _ _ _ _ &&& (0xFFFF003F : Word) = 0x46000007
    rw [show (0xFFFF003F : Word) = rForm 63 31 31 0 0 63 from by decide, rForm_and]; simp; rfl
  · simp only [row, List.forall_mem_cons]
    exact ⟨(field_toNat _ _ _).trans (congrArg BitVec.toNat (rdOf_rForm _ _ _ _ _ _)), (field_toNat _ _ _).trans (congrArg BitVec.toNat (shamtOf_rForm _ _ _ _ _ _)), by simp⟩
theorem negD (fd fs : Reg) : Statement (.negD fd fs) := by
  refine ⟨?_, ?_⟩
  · show rForm _ _ _ _ _ _ &&& (0xFFFF003F : Word) = 0x46200007
    rw [show (0xFFFF003F : Word) = rForm 63 31 31 0 0 63 from by decide, rForm_and]; simp; rfl
  · simp only [row, List.forall_mem_cons]
    exact ⟨(field_toNat _ _ _).trans (congrArg BitVec.toNat (rdOf_rForm _ _ _ _ _ _)), (field_toNat _ _ _).trans (congrArg BitVec.toNat (shamtOf_rForm _ _ _ _ _ _)), by simp⟩
theorem movS (fd fs : Reg) : Statement (.movS fd fs) := by
  refine ⟨?_, ?_⟩
  · show rForm _ _ _ _ _ _ &&& (0xFFFF003F : Word) = 0x46000006
    rw [show (0xFFFF003F : Word) = rForm 63 31 31 0 0 63 from by decide, rForm_and]; simp; rfl
  · simp only [row, List.forall_mem_cons]
    exact ⟨(field_toNat _ _ _).trans (congrArg BitVec.toNat (rdOf_rForm _ _ _ _ _ _)), (field_toNat _ _ _).trans (congrArg BitVec.toNat (shamtOf_rForm _ _ _ _ _ _)), by simp⟩
theorem movD (fd fs : Reg) : Statement (.movD fd fs) := by
  refine ⟨?_, ?_⟩
  · show rForm _ _ _ _ _ _ &&& (0xFFFF003F : Word) = 0x46200006
    rw [show (0xFFFF003F : Word) = rForm 63 31 31 0 0 63 from by decide, rForm_and]; simp; rfl
  · simp only [row, List.forall_mem_cons]
    exact ⟨(field_toNat _ _ _).trans (congrArg BitVec.toNat (rdOf_rForm _ _ _ _ _ _)), (field_toNat _ _ _).trans (congrArg BitVec.toNat (shamtOf_rForm _ _ _ _ _ _)), by simp⟩
theorem cvtSD (fd fs : Reg) : Statement (.cvtSD fd fs) := by
  refine ⟨?_, ?_⟩
  · show rForm _ _ _ _ _ _ &&& (0xFFFF003F : Word) = 0x46200020
    rw [show (0xFFFF003F : Word) = rForm 63 31 31 0 0 63 from by decide, rForm_and]; simp; rfl
  · simp only [row, List.forall_mem_cons]
    exact ⟨(field_toNat _ _ _).trans (congrArg BitVec.toNat (rdOf_rForm _ _ _ _ _ _)), (field_toNat _ _ _).trans (congrArg BitVec.toNat (shamtOf_rForm _ _ _ _ _ _)), by simp⟩
theorem cvtSW (fd fs : Reg) : Statement (.cvtSW fd fs) := by
  refine ⟨?_, ?_⟩
  · show rForm _ _ _ _ _ _ &&& (0xFFFF003F : Word) = 0x46800020
    rw [show (0xFFFF003F : Word) = rForm 63 31 31 0 0 63 from by decide, rForm_and]; simp; rfl
  · simp only [row, List.forall_mem_cons]
    exact ⟨(field_toNat _ _ _).trans (congrArg BitVec.toNat (rdOf_rForm _ _ _ _ _ _)), (field_toNat _ _ _).trans (congrArg BitVec.toNat (shamtOf_rForm _ _ _ _ _ _)), by simp⟩
theorem cvtDS (fd fs : Reg) : Statement (.cvtDS fd fs) := by
  refine ⟨?_, ?_⟩
  · show rForm _ _ _ _ _ _ &&& (0xFFFF003F : Word) = 0x46000021
    rw [show (0xFFFF003F : Word) = rForm 63 31 31 0 0 63 from by decide, rForm_and]; simp; rfl
  · simp only [row, List.forall_mem_cons]
    exact ⟨(field_toNat _ _ _).trans (congrArg BitVec.toNat (rdOf_rForm _ _ _ _ _ _)), (field_toNat _ _ _).trans (congrArg BitVec.toNat (shamtOf_rForm _ _ _ _ _ _)), by simp⟩
theorem cvtDW (fd fs : Reg) : Statement (.cvtDW fd fs) := by
  refine ⟨?_, ?_⟩
  · show rForm _ _ _ _ _ _ &&& (0xFFFF003F : Word) = 0x46800021
    rw [show (0xFFFF003F : Word) = rForm 63 31 31 0 0 63 from by decide, rForm_and]; simp; rfl
  · simp only [row, List.forall_mem_cons]
    exact ⟨(field_toNat _ _ _).trans (congrArg BitVec.toNat (rdOf_rForm _ _ _ _ _ _)), (field_toNat _ _ _).trans (congrArg BitVec.toNat (shamtOf_rForm _ _ _ _ _ _)), by simp⟩
theorem cvtWS (fd fs : Reg) : Statement (.cvtWS fd fs) := by
  refine ⟨?_, ?_⟩
  · show rForm _ _ _ _ _ _ &&& (0xFFFF003F : Word) = 0x46000024
    rw [show (0xFFFF003F : Word) = rForm 63 31 31 0 0 63 from by decide, rForm_and]; simp; rfl
  · simp only [row, List.forall_mem_cons]
    exact ⟨(field_toNat _ _ _).trans (congrArg BitVec.toNat (rdOf_rForm _ _ _ _ _ _)), (field_toNat _ _ _).trans (congrArg BitVec.toNat (shamtOf_rForm _ _ _ _ _ _)), by simp⟩
theorem cvtWD (fd fs : Reg) : Statement (.cvtWD fd fs) := by
  refine ⟨?_, ?_⟩
  · show rForm _ _ _ _ _ _ &&& (0xFFFF003F : Word) = 0x46200024
    rw [show (0xFFFF003F : Word) = rForm 63 31 31 0 0 63 from by decide, rForm_and]; simp; rfl
  · simp only [row, List.forall_mem_cons]
    exact ⟨(field_toNat _ _ _).trans (congrArg BitVec.toNat (rdOf_rForm _ _ _ _ _ _)), (field_toNat _ _ _).trans (congrArg BitVec.toNat (shamtOf_rForm _ _ _ _ _ _)), by simp⟩
theorem cFS (fs ft : Reg) : Statement (.cFS fs ft) := by
  refine ⟨?_, ?_⟩
  · show rForm _ _ _ _ _ _ &&& (0xFFE007FF : Word) = 0x46000030
    rw [show (0xFFE007FF : Word) = rForm 63 31 0 0 31 63 from by decide, rForm_and]; simp; rfl
  · simp only [row, List.forall_mem_cons]
    exact ⟨(field_toNat _ _ _).trans (congrArg BitVec.toNat (rtOf_rForm _ _ _ _ _ _)), (field_toNat _ _ _).trans (congrArg BitVec.toNat (rdOf_rForm _ _ _ _ _ _)), by simp⟩
theorem cUnS (fs ft : Reg) : Statement (.cUnS fs ft) := by
  refine ⟨?_, ?_⟩
  · show rForm _ _ _ _ _ _ &&& (0xFFE007FF : Word) = 0x46000031
    rw [show (0xFFE007FF : Word) = rForm 63 31 0 0 31 63 from by decide, rForm_and]; simp; rfl
  · simp only [row, List.forall_mem_cons]
    exact ⟨(field_toNat _ _ _).trans (congrArg BitVec.toNat (rtOf_rForm _ _ _ _ _ _)), (field_toNat _ _ _).trans (congrArg BitVec.toNat (rdOf_rForm _ _ _ _ _ _)), by simp⟩
theorem cEqS (fs ft : Reg) : Statement (.cEqS fs ft) := by
  refine ⟨?_, ?_⟩
  · show rForm _ _ _ _ _ _ &&& (0xFFE007FF : Word) = 0x46000032
    rw [show (0xFFE007FF : Word) = rForm 63 31 0 0 31 63 from by decide, rForm_and]; simp; rfl
  · simp only [row, List.forall_mem_cons]
    exact ⟨(field_toNat _ _ _).trans (congrArg BitVec.toNat (rtOf_rForm _ _ _ _ _ _)), (field_toNat _ _ _).trans (congrArg BitVec.toNat (rdOf_rForm _ _ _ _ _ _)), by simp⟩
theorem cUeqS (fs ft : Reg) : Statement (.cUeqS fs ft) := by
  refine ⟨?_, ?_⟩
  · show rForm _ _ _ _ _ _ &&& (0xFFE007FF : Word) = 0x46000033
    rw [show (0xFFE007FF : Word) = rForm 63 31 0 0 31 63 from by decide, rForm_and]; simp; rfl
  · simp only [row, List.forall_mem_cons]
    exact ⟨(field_toNat _ _ _).trans (congrArg BitVec.toNat (rtOf_rForm _ _ _ _ _ _)), (field_toNat _ _ _).trans (congrArg BitVec.toNat (rdOf_rForm _ _ _ _ _ _)), by simp⟩
theorem cOltS (fs ft : Reg) : Statement (.cOltS fs ft) := by
  refine ⟨?_, ?_⟩
  · show rForm _ _ _ _ _ _ &&& (0xFFE007FF : Word) = 0x46000034
    rw [show (0xFFE007FF : Word) = rForm 63 31 0 0 31 63 from by decide, rForm_and]; simp; rfl
  · simp only [row, List.forall_mem_cons]
    exact ⟨(field_toNat _ _ _).trans (congrArg BitVec.toNat (rtOf_rForm _ _ _ _ _ _)), (field_toNat _ _ _).trans (congrArg BitVec.toNat (rdOf_rForm _ _ _ _ _ _)), by simp⟩
theorem cUltS (fs ft : Reg) : Statement (.cUltS fs ft) := by
  refine ⟨?_, ?_⟩
  · show rForm _ _ _ _ _ _ &&& (0xFFE007FF : Word) = 0x46000035
    rw [show (0xFFE007FF : Word) = rForm 63 31 0 0 31 63 from by decide, rForm_and]; simp; rfl
  · simp only [row, List.forall_mem_cons]
    exact ⟨(field_toNat _ _ _).trans (congrArg BitVec.toNat (rtOf_rForm _ _ _ _ _ _)), (field_toNat _ _ _).trans (congrArg BitVec.toNat (rdOf_rForm _ _ _ _ _ _)), by simp⟩
theorem cOleS (fs ft : Reg) : Statement (.cOleS fs ft) := by
  refine ⟨?_, ?_⟩
  · show rForm _ _ _ _ _ _ &&& (0xFFE007FF : Word) = 0x46000036
    rw [show (0xFFE007FF : Word) = rForm 63 31 0 0 31 63 from by decide, rForm_and]; simp; rfl
  · simp only [row, List.forall_mem_cons]
    exact ⟨(field_toNat _ _ _).trans (congrArg BitVec.toNat (rtOf_rForm _ _ _ _ _ _)), (field_toNat _ _ _).trans (congrArg BitVec.toNat (rdOf_rForm _ _ _ _ _ _)), by simp⟩
theorem cUleS (fs ft : Reg) : Statement (.cUleS fs ft) := by
  refine ⟨?_, ?_⟩
  · show rForm _ _ _ _ _ _ &&& (0xFFE007FF : Word) = 0x46000037
    rw [show (0xFFE007FF : Word) = rForm 63 31 0 0 31 63 from by decide, rForm_and]; simp; rfl
  · simp only [row, List.forall_mem_cons]
    exact ⟨(field_toNat _ _ _).trans (congrArg BitVec.toNat (rtOf_rForm _ _ _ _ _ _)), (field_toNat _ _ _).trans (congrArg BitVec.toNat (rdOf_rForm _ _ _ _ _ _)), by simp⟩
theorem cSfS (fs ft : Reg) : Statement (.cSfS fs ft) := by
  refine ⟨?_, ?_⟩
  · show rForm _ _ _ _ _ _ &&& (0xFFE007FF : Word) = 0x46000038
    rw [show (0xFFE007FF : Word) = rForm 63 31 0 0 31 63 from by decide, rForm_and]; simp; rfl
  · simp only [row, List.forall_mem_cons]
    exact ⟨(field_toNat _ _ _).trans (congrArg BitVec.toNat (rtOf_rForm _ _ _ _ _ _)), (field_toNat _ _ _).trans (congrArg BitVec.toNat (rdOf_rForm _ _ _ _ _ _)), by simp⟩
theorem cNgleS (fs ft : Reg) : Statement (.cNgleS fs ft) := by
  refine ⟨?_, ?_⟩
  · show rForm _ _ _ _ _ _ &&& (0xFFE007FF : Word) = 0x46000039
    rw [show (0xFFE007FF : Word) = rForm 63 31 0 0 31 63 from by decide, rForm_and]; simp; rfl
  · simp only [row, List.forall_mem_cons]
    exact ⟨(field_toNat _ _ _).trans (congrArg BitVec.toNat (rtOf_rForm _ _ _ _ _ _)), (field_toNat _ _ _).trans (congrArg BitVec.toNat (rdOf_rForm _ _ _ _ _ _)), by simp⟩
theorem cSeqS (fs ft : Reg) : Statement (.cSeqS fs ft) := by
  refine ⟨?_, ?_⟩
  · show rForm _ _ _ _ _ _ &&& (0xFFE007FF : Word) = 0x4600003A
    rw [show (0xFFE007FF : Word) = rForm 63 31 0 0 31 63 from by decide, rForm_and]; simp; rfl
  · simp only [row, List.forall_mem_cons]
    exact ⟨(field_toNat _ _ _).trans (congrArg BitVec.toNat (rtOf_rForm _ _ _ _ _ _)), (field_toNat _ _ _).trans (congrArg BitVec.toNat (rdOf_rForm _ _ _ _ _ _)), by simp⟩
theorem cNglS (fs ft : Reg) : Statement (.cNglS fs ft) := by
  refine ⟨?_, ?_⟩
  · show rForm _ _ _ _ _ _ &&& (0xFFE007FF : Word) = 0x4600003B
    rw [show (0xFFE007FF : Word) = rForm 63 31 0 0 31 63 from by decide, rForm_and]; simp; rfl
  · simp only [row, List.forall_mem_cons]
    exact ⟨(field_toNat _ _ _).trans (congrArg BitVec.toNat (rtOf_rForm _ _ _ _ _ _)), (field_toNat _ _ _).trans (congrArg BitVec.toNat (rdOf_rForm _ _ _ _ _ _)), by simp⟩
theorem cLtS (fs ft : Reg) : Statement (.cLtS fs ft) := by
  refine ⟨?_, ?_⟩
  · show rForm _ _ _ _ _ _ &&& (0xFFE007FF : Word) = 0x4600003C
    rw [show (0xFFE007FF : Word) = rForm 63 31 0 0 31 63 from by decide, rForm_and]; simp; rfl
  · simp only [row, List.forall_mem_cons]
    exact ⟨(field_toNat _ _ _).trans (congrArg BitVec.toNat (rtOf_rForm _ _ _ _ _ _)), (field_toNat _ _ _).trans (congrArg BitVec.toNat (rdOf_rForm _ _ _ _ _ _)), by simp⟩
theorem cNgeS (fs ft : Reg) : Statement (.cNgeS fs ft) := by
  refine ⟨?_, ?_⟩
  · show rForm _ _ _ _ _ _ &&& (0xFFE007FF : Word) = 0x4600003D
    rw [show (0xFFE007FF : Word) = rForm 63 31 0 0 31 63 from by decide, rForm_and]; simp; rfl
  · simp only [row, List.forall_mem_cons]
    exact ⟨(field_toNat _ _ _).trans (congrArg BitVec.toNat (rtOf_rForm _ _ _ _ _ _)), (field_toNat _ _ _).trans (congrArg BitVec.toNat (rdOf_rForm _ _ _ _ _ _)), by simp⟩
theorem cLeS (fs ft : Reg) : Statement (.cLeS fs ft) := by
  refine ⟨?_, ?_⟩
  · show rForm _ _ _ _ _ _ &&& (0xFFE007FF : Word) = 0x4600003E
    rw [show (0xFFE007FF : Word) = rForm 63 31 0 0 31 63 from by decide, rForm_and]; simp; rfl
  · simp only [row, List.forall_mem_cons]
    exact ⟨(field_toNat _ _ _).trans (congrArg BitVec.toNat (rtOf_rForm _ _ _ _ _ _)), (field_toNat _ _ _).trans (congrArg BitVec.toNat (rdOf_rForm _ _ _ _ _ _)), by simp⟩
theorem cNgtS (fs ft : Reg) : Statement (.cNgtS fs ft) := by
  refine ⟨?_, ?_⟩
  · show rForm _ _ _ _ _ _ &&& (0xFFE007FF : Word) = 0x4600003F
    rw [show (0xFFE007FF : Word) = rForm 63 31 0 0 31 63 from by decide, rForm_and]; simp; rfl
  · simp only [row, List.forall_mem_cons]
    exact ⟨(field_toNat _ _ _).trans (congrArg BitVec.toNat (rtOf_rForm _ _ _ _ _ _)), (field_toNat _ _ _).trans (congrArg BitVec.toNat (rdOf_rForm _ _ _ _ _ _)), by simp⟩
theorem cFD (fs ft : Reg) : Statement (.cFD fs ft) := by
  refine ⟨?_, ?_⟩
  · show rForm _ _ _ _ _ _ &&& (0xFFE007FF : Word) = 0x46200030
    rw [show (0xFFE007FF : Word) = rForm 63 31 0 0 31 63 from by decide, rForm_and]; simp; rfl
  · simp only [row, List.forall_mem_cons]
    exact ⟨(field_toNat _ _ _).trans (congrArg BitVec.toNat (rtOf_rForm _ _ _ _ _ _)), (field_toNat _ _ _).trans (congrArg BitVec.toNat (rdOf_rForm _ _ _ _ _ _)), by simp⟩
theorem cUnD (fs ft : Reg) : Statement (.cUnD fs ft) := by
  refine ⟨?_, ?_⟩
  · show rForm _ _ _ _ _ _ &&& (0xFFE007FF : Word) = 0x46200031
    rw [show (0xFFE007FF : Word) = rForm 63 31 0 0 31 63 from by decide, rForm_and]; simp; rfl
  · simp only [row, List.forall_mem_cons]
    exact ⟨(field_toNat _ _ _).trans (congrArg BitVec.toNat (rtOf_rForm _ _ _ _ _ _)), (field_toNat _ _ _).trans (congrArg BitVec.toNat (rdOf_rForm _ _ _ _ _ _)), by simp⟩
theorem cEqD (fs ft : Reg) : Statement (.cEqD fs ft) := by
  refine ⟨?_, ?_⟩
  · show rForm _ _ _ _ _ _ &&& (0xFFE007FF : Word) = 0x46200032
    rw [show (0xFFE007FF : Word) = rForm 63 31 0 0 31 63 from by decide, rForm_and]; simp; rfl
  · simp only [row, List.forall_mem_cons]
    exact ⟨(field_toNat _ _ _).trans (congrArg BitVec.toNat (rtOf_rForm _ _ _ _ _ _)), (field_toNat _ _ _).trans (congrArg BitVec.toNat (rdOf_rForm _ _ _ _ _ _)), by simp⟩
theorem cUeqD (fs ft : Reg) : Statement (.cUeqD fs ft) := by
  refine ⟨?_, ?_⟩
  · show rForm _ _ _ _ _ _ &&& (0xFFE007FF : Word) = 0x46200033
    rw [show (0xFFE007FF : Word) = rForm 63 31 0 0 31 63 from by decide, rForm_and]; simp; rfl
  · simp only [row, List.forall_mem_cons]
    exact ⟨(field_toNat _ _ _).trans (congrArg BitVec.toNat (rtOf_rForm _ _ _ _ _ _)), (field_toNat _ _ _).trans (congrArg BitVec.toNat (rdOf_rForm _ _ _ _ _ _)), by simp⟩
theorem cOltD (fs ft : Reg) : Statement (.cOltD fs ft) := by
  refine ⟨?_, ?_⟩
  · show rForm _ _ _ _ _ _ &&& (0xFFE007FF : Word) = 0x46200034
    rw [show (0xFFE007FF : Word) = rForm 63 31 0 0 31 63 from by decide, rForm_and]; simp; rfl
  · simp only [row, List.forall_mem_cons]
    exact ⟨(field_toNat _ _ _).trans (congrArg BitVec.toNat (rtOf_rForm _ _ _ _ _ _)), (field_toNat _ _ _).trans (congrArg BitVec.toNat (rdOf_rForm _ _ _ _ _ _)), by simp⟩
theorem cUltD (fs ft : Reg) : Statement (.cUltD fs ft) := by
  refine ⟨?_, ?_⟩
  · show rForm _ _ _ _ _ _ &&& (0xFFE007FF : Word) = 0x46200035
    rw [show (0xFFE007FF : Word) = rForm 63 31 0 0 31 63 from by decide, rForm_and]; simp; rfl
  · simp only [row, List.forall_mem_cons]
    exact ⟨(field_toNat _ _ _).trans (congrArg BitVec.toNat (rtOf_rForm _ _ _ _ _ _)), (field_toNat _ _ _).trans (congrArg BitVec.toNat (rdOf_rForm _ _ _ _ _ _)), by simp⟩
theorem cOleD (fs ft : Reg) : Statement (.cOleD fs ft) := by
  refine ⟨?_, ?_⟩
  · show rForm _ _ _ _ _ _ &&& (0xFFE007FF : Word) = 0x46200036
    rw [show (0xFFE007FF : Word) = rForm 63 31 0 0 31 63 from by decide, rForm_and]; simp; rfl
  · simp only [row, List.forall_mem_cons]
    exact ⟨(field_toNat _ _ _).trans (congrArg BitVec.toNat (rtOf_rForm _ _ _ _ _ _)), (field_toNat _ _ _).trans (congrArg BitVec.toNat (rdOf_rForm _ _ _ _ _ _)), by simp⟩
theorem cUleD (fs ft : Reg) : Statement (.cUleD fs ft) := by
  refine ⟨?_, ?_⟩
  · show rForm _ _ _ _ _ _ &&& (0xFFE007FF : Word) = 0x46200037
    rw [show (0xFFE007FF : Word) = rForm 63 31 0 0 31 63 from by decide, rForm_and]; simp; rfl
  · simp only [row, List.forall_mem_cons]
    exact ⟨(field_toNat _ _ _).trans (congrArg BitVec.toNat (rtOf_rForm _ _ _ _ _ _)), (field_toNat _ _ _).trans (congrArg BitVec.toNat (rdOf_rForm _ _ _ _ _ _)), by simp⟩
theorem cSfD (fs ft : Reg) : Statement (.cSfD fs ft) := by
  refine ⟨?_, ?_⟩
  · show rForm _ _ _ _ _ _ &&& (0xFFE007FF : Word) = 0x46200038
    rw [show (0xFFE007FF : Word) = rForm 63 31 0 0 31 63 from by decide, rForm_and]; simp; rfl
  · simp only [row, List.forall_mem_cons]
    exact ⟨(field_toNat _ _ _).trans (congrArg BitVec.toNat (rtOf_rForm _ _ _ _ _ _)), (field_toNat _ _ _).trans (congrArg BitVec.toNat (rdOf_rForm _ _ _ _ _ _)), by simp⟩
theorem cNgleD (fs ft : Reg) : Statement (.cNgleD fs ft) := by
  refine ⟨?_, ?_⟩
  · show rForm _ _ _ _ _ _ &&& (0xFFE007FF : Word) = 0x46200039
    rw [show (0xFFE007FF : Word) = rForm 63 31 0 0 31 63 from by decide, rForm_and]; simp; rfl
  · simp only [row, List.forall_mem_cons]
    exact ⟨(field_toNat _ _ _).trans (congrArg BitVec.toNat (rtOf_rForm _ _ _ _ _ _)), (field_toNat _ _ _).trans (congrArg BitVec.toNat (rdOf_rForm _ _ _ _ _ _)), by simp⟩
theorem cSeqD (fs ft : Reg) : Statement (.cSeqD fs ft) := by
  refine ⟨?_, ?_⟩
  · show rForm _ _ _ _ _ _ &&& (0xFFE007FF : Word) = 0x4620003A
    rw [show (0xFFE007FF : Word) = rForm 63 31 0 0 31 63 from by decide, rForm_and]; simp; rfl
  · simp only [row, List.forall_mem_cons]
    exact ⟨(field_toNat _ _ _).trans (congrArg BitVec.toNat (rtOf_rForm _ _ _ _ _ _)), (field_toNat _ _ _).trans (congrArg BitVec.toNat (rdOf_rForm _ _ _ _ _ _)), by simp⟩
theorem cNglD (fs ft : Reg) : Statement (.cNglD fs ft) := by
  refine ⟨?_, ?_⟩
  · show rForm _ _ _ _ _ _ &&& (0xFFE007FF : Word) = 0x4620003B
    rw [show (0xFFE007FF : Word) = rForm 63 31 0 0 31 63 from by decide, rForm_and]; simp; rfl
  · simp only [row, List.forall_mem_cons]
    exact ⟨(field_toNat _ _ _).trans (congrArg BitVec.toNat (rtOf_rForm _ _ _ _ _ _)), (field_toNat _ _ _).trans (congrArg BitVec.toNat (rdOf_rForm _ _ _ _ _ _)), by simp⟩
theorem cLtD (fs ft : Reg) : Statement (.cLtD fs ft) := by
  refine ⟨?_, ?_⟩
  · show rForm _ _ _ _ _ _ &&& (0xFFE007FF : Word) = 0x4620003C
    rw [show (0xFFE007FF : Word) = rForm 63 31 0 0 31 63 from by decide, rForm_and]; simp; rfl
  · simp only [row, List.forall_mem_cons]
    exact ⟨(field_toNat _ _ _).trans (congrArg BitVec.toNat (rtOf_rForm _ _ _ _ _ _)), (field_toNat _ _ _).trans (congrArg BitVec.toNat (rdOf_rForm _ _ _ _ _ _)), by simp⟩
theorem cNgeD (fs ft : Reg) : Statement (.cNgeD fs ft) := by
  refine ⟨?_, ?_⟩
  · show rForm _ _ _ _ _ _ &&& (0xFFE007FF : Word) = 0x4620003D
    rw [show (0xFFE007FF : Word) = rForm 63 31 0 0 31 63 from by decide, rForm_and]; simp; rfl
  · simp only [row, List.forall_mem_cons]
    exact ⟨(field_toNat _ _ _).trans (congrArg BitVec.toNat (rtOf_rForm _ _ _ _ _ _)), (field_toNat _ _ _).trans (congrArg BitVec.toNat (rdOf_rForm _ _ _ _ _ _)), by simp⟩
theorem cLeD (fs ft : Reg) : Statement (.cLeD fs ft) := by
  refine ⟨?_, ?_⟩
  · show rForm _ _ _ _ _ _ &&& (0xFFE007FF : Word) = 0x4620003E
    rw [show (0xFFE007FF : Word) = rForm 63 31 0 0 31 63 from by decide, rForm_and]; simp; rfl
  · simp only [row, List.forall_mem_cons]
    exact ⟨(field_toNat _ _ _).trans (congrArg BitVec.toNat (rtOf_rForm _ _ _ _ _ _)), (field_toNat _ _ _).trans (congrArg BitVec.toNat (rdOf_rForm _ _ _ _ _ _)), by simp⟩
theorem cNgtD (fs ft : Reg) : Statement (.cNgtD fs ft) := by
  refine ⟨?_, ?_⟩
  · show rForm _ _ _ _ _ _ &&& (0xFFE007FF : Word) = 0x4620003F
    rw [show (0xFFE007FF : Word) = rForm 63 31 0 0 31 63 from by decide, rForm_and]; simp; rfl
  · simp only [row, List.forall_mem_cons]
    exact ⟨(field_toNat _ _ _).trans (congrArg BitVec.toNat (rtOf_rForm _ _ _ _ _ _)), (field_toNat _ _ _).trans (congrArg BitVec.toNat (rdOf_rForm _ _ _ _ _ _)), by simp⟩
theorem lwc1 (ft rs : Reg) (imm : Imm) : Statement (.lwc1 ft imm rs) := by
  refine ⟨?_, ?_⟩
  · show iForm _ _ _ _ &&& (0xFC000000 : Word) = 0xC4000000
    rw [show (0xFC000000 : Word) = iForm 63 0 0 0 from by decide, iForm_and]; simp; rfl
  · simp only [row, List.forall_mem_cons]
    exact ⟨(field_toNat _ _ _).trans (congrArg BitVec.toNat (rsOf_iForm _ _ _ _)), (field_toNat _ _ _).trans (congrArg BitVec.toNat (rtOf_iForm _ _ _ _)), (field_toNat _ _ _).trans (congrArg BitVec.toNat (immOf_iForm _ _ _ _)), by simp⟩
theorem swc1 (ft rs : Reg) (imm : Imm) : Statement (.swc1 ft imm rs) := by
  refine ⟨?_, ?_⟩
  · show iForm _ _ _ _ &&& (0xFC000000 : Word) = 0xE4000000
    rw [show (0xFC000000 : Word) = iForm 63 0 0 0 from by decide, iForm_and]; simp; rfl
  · simp only [row, List.forall_mem_cons]
    exact ⟨(field_toNat _ _ _).trans (congrArg BitVec.toNat (rsOf_iForm _ _ _ _)), (field_toNat _ _ _).trans (congrArg BitVec.toNat (rtOf_iForm _ _ _ _)), (field_toNat _ _ _).trans (congrArg BitVec.toNat (immOf_iForm _ _ _ _)), by simp⟩
theorem mfc1 (rt fs : Reg) : Statement (.mfc1 rt fs) := by
  refine ⟨?_, ?_⟩
  · show rForm _ _ _ _ _ _ &&& (0xFFE007FF : Word) = 0x44000000
    rw [show (0xFFE007FF : Word) = rForm 63 31 0 0 31 63 from by decide, rForm_and]; simp; rfl
  · simp only [row, List.forall_mem_cons]
    exact ⟨(field_toNat _ _ _).trans (congrArg BitVec.toNat (rtOf_rForm _ _ _ _ _ _)), (field_toNat _ _ _).trans (congrArg BitVec.toNat (rdOf_rForm _ _ _ _ _ _)), by simp⟩
theorem mtc1 (rt fs : Reg) : Statement (.mtc1 rt fs) := by
  refine ⟨?_, ?_⟩
  · show rForm _ _ _ _ _ _ &&& (0xFFE007FF : Word) = 0x44800000
    rw [show (0xFFE007FF : Word) = rForm 63 31 0 0 31 63 from by decide, rForm_and]; simp; rfl
  · simp only [row, List.forall_mem_cons]
    exact ⟨(field_toNat _ _ _).trans (congrArg BitVec.toNat (rtOf_rForm _ _ _ _ _ _)), (field_toNat _ _ _).trans (congrArg BitVec.toNat (rdOf_rForm _ _ _ _ _ _)), by simp⟩
theorem bc1t (imm : Imm) : Statement (.bc1t imm) := by
  refine ⟨?_, ?_⟩
  · show iForm _ _ _ _ &&& (0xFFFF0000 : Word) = 0x45010000
    rw [show (0xFFFF0000 : Word) = iForm 63 31 31 0 from by decide, iForm_and]; simp; rfl
  · simp only [row, List.forall_mem_cons]
    exact ⟨(field_toNat _ _ _).trans (congrArg BitVec.toNat (immOf_iForm _ _ _ _)), by simp⟩
theorem bc1f (imm : Imm) : Statement (.bc1f imm) := by
  refine ⟨?_, ?_⟩
  · show iForm _ _ _ _ &&& (0xFFFF0000 : Word) = 0x45000000
    rw [show (0xFFFF0000 : Word) = iForm 63 31 31 0 from by decide, iForm_and]; simp; rfl
  · simp only [row, List.forall_mem_cons]
    exact ⟨(field_toNat _ _ _).trans (congrArg BitVec.toNat (immOf_iForm _ _ _ _)), by simp⟩
theorem syscall (code : BitVec 20) : Statement (.syscall code) := by
  refine ⟨?_, ?_⟩
  · show scForm _ _ &&& (0xFC00003F : Word) = 0x0000000C
    rw [show (0xFC00003F : Word) = 63#6 ++ 0#20 ++ 63#6 from by decide, scForm_and]; simp; rfl
  · simp only [row, List.forall_mem_cons]
    exact ⟨(field_toNat _ _ _).trans (congrArg BitVec.toNat (codeOf_scForm _ _)), by simp⟩
theorem brk (code : BitVec 20) : Statement (.brk code) := by
  refine ⟨?_, ?_⟩
  · show scForm _ _ &&& (0xFC00003F : Word) = 0x0000000D
    rw [show (0xFC00003F : Word) = 63#6 ++ 0#20 ++ 63#6 from by decide, scForm_and]; simp; rfl
  · simp only [row, List.forall_mem_cons]
    exact ⟨(field_toNat _ _ _).trans (congrArg BitVec.toNat (codeOf_scForm _ _)), by simp⟩
theorem mfc0 (rt rd : Reg) : Statement (.mfc0 rt rd) := by
  refine ⟨?_, ?_⟩
  · show rForm _ _ _ _ _ _ &&& (0xFFE007FF : Word) = 0x40000000
    rw [show (0xFFE007FF : Word) = rForm 63 31 0 0 31 63 from by decide, rForm_and]; simp; rfl
  · simp only [row, List.forall_mem_cons]
    exact ⟨(field_toNat _ _ _).trans (congrArg BitVec.toNat (rtOf_rForm _ _ _ _ _ _)), (field_toNat _ _ _).trans (congrArg BitVec.toNat (rdOf_rForm _ _ _ _ _ _)), by simp⟩
theorem mtc0 (rt rd : Reg) : Statement (.mtc0 rt rd) := by
  refine ⟨?_, ?_⟩
  · show rForm _ _ _ _ _ _ &&& (0xFFE007FF : Word) = 0x40800000
    rw [show (0xFFE007FF : Word) = rForm 63 31 0 0 31 63 from by decide, rForm_and]; simp; rfl
  · simp only [row, List.forall_mem_cons]
    exact ⟨(field_toNat _ _ _).trans (congrArg BitVec.toNat (rtOf_rForm _ _ _ _ _ _)), (field_toNat _ _ _).trans (congrArg BitVec.toNat (rdOf_rForm _ _ _ _ _ _)), by simp⟩

end Sys2Proof.Laws.TableBits
end

