-- ==== Sys2Proof/Tests/Slice0.lean ====
section
/-! SUPPORT. The model's own tests: decoded words, ill-formed terms refused, single steps with results taken from the spec, and
for every statement with hypotheses a state and operands that meet them. -/

namespace Sys2Proof.Machine.Tests

/-! ## Decoding -/

/-- Words of spec/42_int_alu.md, written out field by field from the encodings of the opcode table. -/
theorem test_decode_int_alu_1 :
    decodeTableWord 32 0b00000010011010100010100000100000 = some (.add 5 19 10)
      ∧ decodeTableWord 32 0b00000010011010100010100000100001 = some (.addu 5 19 10)
      ∧ decodeTableWord 32 0b00000010011010100010100000100010 = some (.sub 5 19 10)
      ∧ decodeTableWord 32 0b00000010011010100010100000100011 = some (.subu 5 19 10)
      ∧ decodeTableWord 32 0b00000010011010100010100000100100 = some (.and 5 19 10)
      ∧ decodeTableWord 32 0b00000010011010100010100000100101 = some (.or 5 19 10)
      ∧ decodeTableWord 32 0b00000010011010100010100000100110 = some (.xor 5 19 10)
      ∧ decodeTableWord 32 0b00000010011010100010100000100111 = some (.nor 5 19 10)
      ∧ decodeTableWord 32 0b00000010011010100010100000101010 = some (.slt 5 19 10)
      ∧ decodeTableWord 32 0b00000010011010100010100000101011 = some (.sltu 5 19 10)
      ∧ decodeTableWord 32 0b00000000000010100010110110000000 = some (.sll 5 10 22)
      ∧ decodeTableWord 32 0b00000000000010100010110110000010 = some (.srl 5 10 22)
      ∧ decodeTableWord 32 0b00000000000010100010110110000011 = some (.sra 5 10 22)
      ∧ decodeTableWord 32 0b00000010011010100010100000000100 = some (.sllv 5 10 19)
      ∧ decodeTableWord 32 0b00000010011010100010100000000110 = some (.srlv 5 10 19)
      ∧ decodeTableWord 32 0b00000010011010100010100000000111 = some (.srav 5 10 19)
      ∧ decodeTableWord 32 0b00100010011010101001101001011100 = some (.addi 10 19 0x9a5c)
      ∧ decodeTableWord 32 0b00100110011010101001101001011100 = some (.addiu 10 19 0x9a5c)
      ∧ decodeTableWord 32 0b00101010011010101001101001011100 = some (.slti 10 19 0x9a5c)
      ∧ decodeTableWord 32 0b00101110011010101001101001011100 = some (.sltiu 10 19 0x9a5c) := by decide

/-- Words of spec/42_int_alu.md, written out field by field from the encodings of the opcode table. -/
theorem test_decode_int_alu_2 :
    decodeTableWord 32 0b00110010011010101001101001011100 = some (.andi 10 19 0x9a5c)
      ∧ decodeTableWord 32 0b00110110011010101001101001011100 = some (.ori 10 19 0x9a5c)
      ∧ decodeTableWord 32 0b00111010011010101001101001011100 = some (.xori 10 19 0x9a5c)
      ∧ decodeTableWord 32 0b00111100000010101001101001011100 = some (.lui 10 0x9a5c) := by decide

/-- Words of spec/43_mdu.md, written out field by field from the encodings of the opcode table. -/
theorem test_decode_mdu :
    decodeTableWord 32 0b00000010011010100000000000011000 = some (.mult 19 10)
      ∧ decodeTableWord 32 0b00000010011010100000000000011001 = some (.multu 19 10)
      ∧ decodeTableWord 32 0b00000010011010100000000000011010 = some (.div 19 10)
      ∧ decodeTableWord 32 0b00000010011010100000000000011011 = some (.divu 19 10)
      ∧ decodeTableWord 32 0b00000000000000000010100000010000 = some (.mfhi 5)
      ∧ decodeTableWord 32 0b00000000000000000010100000010010 = some (.mflo 5)
      ∧ decodeTableWord 32 0b00000010011000000000000000010001 = some (.mthi 19)
      ∧ decodeTableWord 32 0b00000010011000000000000000010011 = some (.mtlo 19) := by decide

/-- Words of spec/44_loadstore.md, written out field by field from the encodings of the opcode table. -/
theorem test_decode_loadstore :
    decodeTableWord 32 0b10000010011010101001101001011100 = some (.lb 10 0x9a5c 19)
      ∧ decodeTableWord 32 0b10010010011010101001101001011100 = some (.lbu 10 0x9a5c 19)
      ∧ decodeTableWord 32 0b10000110011010101001101001011100 = some (.lh 10 0x9a5c 19)
      ∧ decodeTableWord 32 0b10010110011010101001101001011100 = some (.lhu 10 0x9a5c 19)
      ∧ decodeTableWord 32 0b10001110011010101001101001011100 = some (.lw 10 0x9a5c 19)
      ∧ decodeTableWord 32 0b10100010011010101001101001011100 = some (.sb 10 0x9a5c 19)
      ∧ decodeTableWord 32 0b10100110011010101001101001011100 = some (.sh 10 0x9a5c 19)
      ∧ decodeTableWord 32 0b10101110011010101001101001011100 = some (.sw 10 0x9a5c 19) := by decide

/-- Words of spec/45_control.md, written out field by field from the encodings of the opcode table. -/
theorem test_decode_control :
    decodeTableWord 32 0b00010010011010101001101001011100 = some (.beq 19 10 0x9a5c)
      ∧ decodeTableWord 32 0b00010110011010101001101001011100 = some (.bne 19 10 0x9a5c)
      ∧ decodeTableWord 32 0b00011010011000001001101001011100 = some (.blez 19 0x9a5c)
      ∧ decodeTableWord 32 0b00011110011000001001101001011100 = some (.bgtz 19 0x9a5c)
      ∧ decodeTableWord 32 0b00000110011000001001101001011100 = some (.bltz 19 0x9a5c)
      ∧ decodeTableWord 32 0b00000110011000011001101001011100 = some (.bgez 19 0x9a5c)
      ∧ decodeTableWord 32 0b00000110011100001001101001011100 = some (.bltzal 19 0x9a5c)
      ∧ decodeTableWord 32 0b00000110011100011001101001011100 = some (.bgezal 19 0x9a5c)
      ∧ decodeTableWord 32 0b00001010110000111010010111110001 = some (.j 0x2c3a5f1)
      ∧ decodeTableWord 32 0b00001110110000111010010111110001 = some (.jal 0x2c3a5f1)
      ∧ decodeTableWord 32 0b00000010011000000000000000001000 = some (.jr 19)
      ∧ decodeTableWord 32 0b00000010011000000010100000001001 = some (.jalr 5 19) := by decide

/-- Words of spec/46_float.md, written out field by field from the encodings of the opcode table. -/
theorem test_decode_float_1 :
    decodeTableWord 32 0b01000110000110100110000110000000 = some (.addS 6 12 26)
      ∧ decodeTableWord 32 0b01000110001110100110000110000000 = some (.addD 6 12 26)
      ∧ decodeTableWord 32 0b01000110000110100110000110000001 = some (.subS 6 12 26)
      ∧ decodeTableWord 32 0b01000110001110100110000110000001 = some (.subD 6 12 26)
      ∧ decodeTableWord 32 0b01000110000110100110000110000010 = some (.mulS 6 12 26)
      ∧ decodeTableWord 32 0b01000110001110100110000110000010 = some (.mulD 6 12 26)
      ∧ decodeTableWord 32 0b01000110000110100110000110000011 = some (.divS 6 12 26)
      ∧ decodeTableWord 32 0b01000110001110100110000110000011 = some (.divD 6 12 26)
      ∧ decodeTableWord 32 0b01000110000000000110000110000101 = some (.absS 6 12)
      ∧ decodeTableWord 32 0b01000110001000000110000110000101 = some (.absD 6 12)
      ∧ decodeTableWord 32 0b01000110000000000110000110000111 = some (.negS 6 12)
      ∧ decodeTableWord 32 0b01000110001000000110000110000111 = some (.negD 6 12)
      ∧ decodeTableWord 32 0b01000110000000000110000110000110 = some (.movS 6 12)
      ∧ decodeTableWord 32 0b01000110001000000110000110000110 = some (.movD 6 12)
      ∧ decodeTableWord 32 0b01000110001000000110000110100000 = some (.cvtSD 6 12)
      ∧ decodeTableWord 32 0b01000110100000000110000110100000 = some (.cvtSW 6 12)
      ∧ decodeTableWord 32 0b01000110000000000110000110100001 = some (.cvtDS 6 12)
      ∧ decodeTableWord 32 0b01000110100000000110000110100001 = some (.cvtDW 6 12)
      ∧ decodeTableWord 32 0b01000110000000000110000110100100 = some (.cvtWS 6 12)
      ∧ decodeTableWord 32 0b01000110001000000110000110100100 = some (.cvtWD 6 12) := by decide

/-- Words of spec/46_float.md, written out field by field from the encodings of the opcode table. -/
theorem test_decode_float_2 :
    decodeTableWord 32 0b01000110000110100110000000110000 = some (.cFS 12 26)
      ∧ decodeTableWord 32 0b01000110000110100110000000110001 = some (.cUnS 12 26)
      ∧ decodeTableWord 32 0b01000110000110100110000000110010 = some (.cEqS 12 26)
      ∧ decodeTableWord 32 0b01000110000110100110000000110011 = some (.cUeqS 12 26)
      ∧ decodeTableWord 32 0b01000110000110100110000000110100 = some (.cOltS 12 26)
      ∧ decodeTableWord 32 0b01000110000110100110000000110101 = some (.cUltS 12 26)
      ∧ decodeTableWord 32 0b01000110000110100110000000110110 = some (.cOleS 12 26)
      ∧ decodeTableWord 32 0b01000110000110100110000000110111 = some (.cUleS 12 26)
      ∧ decodeTableWord 32 0b01000110000110100110000000111000 = some (.cSfS 12 26)
      ∧ decodeTableWord 32 0b01000110000110100110000000111001 = some (.cNgleS 12 26)
      ∧ decodeTableWord 32 0b01000110000110100110000000111010 = some (.cSeqS 12 26)
      ∧ decodeTableWord 32 0b01000110000110100110000000111011 = some (.cNglS 12 26)
      ∧ decodeTableWord 32 0b01000110000110100110000000111100 = some (.cLtS 12 26)
      ∧ decodeTableWord 32 0b01000110000110100110000000111101 = some (.cNgeS 12 26)
      ∧ decodeTableWord 32 0b01000110000110100110000000111110 = some (.cLeS 12 26)
      ∧ decodeTableWord 32 0b01000110000110100110000000111111 = some (.cNgtS 12 26)
      ∧ decodeTableWord 32 0b01000110001110100110000000110000 = some (.cFD 12 26)
      ∧ decodeTableWord 32 0b01000110001110100110000000110001 = some (.cUnD 12 26)
      ∧ decodeTableWord 32 0b01000110001110100110000000110010 = some (.cEqD 12 26)
      ∧ decodeTableWord 32 0b01000110001110100110000000110011 = some (.cUeqD 12 26) := by decide

/-- Words of spec/46_float.md, written out field by field from the encodings of the opcode table. -/
theorem test_decode_float_3 :
    decodeTableWord 32 0b01000110001110100110000000110100 = some (.cOltD 12 26)
      ∧ decodeTableWord 32 0b01000110001110100110000000110101 = some (.cUltD 12 26)
      ∧ decodeTableWord 32 0b01000110001110100110000000110110 = some (.cOleD 12 26)
      ∧ decodeTableWord 32 0b01000110001110100110000000110111 = some (.cUleD 12 26)
      ∧ decodeTableWord 32 0b01000110001110100110000000111000 = some (.cSfD 12 26)
      ∧ decodeTableWord 32 0b01000110001110100110000000111001 = some (.cNgleD 12 26)
      ∧ decodeTableWord 32 0b01000110001110100110000000111010 = some (.cSeqD 12 26)
      ∧ decodeTableWord 32 0b01000110001110100110000000111011 = some (.cNglD 12 26)
      ∧ decodeTableWord 32 0b01000110001110100110000000111100 = some (.cLtD 12 26)
      ∧ decodeTableWord 32 0b01000110001110100110000000111101 = some (.cNgeD 12 26)
      ∧ decodeTableWord 32 0b01000110001110100110000000111110 = some (.cLeD 12 26)
      ∧ decodeTableWord 32 0b01000110001110100110000000111111 = some (.cNgtD 12 26)
      ∧ decodeTableWord 32 0b11000110011110101001101001011100 = some (.lwc1 26 0x9a5c 19)
      ∧ decodeTableWord 32 0b11100110011110101001101001011100 = some (.swc1 26 0x9a5c 19)
      ∧ decodeTableWord 32 0b01000100000010100110000000000000 = some (.mfc1 10 12)
      ∧ decodeTableWord 32 0b01000100100010100110000000000000 = some (.mtc1 10 12)
      ∧ decodeTableWord 32 0b01000101000000011001101001011100 = some (.bc1t 0x9a5c)
      ∧ decodeTableWord 32 0b01000101000000001001101001011100 = some (.bc1f 0x9a5c) := by decide

/-- Words of spec/47_system.md, written out field by field from the encodings of the opcode table. -/
theorem test_decode_system :
    decodeTableWord 32 0b00000010110101101000111100001100 = some (.syscall 0xb5a3c)
      ∧ decodeTableWord 32 0b00000010110101101000111100001101 = some (.brk 0xb5a3c)
      ∧ decodeTableWord 32 0b01000000000010100010100000000000 = some (.mfc0 10 5)
      ∧ decodeTableWord 32 0b01000000100010100010100000000000 = some (.mtc0 10 5) := by decide

/-- Words of no instruction: a primary opcode of no row, a must-be-zero field that is not zero, coprocessors 2 and 3, LWC0 (R95,
R97, R98). -/
theorem test_decode_reserved :
    decodeTableWord 32 0b01010100000000000000000000000000 = none
      ∧ decodeTableWord 32 0b00000000001000100001100001100000 = none
      ∧ decodeWord cfgEx.usable 0b01001000000000000000000000000000 = .copUnusable 2
      ∧ decodeWord cfgEx.usable 0b01001100000000000000000000000000 = .copUnusable 3
      ∧ decodeWord cfgEx.usable 0b11000000001000100000000000000000 = .reserved := by decide

/-! ## Well-formed instructions: an ill-formed term of every form that has a double-precision field (R304) -/

theorem test_wellFormed_refuses_arith :
    (Instr.addD 1 2 4).wellFormed = false ∧ (Instr.subD 2 3 4).wellFormed = false ∧ (Instr.mulD 2 4 5).wellFormed = false
      ∧ (Instr.divD 31 4 6).wellFormed = false := by decide
theorem test_wellFormed_refuses_bits :
    (Instr.absD 1 2).wellFormed = false ∧ (Instr.negD 2 1).wellFormed = false ∧ (Instr.movD 3 5).wellFormed = false := by decide
theorem test_wellFormed_refuses_convert :
    (Instr.cvtSD 1 3).wellFormed = false ∧ (Instr.cvtWD 2 5).wellFormed = false ∧ (Instr.cvtDS 1 2).wellFormed = false
      ∧ (Instr.cvtDW 7 1).wellFormed = false := by decide
theorem test_wellFormed_refuses_compare :
    (Instr.cFD 1 2).wellFormed = false ∧ (Instr.cEqD 2 1).wellFormed = false ∧ (Instr.cNgtD 3 3).wellFormed = false := by decide
theorem test_wellFormed_accepts :
    (Instr.addD 2 4 6).wellFormed = true ∧ (Instr.cvtSD 1 2).wellFormed = true ∧ (Instr.cvtDS 2 1).wellFormed = true
      ∧ (Instr.addS 1 3 5).wellFormed = true := by decide

/-! ## Single steps -/

/-- Whether an instruction of a state answers a next state that meets p. -/
def runs (i : Instr) (s : State) (p : State → Bool) : Bool :=
  match exec i s with
  | .next t => p t
  | .fault _ => false
  | .refused _ => false

/-- Reset, with two integer registers set. -/
def ints (a b : Word) : State := (State.reset.writeX 1 a).writeX 2 b

/-- Reset, with two single-precision registers set. -/
def floats (a b : Word) : State := (State.reset.writeF 2 a).writeF 4 b

/-- Reset, with two double-precision registers set. -/
def doubles (a b : DWord) : State := (State.reset.writeFD 2 a).writeFD 4 b

/-- Reset, with bytes in memory and a base register. -/
def bytes (base : Word) (l : List Byte) : State := (State.reset.writeX 1 base).writeBytes base l

/-- Reset, with records in slots. -/
def slotted (p : Pipe) : State := { State.reset with pipe := p }

/-- A record of an instruction in a stage. -/
def recAt (i : Instr) (stage : Tag) : Rec := { freshRec 0x40 with inst := .instr i, stage := stage }

/-- R202: the sum 2^31 overflows; nothing is written, Cause and EPC are. -/
theorem test_add_overflow :
    runs (.add 3 1 2) (ints 0x7FFFFFFF 1) (fun t => t.readX 3 == 0 && t.readC0 13 == 0x30 && t.readC0 14 == 0) = true := by decide
/-- R203: the greatest sum that fits. -/
theorem test_add_fits : runs (.add 3 1 2) (ints 0x7FFFFFFE 1) (fun t => t.readX 3 == 0x7FFFFFFF) = true := by decide
/-- R204: the sum wraps. -/
theorem test_addu_wraps : runs (.addu 1 1 2) (ints 0xFFFFFFFF 2) (fun t => t.readX 1 == 1) = true := by decide
/-- R206 -/
theorem test_subu_wraps : runs (.subu 3 1 2) (ints 0 1) (fun t => t.readX 3 == 0xFFFFFFFF) = true := by decide
/-- R210 -/
theorem test_nor : runs (.nor 3 1 2) (ints 0xF0 0x0F) (fun t => t.readX 3 == 0xFFFFFF00) = true := by decide
/-- R211, R212: -1 is less than 1 signed, not unsigned. -/
theorem test_slt : runs (.slt 3 1 2) (ints 0xFFFFFFFF 1) (fun t => t.readX 3 == 1) = true := by decide
theorem test_sltu : runs (.sltu 3 1 2) (ints 0xFFFFFFFF 1) (fun t => t.readX 3 == 0) = true := by decide
/-- R215 -/
theorem test_sra : runs (.sra 3 1 4) (ints 0x80000000 0) (fun t => t.readX 3 == 0xF8000000) = true := by decide
/-- R216: only the low five bits count. -/
theorem test_sllv : runs (.sllv 3 2 1) (ints 33 3) (fun t => t.readX 3 == 6) = true := by decide
/-- R222: the immediate is sign-extended, then compared as unsigned. -/
theorem test_sltiu : runs (.sltiu 3 1 0xFFFF) (ints 5 0) (fun t => t.readX 3 == 1) = true := by decide
/-- R223: the immediate is zero-extended. -/
theorem test_andi : runs (.andi 3 1 0xFFFF) (ints 0xFFFFFFFF 0) (fun t => t.readX 3 == 0xFFFF) = true := by decide
/-- R226 -/
theorem test_lui : runs (.lui 3 0x8001) State.reset (fun t => t.readX 3 == 0x80010000) = true := by decide
/-- R21: a write of register 0 is discarded. -/
theorem test_register_zero : runs (.addiu 0 1 5) (ints 7 0) (fun t => t.readX 0 == 0) = true := by decide
/-- R248: -2 x 3. -/
theorem test_mult :
    runs (.mult 1 2) (ints 0xFFFFFFFE 3) (fun t => t.hi.read == 0xFFFFFFFF && t.lo.read == 0xFFFFFFFA) = true := by decide
/-- R246: the unsigned corner. -/
theorem test_multu :
    runs (.multu 1 2) (ints 0xFFFFFFFF 0xFFFFFFFF) (fun t => t.hi.read == 0xFFFFFFFE && t.lo.read == 1) = true := by decide
/-- R250: -7 / 2. -/
theorem test_div :
    runs (.div 1 2) (ints 0xFFFFFFF9 2) (fun t => t.hi.read == 0xFFFFFFFF && t.lo.read == 0xFFFFFFFD) = true := by decide
/-- R247: the corner -2^31 / -1. -/
theorem test_div_corner :
    runs (.div 1 2) (ints 0x80000000 0xFFFFFFFF) (fun t => t.hi.read == 0 && t.lo.read == 0x80000000) = true := by decide
/-- R254 -/
theorem test_mthi : runs (.mthi 1) (ints 0x1234 0) (fun t => t.hi.read == 0x1234 && t.lo.read == 0) = true := by decide
/-- R263: the byte is sign-extended. -/
theorem test_lb : runs (.lb 3 0 1) (bytes 0x100 [0x80]) (fun t => t.readX 3 == 0xFFFFFF80) = true := by decide
/-- R266, R69: little-endian, zero-extended. -/
theorem test_lhu : runs (.lhu 3 0 1) (bytes 0x100 [0x34, 0x92]) (fun t => t.readX 3 == 0x9234) = true := by decide
/-- R70: a misaligned load raises AdEL with its address. -/
theorem test_lw_misaligned :
    runs (.lw 3 2 1) (bytes 0x100 []) (fun t => t.readX 3 == 0 && t.readC0 8 == 0x102 && t.readC0 13 == 0x10) = true := by decide
/-- R270, R69 -/
theorem test_sw :
    runs (.sw 2 0xFFFC 1) (ints 0x104 0x11223344) (fun t => t.mem == [(0x100, 0x44), (0x101, 0x33), (0x102, 0x22), (0x103, 0x11)])
      = true := by decide
/-- A byte written back to what an unlisted address reads as is not listed. -/
theorem test_sb_canonical : runs (.sb 0 0 1) (bytes 0x100 [0x80]) (fun t => t.mem == []) = true := by decide
/-- R283: the offset counts words from the delay slot; 0xFFFF targets the branch itself. -/
theorem test_beq_taken :
    runs (.beq 1 2 0xFFFF) (ints 5 5) (fun t => t.fpc == 4 && t.fnpc == 0 && t.bdFlag) = true := by decide
theorem test_bne_not_taken :
    runs (.bne 1 2 0xFFFF) (ints 5 5) (fun t => t.fpc == 4 && t.fnpc == 8 && t.bdFlag) = true := by decide
/-- R293: the link is written though the branch is not taken. -/
theorem test_bltzal : runs (.bltzal 1 4) (ints 1 0) (fun t => t.readX 31 == 8 && t.fnpc == 8) = true := by decide
/-- R284, R289 -/
theorem test_jal : runs (.jal 0x100) State.reset (fun t => t.readX 31 == 8 && t.fnpc == 0x400) = true := by decide
/-- R296: the target is read before the link is written. -/
theorem test_jalr_same : runs (.jalr 1 1) (ints 0x200 0) (fun t => t.readX 1 == 8 && t.fnpc == 0x200) = true := by decide
/-- R321 and the patterns of R309: 1.0 + 2.0 = 3.0. -/
theorem test_add_d :
    runs (.addD 6 2 4) (doubles 0x3FF0000000000000 0x4000000000000000) (fun t => t.readFD 6 == 0x4008000000000000) = true := by
  decide
/-- R324: 2.0 x 3.0 = 6.0. -/
theorem test_mul_s : runs (.mulS 6 2 4) (floats 0x40000000 0x40400000) (fun t => t.readF 6 == 0x40C00000) = true := by decide
/-- R326, R307: 1.0 / 0 is +∞. -/
theorem test_div_s_zero : runs (.divS 6 2 4) (floats 0x3F800000 0) (fun t => t.readF 6 == 0x7F800000) = true := by decide
/-- R330 -/
theorem test_neg_s : runs (.negS 6 2) (floats 0x3F800000 0) (fun t => t.readF 6 == 0xBF800000) = true := by decide
/-- R338, R306: 2.5 rounds to the even 2. -/
theorem test_cvt_w_s : runs (.cvtWS 6 2) (floats 0x40200000 0) (fun t => t.readF 6 == 2) = true := by decide
/-- R340: C.LT.S of 1.0, 2.0. -/
theorem test_c_lt_s : runs (.cLtS 2 4) (floats 0x3F800000 0x40000000) (fun t => t.fpCond) = true := by decide
/-- R340: C.EQ.S of NaN, NaN is false; C.UEQ.S of NaN, 1.0 is true. -/
theorem test_c_eq_s_nan : runs (.cEqS 2 4) (floats 0x7FC00000 0x7FC00000) (fun t => !t.fpCond) = true := by decide
theorem test_c_ueq_s_nan : runs (.cUeqS 2 4) (floats 0x7FC00000 0x3F800000) (fun t => t.fpCond) = true := by decide
/-- R304 -/
theorem test_odd_double : runs (.addD 1 2 4) State.reset (fun t => t.readC0 13 == 0x28 && t.readF 1 == 0) = true := by decide
/-- R381 -/
theorem test_syscall :
    runs (.syscall 7) { State.reset with fpc := 0x00400020, fnpc := 0x00400024 }
      (fun t => t.readC0 13 == 0x20 && t.readC0 14 == 0x00400020 && t.mode == .idle) = true := by decide
/-- R440: in a delay slot EPC is the branch's address and Cause has bit 31. -/
theorem test_break_delay_slot :
    runs (.brk 0) { State.reset with fpc := 0x40, fnpc := 0x80, bdFlag := true }
      (fun t => t.readC0 13 == 0x80000024 && t.readC0 14 == 0x3C) = true := by decide
/-- R385, R384 -/
theorem test_mtc0 : runs (.mtc0 1 12) (ints 0xABCD 0) (fun t => t.readC0 12 == 0xABCD && t.readX 1 == 0xABCD) = true := by decide
theorem test_mfc0 : runs (.mfc0 3 14) (State.reset.writeC0 14 0x44) (fun t => t.readX 3 == 0x44) = true := by decide
/-- R263, R264, R268: a byte access is never refused as a forbidden address. -/
theorem test_lb_forbidden :
    runs (.lb 3 0 1) { bytes 0x100 [0x12] with script := [.refuse .forbidden] } (fun t => t.readX 3 == 0x12 && !t.excFound) = true := by
  decide
/-- R138, R433, R441: a fetch refused again keeps its first code, and holds no instruction. -/
theorem test_refused_twice :
    (({ recAt (.lwc1 3 0 1) .ifetch with exception := some .tlbl } : Rec).refused .ibe).exception = some .tlbl
      ∧ ((recAt (.lwc1 3 0 1) .ifetch).refused .ibe).inst = .reserved
      ∧ ((recAt (.lwc1 3 0 1) .ifetch).refused .ibe).exception = some .ibe := by decide
/-- R402, R404, R407: a schedule file with a zero mask is fatal; one with a comment and an entry is not. -/
theorem test_fault_file :
    (State.reset.initInjection (.file (some "ALU Cycle 5 0".toList)) []).outcome = some .fatal
      ∧ (State.reset.initInjection (.file (some "# x\nWB event 0x2 0x10".toList)) []).inj.wb.byEvent = [{ due := 2, mask := 0x10 }] := by
  decide
/-- R386: a COP2 word fetched raises CpU with CE = 2. -/
theorem test_step_cop2 :
    (match step (State.reset.withFetchWord 32 0x48000000) with
      | .next t => t.readC0 13 == 0x2000002C
      | .fault _ => false
      | .refused _ => false) = true := by decide

/-! ## A state and operands that meet the hypotheses of each statement -/

/-- Reset, the collaborator refusing its first request. -/
def refusing (why : Reason) : State := { State.reset with script := [.refuse why] }

theorem test_witness_StepKeepsInvariant : State.reset.Inv = true ∧ ∃ t, step State.reset = .next t := ⟨by decide, _, rfl⟩
theorem test_witness_StepKeepsParameters : ∃ t, step { State.reset with calls := [.run 0x100 5] } = .next t := ⟨_, rfl⟩
/-- An empty IF slot with one free record left, with none, and an occupied one. -/
theorem test_witness_RunBegins :
    (({ State.reset with poolFree := 1 } : State).pipe.ifSlot = none ∧ 0 < ({ State.reset with poolFree := 1 } : State).poolFree)
      ∧ (({ State.reset with poolFree := 0 } : State).pipe.ifSlot = none ∧ ({ State.reset with poolFree := 0 } : State).poolFree = 0)
      ∧ (slotted { emptyPipe with ifSlot := some (freshRec 0) }).pipe.ifSlot = some (freshRec 0) := by decide

/-- A run with budget n left, with a record of SYSCALL in WB. -/
def trapping (n : Nat) (policy : Policy) : State :=
  { slotted { emptyPipe with wbSlot := some { recAt (.syscall 0) .wb with exception := some .sys } } with
    mode := .cycles n, poolFree := 31, params := { cfgEx with policy := policy } }

theorem test_witness_RunOutcomes_budget : ({ State.reset with mode := .cycles 0 } : State).mode = .cycles 0 := rfl
theorem test_witness_RunOutcomes_fatal :
    ({ State.reset with mode := .cycles 1, poolFree := 0 } : State).runCycle = none := by decide
theorem test_witness_RunOutcomes_next :
    ∃ t, ({ State.reset with mode := .cycles 1 } : State).runCycle = some t ∧ t.excFound = false := ⟨_, rfl, rfl⟩
theorem test_witness_RunOutcomes_stop :
    ∃ t, (trapping 1 (.continueOn [])).runCycle = some t ∧ t.excFound = true
      ∧ policyContinues t.params.policy (t.readC0 causeReg) = false := ⟨_, rfl, rfl, by decide⟩
theorem test_witness_RunOutcomes_continue :
    ∃ t, (trapping 1 (.stopOn [])).runCycle = some t ∧ t.excFound = true
      ∧ policyContinues t.params.policy (t.readC0 causeReg) = true ∧ t.pipe.ifSlot = none ∧ 0 < t.poolFree :=
  ⟨_, rfl, rfl, by decide, rfl, by decide⟩
/-- The first and last opcodes of each group. -/
theorem test_witness_CoprocessorOpcodes :
    (opcodeOf 0x40000000).toNat = 16 + (0 : BitVec 2).toNat ∧ (opcodeOf 0x4C000000).toNat = 16 + (3 : BitVec 2).toNat
      ∧ (opcodeOf 0xC0000000).toNat = 48 + (0 : BitVec 2).toNat ∧ (opcodeOf 0xC4000000).toNat = 48 + (1 : BitVec 2).toNat
      ∧ (opcodeOf 0xE0000000).toNat = 56 + (0 : BitVec 2).toNat ∧ (opcodeOf 0xEC000000).toNat = 56 + (3 : BitVec 2).toNat
      ∧ usableAt cfgEx.usable 0 = true ∧ usableAt cfgEx.usable 1 = true ∧ usableAt cfgEx.usable 2 = false
      ∧ usableAt { cfgEx.usable with z2 := true, z3 := true } 2 = true
      ∧ usableAt { cfgEx.usable with z2 := true, z3 := true } 3 = true := by decide
/-- Reset with an ADDU at 0, and three older memories, of which the oldest holds nothing there. -/
def modified : State :=
  { State.reset.withFetchWord 32 0x00221821 with
    earlier := [[], (State.reset.withFetchWord 32 0x00221821).mem, []] }

theorem test_witness_StepRunsDecoded :
    (State.reset.withFetchWord 32 0x00221821).mode = .instr ∧ (State.reset.withFetchWord 32 0x00221821).calls = []
      ∧ (State.reset.withFetchWord 32 0x00221821).atRest = true ∧ (State.reset.withFetchWord 32 0x00221821).settled = true
      ∧ (State.reset.withFetchWord 32 0x00221821).script = [] ∧ (State.reset.withFetchWord 32 0x00221821).fpc.toNat % 4 = 0
      ∧ (State.reset.withFetchWord 32 0x00221821).fetchWords = [0x00221821]
      ∧ decodeWord (State.reset.withFetchWord 32 0x00221821).params.usable 0x00221821 = .instr (.addu 3 1 2)
      ∧ (State.reset.withFetchWord 32 0x00221821).earlier = [] := by
  rw [fetchWords_first rfl]; decide
/-- R78: the words of the memories before the last two and the last three instructions. -/
theorem test_witness_StepRunsDecoded_modified :
    modified.mode = .instr ∧ modified.atRest = true ∧ modified.settled = true ∧ modified.script = [] ∧ modified.earlier.length = 3
      ∧ modified.excFound = false ∧ modified.fetchWords = [0x00221821, 0] := by
  rw [fetchWords_later rfl rfl]
  decide
/-- At rest, in instruction mode. -/
def ready (s : State) : Bool := s.mode == .instr && s.calls == [] && s.atRest && s.settled

theorem test_witness_StepTrapsOnFetch_reserved :
    ready (State.reset.withFetchWord 32 0xFC000000) = true ∧ (State.reset.withFetchWord 32 0xFC000000).script = []
      ∧ (∀ w ∈ (State.reset.withFetchWord 32 0xFC000000).fetchWords, decodeWord cfgEx.usable w = .reserved) := by
  have h : (State.reset.withFetchWord 32 0xFC000000).fetchWords = [0xFC000000] := by rw [fetchWords_first rfl]; decide
  exact ⟨by decide, by decide, fun w hw => by rw [h] at hw; cases List.mem_singleton.mp hw; rfl⟩
theorem test_witness_StepTrapsOnFetch_unusable :
    ready (State.reset.withFetchWord 32 0x48000000) = true ∧ (State.reset.withFetchWord 32 0x48000000).fpc.toNat % 4 = 0
      ∧ (∀ w ∈ (State.reset.withFetchWord 32 0x48000000).fetchWords, decodeWord cfgEx.usable w = .copUnusable 2) := by
  have h : (State.reset.withFetchWord 32 0x48000000).fetchWords = [0x48000000] := by rw [fetchWords_first rfl]; decide
  exact ⟨by decide, by decide, fun w hw => by rw [h] at hw; cases List.mem_singleton.mp hw; rfl⟩
theorem test_witness_StepTrapsOnFetch :
    (ready { State.reset with fpc := 2 } = true ∧ ({ State.reset with fpc := 2 } : State).refusal .ifetch 2 = some .adel)
      ∧ ready (refusing .busError) = true ∧ (refusing .busError).refusal .ifetch 0 = some .ibe := by decide
theorem test_witness_RegisterFormResults : (ints 0xFFFFFFFF 33).quiet = true := by decide
theorem test_witness_ImmediateResults : (ints 0x7FFFFFFF 0).quiet = true := by decide
/-- The greatest and the least sum and difference that fit. -/
theorem test_witness_SignedArithmeticResults :
    (ints 0x7FFFFFFE 1).quiet = true
      ∧ ((ints 0x7FFFFFFE 1).readX 1).toInt + ((ints 0x7FFFFFFE 1).readX 2).toInt = 2147483647
      ∧ ((ints 0x80000001 0xFFFFFFFF).readX 1).toInt + ((ints 0x80000001 0xFFFFFFFF).readX 2).toInt = -2147483648
      ∧ ((ints 0x80000001 1).readX 1).toInt - ((ints 0x80000001 1).readX 2).toInt = -2147483648
      ∧ ((ints 0x7FFFFFFE 0).readX 1).toInt + (1 : Imm).toInt = 2147483647 := by decide
/-- One above and one below. -/
theorem test_witness_SignedOverflowTraps :
    (ints 0x7FFFFFFF 1).quiet = true
      ∧ ((ints 0x7FFFFFFF 1).readX 1).toInt + ((ints 0x7FFFFFFF 1).readX 2).toInt = 2147483648
      ∧ ((ints 0x80000000 0xFFFFFFFF).readX 1).toInt + ((ints 0x80000000 0xFFFFFFFF).readX 2).toInt = -2147483649
      ∧ ((ints 0x7FFFFFFF 0xFFFFFFFF).readX 1).toInt - ((ints 0x7FFFFFFF 0xFFFFFFFF).readX 2).toInt = 2147483648
      ∧ ((ints 0x80000000 0).readX 1).toInt + (0xFFFF : Imm).toInt = -2147483649 := by decide
theorem test_witness_MultiplyResults : (ints 3 4).quiet = true ∧ (ints 3 4).mduPending = false := by decide
/-- The corner, a case beside it, and the least divisor. -/
theorem test_witness_DivideResults :
    (ints 0x80000000 0xFFFFFFFF).quiet = true ∧ (ints 0x80000000 0xFFFFFFFF).mduPending = false
      ∧ (ints 0x80000000 0xFFFFFFFF).readX 1 = 0x80000000 ∧ (ints 0x80000000 0xFFFFFFFF).readX 2 = 0xFFFFFFFF
      ∧ (ints 0x80000001 0xFFFFFFFF).readX 1 ≠ 0x80000000 ∧ (ints 7 1).readX 2 ≠ 0 := by decide
theorem test_witness_DivideByZeroCompletes :
    (ints 7 0).quiet = true ∧ (ints 7 0).mduPending = false ∧ (ints 7 0).readX 2 = 0 := by decide
theorem test_witness_HiLoMoves :
    (ints 7 0).quiet = true ∧ (ints 7 0).hiPresent = true ∧ (ints 7 0).loPresent = true ∧ (ints 7 0).mduPending = false := by decide

/-- Reset, the unit counting. -/
def counting (n : Nat) : State := { State.reset with mdu := { hi := 1, lo := 2, count := n } }

theorem test_witness_MduTick : (counting 1).mdu.count = 1 ∧ 1 < (counting 2).mdu.count ∧ (counting 0).mdu.count = 0 := by decide
/-- The costs of CFG_EX, and the least. -/
theorem test_witness_MduCommitsAtItsCost :
    State.reset.quiet = true ∧ 12 = State.reset.params.multCost.val ∧ 35 = State.reset.params.divCost.val
      ∧ 1 = ({ State.reset with params := { cfgEx with multCost := ⟨1, by decide⟩ } } : State).params.multCost.val := by decide
/-- MULT in EX, with a given WB slot. -/
def issuing (wb : Option Rec) : State := slotted { emptyPipe with exSlot := some (recAt (.mult 1 2) .ex), wbSlot := wb }

theorem test_witness_SquashSuppressesIssue :
    (∀ wb, (issuing wb).pipe.exSlot = some (recAt (.mult 1 2) .ex) ∧ (recAt (.mult 1 2) .ex).exception = none
        ∧ (issuing wb).memStall = false)
      ∧ (∃ q, (issuing (some { recAt (.syscall 0) .wb with exception := some .sys })).pipe.wbSlot = some q ∧ q.exception.isSome = true)
      ∧ ∀ q, (issuing none).pipe.wbSlot = some q → q.exception = none :=
  ⟨fun _ => ⟨rfl, rfl, rfl⟩, ⟨_, rfl, rfl⟩, fun q h => (nomatch (h : (none : Option Rec) = some q))⟩
theorem test_witness_LoadResults :
    (ints 0x101 0).quiet = true ∧ (ints 0x101 0).refusal .rdB ((ints 0x101 0).effAddr 1 0) = none
      ∧ (ints 0x102 0).refusal .rdH ((ints 0x102 0).effAddr 1 0) = none
      ∧ (ints 0xFFFFFFFC 0).refusal .rdW ((ints 0xFFFFFFFC 0).effAddr 1 0) = none := by decide
theorem test_witness_StoreResults :
    (ints 0x101 0).quiet = true ∧ (ints 0x101 0).refusal .wrB ((ints 0x101 0).effAddr 1 0) = none
      ∧ (ints 0x102 0).refusal .wrH ((ints 0x102 0).effAddr 1 0) = none
      ∧ (ints 0xFFFFFFFC 0).refusal .wrW ((ints 0xFFFFFFFC 0).effAddr 1 0) = none
      ∧ (ints 0x101 0).presentF 31 = true := by decide
/-- The kinds at an address on either side of their alignment. -/
theorem test_witness_MisalignedRequests :
    misaligned .rdB 0xFFFFFFFF = false ∧ misaligned .rdH 1 = true ∧ misaligned .wrH 2 = false ∧ misaligned .ifetch 3 = true
      ∧ misaligned .wrW 2 = true ∧ misaligned .rdW 4 = false := by decide
theorem test_witness_RefusedAccessTraps :
    (ints 0x102 0).quiet = true ∧ (ints 0x102 0).refusal .rdW ((ints 0x102 0).effAddr 1 0) = some .adel
      ∧ (ints 0x101 0).refusal .wrH ((ints 0x101 0).effAddr 1 0) = some .ades
      ∧ (refusing .noTranslation).refusal .rdB ((refusing .noTranslation).effAddr 1 5) = some .tlbl
      ∧ (refusing .notWritable).refusal .wrB ((refusing .notWritable).effAddr 1 5) = some .mod
      ∧ (refusing .busError).quiet = true ∧ (refusing .busError).presentF 0 = true := by decide
theorem test_witness_StoreThenLoad :
    (ints 0x100 0).quiet = true ∧ (ints 0x100 0).script = [] ∧ (ints 0x100 0).effAddr 1 4 = (ints 0x100 0).effAddr 0 0x104
      ∧ ((ints 0x100 0).effAddr 0 0x104).toNat % 4 = 0 ∧ ((ints 0x100 0).effAddr 1 2).toNat % 2 = 0 := by decide

/-- A load that missed with bus tag 3, the completion of a tag just arrived. -/
def waiting (i : Instr) (tag : Nat) (datum : Datum) : State :=
  { slotted { emptyPipe with memSlot := some { recAt i .memStall with busTag := 3 } } with busDone := some (tag, datum) }

theorem test_witness_StaleCompletionIgnored :
    (waiting (.lw 2 0 1) 2 (.word 5)).busDone = some (2, .word 5)
      ∧ (∀ r, (waiting (.lw 2 0 1) 2 (.word 5)).pipe.memSlot = some r → r.stage = .memStall → r.busTag ≠ 2)
      ∧ ∀ r, (waiting (.lw 2 0 1) 2 (.word 5)).pipe.ifSlot = some r → r.stage = .ifStall → r.busTag ≠ 2 :=
  ⟨rfl, fun r h _ => by cases h; decide, fun r h => (nomatch (h : (none : Option Rec) = some r))⟩
theorem test_witness_MissedLoadWaits :
    (∀ i tag datum, (waiting i tag datum).quiet = true
        ∧ (waiting i tag datum).pipe.memSlot = some { recAt i .memStall with busTag := 3 }
        ∧ (waiting i tag datum).busDone = some (tag, datum))
      ∧ (∀ datum, (waiting (.lw 2 0 1) 2 (.word 5)).busDone ≠ some (3, datum))
      ∧ (recAt (.lb 0 0 1) .memStall).inst = .instr (.lb 0 0 1) ∧ (recAt (.lwc1 31 0 1) .memStall).inst = .instr (.lwc1 31 0 1) :=
  ⟨fun _ _ _ => ⟨rfl, rfl, rfl⟩, fun datum h => (nomatch (h : some (2, Datum.word 5) = some (3, datum))), rfl, rfl⟩
/-- R142: the un-stall of an LB extends the sign of its byte. -/
theorem test_missed_lb :
    (waiting (.lb 2 0 1) 3 (.byte 0x80)).stepUnstall.bypMEM = some (2, 0xFFFFFF80) := by decide
theorem test_witness_ConditionalBranches : (ints 0 0).quiet = true ∧ (ints 0 0).fpCondPresent = true := by decide
theorem test_witness_LinkingBranches : (ints 0 0).quiet = true ∧ (ints 0x80000000 0).quiet = true := by decide
theorem test_witness_Jumps : (ints 0x200 0).quiet = true := by decide
/-- Both outcomes of the comparisons, at zero and the least number. -/
theorem test_witness_DelaySlotThenTarget :
    (ints 5 5).quiet = true ∧ (ints 5 5).readX 1 = (ints 5 5).readX 2 ∧ (ints 5 4).readX 1 ≠ (ints 5 4).readX 2
      ∧ ((ints 0 0).readX 1).toInt ≤ 0 ∧ ((ints 0x80000000 0).readX 1).toInt < 0 ∧ 0 < ((ints 1 0).readX 1).toInt
      ∧ (State.reset.fpCondPresent && !State.reset.fpCond) = true
      ∧ (({ State.reset with fpCond := true } : State).fpCondPresent && ({ State.reset with fpCond := true } : State).fpCond) = true
    := by decide
theorem test_witness_FloatArithmetic :
    (doubles 1 2).quiet = true ∧ (doubles 1 2).fpReady = true ∧ (Instr.addD 30 2 4).wellFormed = true
      ∧ (Instr.divD 0 2 4).wellFormed = true ∧ (doubles 1 2).params.numerics = .ieee := by decide
/-- The least subnormal, a zero of each sign, and 1. -/
theorem test_witness_RoundingNearestEven :
    fmtS.unpack (1 : Word).toNat = .fin false 1 (-149) ∧ fmtD.unpack (1 : DWord).toNat = .fin false 1 (-1074)
      ∧ fmtS.unpack (0x80000000 : Word).toNat = .fin true 0 (-149)
      ∧ fmtS.unpack (0x3F800000 : Word).toNat = .fin false (2 ^ 23) (-23) := by decide
theorem test_witness_FloatBitOperations :
    (doubles 1 2).quiet = true ∧ (doubles 1 2).fpReady = true ∧ (Instr.negD 30 2).wellFormed = true := by decide
theorem test_witness_FloatConversions :
    (doubles 1 2).quiet = true ∧ (doubles 1 2).fpReady = true ∧ (Instr.cvtSD 31 2).wellFormed = true
      ∧ (Instr.cvtDW 30 31).wellFormed = true ∧ (Instr.cvtWS 31 31).wellFormed = true
      ∧ (doubles 1 2).params.numerics = .ieee := by decide
theorem test_witness_FloatCompares :
    (doubles 1 2).quiet = true ∧ (doubles 1 2).fpReady = true ∧ (doubles 1 2).fpCondPresent = true
      ∧ (Instr.cLtD 2 30).wellFormed = true := by decide
theorem test_witness_NanResults : State.reset.params.numerics = .ieee := rfl
theorem test_witness_RelationByValue : State.reset.params.numerics = .ieee := rfl
theorem test_witness_OddDoubleTraps :
    (Instr.addD 31 2 4).wellFormed = false
      ∧ (slotted { emptyPipe with idSlot := some (recAt (.addD 31 2 4) .id) }).pipe.idSlot = some (recAt (.addD 31 2 4) .id)
      ∧ (recAt (.addD 31 2 4) .id).exception = none
      ∧ (slotted { emptyPipe with idSlot := some (recAt (.addD 31 2 4) .id) }).memStall = false := by decide
theorem test_witness_FloatMoves :
    (ints 0x100 0).quiet = true ∧ (ints 0x100 0).presentF 31 = true
      ∧ (ints 0x100 0).refusal .rdW ((ints 0x100 0).effAddr 1 4) = none := by decide
/-- The thresholds of R311 on both sides. -/
theorem test_witness_IssueThresholds :
    ({ add := 0, mul := 3, div := 5 } : Busy).canIssue .addSub = true ∧ ({ add := 0, mul := 2, div := 0 } : Busy).canIssue .addSub = false
      ∧ ({ add := 0, mul := 0, div := 4 } : Busy).canIssue .cvt = false ∧ ({ add := 0, mul := 0, div := 3 } : Busy).canIssue .mulS = true
      ∧ ({ add := 0, mul := 0, div := 3 } : Busy).canIssue .mulD = false ∧ ({ add := 1, mul := 0, div := 0 } : Busy).canIssue .divD = false
    := by decide
/-- A count of 0 and one of 17. -/
theorem test_witness_Ex3Countdown :
    { recAt (.addS 2 4 6) .ex3 with count := 0 } ∈ (slotted { emptyPipe with ex3List := [{ recAt (.addS 2 4 6) .ex3 with count := 0 }] }).pipe.ex3List
      ∧ { recAt (.divD 2 4 6) .ex3 with count := 17 } ∈ (slotted { emptyPipe with ex3List := [{ recAt (.divD 2 4 6) .ex3 with count := 17 }] }).pipe.ex3List := by
  decide
/-- A single, a double at its last register, a compare. -/
theorem test_witness_FwbDrain :
    (slotted { emptyPipe with fwbList := [recAt (.addS 31 4 6) .fwb] }).pipe.fwbList = [recAt (.addS 31 4 6) .fwb]
      ∧ (Instr.addS 31 4 6).fdst = [31] ∧ (Instr.addD 30 4 6).fdst = [30, 30 + 1] ∧ (Instr.cEqS 4 6).isCompare = true
      ∧ (Instr.addS 31 4 6).isCompare = false := by decide
theorem test_witness_CoprocessorMoves : (ints 7 0).quiet = true ∧ (0 : Reg) ≠ 1 ∧ (31 : Reg) ≠ 1 := by decide
/-- An LWC1 in EX, every floating register claimed. -/
def loadingF : State :=
  { slotted { emptyPipe with exSlot := some (recAt (.lwc1 3 0 1) .ex) } with fPresent := Vector.replicate 32 false }

/-- The flag of an LWC1 in EX is restored by the flush of an older SYSCALL; that of register 4 is not. -/
theorem test_witness_ExceptionFlush :
    (loadingF.flush
        (loadingF.flushClaims
          (recAt (.syscall 0) .wb))).presentF 3 = true
      ∧ (loadingF.flush
        (loadingF.flushClaims
          (recAt (.syscall 0) .wb))).presentF 4 = false := by decide
theorem test_witness_ExceptionEndsCycle :
    (trapping 1 (.continueOn [])).serviceSteps.pipe.wbSlot = some { recAt (.syscall 0) .wb with exception := some .sys } := by decide
theorem test_witness_BypassPriority :
    ({ State.reset with bypEX := some (31, 5) } : State).bypEX = some (31, 5)
      ∧ (∀ u, ({ State.reset with bypEX := some (2, 5), bypMEM := some (31, 6) } : State).bypEX ≠ some (31, u))
      ∧ ({ State.reset with bypEX := some (2, 5), bypMEM := some (31, 6) } : State).bypMEM = some (31, 6)
      ∧ (∀ u, State.reset.bypMEM ≠ some (31, u)) ∧ (31 : Reg) ≠ 0 :=
  ⟨rfl, fun u h => (nomatch (h : some ((2 : Reg), (5 : Word)) = some (31, u))), rfl,
    fun u h => (nomatch (h : (none : Option (Reg × Word)) = some (31, u))), by decide⟩

/-- A load in MEM and its user in ID. -/
def interlocked : State :=
  slotted { emptyPipe with memSlot := some (recAt (.lw 2 0 1) .mem), idSlot := some (recAt (.addu 3 2 2) .id) }

theorem test_witness_StallHoldsIdAndIf :
    interlocked.pipe.idSlot = some (recAt (.addu 3 2 2) .id) ∧ (recAt (.addu 3 2 2) .id).exception = none
      ∧ (Instr.addu 3 2 2).wellFormed = true ∧ interlocked.memStall = false ∧ interlocked.hazard (descOf (.addu 3 2 2)) = true
      ∧ (∀ code, Instr.addu 3 2 2 ≠ .syscall code) ∧ ∀ code, Instr.addu 3 2 2 ≠ .brk code :=
  ⟨rfl, rfl, rfl, rfl, by decide, nofun, nofun⟩
/-- An instruction in EX with its operands. -/
def executing (i : Instr) (a b : Word) : State :=
  slotted { emptyPipe with exSlot := some { recAt i .ex with op1 := a, op2 := b } }

theorem test_witness_ExForwards :
    (∀ i a b, (executing i a b).memStall = false ∧ (executing i a b).quiet = true
        ∧ (executing i a b).pipe.exSlot = some { recAt i .ex with op1 := a, op2 := b })
      ∧ 2147483647 < (0x7FFFFFFF : Word).toInt + (1 : Word).toInt
      ∧ (0x80000000 : Word).toInt + (0xFFFFFFFF : Word).toInt < -2147483648 :=
  ⟨fun _ _ _ => ⟨rfl, rfl, rfl⟩, by decide, by decide⟩

/-- One entry of each kind at ALU. -/
def scheduled (byCycle byEvent : Nat) : Injector :=
  quietInjector.setLoc .alu { byCycle := [{ due := byCycle, mask := 1 }], byEvent := [{ due := byEvent, mask := 2 }], count := 4 }

/-- Due exactly now, and due one later. -/
theorem test_witness_CheckFault :
    ((scheduled 9 5).loc .alu).byCycle = [{ due := 9, mask := 1 }] ∧ ((scheduled 9 5).loc .alu).byEvent = [{ due := 5, mask := 2 }]
      ∧ 5 ≤ ((scheduled 9 5).loc .alu).count + 1 ∧ (1 : Word) ||| 2 ≠ 0
      ∧ (∀ c cs, ((scheduled 10 6).loc .alu).byCycle = c :: cs → 9 < c.due)
      ∧ (∀ e es, ((scheduled 10 6).loc .alu).byEvent = e :: es → ((scheduled 10 6).loc .alu).count + 1 < e.due) :=
  ⟨rfl, rfl, by decide, by decide, fun c cs h => by cases h; decide, fun e es h => by cases h; decide⟩
theorem test_witness_BadScheduleFileIsFatal :
    (∃ line ∈ splitLines "XX Cycle 5 1".toList, parseLine line = .bad)
      ∧ splitTokens "ALU Cycle 5 0".toList [] = ["ALU".toList, "Cycle".toList, "5".toList, "0".toList]
      ∧ ("ALU".toList).contains '#' = false ∧ parseNumber "0".toList = some 0 := by decide
/-- Reset, one fault due at ALU in the next cycle. -/
def faulty : State := { State.reset with inj := quietInjector.setLoc .alu { quietLoc with byCycle := [{ due := 1, mask := 8 }] } }

theorem test_witness_InjectedFaultFlipsResult :
    faulty.inj.alu.byCycle = [{ due := 1, mask := 8 }] ∧ faulty.inj.alu.byEvent = [] ∧ (8 : Word) ≠ 0 ∧ 1 ≤ faulty.cycle + 1
      ∧ ∀ l, l ≠ .alu → (faulty.inj.loc l).quiet = true :=
  ⟨rfl, rfl, by decide, by decide, fun l h => by cases l <;> first | rfl | exact absurd rfl h⟩

end Sys2Proof.Machine.Tests
end

section
/-! SUPPORT. Register 0 under each operation of the integer file and the bypass network (R21, R171, R173), and the fields that
`reset()` rebuilds (R53, R470); then the statements about them. -/

namespace Sys2Proof.Machine

variable (s : State)

/-! ## Register 0 -/

@[simp] theorem readX_zero : s.readX 0 = 0 := if_pos rfl
@[simp] theorem rd_zero : s.rd 0 = 0 := if_pos rfl
@[simp] theorem writeX_zero (v : Word) : s.writeX 0 v = s := if_pos rfl
@[simp] theorem recordEX_zero (v : Word) : s.recordEX 0 v = s := if_pos rfl
@[simp] theorem recordMEM_zero (v : Word) : s.recordMEM 0 v = s := if_pos rfl

/-! ## The registers after `reset()` -/

@[simp] theorem resetCall_x : s.resetCall.x = Vector.replicate 32 zeroCell := rfl
@[simp] theorem resetCall_f : s.resetCall.f = Vector.replicate 32 zeroCell := rfl
@[simp] theorem resetCall_fPresent : s.resetCall.fPresent = Vector.replicate 32 true := rfl
@[simp] theorem resetCall_c0 : s.resetCall.c0 = Vector.replicate 32 0 := rfl
@[simp] theorem resetCall_pipe : s.resetCall.pipe = emptyPipe := rfl

@[simp] theorem readC0_resetCall (i : Reg) : s.resetCall.readC0 i = 0 := by simp [State.readC0]
@[simp] theorem presentF_resetCall (i : Reg) : s.resetCall.presentF i = true := by simp [State.presentF]

/-- Every cell of the two register files holds 0 with no fault, every coprocessor-0 register is 0 and every floating register
is present (R53). -/
theorem resetCall_registers (i : Reg) :
    s.resetCall.x[i.toNat] = zeroCell ∧ s.resetCall.f[i.toNat] = zeroCell ∧ s.resetCall.readC0 i = 0
      ∧ s.resetCall.presentF i = true :=
  ⟨by simp, by simp, readC0_resetCall s i, presentF_resetCall s i⟩

/-- No access waits in MEM when the MEM slot is empty (R49: the stall is the stage of the record in it). -/
theorem memStall_of_memSlot_none {s : State} (h : s.pipe.memSlot = none) : s.memStall = false := by
  simp [State.memStall, h]

/-- `reset()` empties the pipeline, so that nothing waits in MEM. -/
theorem resetCall_memStall : s.resetCall.memStall = false := memStall_of_memSlot_none rfl

/-! ## What `reset()` does not touch (R473) -/

/-- `reset()` leaves memory, the collaborator, the injector and the parameters alone. -/
theorem resetCall_frame :
    s.resetCall.mem = s.mem ∧ s.resetCall.script = s.script ∧ s.resetCall.pending = s.pending
      ∧ s.resetCall.inj = s.inj ∧ s.resetCall.params = s.params :=
  ⟨rfl, rfl, rfl, rfl, rfl⟩

/-! ## The statements -/

/-- Settles O1: the registers by index, the remaining fields of R53 as `resetCall` builds them, the frame of R473. -/
theorem resetValues : Obligations.ResetValues := fun s =>
  ⟨resetCall_registers s,
    -- HI, LO, the condition, the delay-slot flag, the pipeline and its pool, the bypass entries, the MDU and the busy counters
    rfl, rfl, rfl, rfl, rfl, rfl, rfl, resetCall_pipe s, rfl, rfl, rfl, rfl, rfl,
    -- the two stalls, the exception flag, the bus tags and the cycle count
    resetCall_memStall s, rfl, rfl, rfl, rfl, rfl,
    resetCall_frame s⟩

/-- Settles O53, one operation at a time. -/
theorem registerZero : Obligations.RegisterZero := fun s v =>
  ⟨readX_zero s, rd_zero s, writeX_zero s v, recordEX_zero s v, recordMEM_zero s v⟩

end Sys2Proof.Machine
end

section
/-! SUPPORT. When the completion in `busDone` reaches no waiting record: the un-stall of MEM (R132) and the latch of IF (R137)
then do nothing; then the statement about them (R66). -/

namespace Sys2Proof.Machine

variable {s : State}

/-- Step 8 moves nothing unless the completion is that of the record waiting in MEM (R132). -/
theorem stepUnstall_of_not_completed
    (h : ∀ r datum, s.pipe.memSlot = some r → r.stage = .memStall → s.busDone ≠ some (r.busTag, datum)) :
    s.stepUnstall = s := by
  unfold State.stepUnstall
  split
  next r tag datum hslot hdone =>
    have hne : ¬ (r.stage = .memStall ∧ r.busTag = tag) := by
      rintro ⟨hstage, rfl⟩
      exact h r datum hslot hstage hdone
    exact if_neg hne
  next => rfl

/-- A stalled fetch latches only its own completion (R137). -/
theorem latchFetch_of_not_completed {r : Rec} (h : ∀ datum, s.busDone ≠ some (r.busTag, datum)) : s.latchFetch r = r := by
  unfold State.latchFetch
  split
  next tag datum hdone =>
    have hne : r.busTag ≠ tag := by
      rintro rfl
      exact h datum hdone
    exact if_neg hne
  next => rfl

/-- The one completion of a cycle (R62) is of no tag but its own. -/
theorem busDone_ne_of_tag_ne {tag tag' : Nat} {datum : Datum} (hdone : s.busDone = some (tag, datum)) (hne : tag' ≠ tag)
    (datum' : Datum) : s.busDone ≠ some (tag', datum') := by
  rw [hdone]
  rintro ⟨⟩
  exact hne rfl

/-- Settles O29: the completion is neither that of the record in MEM nor that of the record in IF. -/
theorem staleCompletionIgnored : Obligations.StaleCompletionIgnored := fun _ _ _ hdone hmem hif =>
  ⟨stepUnstall_of_not_completed fun r datum hslot hstage => busDone_ne_of_tag_ne hdone (hmem r hslot hstage) datum,
    fun r hslot hstage => latchFetch_of_not_completed (busDone_ne_of_tag_ne hdone (hif r hslot hstage))⟩

end Sys2Proof.Machine
end

section
/-! SUPPORT. The coprocessor a word names, in terms of its primary opcode (R98), and the decoding of the words that name one;
then the statement about them. -/

namespace Sys2Proof

variable {u : CopUsable} {w : Word} {z : BitVec 2}

/-! ## The primary opcode and the coprocessor -/

/-- The group of four opcodes in which the primary opcode of a word lies. -/
theorem copMajor_toNat (w : Word) : (w.extractLsb' 28 4 : BitVec 4).toNat = (opcodeOf w).toNat / 4 := by
  rw [copMajor_eq, BitVec.extractLsb'_toNat, Nat.shiftRight_eq_div_pow]
  omega

/-- The place of the primary opcode in its group. -/
theorem copNumber_toNat (w : Word) : (w.extractLsb' 26 2 : BitVec 2).toNat = (opcodeOf w).toNat % 4 := by
  rw [copNumber_eq, BitVec.extractLsb'_toNat, Nat.shiftRight_zero]

/-- R98: the words that name coprocessor z are those of COPz, LWCz and SWCz. -/
theorem copNamed_eq_some_iff :
    copNamed w = some z ↔ (opcodeOf w).toNat = 16 + z.toNat ∨ (opcodeOf w).toNat = 48 + z.toNat
      ∨ (opcodeOf w).toNat = 56 + z.toNat := by
  have hmajor := copMajor_toNat w
  have hnumber := copNumber_toNat w
  have hz : z.toNat < 4 := z.isLt
  unfold copNamed
  split
  case h_4 _ not4 not12 not14 =>
    simp only [imp_false] at not4 not12 not14
    simp only [reduceCtorEq, false_iff]
    omega
  all_goals rw [Option.some.injEq, ← BitVec.toNat_inj]; omega

/-! ## The decoding of a word that names a coprocessor -/

/-- The usability check comes before any other. -/
theorem decodeWord_unusable (hw : copNamed w = some z) (hu : usableAt u z = false) : decodeWord u w = .copUnusable z := by
  simp [decodeWord, hw, hu]

/-- A usable coprocessor leaves the word to the primary map. -/
theorem decodeWord_usable (hw : copNamed w = some z) (hu : usableAt u z = true) :
    decodeWord u w = (decodeMajor w).elim .reserved .instr := by
  simp [decodeWord, hw, hu]

/-- The coprocessor opcodes that the primary map leaves out (R98): COP2 and COP3, LWC0, LWC2 and LWC3, SWC0, SWC2 and SWC3. -/
def absentCopOpcodes : List Nat := [18, 19, 48, 50, 51, 56, 58, 59]

theorem decodeMajor_of_absentCop (h : (opcodeOf w).toNat ∈ absentCopOpcodes) : decodeMajor w = none := by
  simp only [absentCopOpcodes, List.mem_cons, List.not_mem_nil, or_false] at h
  rcases h with h | h | h | h | h | h | h | h <;> simp only [decodeMajor, h]

theorem decodeWord_of_absentCop (hw : copNamed w = some z) (hu : usableAt u z = true)
    (h : (opcodeOf w).toNat ∈ absentCopOpcodes) : decodeWord u w = .reserved := by
  rw [decodeWord_usable hw hu, decodeMajor_of_absentCop h]
  rfl

/-- The block has no coprocessor 2 or 3: none of their opcodes stands in the primary map. -/
theorem absentCop_of_two_or_three (hw : copNamed w = some z) (hz : z = 2 ∨ z = 3) :
    (opcodeOf w).toNat ∈ absentCopOpcodes := by
  rcases hz with rfl | rfl <;> rcases copNamed_eq_some_iff.mp hw with h | h | h <;> rw [h] <;> decide

/-- LWC0 and SWC0 do not stand in it either. -/
theorem absentCop_of_lwc0_or_swc0 (h : (opcodeOf w).toNat = 48 ∨ (opcodeOf w).toNat = 56) :
    (opcodeOf w).toNat ∈ absentCopOpcodes := by
  rcases h with h | h <;> rw [h] <;> decide

namespace Machine

/-! ## The statement -/

/-- Settles O9: an opcode of R98 names its coprocessor; then its usability, and after that whether the primary map has it. -/
theorem coprocessorOpcodes : Obligations.CoprocessorOpcodes := fun _ _ _ hop =>
  have hw := copNamed_eq_some_iff.mpr hop
  ⟨decodeWord_unusable hw,
    fun hu hz => decodeWord_of_absentCop hw hu (absentCop_of_two_or_three hw hz),
    fun hu h => decodeWord_of_absentCop hw hu (absentCop_of_lwc0_or_swc0 h),
    decodeWord_usable hw,
    -- CpU with CE = z (R386)
    rfl, rfl⟩

end Machine

end Sys2Proof
end

section
/-! SUPPORT. What a read through the bypass network returns (R173), by the two entries; then the statement about it. -/

namespace Sys2Proof.Machine

variable {s : State} {i : Reg} {v : Word}

/-- A bypass entry gives a value for the register it names and for no other. -/
theorem bypassed_eq_some_iff {entry : Option (Reg × Word)} : bypassed entry i = some v ↔ entry = some (i, v) := by
  cases entry with
  | none => simp [bypassed]
  | some p =>
    obtain ⟨j, w⟩ := p
    by_cases hj : j = i <;> simp [bypassed, hj]

theorem bypassed_eq_none_iff {entry : Option (Reg × Word)} : bypassed entry i = none ↔ ∀ v, entry ≠ some (i, v) := by
  simp only [Option.eq_none_iff_forall_ne_some, ne_eq, bypassed_eq_some_iff]

/-- The search of `Rd` for a register that is not hard-wired. -/
theorem rd_of_ne_zero (hi : i ≠ 0) :
    s.rd i = (bypassed s.bypEX i).getD ((bypassed s.bypMEM i).getD (s.readX i)) := if_neg hi

theorem rd_of_bypEX (hi : i ≠ 0) (hex : s.bypEX = some (i, v)) : s.rd i = v := by
  rw [rd_of_ne_zero hi, bypassed_eq_some_iff.mpr hex, Option.getD_some]

theorem rd_of_bypMEM (hi : i ≠ 0) (hex : ∀ u, s.bypEX ≠ some (i, u)) (hmem : s.bypMEM = some (i, v)) : s.rd i = v := by
  rw [rd_of_ne_zero hi, bypassed_eq_none_iff.mpr hex, bypassed_eq_some_iff.mpr hmem, Option.getD_none, Option.getD_some]

theorem rd_of_not_bypassed (hi : i ≠ 0) (hex : ∀ u, s.bypEX ≠ some (i, u)) (hmem : ∀ u, s.bypMEM ≠ some (i, u)) :
    s.rd i = s.readX i := by
  rw [rd_of_ne_zero hi, bypassed_eq_none_iff.mpr hex, bypassed_eq_none_iff.mpr hmem, Option.getD_none, Option.getD_none]

/-- A register that is not hard-wired is read from its cell, through the fault record (R39). -/
theorem readX_of_ne_zero (hi : i ≠ 0) : s.readX i = s.x[i.toNat].clean ^^^ s.x[i.toNat].mask := if_neg hi

/-- Settles O52: register 0, then the two entries in their order, then the file. -/
theorem bypassPriority : Obligations.BypassPriority := fun s _ _ _ =>
  ⟨rd_zero s, rd_of_bypEX, rd_of_bypMEM, fun hi hex hmem => (rd_of_not_bypassed hi hex hmem).trans (readX_of_ne_zero hi)⟩

end Sys2Proof.Machine
end

section
/-! SUPPORT. What the description of an instruction says to the hazard checks of ID, in terms of the spec's tables (R145, R178,
R242, R302, R303); each check by the fields of a description it looks at, then by the instruction (R180 to R187); then the
statement about them (R179). -/

namespace Sys2Proof.Machine

variable {s : State} {d : Desc} {i : Instr}

/-! ## The registers and the class of a description -/

/-- The registers read into `op1` and `op2` are `isrc` (R178). -/
theorem ops_descOf (i : Instr) : (descOf i).op1.toList ++ (descOf i).op2.toList = i.isrc := by cases i <;> rfl

/-- The floating registers of a description are `fsrc` and `fdst` (R303). -/
theorem fregs_descOf (i : Instr) : (descOf i).fregs = i.fsrc ++ i.fdst := by cases i <;> rfl

/-- The class of a description is that of R302. -/
theorem class_descOf (i : Instr) : (descOf i).fp.map Prod.fst = i.fpClass := by cases i <;> rfl

theorem cond_descOf (i : Instr) : (descOf i).cond = i.isCompare := by cases i <;> rfl

/-- A late producer is an integer destination known only in MEM, other than register 0 (R145, R180). -/
theorem lateDest_descOf (i : Instr) :
    (descOf i).lateDest = i.intDest.bind fun p => if p.2 then (if p.1 = 0#5 then none else some p.1) else none := by
  cases i <;> rfl

theorem readsX_iff {rt : Reg} : d.readsX rt = true ↔ rt ≠ 0 ∧ rt ∈ d.op1.toList ++ d.op2.toList := by
  simp [Desc.readsX]

theorem readsX_descOf_iff {rt : Reg} : (descOf i).readsX rt = true ↔ rt ≠ 0 ∧ rt ∈ i.isrc := by
  rw [readsX_iff, ops_descOf]

theorem lateDest_descOf_eq_some_iff {rt : Reg} : (descOf i).lateDest = some rt ↔ i.intDest = some (rt, true) ∧ rt ≠ 0 := by
  rw [lateDest_descOf]
  rcases i.intDest with _ | ⟨r, _ | _⟩
  · simp
  · simp
  · by_cases hr : r = 0#5
    · simp only [Option.bind_some, if_true, if_pos hr, Option.some.injEq, Prod.mk.injEq, and_true, reduceCtorEq, false_iff]
      rintro ⟨rfl, hne⟩
      exact hne hr
    · simp only [Option.bind_some, if_true, if_neg hr, Option.some.injEq, Prod.mk.injEq, and_true]
      exact ⟨fun h => ⟨h, h ▸ hr⟩, And.left⟩

/-- A record that decoded to no instruction produces nothing late. -/
theorem lateDest_descOfDecoded_eq_some_iff {w : Decoded} {rt : Reg} :
    (descOfDecoded w).lateDest = some rt ↔ ∃ j, w = .instr j ∧ j.intDest = some (rt, true) ∧ rt ≠ 0 := by
  cases w with
  | instr j => simp [descOfDecoded, lateDest_descOf_eq_some_iff]
  | reserved => simp [descOfDecoded, raises, Desc.lateDest]
  | copUnusable z => simp [descOfDecoded, raises, Desc.lateDest]

/-! ## The actions of a description -/

/-- The instructions that issue to the multiply/divide unit (R242). -/
theorem ex_descOf_mdu_iff : (∃ isDiv f, (descOf i).ex = .mdu isDiv f) ↔ i.issues.isSome = true := by
  constructor
  · rintro ⟨isDiv, f, h⟩
    cases i with
    | mult | multu | div | divu => rfl
    | _ => nomatch h
  · intro h
    cases i with
    | mult | multu | div | divu => exact ⟨_, _, rfl⟩
    | _ => nomatch h

/-- The instructions that move to HI or LO (R254, R255). -/
theorem ex_descOf_mtHiLo_iff : (∃ o, (descOf i).ex = .mtHiLo o) ↔ ∃ rs, i = .mthi rs ∨ i = .mtlo rs := by
  constructor
  · rintro ⟨o, h⟩
    cases i with
    | mthi rs => exact ⟨rs, .inl rfl⟩
    | mtlo rs => exact ⟨rs, .inr rfl⟩
    | _ => nomatch h
  · rintro ⟨rs, rfl | rfl⟩
    · exact ⟨.hi, rfl⟩
    · exact ⟨.lo, rfl⟩

/-- The instruction that reads HI (R252). -/
theorem op3_descOf_hi_iff : (descOf i).op3 = some .hi ↔ ∃ rd, i = .mfhi rd := by
  constructor
  · intro h
    cases i with
    | mfhi rd => exact ⟨rd, rfl⟩
    | _ => nomatch h
  · rintro ⟨rd, rfl⟩
    rfl

/-- The instruction that reads LO (R253). -/
theorem op3_descOf_lo_iff : (descOf i).op3 = some .lo ↔ ∃ rd, i = .mflo rd := by
  constructor
  · intro h
    cases i with
    | mflo rd => exact ⟨rd, rfl⟩
    | _ => nomatch h
  · rintro ⟨rd, rfl⟩
    rfl

/-- The branches that look at `FpCond`. -/
theorem ctrl_descOf_fpBranch_iff :
    (∃ sense imm, (descOf i).ctrl = .fpBranch sense imm) ↔ ∃ imm, i = .bc1t imm ∨ i = .bc1f imm := by
  constructor
  · rintro ⟨sense, imm, h⟩
    cases i with
    | bc1t imm => exact ⟨imm, .inl rfl⟩
    | bc1f imm => exact ⟨imm, .inr rfl⟩
    | _ => nomatch h
  · rintro ⟨imm, rfl | rfl⟩
    · exact ⟨true, imm, rfl⟩
    · exact ⟨false, imm, rfl⟩

/-! ## The checks, by the fields of a description -/

theorem loadUse_iff :
    s.loadUse d = true ↔ ∃ p rt, s.pipe.memSlot = some p ∧ p.stage = .mem ∧ (descOfDecoded p.inst).lateDest = some rt
      ∧ d.readsX rt = true := by
  unfold State.loadUse
  cases s.pipe.memSlot with
  | none => simp
  | some p => cases hlate : (descOfDecoded p.inst).lateDest <;> simp [hlate]

theorem mduPending_iff : s.mduPending = true ↔ s.mdu.count ≠ 0 ∨ s.hiPresent = false ∨ s.loPresent = false := by
  simp [State.mduPending, or_assoc]

theorem mduHazard_iff :
    s.mduHazard d = true ↔
      (((∃ isDiv f, d.ex = .mdu isDiv f) ∨ ∃ o, d.ex = .mtHiLo o) ∧ s.mduPending = true)
        ∨ ∃ o, d.op3 = some o ∧ s.presentHiLo o = false := by
  unfold State.mduHazard
  rw [Bool.or_eq_true]
  refine or_congr ?_ ?_
  · cases d.ex <;> simp
  · cases d.op3 <;> simp

theorem fpAbsent_iff : s.fpAbsent d = true ↔ ∃ j ∈ d.fregs, s.presentF j = false := by
  simp [State.fpAbsent]

theorem fpBlocked_iff : s.fpBlocked d = true ↔ ∃ c, d.fp.map Prod.fst = some c ∧ s.busy.canIssue c = false := by
  unfold State.fpBlocked
  rcases d.fp with _ | ⟨c, f⟩ <;> simp

theorem condAbsent_iff :
    s.condAbsent d = true ↔ ((∃ sense imm, d.ctrl = .fpBranch sense imm) ∨ d.cond = true) ∧ s.fpCondPresent = false := by
  unfold State.condAbsent
  cases d.ctrl <;> simp [and_comm]

theorem hazard_iff :
    s.hazard d = true ↔ s.loadUse d = true ∨ s.mduHazard d = true ∨ s.fpAbsent d = true ∨ s.fpBlocked d = true
      ∨ s.condAbsent d = true := by
  simp [State.hazard, or_assoc]

/-! ## The checks, by instruction -/

/-- The load-use interlock (R180). -/
theorem loadUse_descOf_iff :
    s.loadUse (descOf i) = true ↔ ∃ p j rt, s.pipe.memSlot = some p ∧ p.stage = .mem ∧ p.inst = .instr j
      ∧ j.intDest = some (rt, true) ∧ rt ≠ 0 ∧ rt ∈ i.isrc := by
  simp only [loadUse_iff, lateDest_descOfDecoded_eq_some_iff, readsX_descOf_iff]
  constructor
  · rintro ⟨p, rt, hslot, hstage, ⟨j, hinst, hdest, hne⟩, -, hsrc⟩
    exact ⟨p, j, rt, hslot, hstage, hinst, hdest, hne, hsrc⟩
  · rintro ⟨p, j, rt, hslot, hstage, hinst, hdest, hne, hsrc⟩
    exact ⟨p, rt, hslot, hstage, ⟨j, hinst, hdest, hne⟩, hne, hsrc⟩

/-- The register of the pair that an MFHI or MFLO reads is not present (R182). -/
theorem op3_descOf_absent_iff :
    (∃ o, (descOf i).op3 = some o ∧ s.presentHiLo o = false) ↔
      ((∃ rd, i = .mfhi rd) ∧ s.hiPresent = false) ∨ ((∃ rd, i = .mflo rd) ∧ s.loPresent = false) := by
  rw [← op3_descOf_hi_iff, ← op3_descOf_lo_iff]
  constructor
  · rintro ⟨_ | _, hop, habsent⟩
    · exact .inl ⟨hop, habsent⟩
    · exact .inr ⟨hop, habsent⟩
  · rintro (⟨hop, habsent⟩ | ⟨hop, habsent⟩)
    · exact ⟨.hi, hop, habsent⟩
    · exact ⟨.lo, hop, habsent⟩

/-- The multiply/divide unit, HI and LO (R181, R182, R183). -/
theorem mduHazard_descOf_iff :
    s.mduHazard (descOf i) = true ↔
      (i.issues.isSome = true ∧ s.mduPending = true)
      ∨ ((∃ rd, i = .mfhi rd) ∧ s.hiPresent = false)
      ∨ ((∃ rd, i = .mflo rd) ∧ s.loPresent = false)
      ∨ ((∃ rs, i = .mthi rs ∨ i = .mtlo rs) ∧ s.mduPending = true) := by
  rw [mduHazard_iff, ex_descOf_mdu_iff, ex_descOf_mtHiLo_iff, op3_descOf_absent_iff, or_and_right, or_assoc]
  exact or_congr_right (or_comm.trans or_assoc)

/-- A floating register not present (R184). -/
theorem fpAbsent_descOf_iff :
    s.fpAbsent (descOf i) = true ↔ ∃ j, (j ∈ i.fsrc ∨ j ∈ i.fdst) ∧ s.presentF j = false := by
  simp only [fpAbsent_iff, fregs_descOf, List.mem_append]

/-- Floating issue admission (R185). -/
theorem fpBlocked_descOf_iff :
    s.fpBlocked (descOf i) = true ↔ ∃ c, i.fpClass = some c ∧ s.busy.canIssue c = false := by
  rw [fpBlocked_iff, class_descOf]

/-- `FpCond` not present (R187). -/
theorem condAbsent_descOf_iff :
    s.condAbsent (descOf i) = true ↔
      ((∃ imm, i = .bc1t imm ∨ i = .bc1f imm) ∨ i.isCompare = true) ∧ s.fpCondPresent = false := by
  rw [condAbsent_iff, ctrl_descOf_fpBranch_iff, cond_descOf]

/-- Settles O55, one check at a time. -/
theorem stallsExactly : Obligations.StallsExactly := fun s i => by
  rw [hazard_iff, loadUse_descOf_iff, mduHazard_descOf_iff, fpAbsent_descOf_iff, fpBlocked_descOf_iff, condAbsent_descOf_iff,
    mduPending_iff]
  simp only [or_assoc]

end Sys2Proof.Machine
end

section
/-! SUPPORT. The multiply/divide unit in the cycle engine: its tick in step 2 (R243), and what step 11 does to the unit and to the
two presence flags, with and without a record in WB that squashes it (R244); then the statements about them. -/

namespace Sys2Proof.Machine

variable {s : State} {d : Desc} {r : Rec} {i : Instr}

/-! ## The tick -/

/-- The tick that finds 1 is the commit. -/
theorem stepMdu_of_count_eq_one (h : s.mdu.count = 1) : s.stepMdu = s.commitMdu := if_pos h

/-- Any other tick only counts. -/
theorem stepMdu_of_count_ne_one (h : s.mdu.count ≠ 1) :
    s.stepMdu = { s with mdu := { s.mdu with count := s.mdu.count - 1 } } := if_neg h

/-- An idle unit stays idle: the count is a natural number, and 0 lowered is 0. -/
theorem stepMdu_of_count_eq_zero (h : s.mdu.count = 0) : s.stepMdu = s := by
  have hcount : s.mdu.count - 1 = s.mdu.count := by omega
  rw [stepMdu_of_count_ne_one (by omega), hcount]

/-- Settles O20, by the count the tick finds. -/
theorem mduTick : Obligations.MduTick := fun _ =>
  ⟨stepMdu_of_count_eq_one, fun h => stepMdu_of_count_ne_one (Nat.ne_of_gt h), stepMdu_of_count_eq_zero⟩

/-! ## The squash condition -/

theorem squash_eq_true_iff : s.squash = true ↔ ∃ q, s.pipe.wbSlot = some q ∧ q.exception.isSome = true := by
  unfold State.squash
  cases s.pipe.wbSlot <;> simp

theorem squash_eq_false_iff : s.squash = false ↔ ∀ q, s.pipe.wbSlot = some q → q.exception = none := by
  unfold State.squash
  cases s.pipe.wbSlot <;> simp

/-! ## What leaves the unit and the presence flags alone -/

/-- The unit and the presence flags of HI and LO are as before. -/
structure SameMdu (s u : State) : Prop where
  mdu : u.mdu = s.mdu
  hiPresent : u.hiPresent = s.hiPresent
  loPresent : u.loPresent = s.loPresent

theorem SameMdu.refl (s : State) : SameMdu s s := ⟨rfl, rfl, rfl⟩

theorem aluResult_sameMdu (v : Option Word) (r : Rec) (s : State) : SameMdu s (aluResult v r s).2 := by
  cases v with
  | none => exact ⟨drawn_mdu s, drawn_hiPresent s, drawn_loPresent s⟩
  | some w => exact ⟨checkFault_mdu s .alu 1, checkFault_hiPresent s .alu 1, checkFault_loPresent s .alu 1⟩

theorem forwardEX_sameMdu (s : State) (r : Rec) : SameMdu s (s.forwardEX r) := by
  unfold State.forwardEX
  split
  next => exact ⟨recordEX_mdu s _ _, recordEX_hiPresent s _ _, recordEX_loPresent s _ _⟩
  next => exact .refl s

/-! ## EX -/

/-- Under the squash condition EX reaches the unit and the flags by no instruction (R244). -/
theorem exStage_squashed_sameMdu (d : Desc) (r : Rec) (s : State) : SameMdu s (d.exStage true r s).2 := by
  unfold Desc.exStage
  cases d.ex with
  | alu f => exact aluResult_sameMdu _ r s
  | _ => exact .refl s

/-- Without it a multiply or divide issues (R242). -/
theorem exStage_mdu {isDiv : Bool} {f : Word → Word → Option (Word × Word)} (h : d.ex = .mdu isDiv f) :
    d.exStage false r s = (r, issueMdu isDiv (f r.op1 r.op2) s) := by
  simp [Desc.exStage, h]

/-- Without it MTHI and MTLO clear their flag (R254, R255). -/
theorem exStage_mtHiLo {o : HiLo} (h : d.ex = .mtHiLo o) :
    d.exStage false r s = ({ r with result := r.op1 }, s.clearHiLo o) := by
  simp [Desc.exStage, h]

/-- The action of an instruction that issues to the unit, with the kind of its cost (R242). -/
theorem ex_descOf_of_issues {isDiv : Bool} (h : i.issues = some isDiv) : ∃ f, (descOf i).ex = .mdu isDiv f := by
  cases i with
  | mult | multu | div | divu => cases h; exact ⟨_, rfl⟩
  | _ => nomatch h

/-! ## Step 11 -/

/-- A record without an exception passes EX, its value is recorded for the bypass, and it moves to MEM (R135 b, c, d). -/
theorem stepEX_of_exSlot (hslot : s.pipe.exSlot = some r) (hexc : r.exception = none) (hstall : s.memStall = false) :
    s.stepEX = ((r.desc.exStage s.squash r s).2.forwardEX (r.desc.exStage s.squash r s).1).toMEM
      (r.desc.exStage s.squash r s).1 := by
  simp [State.stepEX, hslot, hexc, hstall]

/-- After EX itself, step 11 leaves the unit and the flags alone. -/
theorem stepEX_sameMdu (hslot : s.pipe.exSlot = some r) (hexc : r.exception = none) (hstall : s.memStall = false) :
    SameMdu (r.desc.exStage s.squash r s).2 s.stepEX := by
  rw [stepEX_of_exSlot hslot hexc hstall]
  obtain ⟨hmdu, hhi, hlo⟩ := forwardEX_sameMdu (r.desc.exStage s.squash r s).2 (r.desc.exStage s.squash r s).1
  exact ⟨hmdu, hhi, hlo⟩

/-- Settles O22: the squash condition is the flag EX is given, and each instruction's EX then says what reaches the unit. -/
theorem squashSuppressesIssue : Obligations.SquashSuppressesIssue := by
  intro s r i hslot hinst hexc hstall
  have hdesc : r.desc = descOf i := congrArg descOfDecoded hinst
  obtain ⟨hmdu, hhi, hlo⟩ := stepEX_sameMdu hslot hexc hstall
  rw [hmdu, hhi, hlo, hdesc]
  refine ⟨fun hwb => ?squashed, fun hwb => ⟨fun isDiv hissues => ?issue, ?mthi, ?mtlo⟩⟩
  case squashed =>
    rw [squash_eq_true_iff.mpr hwb]
    obtain ⟨hmdu', hhi', hlo'⟩ := exStage_squashed_sameMdu (descOf i) r s
    exact ⟨hmdu', hhi', hlo'⟩
  case issue =>
    obtain ⟨f, hex⟩ := ex_descOf_of_issues hissues
    rw [squash_eq_false_iff.mpr hwb, exStage_mdu hex]
    exact ⟨rfl, rfl, rfl⟩
  case mthi =>
    rintro rs rfl
    rw [squash_eq_false_iff.mpr hwb, exStage_mtHiLo (o := .hi) rfl]
    exact ⟨rfl, rfl⟩
  case mtlo =>
    rintro rs rfl
    rw [squash_eq_false_iff.mpr hwb, exStage_mtHiLo (o := .lo) rfl]
    exact ⟨rfl, rfl⟩

end Sys2Proof.Machine
end

section
/-! SUPPORT. The floating issue admission (R310 to R312): the general clause and the threshold of each class as propositions about
the busy counters; then the statement about them. -/

namespace Sys2Proof.Machine

variable {b : Busy} {c : FpClass}

/-! ## The general clause and the conjunction -/

theorem addFree_iff : b.addFree = true ↔ b.add = 0 := beq_iff_eq

/-- R310: the general clause and the threshold of the class, nothing else. -/
theorem canIssue_iff : b.canIssue c = true ↔ b.add = 0 ∧ b.threshold c = true := by
  rw [Busy.canIssue, Bool.and_eq_true, addFree_iff]

/-! ## The thresholds, by class -/

/-- The test the thresholds are made of: a unit is idle or more than `n` cycles from completion. -/
theorem idleOrAbove_iff {count n : Nat} : (count == 0 || decide (count > n)) = true ↔ count = 0 ∨ n < count := by
  rw [Bool.or_eq_true, beq_iff_eq, decide_eq_true_iff]

/-- R311: the adder classes, widening converts included, share one threshold. -/
theorem threshold_adder_iff (h : c = .addSub ∨ c = .cvt ∨ c = .cvtW) :
    b.threshold c = true ↔ (b.mul = 0 ∨ 2 < b.mul) ∧ (b.div = 0 ∨ 4 < b.div) := by
  rcases h with rfl | rfl | rfl <;> rw [Busy.threshold, Bool.and_eq_true, idleOrAbove_iff, idleOrAbove_iff]

theorem threshold_mulS_iff : b.threshold .mulS = true ↔ b.mul = 0 ∧ (b.div = 0 ∨ 2 < b.div) := by
  rw [Busy.threshold, Bool.and_eq_true, beq_iff_eq, idleOrAbove_iff]

theorem threshold_mulD_iff : b.threshold .mulD = true ↔ b.mul = 0 ∧ (b.div = 0 ∨ 3 < b.div) := by
  rw [Busy.threshold, Bool.and_eq_true, beq_iff_eq, idleOrAbove_iff]

theorem threshold_div_iff (h : c = .divS ∨ c = .divD) : b.threshold c = true ↔ b.div = 0 := by
  rcases h with rfl | rfl <;> rw [Busy.threshold, beq_iff_eq]

/-! ## The statement -/

/-- Settles O44: the general clause stands for every class, and the class selects the one threshold that applies. -/
theorem issueThresholds : Obligations.IssueThresholds := by
  intro b c
  rw [canIssue_iff]
  refine and_congr_right fun _ => ?threshold
  cases c with
  | addSub | cvt | cvtW => simp [threshold_adder_iff]
  | mulS => simp [threshold_mulS_iff]
  | mulD => simp [threshold_mulD_iff]
  | divS | divD => simp [threshold_div_iff]

end Sys2Proof.Machine
end

section
/-! SUPPORT. One check of the fault injector (R408): its location after the check, what a schedule gives up, and the answer by
the mask due; then the statement about it. -/

namespace Sys2Proof.Machine

variable {j : Injector} {l : Loc} {now n : Nat} {e : FaultEntry} {rest schedule : List FaultEntry}

/-! ## The locations -/

/-- A location replaced is the one read back, and no other one changes. -/
theorem loc_setLoc (j : Injector) (l k : Loc) (v : LocFaults) : (j.setLoc l v).loc k = if k = l then v else j.loc k := by
  cases l <;> cases k <;> rfl

/-! ## The head of a schedule -/

/-- R408 steps 2 and 4: a due head is given up with its mask. -/
theorem popDue_cons_of_due (h : e.due ≤ now) : popDue (e :: rest) now = (some e.mask, rest) := if_pos h

/-- A schedule whose head is not due, or that has none, stays as it is. -/
theorem popDue_of_not_due (h : ∀ e rest, schedule = e :: rest → now < e.due) : popDue schedule now = (none, schedule) := by
  cases schedule with
  | nil => rfl
  | cons e rest => exact if_neg (Nat.not_le.mpr (h e rest rfl))

/-! ## The check, by the mask due -/

/-- R408 step 3: with no mask due the location is counted and no draw is made. -/
theorem check_of_dueMask_none (h : (j.loc l).dueMask now = none) :
    j.check l now n = (none, j.setLoc l ((j.loc l).count1 now)) := by
  rw [Injector.check, h]

/-- R408 steps 5 and 6: a nonzero mask and a single target are taken as they are, with no draw. -/
theorem check_one_of_dueMask_some {m : Word} (h : (j.loc l).dueMask now = some m) (hm : m ≠ 0) :
    j.check l now 1 = (some (0, m), j.setLoc l ((j.loc l).count1 now)) := by
  simp only [Injector.check, h, Injector.chooseMask, if_neg hm, Injector.chooseTarget, Nat.le_refl, if_true]

/-! ## The statement -/

/-- Settles O58: the two schedules give up their heads independently, and the check answers by the mask that they make. -/
theorem checkFault : Obligations.CheckFault := by
  intro j l now
  refine ⟨fun c e cs es hc he hcDue heDue hm => ?bothDue, fun n hc he => ?noneDue⟩
  case bothDue =>
    have hcPop : popDue (j.loc l).byCycle now = (some c.mask, cs) := by rw [hc, popDue_cons_of_due hcDue]
    have hePop : popDue (j.loc l).byEvent ((j.loc l).count + 1) = (some e.mask, es) := by rw [he, popDue_cons_of_due heDue]
    have hdue : (j.loc l).dueMask now = some (c.mask ||| e.mask) := by rw [LocFaults.dueMask, hcPop, hePop, combineMasks]
    rw [check_one_of_dueMask_some hdue hm, LocFaults.count1, hcPop, hePop]
    exact ⟨rfl, by rw [loc_setLoc, if_pos rfl], fun k hk => by rw [loc_setLoc, if_neg hk]⟩
  case noneDue =>
    have hcPop := popDue_of_not_due hc
    have hePop := popDue_of_not_due he
    have hdue : (j.loc l).dueMask now = none := by rw [LocFaults.dueMask, hcPop, hePop, combineMasks]
    rw [check_of_dueMask_none hdue, LocFaults.count1, hcPop, hePop]
    exact ⟨rfl, rfl⟩

end Sys2Proof.Machine
end

section
/-! SUPPORT. Exception commit (R440): the Cause word as the fields of R34 shifted into place, the exceptions that save an address,
and the whole state after the commit; then the statement about it. -/

namespace Sys2Proof.Machine

variable {s : State} {r : Rec} {e : Exc}

/-! ## What is written -/

/-- The three fields of Cause side by side, with zeros between, are the three fields shifted into place (R34). -/
theorem causeFields_eq_or (bd : BitVec 1) (ce : BitVec 2) (code : BitVec 5) :
    (bd ++ 0#1 ++ ce ++ 0#21 ++ code ++ 0#2 : Word) =
      bd.zeroExtend 32 <<< 31 ||| ce.zeroExtend 32 <<< 28 ||| code.zeroExtend 32 <<< 2 := by
  ext i hi
  grind

/-- Cause bit field by bit field (R34). -/
theorem causeWord_eq_or (c : ExcCodes) (bd : Bool) (ce : BitVec 2) (e : Exc) :
    causeWord c bd ce e =
      (if bd then (1 : Word) <<< 31 else 0) ||| (if e = .cpu then (ce.zeroExtend 32 : Word) <<< 28 else 0)
        ||| ((excCode c e).zeroExtend 32 : Word) <<< 2 := by
  rw [causeWord, causeFields_eq_or]
  have hbd : ((if bd then 1#1 else 0#1).zeroExtend 32 : Word) <<< 31 = if bd then (1 : Word) <<< 31 else 0 := by
    cases bd <;> simp
  have hce : ((if e = .cpu then ce else 0#2).zeroExtend 32 : Word) <<< 28 =
      if e = .cpu then (ce.zeroExtend 32 : Word) <<< 28 else 0 := by
    split <;> simp
  rw [hbd, hce]

/-- The five exceptions of an address (R440). -/
theorem savesAddress_iff_mem : savesAddress e = true ↔ e ∈ [Exc.mod, .tlbl, .tlbs, .adel, .ades] := by
  cases e <;> decide

/-! ## What is left alone -/

/-- Only the coprocessor-0 file and `excFound` can change (R440). -/
theorem commitException_eq_with (s : State) (r : Rec) (e : Exc) :
    s.commitException r e = { s with c0 := (s.commitException r e).c0, excFound := true } := by
  cases hsaves : savesAddress e <;> simp [State.commitException, State.writeC0, hsaves]

/-! ## The statement -/

/-- Settles O49, register by register; then the state as a whole. -/
theorem exceptionCommit : Obligations.ExceptionCommit := by
  intro s r e
  refine ⟨?cause, ?epc, ?badVAddr, fun i hcause hepc hbad => ?other, commitException_eq_with s r e⟩
  all_goals rw [commitException_readC0]
  case cause => simp [causeReg, epcReg, badVAddrReg, causeWord_eq_or]
  case epc => simp [epcReg, badVAddrReg, epcWord]
  case badVAddr => simp [causeReg, epcReg, badVAddrReg, savesAddress_iff_mem]
  case other => rw [badVAddrReg, epcReg, causeReg, if_neg fun h => hbad h.1, if_neg hepc, if_neg hcause]

end Sys2Proof.Machine
end

section
/-! SUPPORT. The flush (R441): the presence flags after a list of claims is given back, and the claims of a flush, that of each
younger record and that of a faulting LWC1; then the statement about it. -/

namespace Sys2Proof.Machine

variable {s : State} {r : Rec} {c : Claim}

/-! ## Claims given back -/

/-- The floating registers a claim holds. -/
def Claim.regs (c : Claim) : List Reg := (c.fdst.map FOpnd.regs).getD []

/-- Given back, a claim makes its own registers present and leaves the others alone. -/
theorem presentF_setClaim_true_iff (s : State) (c : Claim) (j : Reg) :
    (s.setClaim c true).presentF j = true ↔ s.presentF j = true ∨ j ∈ c.regs := by
  rw [presentF_setClaim, ← Claim.regs]
  by_cases hj : j ∈ c.regs <;> simp [hj]

theorem fpCondPresent_setClaim_true_iff (s : State) (c : Claim) :
    (s.setClaim c true).fpCondPresent = true ↔ s.fpCondPresent = true ∨ c.cond = true := by
  rw [setClaim_fpCondPresent_eq]
  by_cases hc : c.cond = true <;> simp [hc]

theorem presentF_restoreClaims_iff (s : State) (claims : List Claim) (j : Reg) :
    (s.restoreClaims claims).presentF j = true ↔ s.presentF j = true ∨ ∃ c ∈ claims, j ∈ c.regs := by
  induction claims generalizing s with
  | nil => simp [State.restoreClaims]
  | cons c rest ih => simp only [State.restoreClaims, ih, presentF_setClaim_true_iff, List.mem_cons, exists_eq_or_imp, or_assoc]

theorem fpCondPresent_restoreClaims_iff (s : State) (claims : List Claim) :
    (s.restoreClaims claims).fpCondPresent = true ↔ s.fpCondPresent = true ∨ ∃ c ∈ claims, c.cond = true := by
  induction claims generalizing s with
  | nil => simp [State.restoreClaims]
  | cons c rest ih => simp only [State.restoreClaims, ih, fpCondPresent_setClaim_true_iff, List.mem_cons, exists_eq_or_imp, or_assoc]

/-! ## The claim of a record -/

theorem claim_regs_descOf (i : Instr) : (descOf i).claim.regs = i.fdst := by cases i <;> rfl

/-- A record claims the floating registers of R303. -/
theorem claim_regs_desc (q : Rec) : q.desc.claim.regs = q.fdst := by
  unfold Rec.desc Rec.fdst
  cases q.inst with
  | instr i => exact claim_regs_descOf i
  | reserved | copUnusable => rfl

/-- A record claims `FpCond` when it is a compare. -/
theorem claim_cond_desc (q : Rec) : q.desc.claim.cond = q.isCompare := by
  unfold Rec.desc Rec.isCompare
  cases q.inst with
  | instr i => exact cond_descOf i
  | reserved | copUnusable => rfl

/-- LWC1 alone loads a floating register. -/
theorem mem_descOf_eq_loadF_iff (i : Instr) : (descOf i).mem = .loadF ↔ ∃ ft imm rs, i = .lwc1 ft imm rs := by
  cases i with
  | lwc1 ft imm rs => exact ⟨fun _ => ⟨ft, imm, rs, rfl⟩, fun _ => rfl⟩
  | _ => exact ⟨nofun, nofun⟩

theorem mem_desc_eq_loadF_iff (r : Rec) : r.desc.mem = .loadF ↔ ∃ ft imm rs, r.inst = .instr (.lwc1 ft imm rs) := by
  unfold Rec.desc
  cases r.inst with
  | instr i => simp only [Decoded.instr.injEq, descOfDecoded, mem_descOf_eq_loadF_iff]
  | reserved | copUnusable => exact ⟨nofun, nofun⟩

/-! ## The claims of a flush -/

theorem mem_youngerClaim_iff {slot : Option Rec} :
    c ∈ youngerClaim slot ↔ ∃ q, slot = some q ∧ q.exception = none ∧ c = q.desc.claim := by
  cases slot with
  | none => simp [youngerClaim]
  | some q => cases hexc : q.exception <;> simp [youngerClaim, hexc]

theorem mem_faultingClaim_iff : c ∈ faultingClaim r ↔ r.desc.mem = .loadF ∧ c = r.desc.claim := by
  unfold faultingClaim
  cases r.desc.mem <;> simp

/-- The record is younger than the one in WB and has passed ID, where claims are taken: it is in EX, MEM, EX1 or EX2. -/
def State.HoldsYounger (s : State) (q : Rec) : Prop :=
  s.pipe.exSlot = some q ∨ s.pipe.memSlot = some q ∨ s.pipe.ex1Slot = some q ∨ s.pipe.ex2Slot = some q

/-- R441 a: the younger records without an exception, and the faulting record if it is an LWC1. -/
theorem mem_flushClaims_iff :
    c ∈ s.flushClaims r ↔
      (r.desc.mem = .loadF ∧ c = r.desc.claim) ∨ ∃ q, s.HoldsYounger q ∧ q.exception = none ∧ c = q.desc.claim := by
  rw [or_comm, State.flushClaims, List.mem_append, mem_faultingClaim_iff]
  simp only [List.mem_append, mem_youngerClaim_iff, State.HoldsYounger, or_and_right, exists_or, or_assoc]

/-- A property of some claim of the flush is one of the faulting LWC1's claim or of a younger record's. -/
theorem exists_flushClaims_iff {P : Claim → Prop} :
    (∃ c ∈ s.flushClaims r, P c) ↔
      (r.desc.mem = .loadF ∧ P r.desc.claim) ∨ ∃ q, s.HoldsYounger q ∧ q.exception = none ∧ P q.desc.claim := by
  simp only [mem_flushClaims_iff]
  constructor
  · rintro ⟨_, ⟨hmem, rfl⟩ | ⟨q, hq, hexc, rfl⟩, hP⟩
    · exact .inl ⟨hmem, hP⟩
    · exact .inr ⟨q, hq, hexc, hP⟩
  · rintro (⟨hmem, hP⟩ | ⟨q, hq, hexc, hP⟩)
    · exact ⟨_, .inl ⟨hmem, rfl⟩, hP⟩
    · exact ⟨_, .inr ⟨q, hq, hexc, rfl⟩, hP⟩

/-- A faulting LWC1 claims its destination. -/
theorem loadF_claims_iff (r : Rec) (j : Reg) :
    r.desc.mem = .loadF ∧ j ∈ r.desc.claim.regs ↔ ∃ imm rs, r.inst = .instr (.lwc1 j imm rs) := by
  rw [mem_desc_eq_loadF_iff, claim_regs_desc]
  constructor
  · rintro ⟨⟨ft, imm, rs, hinst⟩, hj⟩
    rw [Rec.fdst, hinst] at hj
    obtain rfl := List.mem_singleton.mp hj
    exact ⟨imm, rs, hinst⟩
  · rintro ⟨imm, rs, hinst⟩
    rw [Rec.fdst, hinst]
    exact ⟨⟨j, imm, rs, rfl⟩, List.mem_singleton.mpr rfl⟩

/-- A faulting LWC1 does not claim `FpCond`. -/
theorem loadF_not_claims_cond (r : Rec) : ¬ (r.desc.mem = .loadF ∧ r.desc.claim.cond = true) := by
  rw [mem_desc_eq_loadF_iff, claim_cond_desc]
  rintro ⟨⟨ft, imm, rs, hinst⟩, hcond⟩
  rw [Rec.isCompare, hinst] at hcond
  exact absurd hcond Bool.false_ne_true

/-! ## The state after a flush -/

/-- The slots are emptied; EX3 and FWB are kept (R441 b). -/
@[simp] theorem flush_pipe (s : State) (claims : List Claim) :
    (s.flush claims).pipe = { emptyPipe with ex3List := s.pipe.ex3List, fwbList := s.pipe.fwbList } := by
  simp [State.flush]

@[simp] theorem flush_memStall (s : State) (claims : List Claim) : (s.flush claims).memStall = false :=
  memStall_of_memSlot_none (by rw [flush_pipe]; rfl)

theorem presentF_flush_iff (s : State) (r : Rec) (j : Reg) :
    (s.flush (s.flushClaims r)).presentF j = true ↔
      s.presentF j = true ∨ (∃ imm rs, r.inst = .instr (.lwc1 j imm rs))
        ∨ ∃ q, s.HoldsYounger q ∧ q.exception = none ∧ j ∈ q.fdst := by
  rw [presentF_congr (flush_fPresent s _), presentF_restoreClaims_iff, exists_flushClaims_iff, loadF_claims_iff]
  simp only [claim_regs_desc]

theorem fpCondPresent_flush_iff (s : State) (r : Rec) :
    (s.flush (s.flushClaims r)).fpCondPresent = true ↔
      s.fpCondPresent = true ∨ ∃ q, s.HoldsYounger q ∧ q.exception = none ∧ q.isCompare = true := by
  rw [flush_fpCondPresent, fpCondPresent_restoreClaims_iff, exists_flushClaims_iff]
  rw [or_iff_right (loadF_not_claims_cond r)]
  simp only [claim_cond_desc]

/-! ## The statement -/

/-- Settles O50: the claims given back (R441 a), then the slots and records, the stalls and the bypass (R441 b to d), then what
the flush leaves alone. -/
theorem exceptionFlush : Obligations.ExceptionFlush := by
  rintro s r _ rfl
  refine ⟨presentF_flush_iff s r, fpCondPresent_flush_iff s r, flush_pipe s _, flush_poolFree s _, ?_⟩
  simp

end Sys2Proof.Machine
end

section
/-! SUPPORT. What one step of the machine can be, said once; then the statements about every step: the invariant (R43, R44, R308,
R21), the parameters (R450, R473), and the beginning and the end of a run (R121, R122, R444). -/

namespace Sys2Proof.Machine

variable {s t : State}

/-! ## What a step can be -/

/-- One instruction at rest is a trap of its fetch or its description carried through the stages. -/
theorem instrStep_eq_next (h : instrStep s = .next t) :
    (∃ e, t = s.settle.fetch.2.fetchTrap e) ∨ ∃ d, t = transit d s.settle.fetch.2 := by
  unfold instrStep at h
  split at h
  next e _ => exact .inl ⟨e, (Host.Outcome.next.inj h).symm⟩
  next =>
    split at h
    next i _ => rw [exec_eq] at h; exact .inr ⟨_, (Host.Outcome.next.inj h).symm⟩
    next => exact .inr ⟨_, (Host.Outcome.next.inj h).symm⟩
    next z _ => exact .inr ⟨_, (Host.Outcome.next.inj h).symm⟩

/-- A step that answers a next state ends a run, runs a cycle, makes a call of the harness, does nothing, or executes one
instruction. -/
theorem step_eq_next (h : step s = .next t) :
    t = { s with mode := .idle, outcome := some .ranOutOfBudget } ∨ (∃ budget, t = s.runOne budget)
      ∨ (∃ c rest, t = ({ s with calls := rest } : State).call c) ∨ t = s ∨ instrStep s = .next t := by
  unfold step at h
  split at h
  next => exact .inl (Host.Outcome.next.inj h).symm
  next budget _ => exact .inr (.inl ⟨budget, (Host.Outcome.next.inj h).symm⟩)
  next => nomatch h
  next c rest _ _ =>
    split at h
    · exact .inr (.inr (.inl ⟨c, rest, (Host.Outcome.next.inj h).symm⟩))
    · nomatch h
  next c rest _ _ => exact .inr (.inr (.inl ⟨c, rest, (Host.Outcome.next.inj h).symm⟩))
  next c rest _ _ => exact .inr (.inr (.inl ⟨c, rest, (Host.Outcome.next.inj h).symm⟩))
  next => exact .inr (.inr (.inr (.inl (Host.Outcome.next.inj h).symm)))
  next =>
    split at h
    · exact .inr (.inr (.inr (.inr h)))
    · exact .inr (.inl ⟨0, (Host.Outcome.next.inj h).symm⟩)

/-! ## The invariant -/

theorem fetchTrap_good (g : Good s) (e : Exc) : Good (s.fetchTrap e) :=
  trap_good (s := { s.prologue.commitPc with bdFlag := false }) (g.same rfl rfl rfl rfl rfl) _ _ _

theorem instrStep_good (g : Good s) (h : instrStep s = .next t) : Good t := by
  have gf : Good s.settle.fetch.2 := fetch_good (settle_good g)
  rcases instrStep_eq_next h with ⟨e, rfl⟩ | ⟨d, rfl⟩
  · exact fetchTrap_good gf e
  · exact transit_good gf d

theorem step_good (g : Good s) (h : step s = .next t) : Good t := by
  rcases step_eq_next h with rfl | ⟨budget, rfl⟩ | ⟨c, rest, rfl⟩ | rfl | h
  · exact g.same rfl rfl rfl rfl rfl
  · exact runOne_good g budget
  · exact call_good (s := { s with calls := rest }) (g.same rfl rfl rfl rfl rfl) c
  · exact g
  · exact instrStep_good g h

/-- Settles O2: the reset state has no record out of the pool and no byte in memory. -/
theorem resetMeetsInvariant : Obligations.ResetMeetsInvariant :=
  (good_iff _).mpr ⟨wf_reset, rfl, rfl, rfl, rfl⟩

/-- Settles O3: each thing a step can do keeps the invariant. -/
theorem stepKeepsInvariant : Obligations.StepKeepsInvariant := fun _ _ hinv hstep =>
  (good_iff _).mpr (step_good ((good_iff _).mp hinv) hstep)

/-! ## The parameters, one step of the cycle after the other -/

variable (s)

@[simp] theorem stepBus_params : s.stepBus.params = s.params := rfl
@[simp] theorem stepMdu_params : s.stepMdu.params = s.params := (stepMdu_inert s).params
@[simp] theorem stepBusy_params : s.stepBusy.params = s.params := rfl
@[simp] theorem stepFWB_params : s.stepFWB.params = s.params := (commitAll_spec s.pipe.fwbList s).1.params
@[simp] theorem serviceSteps_params : s.serviceSteps.params = s.params := by simp [State.serviceSteps]
@[simp] theorem takeException_params (r : Rec) (e : Exc) (c : List Claim) : (s.takeException r e c).params = s.params := by
  simp [State.takeException]
@[simp] theorem retireWB_params (r : Rec) : (s.retireWB r).params = s.params := (wbStage_inert s r.desc r).params
@[simp] theorem stepEX3_params : s.stepEX3.params = s.params := rfl
@[simp] theorem stepEX2_params : s.stepEX2.params = s.params := by unfold State.stepEX2; split <;> rfl
@[simp] theorem route_params (r : Rec) : (s.route r).params = s.params := by unfold State.route; split <;> rfl

@[simp] theorem finishAccess_params (r : Rec) (datum : Datum) : (s.finishAccess r datum).params = s.params := by
  simp [State.finishAccess, (forwardMEM_inert _ _).params, (complete_inert s _ _ _).params]

@[simp] theorem stepUnstall_params : s.stepUnstall.params = s.params := by
  unfold State.stepUnstall
  split
  · split
    · exact finishAccess_params s _ _
    · rfl
  · rfl

@[simp] theorem access_params (k : Kind) (r : Rec) : (s.access k r).params = s.params := by
  have hreq : (r.desc.dataRequest k r s).2.2.params = s.params := (dataRequest_inert s r.desc r k).params
  unfold State.access
  dsimp only
  split
  · exact hreq
  · split
    · rw [finishAccess_params]; exact hreq
    · exact hreq

@[simp] theorem stepMEM_params : s.stepMEM.params = s.params := by
  unfold State.stepMEM
  split
  next r _ =>
    split
    · split
      · rfl
      · exact access_params s _ r
      · simp [(forwardMEM_inert _ _).params, (memMove_inert s _ r).params]
    · rfl
  next => rfl

@[simp] theorem stepEX1_params : s.stepEX1.params = s.params := by
  unfold State.stepEX1
  split
  next r _ =>
    split
    · exact (fpResult_inert s r _).params
    · rfl
  next => rfl

@[simp] theorem stepEX_params : s.stepEX.params = s.params := by
  unfold State.stepEX
  split
  next r _ =>
    split
    · rfl
    · split
      · rfl
      · exact (forwardEX_inert _ _).params.trans (exStage_inert s r.desc r s.squash).params
  next => rfl

@[simp] theorem decodeID_params (r : Rec) : (s.decodeID r).params = s.params := by
  unfold State.decodeID
  split
  · rfl
  · split
    · rfl
    · dsimp only
      split <;> exact idStage_params s r.desc r

@[simp] theorem stepID_params : s.stepID.params = s.params := by
  unfold State.stepID
  split
  next r _ =>
    split
    · rfl
    · split
      · rfl
      · exact decodeID_params s r
  next => rfl

@[simp] theorem promoteOrStay_params (r : Rec) : (s.promoteOrStay r).params = s.params := by
  unfold State.promoteOrStay; split <;> rfl

@[simp] theorem fetchIF_params (r : Rec) : (s.fetchIF r).params = s.params := by
  unfold State.fetchIF
  dsimp only
  split
  · simp
  · split <;> simp

@[simp] theorem stepIF_params : s.stepIF.params = s.params := by
  unfold State.stepIF
  split
  next r _ =>
    split
    · dsimp only
      split
      · exact promoteOrStay_params s _
      · rfl
    · exact fetchIF_params s r
  next => rfl

@[simp] theorem advanceSteps_params : s.advanceSteps.params = s.params := by simp [State.advanceSteps]

variable {s}

theorem allocate_params (h : s.allocate = some t) : t.params = s.params := by
  unfold State.allocate at h
  split at h
  · rw [← Option.some.inj h]
  · split at h
    · nomatch h
    · rw [← Option.some.inj h]

theorem runCycle_params (h : s.runCycle = some t) : t.params = s.params := by
  unfold State.runCycle at h
  dsimp only at h
  split at h
  · rw [allocate_params h]; simp
  · split at h
    · rw [← Option.some.inj h]; simp
    · rw [allocate_params h]; simp

@[simp] theorem startRun_params (s : State) (start : Word) (budget : Nat) : (s.startRun start budget).params = s.params := by
  unfold State.startRun
  split
  · rfl
  · split
    next t h =>
      have hstart : t.params = (s.startAt start).params := allocate_params h
      exact hstart
    next => rfl

@[simp] theorem afterCycle_params (s : State) (budget : Nat) : (s.afterCycle budget).params = s.params := by
  unfold State.afterCycle
  split
  · split
    · rw [startRun_params]
    · rfl
  · rfl

@[simp] theorem runOne_params (s : State) (budget : Nat) : (s.runOne budget).params = s.params := by
  unfold State.runOne
  split
  next t h => rw [afterCycle_params, runCycle_params h]
  next => rfl

/-! ## The parameters, the calls of the harness -/

@[simp] theorem initInjection_params (s : State) (config : InjConfig) (draws : List Nat) :
    (s.initInjection config draws).params = s.params := by
  unfold State.initInjection; split <;> rfl

@[simp] theorem call_params (s : State) (c : HarnessCall) : (s.call c).params = s.params := by
  cases c with
  | reset => rfl
  | initInjection config draws => exact initInjection_params s config draws
  | run start budget => exact startRun_params s start budget
  | runInstrs start => unfold State.call; dsimp only; split <;> rfl
  | load address bytes => rfl

/-! ## The parameters, one instruction alone -/

@[simp] theorem settle_params (s : State) : s.settle.params = s.params := by
  have hall : ((s.commitAll s.pipe.fwbList).commitAll s.pipe.ex3List).params = s.params :=
    (commitAll_spec _ _).1.params.trans (commitAll_spec _ s).1.params
  unfold State.settle
  dsimp only
  split
  · exact hall
  · exact hall

@[simp] theorem fetch_params (s : State) : s.fetch.2.params = s.params := by
  have hword : s.fetchWord.2.params = s.params := (fetchWord_inert s).params
  unfold State.fetch State.remembered
  simp [hword]

@[simp] theorem fetchTrap_params (s : State) (e : Exc) : (s.fetchTrap e).params = s.params := by simp [State.fetchTrap]

@[simp] theorem retire_params (s : State) (d : Desc) (r : Rec) : (d.retire r s).params = s.params := by
  unfold Desc.retire
  split
  · exact trap_params ..
  · split
    · exact (fwbCommit_inert s d r).params
    · exact (wbStage_inert s d r).params

@[simp] theorem finish_params (s : State) (d : Desc) (r : Rec) : (d.finish r s).params = s.params := by
  unfold Desc.finish
  dsimp only
  split
  · rw [retire_params, (exStage_inert s d r false).params]
  · rw [retire_params, (memStage_inert _ d _).params, (settleMdu_inert _ d).params, (exStage_inert s d r false).params]

@[simp] theorem transit_params (d : Desc) (s : State) : (transit d s).params = s.params := by
  unfold transit
  split
  · simp
  · dsimp only
    split
    · rw [(fwbCommit_inert _ d _).params, (fpResult_inert _ _ _).params]; simp
    · simp

theorem instrStep_params (h : instrStep s = .next t) : t.params = s.params := by
  rcases instrStep_eq_next h with ⟨e, rfl⟩ | ⟨d, rfl⟩
  · simp
  · simp

/-- Settles O4: each thing a step can do keeps the parameters. -/
theorem stepKeepsParameters : Obligations.StepKeepsParameters := fun s t hstep => by
  rcases step_eq_next hstep with rfl | ⟨budget, rfl⟩ | ⟨c, rest, rfl⟩ | rfl | h
  · rfl
  · exact runOne_params s budget
  · exact call_params _ c
  · rfl
  · exact instrStep_params h

/-! ## Runs -/

/-- Step 15 with an empty IF slot and a free record. -/
theorem allocate_of_free (hif : s.pipe.ifSlot = none) (hfree : 0 < s.poolFree) :
    s.allocate =
      some { s with poolFree := s.poolFree - 1, pipe := { s.pipe with ifSlot := some (freshRec s.fpc) } } := by
  simp [State.allocate, hif, Nat.ne_of_gt hfree]

theorem allocate_of_exhausted (hif : s.pipe.ifSlot = none) (hfree : s.poolFree = 0) : s.allocate = none := by
  simp [State.allocate, hif, hfree]

/-- A run that begins with an empty IF slot and a free record (R121). -/
theorem startRun_of_free (hif : s.pipe.ifSlot = none) (hfree : 0 < s.poolFree) (start : Word) (budget : Nat) :
    s.startRun start budget =
      { s with
        fpc := start, fnpc := start + 4, bdFlag := false, mode := .cycles budget, poolFree := s.poolFree - 1
        pipe := { s.pipe with ifSlot := some (freshRec start) } } := by
  have halloc := allocate_of_free (s := s.startAt start) hif hfree
  simp only [State.startRun, hif, halloc]
  rfl

theorem startRun_of_occupied {r : Rec} (hif : s.pipe.ifSlot = some r) (start : Word) (budget : Nat) :
    s.startRun start budget = { s with mode := .cycles budget } := by
  simp [State.startRun, hif]

/-- A run that finds the pool exhausted is fatal (R447). -/
theorem startRun_of_exhausted (hif : s.pipe.ifSlot = none) (hfree : s.poolFree = 0) (start : Word) (budget : Nat) :
    s.startRun start budget = s.goFatal := by
  have halloc := allocate_of_exhausted (s := s.startAt start) hif hfree
  simp only [State.startRun, hif, halloc]

/-- Settles O5, by what stands in the IF slot and in the pool. -/
theorem runBegins : Obligations.RunBegins := fun s start budget =>
  ⟨fun hif hfree => startRun_of_free hif hfree start budget, fun _ hif => startRun_of_occupied hif start budget,
    fun hif hfree => by rw [startRun_of_exhausted hif hfree]; exact ⟨rfl, rfl⟩⟩

theorem step_of_budget_spent (h : s.mode = .cycles 0) :
    step s = .next { s with mode := .idle, outcome := some .ranOutOfBudget } := by
  unfold step; rw [h]

theorem step_of_budget {budget : Nat} (h : s.mode = .cycles (budget + 1)) : step s = .next (s.runOne budget) := by
  unfold step; rw [h]

theorem runOne_of_none (h : s.runCycle = none) (budget : Nat) : s.runOne budget = s.goFatal := by simp [State.runOne, h]

theorem runOne_of_some (h : s.runCycle = some t) (budget : Nat) : s.runOne budget = t.afterCycle budget := by
  simp [State.runOne, h]

/-- Settles O6: the budget spent, a fatal cycle, a cycle without an exception, and the two decisions of the policy. -/
theorem runOutcomes : Obligations.RunOutcomes := by
  intro s budget
  refine ⟨step_of_budget_spent, fun hmode hcycle => ?_, fun t hmode hcycle => ?_⟩
  · exact ⟨_, step_of_budget hmode, by rw [runOne_of_none hcycle]; exact ⟨rfl, rfl⟩⟩
  · have hstep : step s = .next (t.afterCycle budget) := by rw [step_of_budget hmode, runOne_of_some hcycle]
    refine ⟨fun hexc => ?_, fun hexc hpol => ?_, fun hexc hpol hif hfree => ?_⟩
    · rw [hstep]; simp [State.afterCycle, hexc]
    · rw [hstep]; simp [State.afterCycle, hexc, hpol]
    · refine ⟨_, hstep, ?_⟩
      have hstart := startRun_of_free (s := { t with outcome := some .exceptionHandledContinue }) hif hfree
        t.params.excVector budget
      have hafter : t.afterCycle budget =
          ({ t with outcome := some .exceptionHandledContinue } : State).startRun t.params.excVector budget := by
        simp only [State.afterCycle, hexc, hpol, if_true]
      rw [hafter, hstart]
      exact ⟨rfl, rfl, rfl, rfl, rfl, rfl⟩

end Sys2Proof.Machine
end

section
/-! SUPPORT. Decoding and encoding agree: a word is that of a format exactly when it has the format's fields (R92); every map of
R94, R95 gives back the instruction a word encodes; then the statements about the decoder. -/

namespace Sys2Proof

variable {w : Word} {i j : Instr}

/-! ## The word of a format, by its fields -/

theorem rForm_eq_iff {op funct : BitVec 6} {rs rt rd shamt : Reg} :
    rForm op rs rt rd shamt funct = w ↔
      opcodeOf w = op ∧ rsOf w = rs ∧ rtOf w = rt ∧ rdOf w = rd ∧ shamtOf w = shamt ∧ functOf w = funct := by
  constructor
  · rintro rfl; simp
  · rintro ⟨rfl, rfl, rfl, rfl, rfl, rfl⟩; exact rForm_fields w

theorem iForm_eq_iff {op : BitVec 6} {rs rt : Reg} {imm : Imm} :
    iForm op rs rt imm = w ↔ opcodeOf w = op ∧ rsOf w = rs ∧ rtOf w = rt ∧ immOf w = imm := by
  constructor
  · rintro rfl; simp
  · rintro ⟨rfl, rfl, rfl, rfl⟩; exact iForm_fields w

theorem jForm_eq_iff {op : BitVec 6} {target : BitVec 26} :
    jForm op target = w ↔ opcodeOf w = op ∧ targetOf w = target := by
  constructor
  · rintro rfl; simp
  · rintro ⟨rfl, rfl⟩; exact jForm_fields w

theorem scForm_eq_iff {code : BitVec 20} {funct : BitVec 6} :
    scForm code funct = w ↔ opcodeOf w = 0 ∧ codeOf w = code ∧ functOf w = funct := by
  constructor
  · rintro rfl; simp
  · rintro ⟨hop, rfl, rfl⟩; exact scForm_fields w hop

theorem needs_eq_some_iff {zeros : Bool} : needs zeros i = some j ↔ zeros = true ∧ i = j := by
  cases zeros <;> simp [needs]

/-- A field known by its number. -/
theorem eq_ofNat_of_toNat {n k : Nat} {x : BitVec n} (h : x.toNat = k) : x = BitVec.ofNat n k := by
  rw [← h, BitVec.ofNat_toNat, BitVec.setWidth_eq]

/-! ## Each map decodes a word to the instruction it encodes -/

theorem encode_of_decodeSpecial (hop : opcodeOf w = 0) (h : decodeSpecial w = some i) : encode i = w := by
  unfold decodeSpecial at h
  split at h
  case h_29 => nomatch h
  all_goals
    rename_i hfunct
    have hf := eq_ofNat_of_toNat hfunct
    simp only [needs_eq_some_iff, Bool.and_eq_true, beq_iff_eq, Option.some.injEq] at h
  case h_9 | h_10 => subst h; exact scForm_eq_iff.mpr ⟨hop, rfl, hf⟩
  all_goals
    obtain ⟨hzero, rfl⟩ := h
    refine rForm_eq_iff.mpr ⟨hop, ?_, ?_, ?_, ?_, hf⟩
    all_goals first | rfl | simp [hzero]

theorem encode_of_decodeRegimm (hop : opcodeOf w = 1) (h : decodeRegimm w = some i) : encode i = w := by
  unfold decodeRegimm at h
  split at h
  case h_5 => nomatch h
  all_goals
    rename_i hrt
    obtain rfl := Option.some.inj h
    exact iForm_eq_iff.mpr ⟨hop, rfl, eq_ofNat_of_toNat hrt, rfl⟩

theorem encode_of_decodeCop0 (hop : opcodeOf w = 16) (h : decodeCop0 w = some i) : encode i = w := by
  unfold decodeCop0 at h
  split at h
  case h_3 => nomatch h
  all_goals
    rename_i hrs
    simp only [needs_eq_some_iff, Bool.and_eq_true, beq_iff_eq] at h
    obtain ⟨⟨hshamt, hfunct⟩, rfl⟩ := h
    exact rForm_eq_iff.mpr ⟨hop, eq_ofNat_of_toNat hrs, rfl, rfl, hshamt, hfunct⟩

theorem encode_of_decodeCmpS (hop : opcodeOf w = 17) (hrs : rsOf w = 16) (hshamt : shamtOf w = 0)
    (h : decodeCmpS w = some i) : encode i = w := by
  unfold decodeCmpS at h
  split at h
  case h_17 => nomatch h
  all_goals
    rename_i hfunct
    obtain rfl := Option.some.inj h
    exact rForm_eq_iff.mpr ⟨hop, hrs, rfl, rfl, hshamt, eq_ofNat_of_toNat hfunct⟩

theorem encode_of_decodeCmpD (hop : opcodeOf w = 17) (hrs : rsOf w = 17) (hshamt : shamtOf w = 0)
    (h : decodeCmpD w = some i) : encode i = w := by
  unfold decodeCmpD at h
  split at h
  case h_17 => nomatch h
  all_goals
    rename_i hfunct
    obtain rfl := Option.some.inj h
    exact rForm_eq_iff.mpr ⟨hop, hrs, rfl, rfl, hshamt, eq_ofNat_of_toNat hfunct⟩

theorem encode_of_decodeFmtS (hop : opcodeOf w = 17) (hrs : rsOf w = 16) (h : decodeFmtS w = some i) : encode i = w := by
  unfold decodeFmtS at h
  split at h
  case h_10 =>
    split at h
    next hshamt => exact encode_of_decodeCmpS hop hrs (beq_iff_eq.mp hshamt) h
    next => nomatch h
  all_goals
    rename_i hfunct
    have hf := eq_ofNat_of_toNat hfunct
    simp only [needs_eq_some_iff, beq_iff_eq, Option.some.injEq] at h
  case h_1 | h_2 | h_3 | h_4 => subst h; exact rForm_eq_iff.mpr ⟨hop, hrs, rfl, rfl, rfl, hf⟩
  all_goals
    obtain ⟨hrt, rfl⟩ := h
    exact rForm_eq_iff.mpr ⟨hop, hrs, hrt, rfl, rfl, hf⟩

theorem encode_of_decodeFmtD (hop : opcodeOf w = 17) (hrs : rsOf w = 17) (h : decodeFmtD w = some i) : encode i = w := by
  unfold decodeFmtD at h
  split at h
  case h_10 =>
    split at h
    next hshamt => exact encode_of_decodeCmpD hop hrs (beq_iff_eq.mp hshamt) h
    next => nomatch h
  all_goals
    rename_i hfunct
    have hf := eq_ofNat_of_toNat hfunct
    simp only [needs_eq_some_iff, beq_iff_eq, Option.some.injEq] at h
  case h_1 | h_2 | h_3 | h_4 => subst h; exact rForm_eq_iff.mpr ⟨hop, hrs, rfl, rfl, rfl, hf⟩
  all_goals
    obtain ⟨hrt, rfl⟩ := h
    exact rForm_eq_iff.mpr ⟨hop, hrs, hrt, rfl, rfl, hf⟩

theorem encode_of_decodeFmtW (hop : opcodeOf w = 17) (hrs : rsOf w = 20) (h : decodeFmtW w = some i) : encode i = w := by
  unfold decodeFmtW at h
  split at h
  case h_3 => nomatch h
  all_goals
    rename_i hfunct
    obtain ⟨hrt, rfl⟩ := needs_eq_some_iff.mp h
    exact rForm_eq_iff.mpr ⟨hop, hrs, beq_iff_eq.mp hrt, rfl, rfl, eq_ofNat_of_toNat hfunct⟩

theorem encode_of_decodeBc1 (hop : opcodeOf w = 17) (hrs : rsOf w = 8) (h : decodeBc1 w = some i) : encode i = w := by
  unfold decodeBc1 at h
  split at h
  case h_3 => nomatch h
  all_goals
    rename_i hrt
    obtain rfl := Option.some.inj h
    exact iForm_eq_iff.mpr ⟨hop, hrs, eq_ofNat_of_toNat hrt, rfl⟩

theorem encode_of_decodeCop1 (hop : opcodeOf w = 17) (h : decodeCop1 w = some i) : encode i = w := by
  unfold decodeCop1 at h
  split at h
  case h_3 hrs => exact encode_of_decodeBc1 hop (eq_ofNat_of_toNat hrs) h
  case h_4 hrs => exact encode_of_decodeFmtS hop (eq_ofNat_of_toNat hrs) h
  case h_5 hrs => exact encode_of_decodeFmtD hop (eq_ofNat_of_toNat hrs) h
  case h_6 hrs => exact encode_of_decodeFmtW hop (eq_ofNat_of_toNat hrs) h
  case h_7 => nomatch h
  -- MFC1 and MTC1
  all_goals
    rename_i hrs
    simp only [needs_eq_some_iff, Bool.and_eq_true, beq_iff_eq] at h
    obtain ⟨⟨hshamt, hfunct⟩, rfl⟩ := h
    exact rForm_eq_iff.mpr ⟨hop, eq_ofNat_of_toNat hrs, rfl, rfl, hshamt, hfunct⟩

theorem encode_of_decodeMajor (h : decodeMajor w = some i) : encode i = w := by
  unfold decodeMajor at h
  split at h
  case h_29 => nomatch h
  all_goals
    rename_i hopcode
    have hop := eq_ofNat_of_toNat hopcode
  case h_1 => exact encode_of_decodeSpecial hop h
  case h_2 => exact encode_of_decodeRegimm hop h
  case h_17 => exact encode_of_decodeCop0 hop h
  case h_18 => exact encode_of_decodeCop1 hop h
  case h_3 | h_4 => obtain rfl := Option.some.inj h; exact jForm_eq_iff.mpr ⟨hop, rfl⟩
  -- BLEZ, BGTZ and LUI leave a field zero
  case h_7 | h_8 =>
    obtain ⟨hrt, rfl⟩ := needs_eq_some_iff.mp h
    exact iForm_eq_iff.mpr ⟨hop, rfl, beq_iff_eq.mp hrt, rfl⟩
  case h_16 =>
    obtain ⟨hrs, rfl⟩ := needs_eq_some_iff.mp h
    exact iForm_eq_iff.mpr ⟨hop, beq_iff_eq.mp hrs, rfl, rfl⟩
  all_goals obtain rfl := Option.some.inj h; exact iForm_eq_iff.mpr ⟨hop, rfl, rfl, rfl⟩

/-! ## The encoding of each instruction decodes to it -/

theorem decodeMajor_encode (i : Instr) : decodeMajor (encode i) = some i := by
  cases i <;>
    simp [encode, decodeMajor, decodeSpecial, decodeRegimm, decodeCop0, decodeCop1, decodeBc1, decodeFmtS, decodeFmtD,
      decodeFmtW, decodeCmpS, decodeCmpD, needs]

theorem decodeMajor_eq_some_iff : decodeMajor w = some i ↔ encode i = w :=
  ⟨encode_of_decodeMajor, fun h => h ▸ decodeMajor_encode i⟩

theorem elim_reserved_eq_instr_iff {d : Option Instr} : d.elim .reserved .instr = Decoded.instr i ↔ d = some i := by
  cases d <;> simp

namespace Machine

/-! ## The statements -/

/-- Settles O8: the usability check comes first (R98), then the primary map, which inverts the encoding. -/
theorem decodeInvertsEncode : Obligations.DecodeInvertsEncode := by
  intro u w i
  rw [← decodeMajor_eq_some_iff, ← elim_reserved_eq_instr_iff]
  cases hcop : copNamed w with
  | none => simp [decodeWord, hcop]
  | some z => by_cases hz : usableAt u z = true <;> simp [decodeWord, hcop, hz]

/-- Settles O7: words of the table, read by the decoder. -/
theorem decodeOfWrittenWords : Obligations.DecodeOfWrittenWords :=
  ⟨rfl, rfl, rfl, rfl, rfl, rfl, rfl, rfl, rfl, rfl, rfl⟩

end Machine

end Sys2Proof
end

section
/-! SUPPORT. Requests and fetches: which addresses are misaligned (R70), the bytes of a wide read (R67, R69), the fetch of one
instruction alone when the collaborator hits and when it refuses (R78, R434, log 39), and the traps of ID and of the fetch; then
the statements about them. -/

namespace Sys2Proof.Machine

variable {s u : State} {d : Desc} {k : Kind} {a : Word}

/-! ## Alignment -/

theorem getLsbD_zero_iff (a : Word) : a.getLsbD 0 = true ↔ a.toNat % 2 ≠ 0 := by
  simp [BitVec.getLsbD, Nat.testBit_zero]

theorem getLsbD_zero_or_one_iff (a : Word) : (a.getLsbD 0 || a.getLsbD 1) = true ↔ a.toNat % 4 ≠ 0 := by
  simp only [BitVec.getLsbD, Nat.testBit_eq_decide_div_mod_eq, Bool.or_eq_true, decide_eq_true_eq]
  omega

/-- A half access needs an even address (R70). -/
theorem misaligned_half_iff (h : k = .rdH ∨ k = .wrH) : misaligned k a = true ↔ a.toNat % 2 ≠ 0 := by
  rcases h with rfl | rfl <;> exact getLsbD_zero_iff a

/-- A word access and an instruction fetch need a multiple of 4 (R70). -/
theorem misaligned_word_iff (h : k = .ifetch ∨ k = .rdW ∨ k = .wrW) : misaligned k a = true ↔ a.toNat % 4 ≠ 0 := by
  rcases h with rfl | rfl | rfl <;> exact getLsbD_zero_or_one_iff a

theorem not_misaligned_half (h : k = .rdH ∨ k = .wrH) (ha : a.toNat % 2 = 0) : misaligned k a = false :=
  Bool.eq_false_iff.mpr fun hm => (misaligned_half_iff h).mp hm ha

theorem not_misaligned_word (h : k = .ifetch ∨ k = .rdW ∨ k = .wrW) (ha : a.toNat % 4 = 0) : misaligned k a = false :=
  Bool.eq_false_iff.mpr fun hm => (misaligned_word_iff h).mp hm ha

/-- A misaligned request is refused before the collaborator's script is read, and not performed (R70, R435). -/
theorem memReq_misaligned (h : misaligned k a = true) (w : Word) :
    s.memReq k a w = answerRefused s.tagTaken s.nextTag (alignmentCode k) := if_pos h

/-- Settles O26: alignment by the width of the access; a misaligned request is refused at once. -/
theorem misalignedRequests : Obligations.MisalignedRequests := by
  intro s a w
  refine ⟨fun k hk => ?_, fun k hk => ?_, fun k hk => ?_, fun k hm => ?_⟩
  · simp only [List.mem_cons, List.not_mem_nil, or_false] at hk
    rcases hk with rfl | rfl <;> rfl
  · exact misaligned_half_iff (by simpa using hk)
  · exact misaligned_word_iff (by simpa using hk)
  · rw [memReq_misaligned hm]
    exact ⟨rfl, rfl, rfl⟩

/-! ## The bytes of a wide read -/

theorem extract_append_low {n m : Nat} (x : BitVec n) (y : BitVec m) : (x ++ y).extractLsb' 0 m = y := by
  ext i hi
  simp [BitVec.getLsbD_append, hi, BitVec.getLsbD_eq_getElem]

/-- A part of a wide word above its low half is a part of the high half. -/
theorem extract_append_high {n m len lo : Nat} (x : BitVec n) (y : BitVec m) :
    (x ++ y).extractLsb' (m + lo) len = x.extractLsb' lo len := by
  ext i hi
  simp [BitVec.getLsbD_append, show ¬ m + lo + i < m by omega, show m + lo + i - m = lo + i by omega]

/-- The parts of two bytes written one after the other. -/
theorem extract_append_two (x y : Byte) : (x ++ y).extractLsb' 0 8 = y ∧ (x ++ y).extractLsb' 8 8 = x :=
  ⟨extract_append_low x y, (extract_append_high x y (lo := 0)).trans BitVec.extractLsb'_eq_self⟩

/-- The parts of four bytes written one after the other, the last first. -/
theorem extract_append_four (x y z v : Byte) :
    (x ++ y ++ z ++ v).extractLsb' 0 8 = v ∧ (x ++ y ++ z ++ v).extractLsb' 8 8 = z
      ∧ (x ++ y ++ z ++ v).extractLsb' 16 8 = y ∧ (x ++ y ++ z ++ v).extractLsb' 24 8 = x := by
  refine ⟨extract_append_low _ v, (extract_append_high _ v (lo := 0)).trans (extract_append_low _ z), ?_, ?_⟩
  · exact (extract_append_high _ v (lo := 8)).trans ((extract_append_high _ z (lo := 0)).trans (extract_append_low _ y))
  · exact (extract_append_high _ v (lo := 16)).trans ((extract_append_high _ z (lo := 8)).trans (extract_append_two x y).2)

/-- Byte k of a half, from the lower address up (R69). -/
theorem bytesHalf_byte (o : ByteOrder) (b0 b1 : Byte) {k : Nat} (hk : k < 2) :
    (bytesHalf o b0 b1).extractLsb' (8 * (if o = .little then k else 1 - k)) 8 = [b0, b1][k] := by
  cases o with
  | little =>
    obtain ⟨h0, h1⟩ := extract_append_two b1 b0
    match k, hk with
    | 0, _ => exact h0
    | 1, _ => exact h1
  | big =>
    obtain ⟨h1, h0⟩ := extract_append_two b0 b1
    match k, hk with
    | 0, _ => exact h0
    | 1, _ => exact h1

/-- Byte k of a word, from the lowest address up (R69). -/
theorem bytesWord_byte (o : ByteOrder) (b0 b1 b2 b3 : Byte) {k : Nat} (hk : k < 4) :
    (bytesWord o b0 b1 b2 b3).extractLsb' (8 * (if o = .little then k else 3 - k)) 8 = [b0, b1, b2, b3][k] := by
  cases o with
  | little =>
    obtain ⟨h0, h1, h2, h3⟩ := extract_append_four b3 b2 b1 b0
    match k, hk with
    | 0, _ => exact h0
    | 1, _ => exact h1
    | 2, _ => exact h2
    | 3, _ => exact h3
  | big =>
    obtain ⟨h3, h2, h1, h0⟩ := extract_append_four b0 b1 b2 b3
    match k, hk with
    | 0, _ => exact h0
    | 1, _ => exact h1
    | 2, _ => exact h2
    | 3, _ => exact h3

/-- The bytes at an address and after it, by their distance. -/
theorem readByte_of_two (s : State) (a : Word) {k : Nat} (hk : k < 2) :
    [s.readByte a, s.readByte (a + 1)][k] = s.readByte (a + BitVec.ofNat 32 k) :=
  match k, hk with
  | 0, _ => congrArg s.readByte (BitVec.add_zero a).symm
  | 1, _ => rfl

theorem readByte_of_four (s : State) (a : Word) {k : Nat} (hk : k < 4) :
    [s.readByte a, s.readByte (a + 1), s.readByte (a + 2), s.readByte (a + 3)][k] = s.readByte (a + BitVec.ofNat 32 k) :=
  match k, hk with
  | 0, _ => congrArg s.readByte (BitVec.add_zero a).symm
  | 1, _ => rfl
  | 2, _ => rfl
  | 3, _ => rfl

/-- Settles O25: byte k of the value read stands at the k-th address. -/
theorem byteOrderOfReads : Obligations.ByteOrderOfReads := by
  intro s a
  exact ⟨fun k hk => (bytesHalf_byte _ _ _ hk).trans (readByte_of_two s a hk),
    fun k hk => (bytesWord_byte _ _ _ _ _ hk).trans (readByte_of_four s a hk)⟩

/-! ## The fetch of one instruction alone -/

/-- Nothing older is left to settle. -/
theorem settle_of_settled (h : s.settled = true) : s.settle = s := by
  simp only [State.settled, Bool.and_eq_true, List.isEmpty_iff, beq_iff_eq] at h
  obtain ⟨⟨⟨hex3, hfwb⟩, hmdu⟩, hbusy⟩ := h
  have hpipe : { s.pipe with fwbList := [], ex3List := [] } = s.pipe := by
    calc
      _ = { s.pipe with fwbList := s.pipe.fwbList, ex3List := s.pipe.ex3List } := by rw [hex3, hfwb]
      _ = s.pipe := rfl
  simp only [State.settle, hex3, hfwb, State.commitAll, hpipe, ← hbusy, hmdu, if_true]

/-- The state after a fetch that hits: the bus tag taken, the memory kept among the last three, the draws as given (R63, R78;
log 39). -/
def State.afterFetch (s : State) (n : Nat) : State :=
  { s with
    nextTag := s.nextTag + 1, draws := n
    earlier := if s.excFound then [s.mem] else (s.mem :: s.earlier).take 3 }

/-- A fetch changes nothing of what an instruction sees. -/
theorem afterFetch_agreesP (s : State) (n : Nat) : AgreesP s (s.afterFetch n) :=
  ⟨⟨rfl, rfl, rfl, rfl, rfl, rfl, rfl, rfl, rfl, rfl, rfl, rfl, rfl, rfl, rfl, rfl⟩, rfl, rfl⟩

/-- The choice of a word draws at most one free value. -/
theorem fetchWord_eq_draws (s : State) : ∃ w ∈ s.fetchWords, ∃ n, s.fetchWord = (w, { s with draws := n }) := by
  obtain ⟨hmem, hstate⟩ := fetchWord_spec s
  refine ⟨_, hmem, s.fetchWord.2.draws, Prod.ext rfl ?_⟩
  rcases hstate with h | h
  · rw [h]
  · rw [h]; rfl

/-- With nothing scripted a fetch at a multiple of 4 hits, with the word chosen. -/
theorem fetch_of_hit {w : Word} {n : Nat} (hscript : s.script = []) (halign : s.fpc.toNat % 4 = 0)
    (hword : s.fetchWord = (w, { s with draws := n })) :
    s.fetch.1.exc = none ∧ s.fetch.1.datum = .word w ∧ s.fetch.2 = s.afterFetch n := by
  have hm : misaligned .ifetch s.fpc = false := not_misaligned_word (.inl rfl) halign
  have hreq : ({ s with draws := n } : State).memReq .ifetch s.fpc 0 =
      ({ s with draws := n } : State).tagTaken.answerHit .ifetch s.fpc 0 s.nextTag := by
    simp only [State.memReq, hm, Bool.false_eq_true, if_false, hscript]
  unfold State.fetch
  rw [hword]
  dsimp only
  rw [hreq]
  exact ⟨rfl, rfl, rfl⟩

/-- A fetch is refused as its request is (R434). -/
theorem fetch_exc (s : State) : s.fetch.1.exc = s.refusal .ifetch s.fpc := by
  obtain ⟨w, -, n, hword⟩ := fetchWord_eq_draws s
  show ((s.fetchWord.2.memReq .ifetch s.fpc 0).1.exc = _)
  rw [memReq_exc, hword]
  rfl

/-- A refused fetch changes nothing of what an instruction sees. -/
theorem fetch_agreesP_of_refused {e : Exc} (h : s.refusal .ifetch s.fpc = some e) : AgreesP s s.fetch.2 := by
  obtain ⟨w, -, n, hword⟩ := fetchWord_eq_draws s
  have hmem : (({ s with draws := n } : State).memReq .ifetch s.fpc 0).2.mem = s.mem :=
    memReq_refused (u := { s with draws := n }) h 0
  unfold State.fetch State.remembered
  rw [hword]
  constructor
  · constructor
    case mem => simpa using hmem
    all_goals simp
  · simp
  · simp

theorem fetch_fpc (s : State) : s.fetch.2.fpc = s.fpc := by
  obtain ⟨w, -, n, hword⟩ := fetchWord_eq_draws s
  simp [State.fetch, State.remembered, hword]

theorem fetch_bdFlag (s : State) : s.fetch.2.bdFlag = s.bdFlag := by
  obtain ⟨w, -, n, hword⟩ := fetchWord_eq_draws s
  simp [State.fetch, State.remembered, hword]

/-! ## The step at rest -/

theorem step_at_rest (hmode : s.mode = .instr) (hcalls : s.calls = []) (hrest : s.atRest = true) : step s = instrStep s := by
  simp [step, hmode, hcalls, hrest]

/-- One instruction whose fetch hits: the description of the decoded word, carried through the stages. -/
theorem instrStep_of_fetch {w : Word} (hsettled : s.settled = true) (hexc : s.fetch.1.exc = none)
    (hdatum : s.fetch.1.datum = .word w) (hparams : s.fetch.2.params = s.params) :
    instrStep s = .next (transit (descOfDecoded (decodeWord s.params.usable w)) s.fetch.2) := by
  have hdecode : s.fetch.2.decode s.fetch.1.datum = decodeWord s.params.usable w := by
    rw [State.decode, hdatum, hparams]; rfl
  simp only [instrStep, settle_of_settled hsettled, hexc, hdecode]
  cases decodeWord s.params.usable w with
  | instr i => exact exec_eq i s.fetch.2
  | reserved => rfl
  | copUnusable z => rfl

theorem instrStep_of_refused {e : Exc} (hsettled : s.settled = true) (h : s.refusal .ifetch s.fpc = some e) :
    instrStep s = .next (s.fetch.2.fetchTrap e) := by
  have hexc : s.fetch.1.exc = some e := (fetch_exc s).trans h
  simp only [instrStep, settle_of_settled hsettled, hexc]

/-- The step at rest with the collaborator hitting (R91, R140). -/
theorem step_of_hit {w : Word} {n : Nat} (hmode : s.mode = .instr) (hcalls : s.calls = []) (hrest : s.atRest = true)
    (hsettled : s.settled = true) (hscript : s.script = []) (halign : s.fpc.toNat % 4 = 0)
    (hword : s.fetchWord = (w, { s with draws := n })) :
    step s = .next (transit (descOfDecoded (decodeWord s.params.usable w)) (s.afterFetch n)) := by
  obtain ⟨hexc, hdatum, hstate⟩ := fetch_of_hit hscript halign hword
  rw [step_at_rest hmode hcalls hrest, instrStep_of_fetch hsettled hexc hdatum (by rw [hstate]; rfl), hstate]

/-- Settles O10: the fetched word is the one the visible memories agree on, or one of theirs; R78 says which are visible. -/
theorem stepRunsDecoded : Obligations.StepRunsDecoded := by
  intro s hmode hcalls hrest hsettled hscript halign
  have hstep : ∀ {w n}, s.fetchWord = (w, { s with draws := n }) → ∀ {i}, decodeWord s.params.usable w = .instr i →
      step s = exec i (s.afterFetch n) := fun hword i hdec => by
    rw [step_of_hit hmode hcalls hrest hsettled hscript halign hword, hdec]
    exact (exec_eq i _).symm
  refine ⟨fun i w hagree hdec => hstep (fetchWord_agreed hagree) hdec, ?_, ?_, fun hx => ⟨?_, ?_⟩⟩
  · obtain ⟨w, hmem, n, hword⟩ := fetchWord_eq_draws s
    exact ⟨w, hmem, n, fun i hdec => hstep hword hdec⟩
  · rintro (h | h)
    · exact fetchWords_first h
    · have hviews : s.views = [s.mem] := by simp [State.views, h]
      rw [State.fetchWords, hviews]; rfl
  · exact fun m h => fetchWords_second hx h
  · intro m older h hne
    obtain ⟨n, ms, rfl⟩ := List.exists_cons_of_ne_nil hne
    exact fetchWords_later hx h

/-! ## Traps of ID and of the fetch -/

/-- An instruction that raises its exception in ID, executed alone from a state that agrees with s. -/
theorem transit_raises {e : Exc} (h : AgreesP s u) (hbd : u.bdFlag = s.bdFlag) (hpc : u.fpc = s.fpc)
    (hid : d.idException = some e) (haddr : savesAddress e = false) :
    Trapped e d.ce 0 s (transit d u) ∧ Resumed s (transit d u) := by
  have hag : AgreesP s { u.prologue.commitPc with bdFlag := false } :=
    ⟨⟨h.x, h.f, h.hi, h.lo, h.hiPresent, h.loPresent, h.fpCond, h.c0, h.mem, h.pipe, h.poolFree, h.params, h.busy, h.mode,
      h.calls, h.outcome⟩, h.fPresent, h.fpCondPresent⟩
  simp only [transit, hid]
  exact ⟨trapped_of hag hbd hpc rfl (by simp [haddr]), trap_resumed _ _ hag.params hag.mode⟩

/-- A refused fetch, taken in a state that agrees with s (R434). -/
theorem fetchTrap_traps (h : AgreesP s u) (hbd : u.bdFlag = s.bdFlag) (hpc : u.fpc = s.fpc) (e : Exc) :
    Trapped e 0 s.fpc s (u.fetchTrap e) ∧ Resumed s (u.fetchTrap e) := by
  have hag : AgreesP s { u.prologue.commitPc with bdFlag := false } :=
    ⟨⟨h.x, h.f, h.hi, h.lo, h.hiPresent, h.loPresent, h.fpCond, h.c0, h.mem, h.pipe, h.poolFree, h.params, h.busy, h.mode,
      h.calls, h.outcome⟩, h.fPresent, h.fpCondPresent⟩
  exact ⟨trapped_of hag hbd hpc rfl (fun _ => hpc), trap_resumed _ _ hag.params hag.mode⟩

/-- Settles O11: RESERVED and COPZ_UNUSABLE are descriptions that raise in ID; a refused fetch traps by itself. -/
theorem stepTrapsOnFetch : Obligations.StepTrapsOnFetch := by
  intro s hmode hcalls hrest hsettled
  have hraise : ∀ {dec : Decoded} {e : Exc}, (descOfDecoded dec).idException = some e → savesAddress e = false →
      s.script = [] → s.fpc.toNat % 4 = 0 → (∀ w ∈ s.fetchWords, decodeWord s.params.usable w = dec) →
      ∃ t, step s = .next t ∧ Trapped e (descOfDecoded dec).ce 0 s t ∧ Resumed s t := by
    intro dec e hid haddr hscript halign hall
    obtain ⟨w, hmem, n, hword⟩ := fetchWord_eq_draws s
    refine ⟨_, step_of_hit hmode hcalls hrest hsettled hscript halign hword, ?_⟩
    rw [hall w hmem]
    exact transit_raises (afterFetch_agreesP s n) rfl rfl hid haddr
  refine ⟨hraise rfl rfl, fun z => hraise rfl rfl, fun e href => ?_⟩
  refine ⟨_, (step_at_rest hmode hcalls hrest).trans (instrStep_of_refused hsettled href), ?_⟩
  exact fetchTrap_traps (fetch_agreesP_of_refused href) (fetch_bdFlag s) (fetch_fpc s) e

end Sys2Proof.Machine
end

section
/-! SUPPORT. The integer instructions executed alone: the arithmetic their results rest on, then each operand form as one lemma,
then the statements about ALU instructions, the multiply/divide unit and the moves of HI and LO. -/

namespace Sys2Proof.Machine

variable {s : State} {d : Desc} {i : Instr}

theorem Completes.imp {P Q : State → Prop} (h : Completes i s P) (hPQ : ∀ t, P t → Q t) : Completes i s Q := by
  obtain ⟨t, hexec, hP⟩ := h
  exact ⟨t, hexec, hPQ t hP⟩

/-! ## Values -/

theorem boolWord_decide (p : Prop) [Decidable p] : boolWord (decide p) = if p then 1 else 0 := by
  by_cases hp : p <;> simp [boolWord, hp]

/-- The low five bits of a shift count (R216). -/
theorem extract_lowFive (a : Word) : (a.extractLsb' 0 5).toNat = a.toNat % 32 := by
  rw [BitVec.extractLsb'_toNat, Nat.shiftRight_zero]

theorem toInt_signExtend_imm (imm : Imm) : (imm.signExtend 32 : Word).toInt = imm.toInt :=
  BitVec.toInt_signExtend_of_le (by decide)

theorem fitsSigned_iff (v : Int) : fitsSigned v = true ↔ -2147483648 ≤ v ∧ v ≤ 2147483647 := by
  simp [fitsSigned]

theorem narrowSigned_of_fits {v : Int} (h1 : -2147483648 ≤ v) (h2 : v ≤ 2147483647) :
    narrowSigned v = some (BitVec.ofInt 32 v) := if_pos ((fitsSigned_iff v).mpr ⟨h1, h2⟩)

theorem narrowSigned_of_overflow {v : Int} (h : v < -2147483648 ∨ 2147483647 < v) : narrowSigned v = none :=
  if_neg fun hfits => by
    have := (fitsSigned_iff v).mp hfits
    omega

/-! ## ALU instructions by operand form -/

theorem threeReg_completes {f : Word → Word → Option Word} {rd rs rt : Reg} {v : Word} (hd : descOf i = threeReg f rd rs rt)
    (hq : s.quiet = true) (hv : f (s.readX rs) (s.readX rt) = some v) :
    Completes i s fun t => WritesX rd v s t ∧ InOrder s t :=
  alu_completes (d := threeReg f rd rs rt) (hd ▸ exec_eq i s) rfl rfl hq rfl rfl rfl rfl rfl rfl hv

theorem shiftConst_completes {f : Word → Word} {rd rt : Reg} {v : Word} (hd : descOf i = shiftConst f rd rt)
    (hq : s.quiet = true) (hv : f (s.readX rt) = v) :
    Completes i s fun t => WritesX rd v s t ∧ InOrder s t :=
  alu_completes (d := shiftConst f rd rt) (hd ▸ exec_eq i s) rfl rfl hq rfl rfl rfl rfl rfl rfl (congrArg some hv)

theorem immediate_completes {f : Word → Option Word} {rt rs : Reg} {v : Word} (hd : descOf i = immediate f rt rs)
    (hq : s.quiet = true) (hv : f (s.readX rs) = some v) :
    Completes i s fun t => WritesX rt v s t ∧ InOrder s t :=
  alu_completes (d := immediate f rt rs) (hd ▸ exec_eq i s) rfl rfl hq rfl rfl rfl rfl rfl rfl hv

theorem threeReg_overflows {f : Word → Word → Option Word} {rd rs rt : Reg} (hd : descOf i = threeReg f rd rs rt)
    (hq : s.quiet = true) (hv : f (s.readX rs) (s.readX rt) = none) :
    Completes i s fun t => Trapped .ov 0 0 s t ∧ Resumed s t :=
  overflow_traps (d := threeReg f rd rs rt) (hd ▸ exec_eq i s) rfl rfl hq rfl rfl rfl hv

theorem immediate_overflows {f : Word → Option Word} {rt rs : Reg} (hd : descOf i = immediate f rt rs)
    (hq : s.quiet = true) (hv : f (s.readX rs) = none) :
    Completes i s fun t => Trapped .ov 0 0 s t ∧ Resumed s t :=
  overflow_traps (d := immediate f rt rs) (hd ▸ exec_eq i s) rfl rfl hq rfl rfl rfl hv

/-- Settles O12, by operand form; the shifts by a register count with its low five bits. -/
theorem registerFormResults : Obligations.RegisterFormResults := by
  intro s rd rs rt shamt hq
  simp only [List.forall_mem_cons, ← extract_lowFive, ← boolWord_decide]
  exact ⟨threeReg_completes rfl hq rfl, threeReg_completes rfl hq rfl, threeReg_completes rfl hq rfl,
    threeReg_completes rfl hq rfl, threeReg_completes rfl hq rfl, threeReg_completes rfl hq rfl,
    threeReg_completes rfl hq rfl, threeReg_completes rfl hq rfl, threeReg_completes rfl hq rfl,
    threeReg_completes rfl hq rfl, threeReg_completes rfl hq rfl, shiftConst_completes rfl hq rfl,
    shiftConst_completes rfl hq rfl, shiftConst_completes rfl hq rfl, List.forall_mem_nil _⟩

/-- Settles O13; LUI reads no register. -/
theorem immediateResults : Obligations.ImmediateResults := by
  intro s rt rs imm hq
  simp only [List.forall_mem_cons, ← toInt_signExtend_imm, ← boolWord_decide]
  exact ⟨immediate_completes rfl hq rfl, immediate_completes rfl hq rfl, immediate_completes rfl hq rfl,
    immediate_completes rfl hq rfl, immediate_completes rfl hq rfl, immediate_completes rfl hq rfl,
    alu_completes (exec_eq _ s) rfl rfl hq rfl rfl rfl rfl rfl rfl rfl, List.forall_mem_nil _⟩

/-- Settles O14: the exact result fits, so it is the value narrowed. -/
theorem signedArithmeticResults : Obligations.SignedArithmeticResults := by
  intro s rd rs rt imm hq
  simp only [List.forall_mem_cons, ← toInt_signExtend_imm]
  exact ⟨fun h1 h2 => threeReg_completes rfl hq (narrowSigned_of_fits h1 h2),
    fun h1 h2 => threeReg_completes rfl hq (narrowSigned_of_fits h1 h2),
    fun h1 h2 => immediate_completes rfl hq (narrowSigned_of_fits h1 h2), List.forall_mem_nil _⟩

/-- Settles O15: the exact result does not fit, so there is no value. -/
theorem signedOverflowTraps : Obligations.SignedOverflowTraps := by
  intro s rd rs rt imm hq
  simp only [List.forall_mem_cons, ← toInt_signExtend_imm]
  exact ⟨fun h => threeReg_overflows rfl hq (narrowSigned_of_overflow h),
    fun h => threeReg_overflows rfl hq (narrowSigned_of_overflow h),
    fun h => immediate_overflows rfl hq (narrowSigned_of_overflow h), List.forall_mem_nil _⟩

/-! ## Products and quotients -/

theorem splitProduct_append (p : DWord) : (splitProduct p).1 ++ (splitProduct p).2 = p := by
  unfold splitProduct
  ext i hi
  simp only [BitVec.getElem_append, BitVec.getElem_extractLsb']
  repeat' split
  all_goals (rw [← BitVec.getLsbD_eq_getElem]; congr 1; omega)

theorem toInt_bounds (a : Word) : -2147483648 ≤ a.toInt ∧ a.toInt ≤ 2147483647 := by
  have h1 := BitVec.le_toInt a
  have h2 := BitVec.toInt_lt (x := a)
  omega

/-- A product of two signed words fits in 64 bits. -/
theorem toInt_ofInt_product (a b : Word) : (BitVec.ofInt 64 (a.toInt * b.toInt)).toInt = a.toInt * b.toInt := by
  obtain ⟨ha, ha'⟩ := toInt_bounds a
  obtain ⟨hb, hb'⟩ := toInt_bounds b
  have hbound : (a.toInt * b.toInt).natAbs ≤ 2147483648 * 2147483648 := by
    rw [Int.natAbs_mul]
    exact Nat.mul_le_mul (by omega) (by omega)
  rw [BitVec.toInt_ofInt]
  exact Int.bmod_eq_of_le (by omega) (by omega)

theorem toNat_ofNat_product (a b : Word) : (BitVec.ofNat 64 (a.toNat * b.toNat)).toNat = a.toNat * b.toNat := by
  have hlt : a.toNat * b.toNat < 2 ^ 32 * 2 ^ 32 := Nat.mul_lt_mul'' a.isLt b.isLt
  rw [BitVec.toNat_ofNat]
  exact Nat.mod_eq_of_lt hlt

theorem toInt_ofInt_of_fits {v : Int} (h1 : -2147483648 ≤ v) (h2 : v ≤ 2147483647) : (BitVec.ofInt 32 v).toInt = v := by
  rw [BitVec.toInt_ofInt]
  exact Int.bmod_eq_of_le (by omega) (by omega)

/-- The least number and -1 are the only operands of a division whose quotient does not fit. -/
theorem tdiv_fits {a b : Int} (ha : -2147483648 ≤ a) (ha' : a ≤ 2147483647) (h : ¬ (a = -2147483648 ∧ b = -1)) :
    -2147483648 ≤ a.tdiv b ∧ a.tdiv b ≤ 2147483647 := by
  have habs : (a.tdiv b).natAbs ≤ a.natAbs := by
    rw [Int.natAbs_tdiv]
    exact Nat.div_le_self _ _
  by_cases hmin : a = -2147483648
  · subst hmin
    by_cases hone : b = 1
    · subst hone; decide
    · have hb : b ≠ -1 := fun hb => h ⟨rfl, hb⟩
      have hhalf : ((-2147483648 : Int).tdiv b).natAbs ≤ 1073741824 := by
        rw [Int.natAbs_tdiv]
        rcases Nat.lt_or_ge b.natAbs 2 with hlt | hge
        · obtain rfl : b = 0 := by omega
          decide
        · exact Nat.le_trans (Nat.div_le_div_left hge (by decide)) (by decide)
      omega
  · omega

/-- A remainder is smaller than its divisor and has the sign of the dividend (R247). -/
theorem tmod_sign {a b : Int} (hb : b ≠ 0) :
    (a.tmod b).natAbs < b.natAbs ∧ (a.tmod b = 0 ∨ (a.tmod b < 0 ↔ a < 0)) := by
  refine ⟨?_, ?_⟩
  · rw [Int.natAbs_tmod]
    exact Nat.mod_lt _ (Int.natAbs_pos.mpr hb)
  · rcases Int.lt_or_le a 0 with ha | ha
    · have := Int.tmod_nonneg b (a := -a) (by omega)
      rw [Int.neg_tmod] at this
      omega
    · have := Int.tmod_nonneg b ha
      omega

theorem ofInt_remainder_fits {a b : Word} (hb : b ≠ 0) :
    (BitVec.ofInt 32 (a.toInt.tmod b.toInt)).toInt = a.toInt.tmod b.toInt := by
  have hb' : b.toInt ≠ 0 := fun h => hb (BitVec.toInt_inj.mp (h.trans BitVec.toInt_zero.symm))
  obtain ⟨hlt, -⟩ := tmod_sign (a := a.toInt) hb'
  have := toInt_bounds b
  exact toInt_ofInt_of_fits (by omega) (by omega)

/-! ## The multiply/divide unit -/

theorem mduForm_completes {b : Bool} {f : Word → Word → Option (Word × Word)} {rs rt : Reg} {p : Word × Word}
    (hd : descOf i = mduForm b f rs rt) (hq : s.quiet = true)
    (hv : (f (s.readX rs) (s.readX rt)).getD (Config.divZeroHi s.draws, Config.divZeroLo s.draws) = p) :
    Completes i s fun t => WritesHiLo p.1 p.2 s t ∧ InOrder s t :=
  mdu_completes (d := mduForm b f rs rt) (hd ▸ exec_eq i s) rfl rfl hq rfl rfl rfl rfl rfl rfl hv

/-- The pair a state is left with, in terms of the state. -/
theorem WritesHiLo.read {hi lo : Word} {t : State} (h : WritesHiLo hi lo s t) :
    t.hi.read = hi ∧ t.lo.read = lo ∧ WritesHiLo t.hi.read t.lo.read s t := by
  have hcopy := h
  obtain ⟨hhi, hlo, -⟩ := h
  exact ⟨hhi, hlo, by rw [hhi, hlo]; exact hcopy⟩

/-- Settles O16: HI and LO are the halves of the exact product. -/
theorem multiplyResults : Obligations.MultiplyResults := by
  intro s rs rt hq _
  refine ⟨(mduForm_completes rfl hq rfl).imp ?_, (mduForm_completes rfl hq rfl).imp ?_⟩
  · rintro t ⟨hw, horder⟩
    obtain ⟨hhi, hlo, hw⟩ := hw.read
    refine ⟨?_, hw, horder⟩
    rw [hhi, hlo, Option.getD_some, splitProduct_append, toInt_ofInt_product]
  · rintro t ⟨hw, horder⟩
    obtain ⟨hhi, hlo, hw⟩ := hw.read
    refine ⟨?_, hw, horder⟩
    rw [hhi, hlo, Option.getD_some, splitProduct_append, toNat_ofNat_product]

/-- Settles O17: the corner by evaluation, every other division by the division of integers truncated toward zero. -/
theorem divideResults : Obligations.DivideResults := by
  intro s rs rt hq _ hne
  have hdiv := mduForm_completes (i := .div rs rt) rfl hq (congrArg (Option.getD · _) (if_neg hne))
  have hdivu := mduForm_completes (i := .divu rs rt) rfl hq (congrArg (Option.getD · _) (if_neg hne))
  refine ⟨hdiv.imp ?_, hdivu.imp ?_⟩
  · rintro t ⟨hw, horder⟩
    obtain ⟨hhi, hlo, hw⟩ := hw.read
    rw [Option.getD_some] at hhi hlo
    refine ⟨fun ha hb => ?_, fun hcorner => ?_, hw, horder⟩
    · rw [hhi, hlo, ha, hb]; decide
    · have hfits : ¬ ((s.readX rs).toInt = -2147483648 ∧ (s.readX rt).toInt = -1) := fun ⟨ha, hb⟩ =>
        hcorner ⟨BitVec.toInt_inj.mp ha, BitVec.toInt_inj.mp hb⟩
      obtain ⟨h1, h2⟩ := toInt_bounds (s.readX rs)
      obtain ⟨h3, h4⟩ := tdiv_fits h1 h2 hfits
      have hquot : t.lo.read.toInt = (s.readX rs).toInt.tdiv (s.readX rt).toInt := by
        rw [hlo]; exact toInt_ofInt_of_fits h3 h4
      have hrem : t.hi.read.toInt = (s.readX rs).toInt.tmod (s.readX rt).toInt := by
        rw [hhi]; exact ofInt_remainder_fits hne
      have hne' : (s.readX rt).toInt ≠ 0 := fun h => hne (BitVec.toInt_inj.mp (h.trans BitVec.toInt_zero.symm))
      obtain ⟨hlt, hsign⟩ := tmod_sign (a := (s.readX rs).toInt) hne'
      rw [hquot, hrem]
      refine ⟨(Int.tdiv_mul_add_tmod _ _).symm, hlt, hsign.imp (fun h0 => ?_) id⟩
      exact BitVec.toInt_inj.mp ((hrem.trans h0).trans BitVec.toInt_zero.symm)
  · rintro t ⟨hw, horder⟩
    obtain ⟨hhi, hlo, hw⟩ := hw.read
    have hpos : 0 < (s.readX rt).toNat := Nat.pos_of_ne_zero fun h => hne (BitVec.eq_of_toNat_eq h)
    have hquot : t.lo.read.toNat = (s.readX rs).toNat / (s.readX rt).toNat := by
      rw [hlo, Option.getD_some, BitVec.toNat_ofNat]
      exact Nat.mod_eq_of_lt (Nat.lt_of_le_of_lt (Nat.div_le_self _ _) (s.readX rs).isLt)
    have hrem : t.hi.read.toNat = (s.readX rs).toNat % (s.readX rt).toNat := by
      rw [hhi, Option.getD_some, BitVec.toNat_ofNat]
      exact Nat.mod_eq_of_lt (Nat.lt_of_le_of_lt (Nat.mod_le _ _) (s.readX rs).isLt)
    rw [hquot, hrem]
    exact ⟨(Nat.div_add_mod' _ _).symm, Nat.mod_lt _ hpos, hw, horder⟩

/-- Settles O18: a division by zero has no value, so the free pair of the present draw is written. -/
theorem divideByZeroCompletes : Obligations.DivideByZeroCompletes := by
  intro s rs rt hq _ hzero
  have hdiv := mduForm_completes (i := .div rs rt) rfl hq (congrArg (Option.getD · _) (if_pos hzero))
  have hdivu := mduForm_completes (i := .divu rs rt) rfl hq (congrArg (Option.getD · _) (if_pos hzero))
  exact List.forall_mem_cons.mpr ⟨hdiv, List.forall_mem_singleton.mpr hdivu⟩

/-! ## HI and LO -/

/-- MTHI, MTLO executed alone: the presence flag cleared in EX and set again in WB. -/
theorem mtHiLo_executes {h : HiLo} {rs : Reg} (hd : descOf i = { op1 := some rs, ex := .mtHiLo h, wb := .hiLo h })
    (hq : s.quiet = true) :
    ∃ u, AgreesP s u ∧ InOrder s u ∧ exec i s = .next ((u.clearHiLo h).writeHiLo h (s.readX rs)) := by
  refine ⟨_, idState_agreesP hq (d := descOf i) (by rw [hd]) (by rw [hd]), inOrder_idState hq (by rw [hd]), ?_⟩
  rw [exec_eq, transit_int (by rw [hd]; rfl) (by rw [hd]) hq,
    finish_mtHiLo (h := h) (by rw [hd]) (by rw [hd]) (by rw [hd]) (by simp)]
  simp [hd]

theorem InOrder.mtHiLo {u : State} (horder : InOrder s u) (h : HiLo) (v : Word) :
    InOrder s ((u.clearHiLo h).writeHiLo h v) := by
  cases h <;> exact horder

/-- Settles O19: the moves from HI and LO as values known in ID, those to them by their flags. -/
theorem hiLoMoves : Obligations.HiLoMoves := by
  intro s rd rs hq
  refine ⟨fun _ => ?_, fun _ => ?_, fun hpending => ?_, fun hpending => ?_⟩
  · exact move_completes (exec_eq _ s) rfl rfl hq rfl (fun _ _ => nofun) rfl rfl rfl rfl rfl
  · exact move_completes (exec_eq _ s) rfl rfl hq rfl (fun _ _ => nofun) rfl rfl rfl rfl rfl
  · obtain ⟨u, hag, horder, hexec⟩ := mtHiLo_executes (i := .mthi rs) rfl hq
    have hlo : s.loPresent = true := by simp_all [State.mduPending]
    exact ⟨_, hexec, hag.writesHi _ hlo, horder.mtHiLo .hi _⟩
  · obtain ⟨u, hag, horder, hexec⟩ := mtHiLo_executes (i := .mtlo rs) rfl hq
    have hhi : s.hiPresent = true := by simp_all [State.mduPending]
    exact ⟨_, hexec, hag.writesLo _ hhi, horder.mtHiLo .lo _⟩

end Sys2Proof.Machine
end

section
/-! SUPPORT. Loads and stores: the countdown of the multiply/divide unit first (R242, R243), then the integer loads, the stores
with the state each leaves for the next instruction, refused accesses, and a missed load in the cycle engine (R132, R142, R143);
then the statements about them. -/

namespace Sys2Proof.Machine

variable {s t u : State} {i j : Instr} {r : Rec}

/-! ## The countdown of the multiply/divide unit -/

/-- Ticks before the last one only count down (R243). -/
theorem repeat_stepMdu (u : State) {n : Nat} (h : n < u.mdu.count) :
    Nat.repeat State.stepMdu n u = { u with mdu := { u.mdu with count := u.mdu.count - n } } := by
  induction n with
  | zero => rfl
  | succ n ih =>
    have hcount : u.mdu.count - n ≠ 1 := by omega
    rw [Nat.repeat, ih (by omega), stepMdu_of_count_ne_one hcount]
    rfl

/-- The last tick commits (R243). -/
theorem repeat_stepMdu_count (u : State) (h : 0 < u.mdu.count) :
    Nat.repeat State.stepMdu u.mdu.count u = u.commitMdu := by
  obtain ⟨n, hn⟩ := Nat.exists_eq_add_one_of_ne_zero (Nat.ne_of_gt h)
  have hcount : u.mdu.count - n = 1 := by omega
  rw [hn, Nat.repeat, repeat_stepMdu u (by omega), stepMdu_of_count_eq_one hcount]
  rfl

/-- An issue in the fault-free machine (R242). -/
theorem issueMdu_quiet (hq : s.quiet = true) (isDiv : Bool) (hi lo : Word) :
    issueMdu isDiv (some (hi, lo)) s =
      { (s.checkFault .mdu 2).2 with
        mdu := { hi := hi, lo := lo, count := if isDiv then s.params.divCost.val else s.params.multCost.val }
        hiPresent := false, loPresent := false } := by
  have hnone : (s.checkFault .mdu 2).1 = none := checkFault_none hq .mdu 2
  simp [issueMdu, hnone]

/-- Settles O21: before its cost has run out the unit counts with HI and LO absent, at its cost it commits. -/
theorem mduCommitsAtItsCost : Obligations.MduCommitsAtItsCost := by
  intro s isDiv hi lo cost hq hcost
  have hissue := issueMdu_quiet hq isDiv hi lo
  rw [← hcost] at hissue
  generalize issueMdu isDiv (some (hi, lo)) s = u at hissue
  have hcount : u.mdu.count = cost := by rw [hissue]
  have hpos : 0 < cost := by
    rw [hcost]
    cases isDiv
    · exact s.params.multCost.property
    · exact s.params.divCost.property
  refine ⟨fun n hn => ?_, ?_⟩
  · rw [repeat_stepMdu u (by omega), hissue]
    exact ⟨rfl, rfl, by simp [State.mduPending]⟩
  · have hcommit := repeat_stepMdu_count u (by omega)
    rw [hcount] at hcommit
    rw [hcommit, hissue]
    exact ⟨read_cellOf _, read_cellOf _, rfl⟩

/-! ## Integer loads -/

theorem loadForm_completes {k : Kind} {signed : Bool} {rt rs : Reg} {imm : Imm} {v : Word}
    (hd : descOf i = loadForm k signed rt imm rs) (hq : s.quiet = true) (hk : k.writes = false)
    (hr : s.refusal k (s.effAddr rs imm) = none)
    (hv : extendDatum signed (s.perform k (s.effAddr rs imm) 0).1 = v) :
    Completes i s fun t => WritesX rt v s t ∧ InOrder s t := by
  subst hv
  exact load_completes (d := loadForm k signed rt imm rs) (hd ▸ exec_eq i s) rfl rfl hq rfl rfl rfl rfl rfl rfl rfl hk hr

/-- Settles O23, by the kind of the request and the extension of its datum (R142). -/
theorem loadResults : Obligations.LoadResults := by
  intro s rt rs imm hq
  simp only [List.forall_mem_cons]
  exact ⟨fun hr => loadForm_completes rfl hq rfl hr rfl, fun hr => loadForm_completes rfl hq rfl hr rfl,
    fun hr => loadForm_completes rfl hq rfl hr rfl, fun hr => loadForm_completes rfl hq rfl hr rfl,
    fun hr => loadForm_completes rfl hq rfl hr rfl, List.forall_mem_nil _⟩

/-! ## Stores -/

theorem halfBytes_getElem? (o : ByteOrder) (w : Word) {k : Nat} (hk : k < 2) :
    (halfBytes o (w.extractLsb' 0 16))[k]? = some (w.extractLsb' (8 * (if o = .little then k else 2 - 1 - k)) 8) := by
  have hlow : ∀ lo, lo + 8 ≤ 16 → (w.extractLsb' 0 16).extractLsb' lo 8 = w.extractLsb' lo 8 := fun lo hlo => by
    ext n hn
    simp [show lo + n < 16 by omega]
  match o, k, hk with
  | .little, 0, _ | .little, 1, _ | .big, 0, _ | .big, 1, _ => simp [halfBytes, hlow]

theorem wordBytes_getElem? (o : ByteOrder) (w : Word) {k : Nat} (hk : k < 4) :
    (wordBytes o w)[k]? = some (w.extractLsb' (8 * (if o = .little then k else 4 - 1 - k)) 8) := by
  match o, k, hk with
  | .little, 0, _ | .little, 1, _ | .little, 2, _ | .little, 3, _ => rfl
  | .big, 0, _ | .big, 1, _ | .big, 2, _ | .big, 3, _ => rfl

@[simp] theorem halfBytes_length (o : ByteOrder) (h : Half) : (halfBytes o h).length = 2 := by cases o <;> rfl
@[simp] theorem wordBytes_length (o : ByteOrder) (w : Word) : (wordBytes o w).length = 4 := by cases o <;> rfl

/-- What a store of the bytes l at an address leaves, for a load of them too: the bytes, the frame, the next instruction, and a
collaborator that still hits. -/
structure Stored (a : Word) (l : List Byte) (s t : State) : Prop where
  bytes : ∀ n (hn : n < l.length), t.readByte (a + BitVec.ofNat 32 n) = l[n]
  frame : WritesMem a l.length s t
  order : InOrder s t
  quiet : t.quiet = true
  script : s.script = [] → t.script = []

theorem memReq_script_of_nil {u : State} (h : u.script = []) (k : Kind) (a w : Word) : (u.memReq k a w).2.script = [] := by
  unfold State.memReq
  split
  · exact h
  · rw [h]; simp [State.answerHit, h]

/-- A store that is not refused, of a description that gives MEM the effective address and the datum w. -/
theorem store_stores {d : Desc} {rs : Reg} {imm : Imm} {k : Kind} {w : Word} {l : List Byte} (hd : descOf i = d)
    (hid : d.idException = none) (hfp : d.fp = none) (hq : s.quiet = true) (hmem : d.mem = .store k) (hwb : d.wb = .none)
    (hfdst : d.fdst = none) (hcond : d.cond = false) (hctrl : d.ctrl = .seq)
    (hex : d.exStage false (d.idRec s) (d.idState s) =
      ({ d.idRec s with addr := s.effAddr rs imm, result := w }, d.idState s))
    (hmdu : ∀ b f, d.ex ≠ .mdu b f) (hk : k.writes = true) (hr : s.refusal k (s.effAddr rs imm) = none)
    (hl : (s.perform k (s.effAddr rs imm) w).2 = s.writeBytes (s.effAddr rs imm) l) (hn : l.length ≤ 4) :
    Completes i s (Stored (s.effAddr rs imm) l s) := by
  refine (store_completes (hd ▸ exec_eq i s) hid hfp hq hmem hwb hfdst hcond hctrl hex hmdu hk hr hl hn).imp ?_
  rintro t ⟨hbytes, hframe, horder, hscript, hinj⟩
  refine ⟨fun n hlt => ?_, hframe, horder, ?_, fun hs => ?_⟩
  · have hoff : (s.effAddr rs imm + BitVec.ofNat 32 n - s.effAddr rs imm).toNat = n := by bv_omega
    rw [hbytes, hoff, List.getElem?_eq_getElem hlt, Option.getD_some]
  · show t.inj.quiet = true
    rw [hinj]
    simp [State.dataAnswer, idState_quiet hq]
  · rw [hscript]
    exact memReq_script_of_nil (by simp [hs]) _ _ _

theorem storeForm_stores {rt rs : Reg} {imm : Imm} {k : Kind} {l : List Byte} (hd : descOf i = storeForm k rt imm rs)
    (hq : s.quiet = true) (hk : k.writes = true) (hr : s.refusal k (s.effAddr rs imm) = none)
    (hl : (s.perform k (s.effAddr rs imm) (s.readX rt)).2 = s.writeBytes (s.effAddr rs imm) l) (hn : l.length ≤ 4) :
    Completes i s (Stored (s.effAddr rs imm) l s) :=
  store_stores hd rfl rfl hq rfl rfl rfl rfl rfl rfl (fun _ _ => nofun) hk hr hl hn

/-- SWC1 gives MEM the register read as a single (R347). -/
theorem exStage_swc1 (s : State) (ft rs : Reg) (imm : Imm) :
    (descSwc1 ft imm rs).exStage false ((descSwc1 ft imm rs).idRec s) ((descSwc1 ft imm rs).idState s) =
      ({ (descSwc1 ft imm rs).idRec s with addr := s.effAddr rs imm, result := s.readF ft }, (descSwc1 ft imm rs).idState s) := by
  have hlow : ((s.readF ft).zeroExtend 64 : DWord).extractLsb' 0 32 = s.readF ft := by
    ext n hn
    simp [BitVec.getLsbD_eq_getElem, hn]
    omega
  have hfop : ((descSwc1 ft imm rs).idRec s).fop1.extractLsb' 0 32 = s.readF ft := by
    rw [idRec_fop1]; exact hlow
  show (_, _) = _
  rw [hfop]
  rfl

/-- What a store leaves, with its bytes read out of the datum. -/
theorem Stored.extract {a w : Word} {l : List Byte} {n : Nat} (h : Stored a l s t) (hlen : l.length = n)
    (hl : ∀ k, k < n → l[k]? = some (w.extractLsb' (8 * (if s.params.byteOrder = .little then k else n - 1 - k)) 8)) :
    (∀ k, k < n → t.readByte (a + BitVec.ofNat 32 k) =
        w.extractLsb' (8 * (if s.params.byteOrder = .little then k else n - 1 - k)) 8)
      ∧ WritesMem a n s t ∧ InOrder s t := by
  subst hlen
  refine ⟨fun k hk => ?_, h.frame, h.order⟩
  rw [h.bytes k hk]
  exact (List.getElem?_eq_some_iff.mp (hl k hk)).2

/-- Settles O24, by the width of the store. -/
theorem storeResults : Obligations.StoreResults := by
  intro s rt rs imm hq
  simp only [List.forall_mem_cons]
  refine ⟨fun hr _ => ?_, fun hr _ => ?_, fun hr _ => ?_, fun hr _ => ?_, List.forall_mem_nil _⟩
  · refine (storeForm_stores rfl hq rfl hr rfl (by simp)).imp fun t ht => ht.extract rfl fun k hk => ?_
    obtain rfl : k = 0 := by omega
    simp
  · exact (storeForm_stores rfl hq rfl hr rfl (by simp)).imp fun t ht =>
      ht.extract (by simp) fun k hk => halfBytes_getElem? _ _ hk
  · exact (storeForm_stores rfl hq rfl hr rfl (by simp)).imp fun t ht =>
      ht.extract (by simp) fun k hk => wordBytes_getElem? _ _ hk
  · exact (store_stores (i := .swc1 rt imm rs) rfl rfl rfl hq rfl rfl rfl rfl rfl (exStage_swc1 s rt rs imm)
      (fun _ _ => nofun) rfl hr rfl (by simp)).imp fun t ht => ht.extract (by simp) fun k hk => wordBytes_getElem? _ _ hk

/-! ## A load of the bytes just stored -/

/-- Neighbouring parts of a word, written one after the other. -/
theorem extract_append_extract {w lo n m : Nat} (x : BitVec w) :
    x.extractLsb' (lo + m) n ++ x.extractLsb' lo m = x.extractLsb' lo (n + m) := by
  ext k hk
  simp only [BitVec.getElem_append, BitVec.getElem_extractLsb']
  split
  · rfl
  · congr 1; omega

theorem bytesHalf_of_halfBytes {o : ByteOrder} {h : Half} {b0 b1 : Byte} (hl : halfBytes o h = [b0, b1]) :
    bytesHalf o b0 b1 = h := by
  have hjoin : (h.extractLsb' 8 8 ++ h.extractLsb' 0 8 : Half) = h :=
    (extract_append_extract h (lo := 0)).trans BitVec.extractLsb'_eq_self
  cases o with
  | little =>
    simp only [halfBytes, List.cons.injEq, and_true] at hl
    obtain ⟨rfl, rfl⟩ := hl
    exact hjoin
  | big =>
    simp only [halfBytes, List.cons.injEq, and_true] at hl
    obtain ⟨rfl, rfl⟩ := hl
    exact hjoin

theorem bytesWord_of_wordBytes {o : ByteOrder} {w : Word} {b0 b1 b2 b3 : Byte} (hl : wordBytes o w = [b0, b1, b2, b3]) :
    bytesWord o b0 b1 b2 b3 = w := by
  have hjoin : (w.extractLsb' 24 8 ++ w.extractLsb' 16 8 ++ w.extractLsb' 8 8 ++ w.extractLsb' 0 8 : Word) = w := by
    have h3 : w.extractLsb' 24 8 ++ w.extractLsb' 16 8 = w.extractLsb' 16 16 := extract_append_extract w
    have h2 : w.extractLsb' 16 16 ++ w.extractLsb' 8 8 = w.extractLsb' 8 24 := extract_append_extract w
    have h1 : w.extractLsb' 8 24 ++ w.extractLsb' 0 8 = w.extractLsb' 0 32 := extract_append_extract w
    exact (congrArg (fun x => x ++ w.extractLsb' 8 8 ++ w.extractLsb' 0 8) h3).trans
      ((congrArg (fun x => x ++ w.extractLsb' 0 8) h2).trans (h1.trans BitVec.extractLsb'_eq_self))
  cases o with
  | little =>
    simp only [wordBytes, List.cons.injEq, and_true] at hl
    obtain ⟨rfl, rfl, rfl, rfl⟩ := hl
    exact hjoin
  | big =>
    simp only [wordBytes, List.cons.injEq, and_true] at hl
    obtain ⟨rfl, rfl, rfl, rfl⟩ := hl
    exact hjoin

/-- A store leaves the byte order alone. -/
theorem Stored.params {a : Word} {l : List Byte} (h : Stored a l s t) : t.params = s.params := by
  obtain ⟨-, -, -, -, -, -, -, -, hparams, -⟩ := h.frame
  exact hparams

theorem Stored.readHalf {a : Word} {h : Half} (ht : Stored a (halfBytes s.params.byteOrder h) s t) : t.readHalf a = h := by
  have hbytes : halfBytes s.params.byteOrder h = [t.readByte a, t.readByte (a + 1)] := by
    refine List.ext_getElem (by simp) fun n h1 _ => ?_
    rw [← ht.bytes n h1]
    exact (readByte_of_two t a (by simpa using h1)).symm
  rw [State.readHalf, ht.params]
  exact bytesHalf_of_halfBytes hbytes

theorem Stored.readWord {a w : Word} (ht : Stored a (wordBytes s.params.byteOrder w) s t) : t.readWord a = w := by
  have hbytes : wordBytes s.params.byteOrder w =
      [t.readByte a, t.readByte (a + 1), t.readByte (a + 2), t.readByte (a + 3)] := by
    refine List.ext_getElem (by simp) fun n h1 _ => ?_
    rw [← ht.bytes n h1]
    exact (readByte_of_four t a (by simpa using h1)).symm
  rw [State.readWord, ht.params]
  exact bytesWord_of_wordBytes hbytes

theorem refusal_of_script_nil {k : Kind} {a : Word} (hs : s.script = []) (ha : misaligned k a = false) :
    s.refusal k a = none := by
  simp [State.refusal, ha, hs]

/-- A load after a store to its address (R74). -/
theorem load_after_store {k : Kind} {signed : Bool} {rd rb : Reg} {imm : Imm} {a v : Word} {l : List Byte}
    (hstore : Completes i s (Stored a l s)) (hs : s.script = []) (hd : descOf j = loadForm k signed rd imm rb)
    (hk : k.writes = false) (haddr : s.effAddr rb imm = a) (halign : misaligned k a = false)
    (hv : ∀ t, Stored a l s t → extendDatum signed (t.perform k a 0).1 = v) :
    Completes i s fun t => Completes j t fun u => rd ≠ 0 → u.readX rd = v := by
  refine hstore.imp fun t ht => ?_
  obtain ⟨hframe, hx, -⟩ := ht.frame
  have haddr' : t.effAddr rb imm = a := by rw [← haddr, State.effAddr, State.effAddr, hx rb]
  have hload := loadForm_completes hd ht.quiet hk
    (refusal_of_script_nil (ht.script hs) (haddr' ▸ halign)) (by rw [haddr'])
  refine hload.imp fun u hu hrd => ?_
  obtain ⟨⟨hread, -⟩, -⟩ := hu
  rw [hread]
  exact (if_neg hrd).trans (hv t ht)

/-- Settles O28: the load reads the bytes of the store, and assembles them as the store took them apart. -/
theorem storeThenLoad : Obligations.StoreThenLoad := by
  intro s rt rs rd rb imm imm' hq hs haddr
  refine ⟨?_, fun ha => ?_, fun ha => ?_⟩
  · have hstore := storeForm_stores (i := .sb rt imm rs) rfl hq rfl (refusal_of_script_nil hs rfl) rfl (by simp)
    refine load_after_store hstore hs rfl rfl haddr rfl fun t ht => ?_
    have hb := ht.bytes 0 (by simp)
    simp only [BitVec.add_zero, List.getElem_cons_zero] at hb
    exact congrArg (fun b : Byte => (b.zeroExtend 32 : Word)) hb
  · have hstore := storeForm_stores (i := .sh rt imm rs) rfl hq rfl
      (refusal_of_script_nil hs (not_misaligned_half (.inr rfl) ha)) rfl (by simp)
    refine load_after_store hstore hs rfl rfl haddr (not_misaligned_half (.inl rfl) ha) fun t ht => ?_
    exact congrArg (fun h : Half => (h.zeroExtend 32 : Word)) ht.readHalf
  · have hstore := storeForm_stores (i := .sw rt imm rs) rfl hq rfl
      (refusal_of_script_nil hs (not_misaligned_word (.inr (.inr rfl)) ha)) rfl (by simp)
    exact load_after_store hstore hs rfl rfl haddr (not_misaligned_word (.inr (.inl rfl)) ha) fun t ht => ht.readWord

/-! ## Refused accesses -/

theorem loadForm_refused {k : Kind} {signed : Bool} {rt rs : Reg} {imm : Imm} {e : Exc}
    (hd : descOf i = loadForm k signed rt imm rs) (hq : s.quiet = true) (hk : k.writes = false)
    (hr : s.refusal k (s.effAddr rs imm) = some e) :
    Completes i s fun t => Trapped e 0 (s.effAddr rs imm) s t ∧ Resumed s t :=
  refused_traps (d := loadForm k signed rt imm rs) (w := ((loadForm k signed rt imm rs).idRec s).result) (hd ▸ exec_eq i s)
    rfl rfl hq rfl hk rfl (.inl rfl) rfl (fun _ _ => nofun) hr

theorem storeForm_refused {k : Kind} {rt rs : Reg} {imm : Imm} {e : Exc} (hd : descOf i = storeForm k rt imm rs)
    (hq : s.quiet = true) (hk : k.writes = true) (hr : s.refusal k (s.effAddr rs imm) = some e) :
    Completes i s fun t => Trapped e 0 (s.effAddr rs imm) s t ∧ Resumed s t :=
  refused_traps (d := storeForm k rt imm rs) (hd ▸ exec_eq i s) rfl rfl hq rfl hk rfl (.inl rfl) rfl (fun _ _ => nofun) hr

/-- Settles O27; LWC1 gives its destination's flag back, which was true (R441 a). -/
theorem refusedAccessTraps : Obligations.RefusedAccessTraps := by
  intro s rt rs imm e hq
  simp only [List.forall_mem_cons]
  exact ⟨fun hr _ => loadForm_refused rfl hq rfl hr, fun hr _ => loadForm_refused rfl hq rfl hr,
    fun hr _ => loadForm_refused rfl hq rfl hr, fun hr _ => loadForm_refused rfl hq rfl hr,
    fun hr _ => loadForm_refused rfl hq rfl hr, fun hr _ => storeForm_refused rfl hq rfl hr,
    fun hr _ => storeForm_refused rfl hq rfl hr, fun hr _ => storeForm_refused rfl hq rfl hr,
    fun hr hp => refused_traps (exec_eq _ s) rfl rfl hq rfl rfl rfl (.inr ⟨rt, rfl, hp (.inl trivial)⟩) rfl
      (fun _ _ => nofun) hr,
    fun hr _ => refused_traps (exec_eq _ s) rfl rfl hq rfl rfl rfl (.inl rfl) (exStage_swc1 s rt rs imm)
      (fun _ _ => nofun) hr,
    List.forall_mem_nil _⟩

/-! ## A missed load in the cycle engine -/

/-- The stages from MEM back to ID do nothing while MEM is stalled (R80). -/
theorem stages_hold (hslot : s.pipe.memSlot = some r) (hstage : r.stage = .memStall) :
    s.stepMEM = s ∧ s.stepEX = s ∧ s.stepID = s := by
  have hstall : s.memStall = true := memStall_of_stage hslot hstage
  refine ⟨by simp [State.stepMEM, hslot, hstage], ?_, ?_⟩
  · unfold State.stepEX
    split
    · rw [if_pos hstall]
    · rfl
  · unfold State.stepID
    split
    · rw [if_pos hstall]
    · rfl

theorem stepUnstall_of_completed {datum : Datum} (hslot : s.pipe.memSlot = some r) (hstage : r.stage = .memStall)
    (hdone : s.busDone = some (r.busTag, datum)) : s.stepUnstall = s.finishAccess r datum := by
  simp [State.stepUnstall, hslot, hdone, hstage]

/-- The end of the access of an integer load: the datum extended into the record and bypassed, the record moved to WB (R142,
R143). -/
theorem finishAccess_load {k : Kind} {signed : Bool} {rt rs : Reg} {imm : Imm} {datum : Datum} (hq : s.quiet = true)
    (hd : r.desc = loadForm k signed rt imm rs) :
    s.finishAccess r datum =
      ((s.checkFault .memPost 1).2.recordMEM rt (extendDatum signed datum)).toWB
        { r with result := extendDatum signed datum } := by
  have hnone : (s.checkFault .memPost 1).1 = none := checkFault_none hq .memPost 1
  have hc : r.desc.complete datum r s = ({ r with result := extendDatum signed datum }, (s.checkFault .memPost 1).2) := by
    rw [hd]; simp [Desc.complete, loadForm, hnone]
  have hd' : ({ r with result := extendDatum signed datum } : Rec).desc = loadForm k signed rt imm rs := hd
  have hroute : (r.exception.isNone && (loadForm k signed rt imm rs).toEX3) = false := Bool.and_false _
  simp only [State.finishAccess, hc, State.forwardMEM, State.route, hd', hroute]
  rfl

/-- The end of the access of an LWC1: the word into the record, the record moved to the end of EX3 (R142, R143). -/
theorem finishAccess_lwc1 {ft rs : Reg} {imm : Imm} {w : Word} (hd : r.desc = descLwc1 ft imm rs)
    (hexc : r.exception = none) :
    s.finishAccess r (.word w) =
      { s with
        pipe := { s.pipe with
          memSlot := none
          ex3List := s.pipe.ex3List ++ [{ r with stage := .ex3, count := 0, fresult := w.zeroExtend 64 }] } } := by
  have hc : r.desc.complete (.word w) r s = ({ r with fresult := w.zeroExtend 64 }, s) := by rw [hd]; rfl
  have hd' : ({ r with fresult := w.zeroExtend 64 } : Rec).desc = descLwc1 ft imm rs := hd
  have hroute : (r.exception.isNone && (descLwc1 ft imm rs).toEX3) = true := by rw [hexc]; rfl
  simp only [State.finishAccess, hc, State.forwardMEM, State.route, hd', hroute]
  rfl

/-- The WB commit of an integer load in the fault-free machine (R129 b, R144). -/
theorem retireWB_load {k : Kind} {signed : Bool} {rt rs : Reg} {imm : Imm} (hq : s.quiet = true)
    (hd : r.desc = loadForm k signed rt imm rs) (j : Reg) :
    (s.retireWB r).readX j = if j = rt ∧ rt ≠ 0 then r.result else s.readX j := by
  have hnone : (s.checkFault .wb 1).1 = none := checkFault_none hq .wb 1
  have hwb : r.desc.wbStage r s = (s.checkFault .wb 1).2.writeX rt r.result := by
    rw [hd]; simp [Desc.wbStage, loadForm, hnone]
  have hread : (s.retireWB r).readX j = (r.desc.wbStage r s).readX j := readX_congr rfl j
  rw [hread, hwb, readX_writeX]
  rfl

theorem bypMEM_recordMEM (s : State) (i : Reg) (v : Word) :
    (s.recordMEM i v).bypMEM = if i = 0 then s.bypMEM else some (i, v) :=
  apply_ite State.bypMEM (i = 0) s _

/-- What the completion of a missed integer load does, and what its commit writes. -/
theorem missedLoad_completes {k : Kind} {signed : Bool} {rt rs : Reg} {imm : Imm} {datum : Datum} {v : Word}
    (hq : s.quiet = true) (hslot : s.pipe.memSlot = some r) (hstage : r.stage = .memStall)
    (hd : r.desc = loadForm k signed rt imm rs) (hv : extendDatum signed datum = v)
    (hdone : s.busDone = some (r.busTag, datum)) :
    s.stepUnstall.pipe.wbSlot = some { r with stage := .wb, result := v } ∧ s.stepUnstall.pipe.memSlot = none
      ∧ s.stepUnstall.bypMEM = (if rt = 0 then s.bypMEM else some (rt, v)) ∧ SameX s s.stepUnstall
      ∧ (s.stepUnstall.retireWB { r with stage := .wb, result := v }).readX rt = (if rt = 0 then 0 else v)
      ∧ SameXBut rt s (s.stepUnstall.retireWB { r with stage := .wb, result := v })
      ∧ (s.stepUnstall.retireWB { r with stage := .wb, result := v }).pipe.wbSlot = none := by
  rw [stepUnstall_of_completed hslot hstage hdone, finishAccess_load hq hd, hv]
  generalize hu : ((s.checkFault .memPost 1).2.recordMEM rt v).toWB { r with result := v } = u
  have hux : u.x = s.x := by rw [← hu]; simp [State.toWB]
  have huq : u.quiet = true := by
    have hinj : u.inj = (s.checkFault .memPost 1).2.inj := by rw [← hu]; simp [State.toWB]
    rw [State.quiet, hinj]
    exact checkFault_inj_quiet hq .memPost 1
  have hd' : ({ r with stage := .wb, result := v } : Rec).desc = loadForm k signed rt imm rs := hd
  refine ⟨by rw [← hu]; rfl, by rw [← hu]; rfl, ?_, fun j => readX_congr hux j, ?_, fun j hj => ?_, rfl⟩
  · rw [← hu]; exact bypMEM_recordMEM _ rt v
  · rw [retireWB_load huq hd', readX_congr hux]
    by_cases hrt : rt = 0
    · rw [if_neg fun h => h.2 hrt, if_pos hrt, hrt, readX_zero]
    · rw [if_pos ⟨rfl, hrt⟩, if_neg hrt]
  · rw [retireWB_load huq hd', readX_congr hux, if_neg fun h => hj h.1]

/-- Settles O30, by whether the completion is that of the record, and by the form of the load. -/
theorem missedLoadWaits : Obligations.MissedLoadWaits := by
  intro s r rt rs imm b h w hq hslot hstage hexc
  refine ⟨fun hne => ⟨?_, stages_hold hslot hstage⟩, ?_, fun hinst hdone => ?_⟩
  · refine stepUnstall_of_not_completed fun q datum hq _ => ?_
    obtain rfl := Option.some.inj (hslot.symm.trans hq)
    exact hne datum
  · have hdesc : ∀ {j}, r.inst = .instr j → r.desc = descOf j := fun hinst => congrArg descOfDecoded hinst
    simp only [List.forall_mem_cons]
    exact ⟨fun hinst hdone => missedLoad_completes hq hslot hstage (hdesc hinst) rfl hdone,
      fun hinst hdone => missedLoad_completes hq hslot hstage (hdesc hinst) rfl hdone,
      fun hinst hdone => missedLoad_completes hq hslot hstage (hdesc hinst) rfl hdone,
      fun hinst hdone => missedLoad_completes hq hslot hstage (hdesc hinst) rfl hdone,
      fun hinst hdone => missedLoad_completes hq hslot hstage (hdesc hinst) rfl hdone, List.forall_mem_nil _⟩
  · rw [stepUnstall_of_completed hslot hstage hdone, finishAccess_lwc1 (congrArg descOfDecoded hinst) hexc]
    exact ⟨rfl, rfl, fun j => readX_congr rfl j, fun j => ⟨readF_congr rfl j, presentF_congr rfl j⟩⟩

end Sys2Proof.Machine
end

section
/-! SUPPORT. Branches and jumps executed alone: their targets (R283, R284), each form of description as one lemma, the delay slot
after a taken one (R281); SYSCALL, BREAK and the moves of coprocessor 0; then the statements about them. -/

namespace Sys2Proof.Machine

variable {s t u : State} {i : Instr} {d : Desc}

/-! ## Targets -/

/-- The offset of a branch counts instructions: shifted by two it is multiplied by 4 (R283). -/
theorem branchTarget_eq (pc : Word) (imm : Imm) : branchTarget pc imm = pc + 4 + imm.signExtend 32 * 4 := by
  have hshift : (imm.signExtend 32 : Word) <<< 2 = imm.signExtend 32 * 4 := by
    apply BitVec.eq_of_toNat_eq
    simp [Nat.shiftLeft_eq]
  rw [branchTarget, hshift]
  rfl

/-- The next instruction but one of a branch that is taken or not. -/
theorem getD_branchTarget (b : Bool) (pc next : Word) (imm : Imm) :
    (if b = true then some (branchTarget pc imm) else none).getD next =
      if b then pc + 4 + imm.signExtend 32 * 4 else next := by
  cases b
  · rfl
  · exact branchTarget_eq pc imm

/-! ## Branches and jumps by form -/

/-- A conditional branch on integer registers, or on none. -/
def condBranch (o1 o2 : Option Reg) (taken : Word → Word → Bool) (imm : Imm) : Desc :=
  { op1 := o1, op2 := o2, ctrl := .branch taken imm }

theorem condBranch_completes {o1 o2 : Option Reg} {taken : Word → Word → Bool} {imm : Imm} {b : Bool}
    (hd : descOf i = condBranch o1 o2 taken imm) (hq : s.quiet = true)
    (hb : taken ((o1.map s.readX).getD 0) ((o2.map s.readX).getD 0) = b) :
    Completes i s fun t => WritesNothing s t
      ∧ Branched (if b then s.fpc + 4 + imm.signExtend 32 * 4 else s.fnpc + 4) s t := by
  refine branch_completes (d := condBranch o1 o2 taken imm) (hd ▸ exec_eq i s) rfl rfl hq rfl rfl rfl rfl rfl rfl ?_
  rw [← getD_branchTarget]
  subst hb
  simp [condBranch, Ctrl.target]

/-- BC1T and BC1F, by the value of `FpCond` on which they are taken (R352, R353). -/
theorem fpBranch_completes {sense : Bool} {imm : Imm} (hd : descOf i = { ctrl := .fpBranch sense imm })
    (hq : s.quiet = true) :
    Completes i s fun t => WritesNothing s t
      ∧ Branched (if s.fpCond == sense then s.fpc + 4 + imm.signExtend 32 * 4 else s.fnpc + 4) s t := by
  refine branch_completes (d := { ctrl := .fpBranch sense imm }) (hd ▸ exec_eq i s) rfl rfl hq rfl rfl rfl rfl rfl rfl ?_
  rw [← getD_branchTarget]
  simp [Ctrl.target]

theorem linkBranch_completes {taken : Word → Bool} {rs : Reg} {imm : Imm} {b : Bool}
    (hd : descOf i = { zeroBranch taken rs imm with link := true, wb := .gpr 31 }) (hq : s.quiet = true)
    (hb : taken (s.readX rs) = b) :
    Completes i s fun t => WritesX 31 (s.fpc + 8) s t
      ∧ Branched (if b then s.fpc + 4 + imm.signExtend 32 * 4 else s.fnpc + 4) s t := by
  refine link_completes (d := { zeroBranch taken rs imm with link := true, wb := .gpr 31 }) (hd ▸ exec_eq i s) rfl rfl hq
    rfl rfl rfl rfl rfl rfl rfl ?_
  rw [← getD_branchTarget]
  subst hb
  simp [zeroBranch, Ctrl.target]

/-- Settles O31: each condition on the registers read, or on `FpCond`. -/
theorem conditionalBranches : Obligations.ConditionalBranches := by
  intro s rs rt imm hq
  simp only [List.forall_mem_cons]
  refine ⟨fun _ => condBranch_completes rfl hq rfl, fun _ => condBranch_completes rfl hq ?_,
    fun _ => condBranch_completes rfl hq rfl, fun _ => condBranch_completes rfl hq rfl,
    fun _ => condBranch_completes rfl hq rfl, fun _ => condBranch_completes rfl hq rfl,
    fun _ => ?_, fun _ => ?_, List.forall_mem_nil _⟩
  · exact (decide_not (p := s.readX rs = s.readX rt)).symm
  · simpa using fpBranch_completes (i := .bc1t imm) rfl hq
  · simpa using fpBranch_completes (i := .bc1f imm) rfl hq

/-- Settles O32. -/
theorem linkingBranches : Obligations.LinkingBranches := by
  intro s rs imm hq
  simp only [List.forall_mem_cons]
  exact ⟨linkBranch_completes rfl hq rfl, linkBranch_completes rfl hq rfl, List.forall_mem_nil _⟩

/-- Settles O33: the target is known whatever the registers are. -/
theorem jumps : Obligations.Jumps := fun s _ _ _ hq =>
  ⟨branch_completes (exec_eq _ s) rfl rfl hq rfl rfl rfl rfl rfl rfl rfl,
    link_completes (exec_eq _ s) rfl rfl hq rfl rfl rfl rfl rfl rfl rfl rfl,
    branch_completes (exec_eq _ s) rfl rfl hq rfl rfl rfl rfl rfl rfl rfl,
    link_completes (exec_eq _ s) rfl rfl hq rfl rfl rfl rfl rfl rfl rfl rfl⟩

/-! ## The delay slot -/

/-- A branch or jump schedules no fault. -/
theorem transit_control_quiet (hid : d.idException = none) (hfp : d.fp = none) (hq : s.quiet = true) (hex : d.ex = .idle)
    (hmem : d.mem = .pass) (hwb : d.wb = .none ∨ ∃ dst, d.wb = .gpr dst) : (transit d s).quiet = true := by
  have hid' := idState_quiet (d := d) hq
  rw [transit_int hid hfp hq]
  rcases hwb with hwb | ⟨dst, hwb⟩
  · rw [finish_idle hex hmem hwb (by simp)]
    exact hid'
  · rw [finish_move (v := (d.idRec s).result) (by rw [Desc.exStage, hex]) (by simp [hex]) hmem hwb (by simp) hid']
    simp [State.quiet, hid']

/-- What the instruction in the delay slot finds after a branch or jump to `target`, and what follows it (R281). -/
def SlotThenTarget (target : Word) (rt ra rb : Reg) (s t : State) : Prop :=
  t.fpc = s.fnpc ∧ t.bdFlag = true
    ∧ (∀ (i : Instr) (u : State), exec i t = .next u → InOrder t u →
        u.fpc = target ∧ u.fnpc = target + 4 ∧ u.bdFlag = false)
    ∧ Completes (.addu rt ra rb) t fun u =>
        u.fpc = target ∧ u.fnpc = target + 4 ∧ u.bdFlag = false
        ∧ u.readX rt = (if rt = 0 then 0 else t.readX ra + t.readX rb)

theorem Branched.slotThenTarget {target : Word} (h : Branched target s t) (hq : t.quiet = true) (rt ra rb : Reg) :
    SlotThenTarget target rt ra rb s t := by
  obtain ⟨hfpc, hfnpc, hbd, -⟩ := h
  have hnext : ∀ u, InOrder t u → u.fpc = target ∧ u.fnpc = target + 4 ∧ u.bdFlag = false := by
    rintro u ⟨hfpc', hfnpc', hbd', -⟩
    rw [hfpc', hfnpc', hfnpc]
    exact ⟨rfl, rfl, hbd'⟩
  refine ⟨hfpc, hbd, fun _ u _ horder => hnext u horder, ?_⟩
  refine (threeReg_completes (i := .addu rt ra rb) rfl hq rfl).imp ?_
  rintro u ⟨⟨hread, -⟩, horder⟩
  obtain ⟨h1, h2, h3⟩ := hnext u horder
  exact ⟨h1, h2, h3, hread⟩

/-- A branch or jump that completes leads to its delay slot, then to its target. -/
theorem control_slot {target : Word} {P : State → Prop} (hc : Completes i s fun t => P t ∧ Branched target s t)
    (hid : (descOf i).idException = none) (hfp : (descOf i).fp = none) (hq : s.quiet = true) (hex : (descOf i).ex = .idle)
    (hmem : (descOf i).mem = .pass) (hwb : (descOf i).wb = .none ∨ ∃ dst, (descOf i).wb = .gpr dst) (rt ra rb : Reg) :
    Completes i s (SlotThenTarget target rt ra rb s) := by
  obtain ⟨t, hexec, -, hbranched⟩ := hc
  have ht : transit (descOf i) s = t := Host.Outcome.next.inj ((exec_eq i s).symm.trans hexec)
  exact ⟨t, hexec, hbranched.slotThenTarget (ht ▸ transit_control_quiet hid hfp hq hex hmem hwb) rt ra rb⟩

theorem condBranch_slot {o1 o2 : Option Reg} {taken : Word → Word → Bool} {imm : Imm}
    (hd : descOf i = condBranch o1 o2 taken imm) (hq : s.quiet = true)
    (hb : taken ((o1.map s.readX).getD 0) ((o2.map s.readX).getD 0) = true) (rt ra rb : Reg) :
    Completes i s (SlotThenTarget (s.fpc + 4 + imm.signExtend 32 * 4) rt ra rb s) :=
  control_slot (condBranch_completes hd hq hb) (hd ▸ rfl) (hd ▸ rfl) hq (hd ▸ rfl) (hd ▸ rfl) (hd ▸ .inl rfl) rt ra rb

theorem fpBranch_slot {sense : Bool} {imm : Imm} (hd : descOf i = { ctrl := .fpBranch sense imm }) (hq : s.quiet = true)
    (hb : s.fpCond = sense) (rt ra rb : Reg) :
    Completes i s (SlotThenTarget (s.fpc + 4 + imm.signExtend 32 * 4) rt ra rb s) := by
  have hc := fpBranch_completes hd hq
  rw [if_pos (beq_iff_eq.mpr hb)] at hc
  exact control_slot hc (hd ▸ rfl) (hd ▸ rfl) hq (hd ▸ rfl) (hd ▸ rfl) (hd ▸ .inl rfl) rt ra rb

theorem linkBranch_slot {taken : Word → Bool} {rs : Reg} {imm : Imm}
    (hd : descOf i = { zeroBranch taken rs imm with link := true, wb := .gpr 31 }) (hq : s.quiet = true)
    (hb : taken (s.readX rs) = true) (rt ra rb : Reg) :
    Completes i s (SlotThenTarget (s.fpc + 4 + imm.signExtend 32 * 4) rt ra rb s) :=
  control_slot (linkBranch_completes hd hq hb) (hd ▸ rfl) (hd ▸ rfl) hq (hd ▸ rfl) (hd ▸ rfl)
    (hd ▸ .inr ⟨31, rfl⟩) rt ra rb

/-- Settles O34, by the form of the branch or jump. -/
theorem delaySlotThenTarget : Obligations.DelaySlotThenTarget := by
  intro s rs rt rd ra rb imm target hq
  obtain ⟨hj, hjal, hjr, hjalr⟩ := jumps s rd rs target hq
  simp only [List.forall_mem_cons, Bool.and_eq_true, Bool.not_eq_true']
  refine ⟨fun h => condBranch_slot rfl hq h rt ra rb, fun h => condBranch_slot rfl hq ?_ rt ra rb,
    fun h => condBranch_slot rfl hq h rt ra rb, fun h => condBranch_slot rfl hq h rt ra rb,
    fun h => condBranch_slot rfl hq h rt ra rb, fun h => condBranch_slot rfl hq h rt ra rb,
    fun h => linkBranch_slot rfl hq h rt ra rb, fun h => linkBranch_slot rfl hq h rt ra rb,
    fun ⟨_, h⟩ => fpBranch_slot rfl hq h rt ra rb, fun ⟨_, h⟩ => fpBranch_slot rfl hq h rt ra rb,
    fun _ => control_slot hj rfl rfl hq rfl rfl (.inl rfl) rt ra rb,
    fun _ => control_slot hjal rfl rfl hq rfl rfl (.inr ⟨31, rfl⟩) rt ra rb,
    fun _ => control_slot hjr rfl rfl hq rfl rfl (.inl rfl) rt ra rb,
    fun _ => control_slot hjalr rfl rfl hq rfl rfl (.inr ⟨rd, rfl⟩) rt ra rb, List.forall_mem_nil _⟩
  exact (decide_not (p := s.readX rs = s.readX rt)).symm.trans h

/-! ## System instructions -/

theorem AgreesP.refl (s : State) : AgreesP s s :=
  ⟨⟨rfl, rfl, rfl, rfl, rfl, rfl, rfl, rfl, rfl, rfl, rfl, rfl, rfl, rfl, rfl, rfl⟩, rfl, rfl⟩

/-- An instruction whose description raises in ID traps, executed alone. -/
theorem raise_completes {e : Exc} (hid : (descOf i).idException = some e) (haddr : savesAddress e = false) :
    Completes i s fun t => Trapped e (descOf i).ce 0 s t ∧ Resumed s t :=
  ⟨_, exec_eq i s, transit_raises (AgreesP.refl s) rfl rfl hid haddr⟩

/-- Settles O47. -/
theorem syscallBreakTrap : Obligations.SyscallBreakTrap := fun _ _ =>
  ⟨raise_completes rfl rfl, raise_completes rfl rfl⟩

/-- MFC0 executed alone; `mfc0Read` draws a free value for Random only (R384). -/
theorem mfc0_completes {rt rd : Reg} {v : Word} (hq : s.quiet = true)
    (hv : ∀ u : State, u.c0 = s.c0 → u.draws = s.draws →
      (u.mfc0Read rd).1 = v ∧ ((u.mfc0Read rd).2 = u ∨ (u.mfc0Read rd).2 = u.drawn)) :
    Completes (.mfc0 rt rd) s fun t => WritesX rt v s t ∧ InOrder s t := by
  refine ⟨_, exec_eq _ s, ?_⟩
  have hag : AgreesP s ((descMfc0 rt rd).idState s) := idState_agreesP hq rfl rfl
  have horder : InOrder s ((descMfc0 rt rd).idState s) := inOrder_idState hq rfl
  obtain ⟨hread, hstate⟩ := hv ((descMfc0 rt rd).idState s) hag.c0 idState_draws
  have hag' : AgreesP s (((descMfc0 rt rd).idState s).mfc0Read rd).2 ∧
      InOrder s (((descMfc0 rt rd).idState s).mfc0Read rd).2 := by
    rcases hstate with h | h
    · rw [h]; exact ⟨hag, horder⟩
    · rw [h]; exact ⟨hag.drawn, horder⟩
  show WritesX rt v s (transit (descMfc0 rt rd) s) ∧ InOrder s (transit (descMfc0 rt rd) s)
  rw [transit_int rfl rfl hq, finish_mfc0 (rd := rd) rfl rfl rfl (by simp) (idState_quiet hq), hread]
  exact ⟨writesX_of (hag'.1.checkFault _ _) rt v, hag'.2.writeX rt v⟩

theorem AgreesP.writesC0 (h : AgreesP s u) (j : Reg) (v : Word) : WritesC0 j v s (u.writeC0 j v) := by
  refine ⟨by simp [readC0_writeC0], fun k hk => ?_, fun k => readX_congr h.x k,
    fun k => ⟨readF_congr h.f k, presentF_congr h.fPresent k⟩, h.sameHiLo, h.sameCond, fun a => readByte_congr h.mem a,
    h.sameMachine⟩
  rw [readC0_writeC0, if_neg hk]
  exact readC0_congr h.c0 k

/-- Settles O48: a stored register, Random, and the move to coprocessor 0. -/
theorem coprocessorMoves : Obligations.CoprocessorMoves := by
  intro s rt rd hq
  refine ⟨fun hrd => mfc0_completes hq fun u hc0 _ => ?_, mfc0_completes hq fun u _ hdraws => ?_, ?_⟩
  · have hread : u.mfc0Read rd = (u.readC0 rd, u) := if_neg hrd
    rw [hread]
    exact ⟨readC0_congr hc0 rd, .inl rfl⟩
  · have hread : u.mfc0Read 1 = (Config.randomRead u.draws, u.drawn) := if_pos rfl
    rw [hread, hdraws]
    exact ⟨rfl, .inr rfl⟩
  · have hop : ((descMtc0 rt rd).idRec s).op2 = s.readX rt := by rw [idRec_op2]; rfl
    refine ⟨_, exec_eq _ s, ?_⟩
    show WritesC0 rd (s.readX rt) s (transit (descMtc0 rt rd) s) ∧ InOrder s (transit (descMtc0 rt rd) s)
    rw [transit_int rfl rfl hq, finish_mtc0 (dst := rd) rfl rfl rfl (by simp), hop]
    exact ⟨(idState_agreesP hq rfl rfl).writesC0 rd _, inOrder_idState (d := descMtc0 rt rd) hq rfl⟩

end Sys2Proof.Machine
end

section
/-! SUPPORT. The cycle engine, one step at a time: what the description of an instruction writes (R145, R303) and raises in ID
(R304, R432), the stall of ID (R136, R189), the forwarding of EX (R135, R171), the countdown of EX3 (R130), the drain of FWB
(R128), and a cycle that ends in an exception (R129, R437); then the statements about them. -/

namespace Sys2Proof.Machine

variable {s u : State} {i : Instr} {d : Desc} {r : Rec}

/-! ## The tables -/

theorem fsrc_descOf (i : Instr) :
    ((descOf i).fop1.map FOpnd.regs).getD [] ++ ((descOf i).fop2.map FOpnd.regs).getD [] = i.fsrc := by cases i <;> rfl

theorem fdst_descOf (i : Instr) : ((descOf i).fdst.map FOpnd.regs).getD [] = i.fdst := claim_regs_descOf i

/-- The integer destination of a description, and whether MEM produces its value (R145). -/
def Desc.intDest (d : Desc) : Option (Reg × Bool) :=
  match d.wb, d.mem with
  | .gpr rd, .pass => some (rd, false)
  | .gpr rd, _ => some (rd, true)
  | _, _ => none

theorem intDest_descOf (i : Instr) : (descOf i).intDest = i.intDest := by cases i <;> rfl

theorem intDest_eq_some_false_iff {rd : Reg} : d.intDest = some (rd, false) ↔ d.wb = .gpr rd ∧ d.mem = .pass := by
  unfold Desc.intDest
  split <;> simp_all

theorem wb_eq_gpr_iff {rd : Reg} : d.wb = .gpr rd ↔ d.intDest = some (rd, true) ∨ d.intDest = some (rd, false) := by
  unfold Desc.intDest
  split <;> simp_all

/-- Settles O54, one column of the tables at a time. -/
theorem descriptionsMatchTables : Obligations.DescriptionsMatchTables := fun i =>
  ⟨fun _ => readsX_descOf_iff, fun _ => by rw [fsrc_descOf], fun _ => by rw [fregs_descOf, List.mem_append], fdst_descOf i,
    class_descOf i, cond_descOf i, fun _ => by rw [wb_eq_gpr_iff, intDest_descOf],
    fun _ => by rw [← intDest_descOf, intDest_eq_some_false_iff], fun _ => lateDest_descOf_eq_some_iff⟩

/-! ## What ID raises -/

/-- The register a floating operand names as a double. -/
def FOpnd.doubles : FOpnd → List Reg
  | .single _ => []
  | .double r => [r]

/-- The registers a description names as doubles, the destination first. -/
def Desc.doubles (d : Desc) : List Reg :=
  (d.fdst.map FOpnd.doubles).getD [] ++ ((d.fop1.map FOpnd.doubles).getD [] ++ (d.fop2.map FOpnd.doubles).getD [])

theorem doubles_descOf (i : Instr) : (descOf i).doubles = i.doubleFields := by cases i <;> rfl

theorem odd_eq_any (o : Option FOpnd) :
    (o.map FOpnd.odd).getD false = ((o.map FOpnd.doubles).getD []).any (·.getLsbD 0) := by
  rcases o with _ | (r | r) <;> simp [FOpnd.odd, FOpnd.doubles]

theorem oddDouble_eq_any (d : Desc) : d.oddDouble = d.doubles.any (·.getLsbD 0) := by
  simp only [Desc.oddDouble, Desc.doubles, odd_eq_any, List.any_append]
  rw [Bool.or_comm]

/-- An instruction is well-formed when its description names no odd register as a double (R304). -/
theorem oddDouble_descOf (i : Instr) : (descOf i).oddDouble = !i.wellFormed := by
  rw [oddDouble_eq_any, doubles_descOf, Instr.wellFormed, List.not_all_eq_any_not]
  congr 1
  funext r
  cases r.getLsbD 0 <;> rfl

/-- SYSCALL and BREAK alone raise whatever the operands. -/
theorem idExc_descOf (h1 : ∀ code, i ≠ .syscall code) (h2 : ∀ code, i ≠ .brk code) : (descOf i).idExc = none := by
  cases i with
  | syscall code => exact absurd rfl (h1 code)
  | brk code => exact absurd rfl (h2 code)
  | _ => rfl

theorem idException_of_wellFormed (hwf : i.wellFormed = true) (h1 : ∀ code, i ≠ .syscall code)
    (h2 : ∀ code, i ≠ .brk code) : (descOf i).idException = none := by
  simp [Desc.idException, idExc_descOf h1 h2, oddDouble_descOf, hwf]

theorem idException_of_illFormed (hwf : i.wellFormed = false) : (descOf i).idException = some .ri := by
  have hexc : (descOf i).idExc = none := idExc_descOf (by rintro code rfl; nomatch hwf) (by rintro code rfl; nomatch hwf)
  simp [Desc.idException, hexc, oddDouble_descOf, hwf]

theorem ce_descOf (i : Instr) : (descOf i).ce = 0 := by cases i <;> rfl

/-- Step 12 with a record that no fetch exception tags, MEM not stalled. -/
theorem stepID_of_idSlot (hslot : s.pipe.idSlot = some r) (hexc : r.exception = none) (hstall : s.memStall = false) :
    s.stepID = s.decodeID r := by
  simp [State.stepID, hslot, hexc, hstall]

/-- Settles O40: the exception of ID comes before any check. -/
theorem oddDoubleTraps : Obligations.OddDoubleTraps := by
  intro s i hwf
  have hid := idException_of_illFormed hwf
  refine ⟨?_, fun r hslot hinst hexc hstall => ?_⟩
  · have htrap := raise_completes (s := s) hid rfl
    rwa [ce_descOf] at htrap
  · have hdesc : r.desc = descOf i := congrArg descOfDecoded hinst
    rw [stepID_of_idSlot hslot hexc hstall]
    simp only [State.decodeID, hdesc, hid, ce_descOf]
    rfl

/-! ## The stall of ID -/

/-- While ID stalls step 13 and 14 promote nothing (R189). -/
theorem promoteOrStay_of_idStall (h : s.idStall = true) (r : Rec) :
    s.promoteOrStay r = { s with pipe := { s.pipe with ifSlot := some r } } := by
  simp [State.promoteOrStay, h]

theorem stepIF_of_idStall (h : s.idStall = true) :
    s.stepIF.pipe.idSlot = s.pipe.idSlot ∧ s.stepIF.fpc = s.fpc ∧ s.stepIF.fnpc = s.fnpc ∧ s.stepIF.bdFlag = s.bdFlag := by
  unfold State.stepIF
  split
  next r _ =>
    split
    · dsimp only
      split
      · rw [promoteOrStay_of_idStall h]; exact ⟨rfl, rfl, rfl, rfl⟩
      · exact ⟨rfl, rfl, rfl, rfl⟩
    · have h' : (s.memReq .ifetch r.pc 0).2.idStall = true := by simpa using h
      unfold State.fetchIF
      dsimp only
      split
      · rw [promoteOrStay_of_idStall h']; simp
      · split
        · rw [promoteOrStay_of_idStall h']; simp
        · simp
  next => exact ⟨rfl, rfl, rfl, rfl⟩

/-- Settles O56. -/
theorem stallHoldsIdAndIf : Obligations.StallHoldsIdAndIf := by
  intro s r i hslot hinst hexc hwf hsys hbrk hstall hhazard
  have hdesc : r.desc = descOf i := congrArg descOfDecoded hinst
  have hid : s.stepID = { s with idStall := true } := by
    rw [stepID_of_idSlot hslot hexc hstall]
    simp [State.decodeID, hdesc, idException_of_wellFormed hwf hsys hbrk, hhazard]
  obtain ⟨hidSlot, hfpc, hfnpc, hbd⟩ := stepIF_of_idStall (s := { s with idStall := true }) rfl
  rw [hid]
  exact ⟨rfl, hidSlot.trans hslot, hfpc, hfnpc, hbd⟩

/-! ## The forwarding of EX -/

theorem bypEX_recordEX (s : State) (i : Reg) (v : Word) :
    (s.recordEX i v).bypEX = if i = 0 then s.bypEX else some (i, v) :=
  apply_ite State.bypEX (i = 0) s _

/-- Step 11 of a record whose integer result EX knows: the result into the record and into `bypEX`, the record to MEM. -/
theorem stepEX_forwards {rd : Reg} {v : Word} (hslot : s.pipe.exSlot = some r) (hexc : r.exception = none)
    (hstall : s.memStall = false) (hd : r.desc = d) (hmem : d.mem = .pass) (hwb : d.wb = .gpr rd)
    (hex : d.exStage s.squash r s = ({ r with result := v }, u)) (hbyp : u.bypEX = s.bypEX) :
    s.stepEX.pipe.memSlot = some { r with stage := .mem, result := v } ∧ s.stepEX.pipe.exSlot = none
      ∧ s.stepEX.bypEX = (if rd = 0 then s.bypEX else some (rd, v)) := by
  have hd' : ({ r with result := v } : Rec).desc = d := hd
  have hforward : u.forwardEX { r with result := v } = u.recordEX rd v := by
    unfold State.forwardEX
    rw [hd', hmem, hwb, show ({ r with result := v } : Rec).exception = none from hexc]
  rw [stepEX_of_exSlot hslot hexc hstall, hd, hex, hforward]
  exact ⟨rfl, rfl, (bypEX_recordEX u rd v).trans (by rw [hbyp])⟩

/-- An ALU instruction with a value, in the fault-free machine. -/
theorem stepEX_alu {f : Word → Word → Option Word} {rd : Reg} {v : Word} (hq : s.quiet = true)
    (hslot : s.pipe.exSlot = some r) (hexc : r.exception = none) (hstall : s.memStall = false)
    (hd : r.desc = d) (hex : d.ex = .alu f) (hmem : d.mem = .pass) (hwb : d.wb = .gpr rd) (hv : f r.op1 r.op2 = some v) :
    s.stepEX.pipe.memSlot = some { r with stage := .mem, result := v } ∧ s.stepEX.pipe.exSlot = none
      ∧ s.stepEX.bypEX = (if rd = 0 then s.bypEX else some (rd, v)) := by
  have hnone : (s.checkFault .alu 1).1 = none := checkFault_none hq .alu 1
  refine stepEX_forwards (u := (s.checkFault .alu 1).2) hslot hexc hstall hd hmem hwb ?_ rfl
  simp [Desc.exStage, hex, aluResult, hv, hnone]

/-- An overflow tags the record and forwards nothing (R135 c, R202). -/
theorem stepEX_overflows {f : Word → Word → Option Word} (hslot : s.pipe.exSlot = some r) (hexc : r.exception = none)
    (hstall : s.memStall = false) (hd : r.desc = d) (hex : d.ex = .alu f) (hv : f r.op1 r.op2 = none) :
    s.stepEX.bypEX = s.bypEX
      ∧ ∃ q, s.stepEX.pipe.memSlot = some q ∧ q.exception = some .ov ∧ q.pc = r.pc ∧ q.inDelaySlot = r.inDelaySlot := by
  have hres : r.desc.exStage s.squash r s =
      ({ r with exception := some .ov, result := Config.overflowResult s.draws }, s.drawn) := by
    simp [hd, Desc.exStage, hex, aluResult, hv]
  rw [stepEX_of_exSlot hslot hexc hstall, hres]
  exact ⟨rfl, _, rfl, rfl, rfl, rfl⟩

/-- Settles O57, by how the result comes to be known: computed in EX, moved from an operand, or known in ID (the links). -/
theorem exForwards : Obligations.ExForwards := by
  intro s r rd rs rt shamt imm target hstall hslot hexc
  have hdesc : ∀ {j}, r.inst = .instr j → r.desc = descOf j := fun h => congrArg descOfDecoded h
  refine ⟨?_, ?_⟩
  · simp only [List.forall_mem_cons, ← extract_lowFive, ← boolWord_decide, ← toInt_signExtend_imm]
    refine ⟨fun h hq => stepEX_alu hq hslot hexc hstall (hdesc h) rfl rfl rfl rfl,
      fun h hq => stepEX_alu hq hslot hexc hstall (hdesc h) rfl rfl rfl rfl,
      fun h hq => stepEX_alu hq hslot hexc hstall (hdesc h) rfl rfl rfl rfl,
      fun h hq => stepEX_alu hq hslot hexc hstall (hdesc h) rfl rfl rfl rfl,
      fun h hq => stepEX_alu hq hslot hexc hstall (hdesc h) rfl rfl rfl rfl,
      fun h hq => stepEX_alu hq hslot hexc hstall (hdesc h) rfl rfl rfl rfl,
      fun h hq => stepEX_alu hq hslot hexc hstall (hdesc h) rfl rfl rfl rfl,
      fun h hq => stepEX_alu hq hslot hexc hstall (hdesc h) rfl rfl rfl rfl,
      fun h hq => stepEX_alu hq hslot hexc hstall (hdesc h) rfl rfl rfl rfl,
      fun h hq => stepEX_alu hq hslot hexc hstall (hdesc h) rfl rfl rfl rfl,
      fun h hq => stepEX_alu hq hslot hexc hstall (hdesc h) rfl rfl rfl rfl,
      fun h hq => stepEX_alu hq hslot hexc hstall (hdesc h) rfl rfl rfl rfl,
      fun h hq => stepEX_alu hq hslot hexc hstall (hdesc h) rfl rfl rfl rfl,
      fun h hq => stepEX_alu hq hslot hexc hstall (hdesc h) rfl rfl rfl rfl,
      fun h hq => stepEX_alu hq hslot hexc hstall (hdesc h) rfl rfl rfl rfl,
      fun h hq => stepEX_alu hq hslot hexc hstall (hdesc h) rfl rfl rfl rfl,
      fun h hq => stepEX_alu hq hslot hexc hstall (hdesc h) rfl rfl rfl rfl,
      fun h hq => stepEX_alu hq hslot hexc hstall (hdesc h) rfl rfl rfl rfl,
      fun h hq => stepEX_alu hq hslot hexc hstall (hdesc h) rfl rfl rfl rfl,
      fun h hq => stepEX_alu hq hslot hexc hstall (hdesc h) rfl rfl rfl rfl,
      fun h hq => stepEX_alu hq hslot hexc hstall (hdesc h) rfl rfl rfl rfl, ?moves⟩
    case moves =>
      exact ⟨fun h _ => stepEX_forwards hslot hexc hstall (hdesc h) rfl rfl rfl rfl,
        fun h _ => stepEX_forwards hslot hexc hstall (hdesc h) rfl rfl rfl rfl,
        fun h _ => stepEX_forwards hslot hexc hstall (hdesc h) rfl rfl rfl rfl,
        fun h _ => stepEX_forwards hslot hexc hstall (hdesc h) rfl rfl rfl rfl,
        fun h _ => stepEX_forwards hslot hexc hstall (hdesc h) rfl rfl rfl rfl,
        fun h _ => stepEX_forwards hslot hexc hstall (hdesc h) rfl rfl rfl rfl,
        fun h _ => stepEX_forwards hslot hexc hstall (hdesc h) rfl rfl rfl rfl, List.forall_mem_nil _⟩
  · simp only [List.forall_mem_cons, ← toInt_signExtend_imm]
    exact ⟨fun h => ⟨fun h1 h2 hq => stepEX_alu hq hslot hexc hstall (hdesc h) rfl rfl rfl (narrowSigned_of_fits h1 h2),
        fun hv => stepEX_overflows hslot hexc hstall (hdesc h) rfl (narrowSigned_of_overflow hv)⟩,
      fun h => ⟨fun h1 h2 hq => stepEX_alu hq hslot hexc hstall (hdesc h) rfl rfl rfl (narrowSigned_of_fits h1 h2),
        fun hv => stepEX_overflows hslot hexc hstall (hdesc h) rfl (narrowSigned_of_overflow hv)⟩,
      fun h => ⟨fun h1 h2 hq => stepEX_alu hq hslot hexc hstall (hdesc h) rfl rfl rfl (narrowSigned_of_fits h1 h2),
        fun hv => stepEX_overflows hslot hexc hstall (hdesc h) rfl (narrowSigned_of_overflow hv)⟩,
      List.forall_mem_nil _⟩

/-! ## The countdown of EX3 -/

theorem mem_ex3List_stepEX3 (h : r ∈ s.pipe.ex3List) (hcount : r.count ≠ 0) : lowerCount r ∈ s.stepEX3.pipe.ex3List :=
  List.mem_map_of_mem (List.mem_filter.mpr ⟨h, by simpa using hcount⟩)

theorem mem_fwbList_stepEX3 (h : r ∈ s.pipe.ex3List) (hcount : r.count = 0) :
    { r with stage := .fwb } ∈ s.stepEX3.pipe.fwbList :=
  List.mem_append_right _ (List.mem_map_of_mem (f := fun e : Rec => { e with stage := .fwb })
    (List.mem_filter.mpr ⟨h, by simpa using hcount⟩))

/-- k executions of step 6 lower the count by k, as long as it does not run out. -/
theorem mem_ex3List_repeat (h : r ∈ s.pipe.ex3List) {k : Nat} (hk : k ≤ r.count) :
    { r with count := r.count - k } ∈ (Nat.repeat State.stepEX3 k s).pipe.ex3List := by
  induction k with
  | zero => exact h
  | succ k ih => exact mem_ex3List_stepEX3 (ih (by omega)) (show r.count - k ≠ 0 by omega)

/-- Settles O45, by induction on the executions of step 6. -/
theorem ex3Countdown : Obligations.Ex3Countdown := by
  rintro s r _ hr rfl
  refine ⟨fun k hk => mem_ex3List_repeat hr hk, ?_⟩
  have hlast := mem_ex3List_repeat hr (Nat.le_refl r.count)
  rw [Nat.sub_self] at hlast
  exact mem_fwbList_stepEX3 hlast rfl

/-! ## The drain of FWB -/

/-- The floating registers after the commit of FWB, by the destination (R128). -/
theorem readF_fwbCommit_of_not_mem {j : Reg} (h : j ∉ (d.fdst.map FOpnd.regs).getD []) (r : Rec) :
    (d.fwbCommit r s).readF j = s.readF j := by
  unfold Desc.fwbCommit
  cases hd : d.fdst with
  | none => cases d.cond <;> rfl
  | some o =>
    have hj : j ∉ o.regs := by simpa [hd] using h
    have hwrite := readF_writeFOpnd s o r.fresult j hj
    cases d.cond
    · exact (readF_congr (by simp) j).trans hwrite
    · exact (readF_congr (by simp) j).trans hwrite

theorem presentF_fwbCommit (d : Desc) (r : Rec) (s : State) (j : Reg) :
    (d.fwbCommit r s).presentF j = if j ∈ (d.fdst.map FOpnd.regs).getD [] then true else s.presentF j := by
  unfold Desc.fwbCommit
  cases hd : d.fdst with
  | none => cases d.cond <;> rfl
  | some o =>
    have hpres : (s.writeFOpnd o r.fresult).presentF j = s.presentF j := presentF_congr (by simp) j
    have hset := presentF_setPresentFOpnd (s.writeFOpnd o r.fresult) o true j
    rw [hpres] at hset
    cases d.cond <;> exact hset

theorem readF_fwbCommit {o : FOpnd} (hd : d.fdst = some o) (r : Rec) (j : Reg) :
    (d.fwbCommit r s).readF j = (s.writeFOpnd o r.fresult).readF j := by
  unfold Desc.fwbCommit
  rw [hd]
  cases d.cond <;> exact readF_congr (by simp) j

theorem eq_single_of_regs {o : FOpnd} {r : Reg} (h : o.regs = [r]) : o = .single r := by
  cases o <;> simp_all [FOpnd.regs]

theorem eq_double_of_regs {o : FOpnd} {r : Reg} (h : o.regs = [r, r + 1]) : o = .double r := by
  cases o <;> simp_all [FOpnd.regs]

theorem readF_writeFOpnd_double (s : State) (r : Reg) (v : DWord) :
    (s.writeFOpnd (.double r) v).readF r = v.extractLsb' 0 32
      ∧ (s.writeFOpnd (.double r) v).readF (r + 1) = v.extractLsb' 32 32 := by
  simp [State.writeFOpnd, State.writeFD, readF_writeF]

theorem cond_fwbCommit (d : Desc) (r : Rec) (s : State) :
    (d.fwbCommit r s).fpCond = (if d.cond then r.fresult.getLsbD 0 else s.fpCond)
      ∧ (d.fwbCommit r s).fpCondPresent = (if d.cond then true else s.fpCondPresent) := by
  unfold Desc.fwbCommit
  cases d.fdst <;> cases d.cond <;> simp

/-- The drain of a single record. -/
theorem stepFWB_of_singleton (h : s.pipe.fwbList = [r]) :
    s.stepFWB = { r.desc.fwbCommit r s with
      poolFree := s.poolFree + 1, pipe := { s.pipe with fwbList := [] } } := by
  have hin := fwbCommit_inert s r.desc r
  simp only [State.stepFWB, h, State.commitAll, hin.pipe, hin.poolFree]

/-- Settles O46: the destination of the description is that of the instruction; the record is freed. -/
theorem fwbDrain : Obligations.FwbDrain := by
  intro s r i hlist hinst
  have hdesc : r.desc = descOf i := congrArg descOfDecoded hinst
  have hfdst := fdst_descOf i
  have hcond := cond_descOf i
  rw [stepFWB_of_singleton hlist, hdesc]
  generalize descOf i = d at hfdst hcond
  obtain ⟨hc, hcp⟩ := cond_fwbCommit d r s
  refine ⟨rfl, rfl, fun k hk => ?_, fun k hk => ?_, fun j => ?_, fun j hj => ?_, fun h => ?_, fun h => ?_⟩
  · cases hd : d.fdst with
    | none => simp [hd, hk] at hfdst
    | some o =>
      obtain rfl := eq_single_of_regs (o := o) (r := k) (by simpa [hd, hk] using hfdst)
      exact (readF_fwbCommit hd r k).trans (readF_writeFOpnd_single ..)
  · cases hd : d.fdst with
    | none => simp [hd, hk] at hfdst
    | some o =>
      obtain rfl := eq_double_of_regs (o := o) (r := k) (by simpa [hd, hk] using hfdst)
      obtain ⟨hlow, hhigh⟩ := readF_writeFOpnd_double s k r.fresult
      exact ⟨(readF_fwbCommit hd r k).trans hlow, (readF_fwbCommit hd r (k + 1)).trans hhigh⟩
  · exact (presentF_fwbCommit d r s j).trans (by rw [hfdst])
  · exact readF_fwbCommit_of_not_mem (by rw [hfdst]; exact hj) r
  · rw [hcond, h] at hc hcp
    exact ⟨hc, hcp⟩
  · rw [hcond, h] at hc hcp
    exact ⟨hc, hcp⟩

/-! ## A cycle that ends in an exception -/

/-- What the steps before step 5 leave alone: all but the bus, the multiply/divide unit, the busy counters and the floating
registers. -/
structure Serviced (s u : State) : Prop where
  x : u.x = s.x
  c0 : u.c0 = s.c0
  mem : u.mem = s.mem
  script : u.script = s.script
  nextTag : u.nextTag = s.nextTag

theorem fwbCommit_serviced (d : Desc) (r : Rec) (s : State) : Serviced s (d.fwbCommit r s) := by
  unfold Desc.fwbCommit
  cases d.fdst <;> cases d.cond <;> constructor <;> simp

theorem commitAll_serviced (l : List Rec) (s : State) : Serviced s (s.commitAll l) := by
  induction l generalizing s with
  | nil => exact ⟨rfl, rfl, rfl, rfl, rfl⟩
  | cons r rest ih =>
    have hr := fwbCommit_serviced r.desc r s
    have hrest := ih { r.desc.fwbCommit r s with poolFree := (r.desc.fwbCommit r s).poolFree + 1 }
    exact ⟨hrest.x.trans hr.x, hrest.c0.trans hr.c0, hrest.mem.trans hr.mem, hrest.script.trans hr.script,
      hrest.nextTag.trans hr.nextTag⟩

theorem serviceSteps_serviced (s : State) : Serviced s s.serviceSteps := by
  have hmdu : ∀ u : State, Serviced u u.stepMdu := fun u => by
    unfold State.stepMdu
    split <;> exact ⟨rfl, rfl, rfl, rfl, rfl⟩
  have hm := hmdu s.prologue.stepBus
  have hf := commitAll_serviced s.prologue.stepBus.stepMdu.stepBusy.pipe.fwbList s.prologue.stepBus.stepMdu.stepBusy
  exact ⟨hf.x.trans hm.x, hf.c0.trans hm.c0, hf.mem.trans hm.mem, hf.script.trans hm.script, hf.nextTag.trans hm.nextTag⟩

theorem serviceSteps_pipe (s : State) : s.serviceSteps.pipe = { s.pipe with fwbList := [] } := by
  have hmdu : s.prologue.stepBus.stepMdu.stepBusy.pipe = s.pipe := (stepMdu_inert s.prologue.stepBus).pipe
  have hall := (commitAll_spec s.prologue.stepBus.stepMdu.stepBusy.pipe.fwbList s.prologue.stepBus.stepMdu.stepBusy).1.pipe
  show { (s.prologue.stepBus.stepMdu.stepBusy.commitAll _).pipe with fwbList := [] } = _
  rw [show (s.prologue.stepBus.stepMdu.stepBusy.commitAll _).pipe = s.pipe from hall.trans hmdu]

theorem runCycle_of_exception {e : Exc} (hslot : s.serviceSteps.pipe.wbSlot = some r) (hexc : r.exception = some e) :
    s.runCycle = some (s.serviceSteps.takeException r e (s.serviceSteps.flushClaims r)) := by
  simp [State.runCycle, hslot, hexc]

/-- Settles O51: the cycle is its first four steps, then the exception taken. -/
theorem exceptionEndsCycle : Obligations.ExceptionEndsCycle := by
  intro s r e hslot hexc
  have hs := serviceSteps_serviced s
  obtain ⟨n1, n2, n3⟩ := reg_ne
  have hc0 : ∀ j, (s.serviceSteps.takeException r e (s.serviceSteps.flushClaims r)).readC0 j =
      (s.serviceSteps.commitException r e).readC0 j := fun j => readC0_congr (by simp [State.takeException]) j
  refine ⟨_, runCycle_of_exception hslot hexc, by simp [State.takeException], ?_, ?_, ?_, ?_⟩
  · rw [hc0, commitException_readC0]; simp [n1, n2]
  · rw [hc0, commitException_readC0]; simp [n3]
  · have hpipe : (s.serviceSteps.takeException r e (s.serviceSteps.flushClaims r)).pipe =
        { emptyPipe with ex3List := s.serviceSteps.pipe.ex3List, fwbList := s.serviceSteps.pipe.fwbList } := by
      simp [State.takeException, State.flush]
    rw [hpipe, serviceSteps_pipe]
    rfl
  · simp [State.takeException, hs.x, hs.mem, hs.script, hs.nextTag]

end Sys2Proof.Machine
end

section
/-! SUPPORT. The schedule file (R404, R407): one bad line makes the whole file bad, and what makes a line bad; then one fault at
ALU in an instruction executed alone (R410, R415); then the statements about them. -/

namespace Sys2Proof.Machine

/-! ## The schedule file -/

/-- "inject nothing" on the first error, wherever it stands (R407). -/
theorem fillLines_of_bad {lines : List (List Char)} (h : ∃ line ∈ lines, parseLine line = .bad) (j : Injector) :
    j.fillLines lines = none := by
  induction lines generalizing j with
  | nil => simp at h
  | cons line rest ih =>
    obtain ⟨bad, hmem, hbad⟩ := h
    unfold Injector.fillLines
    rcases List.mem_cons.mp hmem with rfl | hrest
    · rw [hbad]
    · cases hline : parseLine line with
      | skip => exact ih ⟨bad, hrest, hbad⟩ j
      | bad => rfl
      | entry l byCycle e => cases byCycle <;> exact ih ⟨bad, hrest, hbad⟩ _

/-- A configuration with no schedule is fatal and leaves the injector empty (R407). -/
theorem initInjection_of_none {s : State} {config : InjConfig} {draws : List Nat}
    (h : configuredInjector config draws s.draws = none) :
    (s.initInjection config draws).outcome = some .fatal ∧ (s.initInjection config draws).mode = .fatal
      ∧ (s.initInjection config draws).quiet = true := by
  rw [State.initInjection, h]
  exact ⟨rfl, rfl, rfl⟩

/-- Each of its four parts can make a line of four tokens bad (R404, R407). -/
theorem parseLine_bad {line loc trigger due mask : List Char}
    (htokens : splitTokens line [] = [loc, trigger, due, mask]) (hcomment : loc.contains '#' = false)
    (hpart : parseLoc loc = none ∨ parseTrigger trigger = none ∨ parseNumber due = none ∨ parseNumber mask = none
      ∨ parseNumber mask = some 0) :
    parseLine line = .bad := by
  simp only [parseLine, htokens, hcomment, Bool.false_eq_true, if_false]
  rcases hpart with h | h | h | h | h <;> rw [h]
  · cases parseLoc loc <;> rfl
  · cases parseLoc loc <;> cases parseTrigger trigger <;> rfl
  · cases parseLoc loc <;> cases parseTrigger trigger <;> cases parseNumber due <;> rfl
  · cases parseLoc loc <;> cases parseTrigger trigger <;> cases parseNumber due <;> rfl

/-- Settles O59: a bad line anywhere in the file, and the five ways in which a line of four tokens is bad. -/
theorem badScheduleFileIsFatal : Obligations.BadScheduleFileIsFatal := by
  refine ⟨fun s file draws hbad => initInjection_of_none ?_, fun line loc trigger due mask htokens hcomment hpart =>
    parseLine_bad htokens hcomment hpart⟩
  cases file with
  | none => rfl
  | some text => exact fillLines_of_bad (hbad text rfl) _

/-! ## One fault scheduled at ALU -/

variable {s u : State} {d : Desc} {e : FaultEntry} {j : Injector} {l : Loc}

/-- The only fault scheduled is one by-cycle entry at ALU. -/
structure OnlyAlu (e : FaultEntry) (j : Injector) : Prop where
  byCycle : (j.loc .alu).byCycle = [e]
  byEvent : (j.loc .alu).byEvent = []
  others : ∀ l, l ≠ .alu → (j.loc l).quiet = true

theorem locQuiet_iff {lf : LocFaults} : lf.quiet = true ↔ lf.byCycle = [] ∧ lf.byEvent = [] := by
  simp [LocFaults.quiet]

theorem quiet_of_locs (h : ∀ l, (j.loc l).quiet = true) : j.quiet = true := by
  simp only [Injector.quiet, Bool.and_eq_true]
  exact ⟨⟨⟨⟨⟨⟨h .rf, h .id⟩, h .mdu⟩, h .memPre⟩, h .memPost⟩, h .wb⟩, h .alu⟩

/-- A check of a location with nothing scheduled hits nothing, and schedules nothing there. -/
theorem check_of_locQuiet (h : (j.loc l).quiet = true) (now n : Nat) :
    (j.check l now n).1 = none
      ∧ ∀ k, ((j.check l now n).2.loc k).byCycle = (j.loc k).byCycle
        ∧ ((j.check l now n).2.loc k).byEvent = (j.loc k).byEvent := by
  obtain ⟨hc, he⟩ := locQuiet_iff.mp h
  have hdue : (j.loc l).dueMask now = none := by simp [LocFaults.dueMask, hc, he, popDue, combineMasks]
  rw [check_of_dueMask_none hdue]
  refine ⟨rfl, fun k => ?_⟩
  rw [loc_setLoc]
  split
  · next hk => subst hk; simp [LocFaults.count1, hc, he, popDue]
  · exact ⟨rfl, rfl⟩

/-- A check of another location leaves the fault at ALU scheduled. -/
theorem OnlyAlu.check (h : OnlyAlu e j) (hl : l ≠ .alu) (now n : Nat) :
    (j.check l now n).1 = none ∧ OnlyAlu e (j.check l now n).2 := by
  obtain ⟨hnone, hsame⟩ := check_of_locQuiet (h.others l hl) now n
  refine ⟨hnone, (hsame .alu).1.trans h.byCycle, (hsame .alu).2.trans h.byEvent, fun k hk => ?_⟩
  rw [locQuiet_iff, (hsame k).1, (hsame k).2]
  exact locQuiet_iff.mp (h.others k hk)

/-- The check of ALU takes the fault that is due, and nothing is scheduled any more (R408, R410). -/
theorem OnlyAlu.check_alu (h : OnlyAlu e j) {now : Nat} (hdue : e.due ≤ now) (hm : e.mask ≠ 0) :
    (j.check .alu now 1).1 = some (0, e.mask) ∧ (j.check .alu now 1).2.quiet = true := by
  have hmask : (j.loc .alu).dueMask now = some e.mask := by
    simp [LocFaults.dueMask, h.byCycle, h.byEvent, hdue, popDue, combineMasks]
  rw [check_one_of_dueMask_some hmask hm]
  refine ⟨rfl, quiet_of_locs fun k => ?_⟩
  rw [loc_setLoc]
  split
  · simp [LocFaults.quiet, LocFaults.count1, h.byCycle, h.byEvent, hdue, popDue]
  · next hk => exact h.others k hk

/-! ## ID with the fault still scheduled -/

theorem checkRF_of_onlyAlu (h : OnlyAlu e s.inj) (a b : Option Reg) :
    (s.checkRF a b).x = s.x ∧ OnlyAlu e (s.checkRF a b).inj := by
  unfold State.checkRF
  split
  · exact ⟨rfl, h⟩
  · next first rest _ =>
      obtain ⟨hnone, hnext⟩ := h.check (l := .rf) nofun s.cycle (first :: rest).length
      have hnone' : (s.checkFault .rf (first :: rest).length).1 = none := hnone
      rw [hnone']
      exact ⟨rfl, hnext⟩

theorem checkID_of_onlyAlu (h : OnlyAlu e s.inj) (d : Desc) :
    (d.checkID s).1 = none ∧ OnlyAlu e (d.checkID s).2.inj := by
  unfold Desc.checkID
  split
  · exact ⟨rfl, h⟩
  · exact h.check (l := .id) nofun s.cycle d.intReads

/-- The record after an ID that no fault hits. -/
theorem idStage_rec_of_unhit (hx : (s.prologue.commitPc.checkRF d.op1 d.op2).x = s.x)
    (hid : (d.checkID (s.prologue.commitPc.checkRF d.op1 d.op2)).1 = none) :
    (d.idStage s.promotedRec s.prologue.commitPc).1 = d.idRec s := by
  have hreg : ∀ i, (s.prologue.commitPc.checkRF d.op1 d.op2).rd i = s.readX i := fun i => by
    rw [rd_of_none (by simp) (by simp), readX_congr hx]
  have hhilo : ∀ o, (s.prologue.commitPc.checkRF d.op1 d.op2).readHiLo o = s.readHiLo o := fun o =>
    readHiLo_congr (by simp) (by simp) o
  have hfp : ∀ o, (s.prologue.commitPc.checkRF d.op1 d.op2).readFOpnd o = s.readFOpnd o := fun o =>
    readFOpnd_congr (by simp) o
  simp only [Desc.idStage, hid, injectOps_none, Desc.idRec]
  congr 1
  simp only [Desc.readOps, funext hreg, funext hhilo, funext hfp]
  rfl

/-- ID of an instruction that claims nothing, while the only fault is the one at ALU. -/
theorem idStage_of_onlyAlu (h : OnlyAlu e s.inj) (hf : d.fdst = none) (hc : d.cond = false) :
    (d.idStage s.promotedRec s.prologue.commitPc).1 = d.idRec s ∧ AgreesP s (d.idState s) ∧ OnlyAlu e (d.idState s).inj := by
  have hpro : OnlyAlu e s.prologue.commitPc.inj := h
  obtain ⟨hx, hrf⟩ := checkRF_of_onlyAlu hpro d.op1 d.op2
  obtain ⟨hnone, hid⟩ := checkID_of_onlyAlu hrf d
  have hx' : (s.prologue.commitPc.checkRF d.op1 d.op2).x = s.x := hx
  refine ⟨idStage_rec_of_unhit hx' hnone, ?_, by simpa [Desc.idState, Desc.idStage] using hid⟩
  constructor
  · constructor <;> simp [Desc.idState, Desc.idStage, hx']
  · simp [Desc.idState, State.setClaim, Desc.claim, hf, hc]
  · simp [Desc.idState, hc]

/-! ## The rest of an ALU instruction, its result hit -/

/-- The result of an ALU instruction is the target of the ALU check, whatever it answers (R410). -/
theorem finish_alu_hit {f : Word → Word → Option Word} {v : Word} {r : Rec} {rd : Reg} (h1 : d.ex = .alu f) (h2 : d.mem = .pass)
    (h3 : d.wb = .gpr rd) (hv : f r.op1 r.op2 = some v) (hr : r.exception = none) (hq : (u.checkFault .alu 1).2.inj.quiet = true) :
    d.finish r u = ((u.checkFault .alu 1).2.checkFault .wb 1).2.writeX rd (hitTarget (u.checkFault .alu 1).1 0 v) := by
  simp [Desc.finish, Desc.exStage, h1, h2, h3, aluResult, hv, hr, hq, Desc.memStage, Desc.request, Desc.memMove,
    Desc.settleMdu, Desc.retire, Desc.toEX3, Desc.wbStage]

/-- Settles O60: no check before ALU takes the fault, ALU takes it, and the check of WB finds nothing scheduled. -/
theorem injectedFaultFlipsResult : Obligations.InjectedFaultFlipsResult := by
  intro s rd rs rt due mask hcycle hevent hm hdue hothers
  have honly : OnlyAlu ⟨due, mask⟩ s.inj := ⟨hcycle, hevent, hothers⟩
  obtain ⟨hrec, hagree, hinj⟩ := idStage_of_onlyAlu (d := descAddu rd rs rt) honly rfl rfl
  have hnow : due ≤ ((descAddu rd rs rt).idState s).cycle := by simpa [Desc.idState, Desc.idStage] using hdue
  obtain ⟨hhit, hquiet⟩ := hinj.check_alu hnow hm
  have hhit' : (((descAddu rd rs rt).idState s).checkFault .alu 1).1 = some (0, mask) := hhit
  have hquiet' : (((descAddu rd rs rt).idState s).checkFault .alu 1).2.inj.quiet = true := hquiet
  have hv : some (((descAddu rd rs rt).idRec s).op1 + ((descAddu rd rs rt).idRec s).op2) = some (s.readX rs + s.readX rt) := by
    simp [descAddu, threeReg]
  refine ⟨_, rfl, ?_⟩
  have hrun : transit (descAddu rd rs rt) s =
      ((((descAddu rd rs rt).idState s).checkFault .alu 1).2.checkFault .wb 1).2.writeX rd
        ((s.readX rs + s.readX rt) ^^^ mask) := by
    have hfinish := finish_alu_hit (d := descAddu rd rs rt) rfl rfl rfl hv (by simp) hquiet'
    rw [hhit'] at hfinish
    exact (congrArg ((descAddu rd rs rt).finish · _) hrec).trans hfinish
  rw [hrun]
  have horder : InOrder s ((descAddu rd rs rt).idState s) := by
    simp [InOrder, Desc.idState, Desc.idStage, descAddu, threeReg, Desc.advance, Ctrl.target, Desc.isBranch]
  refine ⟨writesX_of ((hagree.checkFault _ _).checkFault _ _) _ _,
    InOrder.writeX (u := (State.checkFault _ .alu 1).2) horder _ _, ?_⟩
  simp [State.quiet, hquiet']

end Sys2Proof.Machine
end

section
/-! SUPPORT. The floating instructions executed alone, by their form (one operand, two operands, a compare, a move); the order of
two numbers at a common power; then the statements about them. -/

namespace Sys2Proof.Machine

variable {s u : State} {i j : Instr} {d : Desc} {fs ft : Reg}

/-! ## The operands and results of format S -/

@[simp] theorem lowHalf_zeroExtend (v : Word) : lowHalf (v.zeroExtend 64) = v := by
  simp [lowHalf, BitVec.extractLsb'_setWidth_of_le]

/-- Singles are operated on as the low half of the operand: the bit operations of format S. -/
theorem zeroExtend_and_mask (v mask : Word) : v.zeroExtend 64 &&& mask.zeroExtend 64 = ((v &&& mask).zeroExtend 64 : DWord) :=
  BitVec.setWidth_and.symm

theorem zeroExtend_xor_mask (v mask : Word) : v.zeroExtend 64 ^^^ mask.zeroExtend 64 = ((v ^^^ mask).zeroExtend 64 : DWord) :=
  BitVec.setWidth_xor.symm

theorem zeroExtend_and_low (v : Word) : (v.zeroExtend 64 : DWord) &&& 0xFFFFFFFF = v.zeroExtend 64 :=
  (zeroExtend_and_mask v 0xFFFFFFFF).trans (congrArg _ BitVec.and_allOnes)

/-! ## The operations with a floating destination -/

/-- An operation of one operand executed alone. -/
theorem unary_completes {c : FpClass} {f : FPNumerics → DWord → DWord → FpVal} {o a : FOpnd} {v : FpVal}
    (hi : exec i s = .next (transit (fpUnary c f o a) s)) (hid : (fpUnary c f o a).idException = none) (hq : s.quiet = true)
    (hv : f s.numerics (s.readFOpnd a) 0 = v) :
    Completes i s fun t => WritesF o (v.pattern s.draws) s t ∧ InOrder s t := by
  have hrun := float_completes hi hid rfl hq rfl rfl rfl
  simp only [idRec_fop1, idRec_fop2] at hrun
  exact hv ▸ hrun

/-- An operation of two operands executed alone. -/
theorem binary_completes {c : FpClass} {f : FPNumerics → DWord → DWord → FpVal} {o a b : FOpnd} {v : FpVal}
    (hi : exec i s = .next (transit (fpBinary c f o a b) s)) (hid : (fpBinary c f o a b).idException = none)
    (hq : s.quiet = true) (hv : f s.numerics (s.readFOpnd a) (s.readFOpnd b) = v) :
    Completes i s fun t => WritesF o (v.pattern s.draws) s t ∧ InOrder s t := by
  have hrun := float_completes hi hid rfl hq rfl rfl rfl
  simp only [idRec_fop1, idRec_fop2] at hrun
  exact hv ▸ hrun

/-- Settles O37: the three operations are the bit operations of R328 to R333 on the operand read. -/
theorem floatBitOperations : Obligations.FloatBitOperations := by
  intro s fd fs hq _
  simp only [List.forall_mem_cons]
  refine ⟨⟨unary_completes (v := .bits _) rfl rfl hq ?_, unary_completes (v := .bits _) rfl rfl hq ?_,
      unary_completes (v := .bits _) rfl rfl hq ?_, List.forall_mem_nil _⟩,
    fun h => unary_completes rfl (idException_of_wellFormed h nofun nofun) hq rfl,
    fun h => unary_completes rfl (idException_of_wellFormed h nofun nofun) hq rfl,
    fun h => unary_completes rfl (idException_of_wellFormed h nofun nofun) hq rfl, List.forall_mem_nil _⟩
  · exact congrArg FpVal.bits (zeroExtend_and_mask (s.readF fs) 0x7FFFFFFF)
  · exact congrArg FpVal.bits ((congrArg (· ^^^ 0x80000000) (zeroExtend_and_low (s.readF fs))).trans
      (zeroExtend_xor_mask (s.readF fs) 0x80000000))
  · exact congrArg FpVal.bits (zeroExtend_and_low (s.readF fs))

/-! ## The compares -/

theorem compareS_completes {cond : BitVec 4} (hi : exec i s = .next (transit (fpCompare (fpCmpS cond) (.single fs) (.single ft)) s))
    (hq : s.quiet = true) :
    Completes i s fun t => WritesCond (condHolds cond (s.numerics.cmpS (s.readF fs) (s.readF ft))) s t ∧ InOrder s t :=
  compare_completes hi rfl rfl hq rfl rfl rfl (by simp [fpCompare, fpCmpS, State.readFOpnd])

theorem compareD_completes {cond : BitVec 4} (hi : exec i s = .next (transit (fpCompare (fpCmpD cond) (.double fs) (.double ft)) s))
    (hid : (fpCompare (fpCmpD cond) (.double fs) (.double ft)).idException = none) (hq : s.quiet = true) :
    Completes i s fun t => WritesCond (condHolds cond (s.numerics.cmpD (s.readFD fs) (s.readFD ft))) s t ∧ InOrder s t :=
  compare_completes hi hid rfl hq rfl rfl rfl (by simp [fpCompare, fpCmpD, State.readFOpnd])

/-- Settles O39: each compare is the form of its format with its own condition. -/
theorem floatCompares : Obligations.FloatCompares := by
  intro s fs ft hq _ _
  simp only [List.forall_mem_cons]
  have hid {k : Instr} (hwf : k.wellFormed = true) := idException_of_wellFormed (i := k) hwf
  exact ⟨⟨compareS_completes rfl hq, fun h => compareD_completes rfl (hid h nofun nofun) hq⟩,
    ⟨compareS_completes rfl hq, fun h => compareD_completes rfl (hid h nofun nofun) hq⟩,
    ⟨compareS_completes rfl hq, fun h => compareD_completes rfl (hid h nofun nofun) hq⟩,
    ⟨compareS_completes rfl hq, fun h => compareD_completes rfl (hid h nofun nofun) hq⟩,
    ⟨compareS_completes rfl hq, fun h => compareD_completes rfl (hid h nofun nofun) hq⟩,
    ⟨compareS_completes rfl hq, fun h => compareD_completes rfl (hid h nofun nofun) hq⟩,
    ⟨compareS_completes rfl hq, fun h => compareD_completes rfl (hid h nofun nofun) hq⟩,
    ⟨compareS_completes rfl hq, fun h => compareD_completes rfl (hid h nofun nofun) hq⟩,
    ⟨compareS_completes rfl hq, fun h => compareD_completes rfl (hid h nofun nofun) hq⟩,
    ⟨compareS_completes rfl hq, fun h => compareD_completes rfl (hid h nofun nofun) hq⟩,
    ⟨compareS_completes rfl hq, fun h => compareD_completes rfl (hid h nofun nofun) hq⟩,
    ⟨compareS_completes rfl hq, fun h => compareD_completes rfl (hid h nofun nofun) hq⟩,
    ⟨compareS_completes rfl hq, fun h => compareD_completes rfl (hid h nofun nofun) hq⟩,
    ⟨compareS_completes rfl hq, fun h => compareD_completes rfl (hid h nofun nofun) hq⟩,
    ⟨compareS_completes rfl hq, fun h => compareD_completes rfl (hid h nofun nofun) hq⟩,
    ⟨compareS_completes rfl hq, fun h => compareD_completes rfl (hid h nofun nofun) hq⟩, List.forall_mem_nil _⟩

/-! ## The moves -/

/-- ID of an instruction with one floating destination clears that flag and no other. -/
theorem idState_agreesP_cleared (hq : s.quiet = true) (hc : d.cond = false) :
    AgreesP { s with fPresent := (d.idState s).fPresent } (d.idState s) :=
  { idState_agrees hq with fPresent := rfl, fpCondPresent := by simp [Desc.idState, hc] }

theorem presentF_idState_single (hd : d.fdst = some (.single ft)) {k : Reg} (hk : k ∉ (FOpnd.single ft).regs) :
    (d.idState s).presentF k = s.presentF k := by
  rw [idState_presentF, if_neg (by simpa [hd] using hk)]

/-- The commit of an instruction with one floating destination, over a state that differs from that after ID in nothing a frame
speaks of. -/
theorem writesF_commit {r : Rec} (hd : d.fdst = some (.single ft)) (hc : d.cond = false)
    (ha : AgreesP { s with fPresent := (d.idState s).fPresent } u) :
    WritesF (.single ft) r.fresult s (d.fwbCommit r u) :=
  writesF_fwbCommit
    ⟨ha.x, ha.f, ha.hi, ha.lo, ha.hiPresent, ha.loPresent, ha.fpCond, ha.c0, ha.mem, ha.pipe, ha.poolFree, ha.params, ha.busy,
      ha.mode, ha.calls, ha.outcome⟩
    ha.fpCondPresent (fun _ hk => (presentF_congr ha.fPresent _).trans (presentF_idState_single hd hk)) hd hc

/-- LWC1 that is not refused (R346). -/
theorem lwc1_completes {rs : Reg} {imm : Imm} (hq : s.quiet = true) (hr : s.refusal .rdW (s.effAddr rs imm) = none) :
    Completes (.lwc1 ft imm rs) s fun t =>
      WritesF (.single ft) ((s.readWord (s.effAddr rs imm)).zeroExtend 64) s t ∧ InOrder s t := by
  refine ⟨_, rfl, ?_⟩
  have haddr : ((descLwc1 ft imm rs).idRec s).op1 + imm.signExtend 32 = s.effAddr rs imm := by simp [descLwc1, State.effAddr]
  have ha : AgreesP _ ((descLwc1 ft imm rs).idState s) := idState_agreesP_cleared hq rfl
  obtain ⟨hexc, hdatum, hmem⟩ := dataAnswer_performed (w := ((descLwc1 ft imm rs).idRec s).result) ha (by simp) hr
  have hans := dataAnswer_agrees ha (hmem.trans ha.mem.symm)
  rw [transit_int rfl rfl hq, finish_loadF rfl rfl (by simp) (idState_quiet hq) (by rw [haddr]; exact hexc), haddr, hdatum]
  refine ⟨?_, InOrder.fwbCommit ?_⟩
  · exact writesF_commit rfl rfl hans
  · simpa [InOrder, State.dataAnswer] using inOrder_idState (d := descLwc1 ft imm rs) hq rfl

/-- MTC1 (R349). -/
theorem mtc1_completes {rt : Reg} (hq : s.quiet = true) :
    Completes (.mtc1 rt fs) s fun t => WritesF (.single fs) ((s.readX rt).zeroExtend 64) s t ∧ InOrder s t := by
  refine ⟨_, rfl, ?_⟩
  have hop : ((descMtc1 rt fs).idRec s).op2 = s.readX rt := by simp [descMtc1]
  rw [transit_int rfl rfl hq, finish_mtc1 rfl rfl (by simp), hop]
  exact ⟨writesF_commit rfl rfl (idState_agreesP_cleared hq rfl), (inOrder_idState hq rfl).fwbCommit⟩

/-- Settles O43. -/
theorem floatMoves : Obligations.FloatMoves := by
  intro s rt rs fs imm hq _
  refine ⟨lwc1_completes hq, move_completes rfl rfl rfl hq ?_ nofun rfl rfl rfl rfl rfl, mtc1_completes hq⟩
  simp [Desc.exStage, descMfc1, State.readFOpnd, BitVec.extractLsb'_setWidth_of_le]

/-! ## The order of two numbers -/

theorem signedSig_mul (neg : Bool) (x y : Nat) : signedSig neg (x * y) = signedSig neg x * (y : Int) := by
  cases neg with
  | false => exact Int.natCast_mul x y
  | true => exact (congrArg Neg.neg (Int.natCast_mul x y)).trans (Int.neg_mul ..).symm

theorem signedSig_scale (neg : Bool) (x : Nat) {i k : Nat} (h : k ≤ i) :
    signedSig neg (x * 2 ^ i) = signedSig neg (x * 2 ^ (i - k)) * 2 ^ k := by
  rw [← Nat.sub_add_cancel h, Nat.pow_add, ← Nat.mul_assoc, signedSig_mul, Nat.sub_add_cancel h]
  norm_cast

theorem order_eq (a b : Int) :
    ((if a < b then Relation.less else if a = b then .equal else .greater) = .less ↔ a < b)
      ∧ ((if a < b then Relation.less else if a = b then .equal else .greater) = .equal ↔ a = b)
      ∧ (if a < b then Relation.less else if a = b then .equal else .greater) ≠ .unordered := by
  split
  · next h => exact ⟨by simp [h], by simp [Int.ne_of_lt h], nofun⟩
  · next h =>
      split
      · next heq => exact ⟨by simp [heq], by simp [heq], nofun⟩
      · next hne => exact ⟨by simp [h], by simp [hne], nofun⟩

/-- A common power taken out of two significands does not change their order (R306). -/
theorem compareFin_at (a b : Bool) (x y n m : Nat) (c : Int) :
    (compareFin a x (c + n) b y (c + m) = .less ↔ signedSig a (x * 2 ^ n) < signedSig b (y * 2 ^ m))
      ∧ (compareFin a x (c + n) b y (c + m) = .equal ↔ signedSig a (x * 2 ^ n) = signedSig b (y * 2 ^ m)) := by
  have hn : (c + n - min (c + n) (c + m) : Int).toNat = n - min n m := by omega
  have hm : (c + m - min (c + n) (c + m) : Int).toNat = m - min n m := by omega
  have hpos : (0 : Int) < 2 ^ min n m := Int.pow_pos (by decide)
  rw [signedSig_scale a x (Nat.min_le_left n m), signedSig_scale b y (Nat.min_le_right n m), Int.mul_lt_mul_right hpos,
    Int.mul_eq_mul_right_iff (Int.ne_of_gt hpos), compareFin]
  simp only [hn, hm]
  obtain ⟨hless, hequal, -⟩ := order_eq (signedSig a (x * 2 ^ (n - min n m))) (signedSig b (y * 2 ^ (m - min n m)))
  exact ⟨hless, hequal⟩

theorem relationOf_unordered_iff (a b : FpNum) : relationOf a b = .unordered ↔ a = .nan ∨ b = .nan := by
  cases a with
  | nan => simp [relationOf]
  | inf s =>
    cases b with
    | nan => simp [relationOf]
    | inf t => cases s <;> cases t <;> simp [relationOf]
    | fin t y q => cases s <;> simp [relationOf]
  | fin s x p =>
    cases b with
    | nan => simp [relationOf]
    | inf t => cases t <;> simp [relationOf]
    | fin t y q =>
      have hne : compareFin s x p t y q ≠ .unordered := (order_eq _ _).2.2
      simpa [relationOf] using hne

/-- Settles O42: the relation is by cases on what the numbers are; two finite ones compare at their common power. -/
theorem relationByValue : Obligations.RelationByValue := by
  refine ⟨relationOf_unordered_iff, fun a b x y n m c => ?_, fun s hs => ?_⟩
  · obtain ⟨hless, hequal⟩ := compareFin_at a b x y n m c
    exact ⟨hless, hequal, rfl, rfl, rfl⟩
  · have hnum : s.numerics = ieeeNumerics := congrArg numericsOf hs
    rw [hnum]
    exact ⟨fun _ _ => rfl, fun _ _ => rfl⟩

end Sys2Proof.Machine
end

section
/-! SUPPORT. Rounding (R306), said of rational numbers: the nearest integer, the fields of a pattern and the number they make, and
the one rounding of `roundPack`; then the statement about it. -/

namespace Sys2Proof.Machine

variable {m : Format} {neg : Bool}

/-! ## Powers of two -/

/-- 2 to an integer power. -/
def twoPow (z : Int) : Rat := (2 : Rat) ^ z

theorem twoPow_pos (z : Int) : 0 < twoPow z := Rat.zpow_pos (by decide)

theorem twoPow_add (a b : Int) : twoPow (a + b) = twoPow a * twoPow b := Rat.zpow_add (by decide) a b

theorem twoPow_natCast (n : Nat) : twoPow n = ((2 ^ n : Nat) : Rat) := (Rat.natCast_pow 2 n).symm

theorem twoPow_eq_mul {a b : Int} (h : b ≤ a) : twoPow a = ((2 ^ (a - b).toNat : Nat) : Rat) * twoPow b := by
  rw [← twoPow_natCast, ← twoPow_add, show ((a - b).toNat : Int) + b = a by omega]

theorem twoPow_succ (z : Int) : twoPow (z + 1) = 2 * twoPow z := by
  have h := twoPow_eq_mul (show z ≤ z + 1 by omega)
  rwa [show (z + 1 - z).toNat = 1 by omega] at h

theorem twoPow_le {a b : Int} (h : a ≤ b) : twoPow a ≤ twoPow b := by
  have hone : ((1 : Nat) : Rat) ≤ ((2 ^ (b - a).toNat : Nat) : Rat) := Rat.natCast_le_natCast.mpr (Nat.two_pow_pos _)
  have hmul := Rat.mul_le_mul_of_nonneg_right hone (Rat.le_of_lt (twoPow_pos a))
  rwa [← twoPow_eq_mul h, show ((1 : Nat) : Rat) = 1 from rfl, Rat.one_mul] at hmul

theorem lt_of_twoPow_lt {a b : Int} (h : twoPow a < twoPow b) : a < b :=
  Int.not_le.mp fun hle => Rat.not_le.mpr h (twoPow_le hle)

/-! ## The nearest integer -/

/-- q is the integer nearest to r / g, the even one of two equally near. -/
def NearestRat (r g : Rat) (q : Nat) : Prop :=
  2 * r ≤ (2 * q + 1) * g ∧ 2 * q * g ≤ 2 * r + g ∧ (2 * r = (2 * q + 1) * g ∨ 2 * q * g = 2 * r + g → q % 2 = 0)

theorem nearestEven_iff (a b q : Nat) : NearestEven a b q ↔ NearestRat a b q := by
  have hle : 2 * a ≤ (2 * q + 1) * b ↔ 2 * (a : Rat) ≤ (2 * q + 1) * b := by
    rw [← Rat.natCast_le_natCast]; simp only [Rat.natCast_mul, Rat.natCast_add]; exact Iff.rfl
  have hge : 2 * q * b ≤ 2 * a + b ↔ 2 * (q : Rat) * b ≤ 2 * a + b := by
    rw [← Rat.natCast_le_natCast]; simp only [Rat.natCast_mul, Rat.natCast_add]; exact Iff.rfl
  have htie : 2 * a = (2 * q + 1) * b ↔ 2 * (a : Rat) = (2 * q + 1) * b := by
    rw [← Rat.natCast_inj]; simp only [Rat.natCast_mul, Rat.natCast_add]; exact Iff.rfl
  have htie' : 2 * q * b = 2 * a + b ↔ 2 * (q : Rat) * b = 2 * a + b := by
    rw [← Rat.natCast_inj]; simp only [Rat.natCast_mul, Rat.natCast_add]; exact Iff.rfl
  rw [NearestEven, NearestRat, hle, hge, htie, htie']

theorem mul_le_mul_right_iff {a b c : Rat} (hc : 0 < c) : a * c ≤ b * c ↔ a ≤ b := by
  rw [← Rat.not_lt, ← Rat.not_lt, Rat.mul_lt_mul_right hc]

theorem mul_eq_mul_right_iff_of_pos {a b c : Rat} (hc : 0 < c) : a * c = b * c ↔ a = b := by
  rw [Rat.le_antisymm_iff, Rat.le_antisymm_iff, mul_le_mul_right_iff hc, mul_le_mul_right_iff hc]

/-- The unit may be scaled with the number. -/
theorem nearestRat_scale {r g c : Rat} (hc : 0 < c) (q : Nat) : NearestRat (r * c) (g * c) q ↔ NearestRat r g q := by
  have hr : 2 * (r * c) = 2 * r * c := (Rat.mul_assoc ..).symm
  have hup : (2 * q + 1) * (g * c) = (2 * q + 1) * g * c := (Rat.mul_assoc ..).symm
  have hdown : 2 * q * (g * c) = 2 * q * g * c := (Rat.mul_assoc ..).symm
  have hsum : 2 * r * c + g * c = (2 * r + g) * c := (Rat.add_mul ..).symm
  rw [NearestRat, NearestRat, hr, hup, hdown, hsum, mul_le_mul_right_iff hc, mul_le_mul_right_iff hc,
    mul_eq_mul_right_iff_of_pos hc, mul_eq_mul_right_iff_of_pos hc]

/-- An integer is the nearest to itself. -/
theorem nearestEven_self (a : Nat) : NearestEven a 1 a := by
  unfold NearestEven
  omega

/-- The quotient and remainder of a division by 2^k decide the rounding. -/
theorem nearestEven_roundShift (n k : Nat) : NearestEven n (2 ^ k) (roundShift n k) := by
  have hn : n / 2 ^ k * 2 ^ k + n % 2 ^ k = n := Nat.div_add_mod' n (2 ^ k)
  have hr : n % 2 ^ k < 2 ^ k := Nat.mod_lt _ (Nat.two_pow_pos k)
  have hup : ∀ c, (2 * c + 1) * 2 ^ k = 2 * (c * 2 ^ k) + 2 ^ k := fun c => by grind
  have hdown : ∀ c, 2 * c * 2 ^ k = 2 * (c * 2 ^ k) := fun c => by grind
  have hsucc : ∀ c, (c + 1) * 2 ^ k = c * 2 ^ k + 2 ^ k := fun c => by grind
  simp only [roundShift, NearestEven, hup, hdown]
  generalize n / 2 ^ k = q at *
  generalize n % 2 ^ k = r at *
  split
  · rw [hsucc]; omega
  · split
    · rcases Nat.mod_two_eq_zero_or_one q with hq | hq
      · rw [hq, Nat.add_zero]; omega
      · rw [hq, hsucc]; omega
    · omega

/-- A nearest integer keeps the bounds of the number, where they are integers. -/
theorem NearestRat.le_of_le {r g : Rat} {q c : Nat} (h : NearestRat r g q) (hg : 0 < g) (hr : r ≤ c * g) : q ≤ c := by
  have hq : ((2 * q : Nat) : Rat) * g ≤ ((2 * c + 1 : Nat) : Rat) * g := by
    have hdown := h.2.1
    rw [Rat.natCast_mul, Rat.natCast_add, Rat.natCast_mul]
    show 2 * (q : Rat) * g ≤ (2 * c + 1) * g
    grind
  have hq' := Rat.natCast_le_natCast.mp ((mul_le_mul_right_iff hg).mp hq)
  omega

theorem NearestRat.le_of_ge {r g : Rat} {q c : Nat} (h : NearestRat r g q) (hg : 0 < g) (hr : c * g ≤ r) : c ≤ q := by
  have hq : ((2 * c : Nat) : Rat) * g ≤ ((2 * q + 1 : Nat) : Rat) * g := by
    have hup := h.1
    rw [Rat.natCast_mul, Rat.natCast_add, Rat.natCast_mul]
    show 2 * (c : Rat) * g ≤ (2 * q + 1) * g
    grind
  have hq' := Rat.natCast_le_natCast.mp ((mul_le_mul_right_iff hg).mp hq)
  omega

/-! ## The fields of a pattern -/

/-- What the arithmetic needs of a format: an exponent field, and a pattern within 64 bits. -/
structure Format.Sized (m : Format) : Prop where
  expBits : 2 ≤ m.expBits
  width : m.fracBits + m.expBits < 64

theorem fmtS_sized : fmtS.Sized := ⟨by decide, by decide⟩
theorem fmtD_sized : fmtD.Sized := ⟨by decide, by decide⟩

/-- The significand that the magnitude bits of a finite pattern stand for. -/
def Format.sigOf (m : Format) (mag : Nat) : Nat :=
  if mag / 2 ^ m.fracBits = 0 then mag else mag % 2 ^ m.fracBits + 2 ^ m.fracBits

/-- Its power, counted from that of a subnormal. -/
def Format.expOf (m : Format) (mag : Nat) : Nat := mag / 2 ^ m.fracBits - 1

theorem Format.Sized.maxExp_ge (h : m.Sized) : 3 ≤ m.maxExp := by
  have := Nat.pow_le_pow_right (n := 2) (by decide) h.expBits
  unfold Format.maxExp
  omega

theorem maxExp_lt (m : Format) : m.maxExp < 2 ^ m.expBits := Nat.sub_lt (Nat.two_pow_pos _) Nat.one_pos

/-- The number of a sign and the magnitude bits (R301). -/
theorem unpack_signBit_add (neg : Bool) {mag : Nat} (h : mag < 2 ^ (m.fracBits + m.expBits)) :
    m.unpack (m.signBit neg + mag) =
      if mag / 2 ^ m.fracBits = m.maxExp then (if mag % 2 ^ m.fracBits = 0 then .inf neg else .nan)
      else .fin neg (m.sigOf mag) (m.minPow + m.expOf mag) := by
  have hexp : mag / 2 ^ m.fracBits < 2 ^ m.expBits := Nat.div_lt_of_lt_mul (by rwa [← Nat.pow_add])
  obtain ⟨b, hb, hneg⟩ : ∃ b, m.signBit neg = 2 ^ m.fracBits * (2 ^ m.expBits * b) ∧ (b % 2 == 1) = neg := by
    cases neg
    · exact ⟨0, rfl, rfl⟩
    · exact ⟨1, by simp [Format.signBit, Nat.pow_add], rfl⟩
  have hfrac : (m.signBit neg + mag) % 2 ^ m.fracBits = mag % 2 ^ m.fracBits := by rw [hb, Nat.mul_add_mod]
  have hdiv : (m.signBit neg + mag) / 2 ^ m.fracBits = 2 ^ m.expBits * b + mag / 2 ^ m.fracBits := by
    rw [hb, Nat.mul_add_div (Nat.two_pow_pos _)]
  have hexpField : (m.signBit neg + mag) / 2 ^ m.fracBits % 2 ^ m.expBits = mag / 2 ^ m.fracBits := by
    rw [hdiv, Nat.mul_add_mod, Nat.mod_eq_of_lt hexp]
  have hsign : ((m.signBit neg + mag) / 2 ^ (m.fracBits + m.expBits) % 2 == 1) = neg := by
    rw [Nat.pow_add, ← Nat.div_div_eq_div_mul, hdiv, Nat.mul_add_div (Nat.two_pow_pos _), Nat.div_eq_of_lt hexp]
    exact hneg
  simp only [Format.unpack, hfrac, hexpField, hsign, Format.sigOf, Format.expOf]
  split
  · rfl
  · split
    · next h0 =>
      have hlt : mag < 2 ^ m.fracBits := by simpa using h0
      simp [h0, Nat.mod_eq_of_lt hlt]
    · next h0 => congr 1; omega

theorem toNat_signBit_add (hm : m.Sized) (neg : Bool) {mag : Nat} (h : mag < 2 ^ (m.fracBits + m.expBits)) :
    (BitVec.ofNat 64 (m.signBit neg + mag)).toNat = m.signBit neg + mag := by
  have hsign : m.signBit neg ≤ 2 ^ (m.fracBits + m.expBits) := by cases neg <;> simp [Format.signBit]
  have hwidth : 2 ^ (m.fracBits + m.expBits + 1) ≤ 2 ^ 64 := Nat.pow_le_pow_right (by decide) hm.width
  rw [BitVec.toNat_ofNat, Nat.mod_eq_of_lt (by rw [Nat.pow_succ] at hwidth; omega)]

/-! ## The number of a rounded significand -/

section
variable {e q : Nat}

/-- The cases of a rounded significand: subnormal, normal, or carried to the next power. -/
theorem sig_cases (hq : q ≤ 2 ^ (m.fracBits + 1)) (hn : e = 0 ∨ 2 ^ m.fracBits ≤ q) :
    (e = 0 ∧ q < 2 ^ m.fracBits)
      ∨ (2 ^ m.fracBits ≤ q ∧ q < 2 ^ (m.fracBits + 1) ∧ (e * 2 ^ m.fracBits + q) / 2 ^ m.fracBits = e + 1
          ∧ (e * 2 ^ m.fracBits + q) % 2 ^ m.fracBits = q - 2 ^ m.fracBits)
      ∨ (q = 2 ^ (m.fracBits + 1) ∧ (e * 2 ^ m.fracBits + q) / 2 ^ m.fracBits = e + 2
          ∧ (e * 2 ^ m.fracBits + q) % 2 ^ m.fracBits = 0) := by
  have hP : 0 < 2 ^ m.fracBits := Nat.two_pow_pos _
  rw [Nat.pow_succ] at hq ⊢
  generalize 2 ^ m.fracBits = P at *
  by_cases hsub : q < P
  · exact .inl ⟨by omega, hsub⟩
  by_cases hcarry : q = P * 2
  · refine .inr (.inr ⟨hcarry, ?_, ?_⟩)
    · rw [hcarry, Nat.mul_comm P 2, ← Nat.add_mul, Nat.mul_div_cancel _ hP]
    · rw [hcarry, Nat.mul_comm P 2, ← Nat.add_mul, Nat.mul_mod_left]
  · have hsplit : e * P + q = (e + 1) * P + (q - P) := by rw [Nat.add_mul]; omega
    have hrest : q - P < P := by omega
    refine .inr (.inl ⟨by omega, by omega, ?_, ?_⟩)
    · rw [hsplit, Nat.mul_comm, Nat.mul_add_div hP, Nat.div_eq_of_lt hrest, Nat.add_zero]
    · rw [hsplit, Nat.mul_comm, Nat.mul_add_mod, Nat.mod_eq_of_lt hrest]

/-- The pattern's number is q units of its power: a carry out of the fraction raises the exponent field by itself. -/
theorem sigOf_mul_expOf (hq : q ≤ 2 ^ (m.fracBits + 1)) (hn : e = 0 ∨ 2 ^ m.fracBits ≤ q) :
    m.sigOf (e * 2 ^ m.fracBits + q) * 2 ^ m.expOf (e * 2 ^ m.fracBits + q) = q * 2 ^ e := by
  unfold Format.sigOf Format.expOf
  rcases sig_cases hq hn with ⟨rfl, hsub⟩ | ⟨hge, -, hdiv, hmod⟩ | ⟨hcarry, hdiv, hmod⟩
  · simp [Nat.div_eq_of_lt hsub]
  · rw [hdiv, hmod, if_neg (by omega), Nat.sub_add_cancel hge, Nat.add_sub_cancel]
  · rw [hdiv, hmod, if_neg (by omega), hcarry, Nat.zero_add, show e + 2 - 1 = e + 1 by omega, ← Nat.pow_add, ← Nat.pow_add]
    congr 1; omega

/-- The magnitude reaches the exponent field of the infinities exactly when the number reaches the power after the greatest. -/
theorem overflow_iff (hm : m.Sized) (hq : q ≤ 2 ^ (m.fracBits + 1)) (hn : e = 0 ∨ 2 ^ m.fracBits ≤ q) :
    m.maxExp * 2 ^ m.fracBits ≤ e * 2 ^ m.fracBits + q ↔ 2 ^ (m.fracBits + m.maxExp - 1) ≤ q * 2 ^ e := by
  have hmax := hm.maxExp_ge
  have hP : 0 < 2 ^ m.fracBits := Nat.two_pow_pos _
  rw [← Nat.le_div_iff_mul_le hP]
  rcases sig_cases hq hn with ⟨rfl, hsub⟩ | ⟨hge, hlt, hdiv, -⟩ | ⟨hcarry, hdiv, -⟩
  · have hbig : 2 ^ m.fracBits ≤ 2 ^ (m.fracBits + m.maxExp - 1) := Nat.pow_le_pow_right (by decide) (by omega)
    simp only [Nat.zero_mul, Nat.zero_add, Nat.div_eq_of_lt hsub]
    omega
  · rw [hdiv]
    constructor
    · intro h
      calc 2 ^ (m.fracBits + m.maxExp - 1) ≤ 2 ^ (m.fracBits + e) := Nat.pow_le_pow_right (by decide) (by omega)
        _ = 2 ^ m.fracBits * 2 ^ e := Nat.pow_add ..
        _ ≤ q * 2 ^ e := Nat.mul_le_mul_right _ hge
    · intro h
      have hpow : 2 ^ (m.fracBits + m.maxExp - 1) < 2 ^ (m.fracBits + 1 + e) := by
        rw [Nat.pow_add _ _ e]
        exact Nat.lt_of_le_of_lt h (Nat.mul_lt_mul_of_pos_right hlt (Nat.two_pow_pos _))
      have := (Nat.pow_lt_pow_iff_right (a := 2) (by decide)).mp hpow
      omega
  · rw [hdiv, hcarry, ← Nat.pow_add, Nat.pow_le_pow_iff_right (by decide)]
    omega

/-! ## What a pattern holds -/

/-- The pattern of n units of the least power: an infinity from the power after the greatest on, else that number. -/
def Format.Holds (m : Format) (neg : Bool) (n : Nat) (p : DWord) : Prop :=
  if 2 ^ (m.fracBits + m.maxExp - 1) ≤ n then m.unpack p.toNat = .inf neg
  else ∃ x y, m.unpack p.toNat = .fin neg x y ∧ m.minPow ≤ y ∧ x * 2 ^ (y - m.minPow).toNat = n

/-- The infinity of a format is one. -/
theorem unpack_infinity (hm : m.Sized) (neg : Bool) :
    m.unpack (BitVec.ofNat 64 (m.signBit neg + m.maxExp * 2 ^ m.fracBits)).toNat = .inf neg := by
  have hlt : m.maxExp * 2 ^ m.fracBits < 2 ^ (m.fracBits + m.expBits) := by
    rw [Nat.pow_add, Nat.mul_comm]; exact Nat.mul_lt_mul_of_pos_left (maxExp_lt m) (Nat.two_pow_pos _)
  rw [toNat_signBit_add hm neg hlt, unpack_signBit_add neg hlt, if_pos (Nat.mul_div_cancel _ (Nat.two_pow_pos _)),
    if_pos (Nat.mul_mod_left ..)]

/-- A finite pattern, unpacked. -/
theorem unpack_finite (hm : m.Sized) (neg : Bool) {mag : Nat} (h : mag < m.maxExp * 2 ^ m.fracBits) :
    m.unpack (BitVec.ofNat 64 (m.signBit neg + mag)).toNat = .fin neg (m.sigOf mag) (m.minPow + m.expOf mag) := by
  have hlt : mag < 2 ^ (m.fracBits + m.expBits) := by
    refine Nat.lt_of_lt_of_le h ?_
    rw [Nat.pow_add, Nat.mul_comm]; exact Nat.mul_le_mul_left _ (Nat.le_of_lt (maxExp_lt m))
  have hexp : mag / 2 ^ m.fracBits < m.maxExp := Nat.div_lt_of_lt_mul (by rwa [Nat.mul_comm])
  rw [toNat_signBit_add hm neg hlt, unpack_signBit_add neg hlt, if_neg (Nat.ne_of_lt hexp)]

/-- The pattern that `roundPack` makes of a rounded significand holds it. -/
theorem pack_holds (hm : m.Sized) (neg : Bool) (hq : q ≤ 2 ^ (m.fracBits + 1)) (hn : e = 0 ∨ 2 ^ m.fracBits ≤ q) :
    ∃ p, (if e * 2 ^ m.fracBits + q ≥ m.maxExp * 2 ^ m.fracBits then m.infinity neg
        else .bits (BitVec.ofNat 64 (m.signBit neg + (e * 2 ^ m.fracBits + q)))) = .bits p
      ∧ m.Holds neg (q * 2 ^ e) p := by
  have hover := overflow_iff hm hq hn
  split
  · next h => exact ⟨_, rfl, by rw [Format.Holds, if_pos (hover.mp h)]; exact unpack_infinity hm neg⟩
  · next h =>
    refine ⟨_, rfl, ?_⟩
    rw [Format.Holds, if_neg (mt hover.mpr h)]
    refine ⟨_, _, unpack_finite hm neg (Nat.lt_of_not_le h), by omega, ?_⟩
    rw [show (m.minPow + (m.expOf (e * 2 ^ m.fracBits + q) : Int) - m.minPow) = m.expOf (e * 2 ^ m.fracBits + q) by omega, Int.toNat_natCast]
    exact sigOf_mul_expOf hq hn

end

/-! ## Rounding a rational number -/

/-- `Format.Rounds` of a rational number. -/
def Format.RoundsRat (m : Format) (neg : Bool) (r : Rat) (v : FpVal) : Prop :=
  ∃ (p : DWord) (u : Int) (q : Nat), v = .bits p ∧ m.minPow ≤ u ∧ r < twoPow (u + m.fracBits + 1)
    ∧ (u = m.minPow ∨ twoPow (u + m.fracBits) ≤ r) ∧ NearestRat r (twoPow u) q ∧ m.Holds neg (q * 2 ^ (u - m.minPow).toNat) p

/-- A power brought to the lesser one of two. -/
theorem shifted_mul (n : Nat) (a b : Int) : ((n * 2 ^ (a - b).toNat : Nat) : Rat) * twoPow (min a b) = n * twoPow a := by
  rw [twoPow_eq_mul (Int.min_le_left a b), show (a - min a b).toNat = (a - b).toNat by omega, Rat.natCast_mul, Rat.mul_assoc]

section
variable {num den : Nat} {pow w : Int}

theorem shifted_lt_iff : num * 2 ^ (pow - w).toNat < den * 2 ^ (w - pow).toNat ↔ num * twoPow pow < den * twoPow w := by
  rw [← shifted_mul num pow w, ← shifted_mul den w pow, Int.min_comm w pow, Rat.mul_lt_mul_right (twoPow_pos _),
    Rat.natCast_lt_natCast]

theorem shifted_nearest_iff {q : Nat} : NearestEven (num * 2 ^ (pow - w).toNat) (den * 2 ^ (w - pow).toNat) q
    ↔ NearestRat (num * twoPow pow) (den * twoPow w) q := by
  rw [← shifted_mul num pow w, ← shifted_mul den w pow, Int.min_comm w pow, nearestRat_scale (twoPow_pos _), nearestEven_iff]

/-- `Format.Rounds` is of the number r with r * den = num * 2^pow. -/
theorem rounds_iff {v : FpVal} {r : Rat} (hden : 0 < den) (hr : r * den = num * twoPow pow) :
    m.Rounds neg num den pow v ↔ m.RoundsRat neg r v := by
  have hden' : (0 : Rat) < den := Rat.natCast_pos.mpr hden
  have hlt : ∀ w : Int, num * 2 ^ (pow - w).toNat < den * 2 ^ (w - pow).toNat ↔ r < twoPow w := fun w => by
    rw [shifted_lt_iff, ← hr, Rat.mul_comm den, Rat.mul_lt_mul_right hden']
  have hle : ∀ w : Int, den * 2 ^ (w - pow).toNat ≤ num * 2 ^ (pow - w).toNat ↔ twoPow w ≤ r := fun w => by
    rw [← Nat.not_lt, ← Rat.not_lt, hlt w]
  have hnear : ∀ (w : Int) (q : Nat), NearestEven (num * 2 ^ (pow - w).toNat) (den * 2 ^ (w - pow).toNat) q
      ↔ NearestRat r (twoPow w) q := fun w q => by
    rw [shifted_nearest_iff, ← hr, Rat.mul_comm den, nearestRat_scale hden']
  simp only [Format.Rounds, Format.RoundsRat, Format.Holds, hlt, hle, hnear]

end

/-! ## The one rounding -/

theorem bitLength_spec {n : Nat} (h : n ≠ 0) : 0 < bitLength n ∧ 2 ^ (bitLength n - 1) ≤ n ∧ n < 2 ^ bitLength n := by
  rw [bitLength, if_neg h]
  exact ⟨Nat.succ_pos _, Nat.log2_self_le h, Nat.lt_log2_self⟩

theorem roundsRat_zero (hm : m.Sized) (neg : Bool) : m.RoundsRat neg 0 (.bits (BitVec.ofNat 64 (m.signBit neg))) := by
  have hzero : 0 < m.maxExp * 2 ^ m.fracBits := Nat.mul_pos (by have := hm.maxExp_ge; omega) (Nat.two_pow_pos _)
  have hnear : NearestRat 0 (twoPow m.minPow) 0 := by
    have hpos := twoPow_pos m.minPow
    exact ⟨by grind, by grind, fun _ => rfl⟩
  have hunder : ¬ 2 ^ (m.fracBits + m.maxExp - 1) ≤ 0 * 2 ^ (m.minPow - m.minPow).toNat := by
    rw [Nat.zero_mul]; exact Nat.not_le.mpr (Nat.two_pow_pos _)
  refine ⟨_, m.minPow, 0, rfl, Int.le_refl _, twoPow_pos _, .inl rfl, hnear, ?_⟩
  rw [Format.Holds, if_neg hunder]
  exact ⟨_, _, unpack_finite hm neg hzero, by omega, by simp [Format.sigOf]⟩

/-- The integer that `roundPack` takes is the nearest to the number in units of its last place. -/
theorem nearestRat_roundPack (sig : Nat) (pow last : Int) :
    NearestRat (sig * twoPow pow) (twoPow last)
      (if last ≤ pow then sig * 2 ^ (pow - last).toNat else roundShift sig (last - pow).toNat) := by
  have hshift := @shifted_nearest_iff sig 1 pow last
  rw [show ((1 : Nat) : Rat) = 1 from rfl, Rat.one_mul, Nat.one_mul] at hshift
  rw [← hshift]
  split
  · next h =>
    rw [show (last - pow).toNat = 0 by omega]
    exact nearestEven_self _
  · next h =>
    rw [show (pow - last).toNat = 0 by omega, Nat.pow_zero, Nat.mul_one]
    exact nearestEven_roundShift _ _

/-- A bit length bounds its number from both sides, at any power. -/
theorem bitLength_twoPow {sig : Nat} (h : sig ≠ 0) (pow : Int) :
    (sig * twoPow pow : Rat) < twoPow (pow + bitLength sig) ∧ twoPow (pow + bitLength sig - 1) ≤ sig * twoPow pow := by
  obtain ⟨hlen, hlow, hhigh⟩ := bitLength_spec h
  rw [show pow + bitLength sig - 1 = ((bitLength sig - 1 : Nat) : Int) + pow by omega, Int.add_comm pow, twoPow_add, twoPow_add,
    twoPow_natCast, twoPow_natCast, Rat.mul_lt_mul_right (twoPow_pos _), mul_le_mul_right_iff (twoPow_pos _)]
  exact ⟨Rat.natCast_lt_natCast.mpr hhigh, Rat.natCast_le_natCast.mpr hlow⟩

/-- `roundPack` rounds its number (R306): the last place is that of a subnormal or the one that keeps the precision. -/
theorem roundsRat_roundPack (hm : m.Sized) (neg : Bool) (sig : Nat) (pow : Int) :
    m.RoundsRat neg (sig * twoPow pow) (m.roundPack neg sig pow) := by
  unfold Format.roundPack
  split
  · next h =>
    subst h
    rw [show ((0 : Nat) : Rat) * twoPow pow = 0 from Rat.zero_mul _]
    exact roundsRat_zero hm neg
  next hsig =>
  obtain ⟨hhigh, hlow⟩ := bitLength_twoPow hsig pow
  extract_lets last q magnitude
  have hmin : m.minPow ≤ last := Int.le_max_left _ _
  have hprec : pow + bitLength sig - (m.fracBits + 1 : Nat) ≤ last := Int.le_max_right _ _
  have hlast : last = m.minPow ∨ last = pow + bitLength sig - (m.fracBits + 1 : Nat) := by omega
  have hupper : sig * twoPow pow < twoPow (last + m.fracBits + 1) :=
    Std.lt_of_lt_of_le hhigh (twoPow_le (by omega))
  have hlower : last = m.minPow ∨ twoPow (last + m.fracBits) ≤ sig * twoPow pow := hlast.imp_right fun h => by
    rwa [show last + m.fracBits = pow + bitLength sig - 1 by omega]
  have hnear : NearestRat (sig * twoPow pow) (twoPow last) q := nearestRat_roundPack sig pow last
  have hunits : ∀ k : Nat, ((2 ^ k : Nat) : Rat) * twoPow last = twoPow (last + k) := fun k => by
    rw [← twoPow_natCast, ← twoPow_add, Int.add_comm]
  have hq : q ≤ 2 ^ (m.fracBits + 1) := hnear.le_of_le (twoPow_pos _) (by
    rw [hunits, show last + ((m.fracBits + 1 : Nat) : Int) = last + m.fracBits + 1 by omega]; exact Rat.le_of_lt hupper)
  have hn : (last - m.minPow).toNat = 0 ∨ 2 ^ m.fracBits ≤ q := hlower.imp (by omega) fun h =>
    hnear.le_of_ge (twoPow_pos _) (by rwa [hunits])
  obtain ⟨p, hp, hholds⟩ := pack_holds hm neg hq hn
  exact ⟨p, last, q, hp, hmin, hupper, hlower, hnear, hholds⟩

theorem rounds_roundPack (hm : m.Sized) (neg : Bool) (sig : Nat) (pow : Int) :
    m.Rounds neg sig 1 pow (m.roundPack neg sig pow) :=
  (rounds_iff Nat.one_pos (Rat.mul_one _)).mpr (roundsRat_roundPack hm neg sig pow)

/-! ## Packing what was unpacked -/

/-- The magnitude bits are the significand, with the power in the exponent field. -/
theorem expOf_mul_add_sigOf (m : Format) (mag : Nat) : m.expOf mag * 2 ^ m.fracBits + m.sigOf mag = mag := by
  have hmag := Nat.div_add_mod' mag (2 ^ m.fracBits)
  unfold Format.expOf Format.sigOf
  split
  · next h => rw [h, Nat.zero_sub, Nat.zero_mul, Nat.zero_add]
  · next h =>
    obtain ⟨k, hk⟩ := Nat.exists_eq_succ_of_ne_zero h
    rw [hk, Nat.succ_mul] at hmag
    rw [hk, Nat.succ_sub_one]
    omega

/-- A significand has the format's precision, or the power of a subnormal. -/
theorem sigOf_bounds (m : Format) (mag : Nat) :
    m.sigOf mag < 2 ^ (m.fracBits + 1) ∧ (m.expOf mag = 0 ∨ 2 ^ m.fracBits ≤ m.sigOf mag) := by
  have hmod := Nat.mod_lt mag (Nat.two_pow_pos m.fracBits)
  unfold Format.sigOf Format.expOf
  split
  · next h =>
    have hlt : mag < 2 ^ m.fracBits := by simpa using h
    exact ⟨by omega, .inl (by rw [h])⟩
  · exact ⟨by omega, .inr (by omega)⟩

theorem bitLength_le {n k : Nat} (h : n < 2 ^ k) : bitLength n ≤ k := by
  unfold bitLength
  split
  · exact Nat.zero_le _
  · next hn => exact (Nat.log2_lt hn).mpr h

/-- The last place of a significand of the format is its own power. -/
theorem last_eq {sig e : Nat} (hlt : sig < 2 ^ (m.fracBits + 1)) (hn : e = 0 ∨ 2 ^ m.fracBits ≤ sig) (hsig : sig ≠ 0) :
    max m.minPow (m.minPow + e + bitLength sig - (m.fracBits + 1 : Nat)) = m.minPow + e := by
  have hle := bitLength_le hlt
  rcases hn with rfl | hge
  · omega
  · have hlen : m.fracBits < bitLength sig :=
      (Nat.pow_lt_pow_iff_right (a := 2) (by decide)).mp (Nat.lt_of_le_of_lt hge (bitLength_spec hsig).2.2)
    omega

/-- A finite pattern is what its number is rounded to (R306). -/
theorem roundPack_of_magnitude (neg : Bool) {mag : Nat} (h : mag < m.maxExp * 2 ^ m.fracBits) :
    m.roundPack neg (m.sigOf mag) (m.minPow + m.expOf mag) = .bits (BitVec.ofNat 64 (m.signBit neg + mag)) := by
  obtain ⟨hlt, hn⟩ := sigOf_bounds m mag
  have hmag := expOf_mul_add_sigOf m mag
  by_cases hsig : m.sigOf mag = 0
  · have hexp : m.expOf mag = 0 := hn.resolve_right (by rw [hsig]; exact Nat.not_le.mpr (Nat.two_pow_pos _))
    rw [hsig, hexp, Nat.zero_mul, Nat.add_zero] at hmag
    rw [Format.roundPack, if_pos hsig, ← hmag, Nat.add_zero]
  · have hexp : (m.minPow + m.expOf mag - m.minPow : Int).toNat = m.expOf mag := by omega
    rw [Format.roundPack, if_neg hsig, last_eq hlt hn hsig]
    simp only [if_pos (Int.le_refl (m.minPow + m.expOf mag)), hexp, Int.sub_self, Int.toNat_zero, Nat.pow_zero, Nat.mul_one, hmag]
    exact if_neg (Nat.not_le.mpr h)

/-- A pattern of the format is a sign and magnitude bits. -/
theorem exists_signBit_add (m : Format) {bits : Nat} (h : bits < 2 ^ (m.fracBits + m.expBits + 1)) :
    ∃ neg mag, bits = m.signBit neg + mag ∧ mag < 2 ^ (m.fracBits + m.expBits) := by
  rw [Nat.pow_succ] at h
  by_cases hneg : bits < 2 ^ (m.fracBits + m.expBits)
  · exact ⟨false, bits, by simp [Format.signBit], hneg⟩
  · exact ⟨true, bits - 2 ^ (m.fracBits + m.expBits), by simp only [Format.signBit, if_true]; omega, by omega⟩

theorem roundPack_unpack {bits : Nat} (h : bits < 2 ^ (m.fracBits + m.expBits + 1)) {sig : Nat} {pow : Int}
    (hu : m.unpack bits = .fin neg sig pow) : m.roundPack neg sig pow = .bits (BitVec.ofNat 64 bits) := by
  obtain ⟨b, mag, rfl, hmag⟩ := exists_signBit_add m h
  rw [unpack_signBit_add b hmag] at hu
  split at hu
  · split at hu <;> cases hu
  · next hexp =>
    cases hu
    refine roundPack_of_magnitude _ ?_
    have hfield : mag / 2 ^ m.fracBits < 2 ^ m.expBits := Nat.div_lt_of_lt_mul (by rwa [← Nat.pow_add])
    rw [← Nat.div_lt_iff_lt_mul (Nat.two_pow_pos _)]
    unfold Format.maxExp at hexp ⊢
    omega

/-! ## The statement -/

/-- Settles O36: the rounding through `RoundsRat`, the identity through sign and magnitude. -/
theorem roundingNearestEven : Obligations.RoundingNearestEven := by
  refine ⟨?_, nearestEven_roundShift, fun w neg sig pow hu => ?_, fun w neg sig pow hu => ?_⟩
  · simp only [List.forall_mem_cons]
    exact ⟨rounds_roundPack fmtS_sized, rounds_roundPack fmtD_sized, List.forall_mem_nil _⟩
  · exact (roundPack_unpack w.isLt hu).trans (congrArg FpVal.bits (BitVec.eq_of_toNat_eq (by simp)))
  · exact (roundPack_unpack w.isLt hu).trans (congrArg FpVal.bits (BitVec.eq_of_toNat_eq (by simp)))

end Sys2Proof.Machine
end

section
/-! SUPPORT. The exact results that the one rounding is given: sums at a common power, products, quotients with their sticky bit,
conversions; what a NaN and an infinity are; then the statements about them. -/

namespace Sys2Proof.Machine

variable {m : Format} {neg : Bool}

/-! ## One number, several forms -/

/-- Equal numbers round alike. -/
theorem rounds_congr {num num' : Nat} {pow pow' : Int} {v : FpVal} (h : num * twoPow pow = num' * twoPow pow') :
    m.Rounds neg num 1 pow v ↔ m.Rounds neg num' 1 pow' v := by
  rw [rounds_iff Nat.one_pos (Rat.mul_one _), rounds_iff Nat.one_pos (Rat.mul_one _), h]

theorem rounds_zero_pow {pow pow' : Int} {v : FpVal} (h : m.Rounds neg 0 1 pow v) : m.Rounds neg 0 1 pow' v :=
  (rounds_congr ((Rat.zero_mul _).trans (Rat.zero_mul _).symm)).mp h

theorem rounds_scale {n k : Nat} {pow : Int} {v : FpVal} (h : m.Rounds neg n 1 (pow + k) v) :
    m.Rounds neg (n * 2 ^ k) 1 pow v := by
  refine (rounds_congr ?_).mp h
  rw [Int.add_comm, twoPow_add, twoPow_natCast, Rat.natCast_mul, Rat.mul_assoc]

/-! ## Sums -/

theorem signedSig_not (neg : Bool) (x : Nat) : signedSig (!neg) x = -signedSig neg x := by
  cases neg <;> simp [signedSig]

/-- Addition rounds the exact sum, taken at any power common to both numbers (R306). -/
theorem roundsSum_add (hm : m.Sized) (s t : Bool) (x y i j : Nat) (c : Int) :
    m.RoundsSum s t (signedSig s (x * 2 ^ i) + signedSig t (y * 2 ^ j)) c (m.add (.fin s x (c + i)) (.fin t y (c + j))) := by
  have hi : (c + i - min (c + i) (c + j) : Int).toNat = i - min i j := by omega
  have hj : (c + j - min (c + i) (c + j) : Int).toNat = j - min i j := by omega
  have hlow : min (c + i : Int) (c + j) = c + (min i j : Nat) := by omega
  rw [signedSig_scale s x (Nat.min_le_left i j), signedSig_scale t y (Nat.min_le_right i j), ← Int.add_mul]
  simp only [Format.add, hi, hj]
  rw [hlow]
  generalize signedSig s (x * 2 ^ (i - min i j)) + signedSig t (y * 2 ^ (j - min i j)) = sum
  generalize min i j = k
  have hpos : (0 : Int) < 2 ^ k := Int.pow_pos (by decide)
  refine ⟨fun h => ?_, fun h => ?_⟩
  · have hsum : sum = 0 := (Int.mul_eq_zero.mp h).resolve_right (Int.ne_of_gt hpos)
    rw [if_pos hsum]
    exact rounds_zero_pow (rounds_roundPack hm _ 0 _)
  · have hsum : sum ≠ 0 := fun h0 => h (by rw [h0, Int.zero_mul])
    have hneg : sum * 2 ^ k < 0 ↔ sum < 0 := by rw [← Int.zero_mul (2 ^ k), Int.mul_lt_mul_right hpos, Int.zero_mul]
    rw [if_neg hsum, decide_eq_decide.mpr hneg, Int.natAbs_mul, show (2 ^ k : Int).natAbs = 2 ^ k from Int.natAbs_pow 2 k]
    exact rounds_scale (rounds_roundPack hm _ _ _)

/-! ## Quotients -/

/-- Two numbers on no multiple of 2^k, and on the same side of each. -/
def SameSide (k : Int) (r r' : Rat) : Prop :=
  ∀ c : Int, r ≠ c * twoPow k ∧ r' ≠ c * twoPow k ∧ (r < c * twoPow k ↔ r' < c * twoPow k)

theorem SameSide.mono {k l : Int} {r r' : Rat} (h : SameSide k r r') (hkl : k ≤ l) : SameSide l r r' := fun c => by
  have hc := h (c * (2 ^ (l - k).toNat : Nat))
  rwa [Rat.intCast_mul, Rat.intCast_natCast, Rat.mul_assoc, ← twoPow_eq_mul hkl] at hc

/-- Two numbers on the same side of every half unit have the same nearest unit, and neither is halfway. -/
theorem NearestRat.of_sameSide {u : Int} {r r' : Rat} {q : Nat} (h : NearestRat r (twoPow u) q) (hs : SameSide (u - 1) r r') :
    NearestRat r' (twoPow u) q := by
  have hunit : twoPow u = 2 * twoPow (u - 1) := by rw [← twoPow_succ, Int.sub_add_cancel]
  obtain ⟨hne, hne', hiff⟩ := hs (2 * q + 1)
  obtain ⟨hne2, hne2', hiff2⟩ := hs (2 * q - 1)
  simp only [Rat.intCast_add, Rat.intCast_sub, Rat.intCast_mul, Rat.intCast_natCast, show ((2 : Int) : Rat) = 2 from rfl,
    show ((1 : Int) : Rat) = 1 from rfl] at hne hne' hiff hne2 hne2' hiff2
  obtain ⟨hle, hge, -⟩ := h
  rw [hunit] at hle hge ⊢
  generalize twoPow (u - 1) = g at *
  have hlt : r < (2 * q + 1) * g := by grind
  have hgt : ¬ r < (2 * q - 1) * g := by grind
  have hlt' := hiff.mp hlt
  have hgt' := mt hiff2.mpr hgt
  exact ⟨by grind, by grind, by grind⟩

/-- A number of enough bits rounds as any other that lies between the same multiples of its second place. -/
theorem Format.RoundsRat.of_sameSide {pow : Int} {r r' : Rat} {v : FpVal} (h : m.RoundsRat neg r v)
    (hbig : twoPow (pow + m.fracBits + 2) ≤ r) (hs : SameSide (pow + 1) r r') : m.RoundsRat neg r' v := by
  obtain ⟨p, u, q, hv, hmin, hlt, hge, hnear, hholds⟩ := h
  have hu : pow + m.fracBits + 2 < u + m.fracBits + 1 := lt_of_twoPow_lt (Std.lt_of_le_of_lt hbig hlt)
  have hside : ∀ w : Int, pow + 1 ≤ w → (r < twoPow w ↔ r' < twoPow w) := fun w hw => by
    have hone := ((hs.mono hw) 1).2.2
    rwa [show ((1 : Int) : Rat) = 1 from rfl, Rat.one_mul] at hone
  refine ⟨p, u, q, hv, hmin, (hside _ (by omega)).mp hlt, hge.imp_right fun hle => ?_,
    hnear.of_sameSide (hs.mono (by omega)), hholds⟩
  exact Rat.not_lt.mp (mt (hside _ (by omega)).mpr (Rat.not_lt.mpr hle))

/-- The lowest bit of an inexact quotient t keeps it on its side of every even number. -/
theorem sameSide_sticky {num den : Nat} {t : Rat} (hden : 0 < den) (hrem : num % den ≠ 0) (ht : t * den = 2 * num) (pow : Int) :
    SameSide (pow + 1) ((2 * (num / den) + 1 : Nat) * twoPow pow) (t * twoPow pow) := fun c => by
  have hpow := twoPow_pos pow
  have hden' : (0 : Rat) < den := Rat.natCast_pos.mpr hden
  have hnum : (num : Rat) = den * (num / den : Nat) + (num % den : Nat) := by
    rw [← Rat.natCast_mul, ← Rat.natCast_add, Nat.div_add_mod]
  have hmod0 : (0 : Rat) < (num % den : Nat) := Rat.natCast_pos.mpr (Nat.pos_of_ne_zero hrem)
  have hmod1 : ((num % den : Nat) : Rat) < den := Rat.natCast_lt_natCast.mpr (Nat.mod_lt num hden)
  have hodd : ((2 * (num / den) + 1 : Nat) : Rat) = 2 * (num / den : Nat) + 1 := by
    rw [Rat.natCast_add, Rat.natCast_mul]; rfl
  have hgrid : c * twoPow (pow + 1) = 2 * c * twoPow pow := by rw [twoPow_succ, ← Rat.mul_assoc, Rat.mul_comm c 2]
  have hlow : 2 * (num / den : Nat) < t := (Rat.mul_lt_mul_right hden').mp (by grind)
  have hhigh : t < 2 * (num / den : Nat) + 2 := (Rat.mul_lt_mul_right hden').mp (by grind)
  rw [hgrid, hodd, Rat.mul_lt_mul_right hpow, Rat.mul_lt_mul_right hpow, Ne, Ne, mul_eq_mul_right_iff_of_pos hpow,
    mul_eq_mul_right_iff_of_pos hpow]
  generalize num / den = quot at *
  rcases Int.lt_or_le quot c with h | h
  · have hc : (quot : Rat) + 1 ≤ c := by
      have hcast := Rat.intCast_le_intCast.mpr (Int.add_one_le_of_lt h)
      rwa [Rat.intCast_add] at hcast
    exact ⟨by grind, by grind, by grind⟩
  · have hc : (c : Rat) ≤ quot := Rat.intCast_le_intCast.mpr h
    exact ⟨by grind, by grind, by grind⟩

/-- A quotient with its sticky bit is rounded as the exact quotient t (R306), when it has the bits to spare. -/
theorem roundsRat_sticky (hm : m.Sized) (neg : Bool) {num den : Nat} {t : Rat} (hden : 0 < den) (ht : t * den = 2 * num)
    (hbits : num % den ≠ 0 → 2 ^ (m.fracBits + 2) ≤ num / den) (pow : Int) :
    m.RoundsRat neg (t * twoPow pow) (m.roundPack neg (2 * (num / den) + if num % den = 0 then 0 else 1) pow) := by
  have hround := roundsRat_roundPack hm neg (2 * (num / den) + if num % den = 0 then 0 else 1) pow
  by_cases hrem : num % den = 0
  · rw [if_pos hrem, Nat.add_zero] at hround ⊢
    have hexact : t = ((2 * (num / den) : Nat) : Rat) := by
      refine (mul_eq_mul_right_iff_of_pos (Rat.natCast_pos.mpr hden)).mp (ht.trans ?_)
      rw [← Rat.natCast_mul, Nat.mul_assoc, Nat.div_mul_cancel (Nat.dvd_of_mod_eq_zero hrem), Rat.natCast_mul]
      rfl
    rwa [hexact]
  · rw [if_neg hrem] at hround ⊢
    refine hround.of_sameSide ?_ (sameSide_sticky hden hrem ht pow)
    have hsig : 2 ^ (m.fracBits + 2) ≤ 2 * (num / den) + 1 := by have := hbits hrem; omega
    rw [show pow + m.fracBits + 2 = ((m.fracBits + 2 : Nat) : Int) + pow by omega, twoPow_add, twoPow_natCast]
    exact Rat.mul_le_mul_of_nonneg_right (Rat.natCast_le_natCast.mpr hsig) (Rat.le_of_lt (twoPow_pos pow))

/-- A dividend extended by twice the precision leaves the quotient bits to spare, unless it is zero. -/
theorem quotient_bits {x y F : Nat} (hy : 0 < y) (hprec : y < 2 ^ (F + 1)) (hrem : x * 2 ^ (2 * F + 4) % y ≠ 0) :
    2 ^ (F + 2) ≤ x * 2 ^ (2 * F + 4) / y := by
  have hx : 0 < x := Nat.pos_of_ne_zero fun hx => hrem (by rw [hx, Nat.zero_mul, Nat.zero_mod])
  rw [Nat.le_div_iff_mul_le hy]
  calc 2 ^ (F + 2) * y ≤ 2 ^ (F + 2) * 2 ^ (F + 1) := Nat.mul_le_mul_left _ (Nat.le_of_lt hprec)
    _ = 2 ^ (2 * F + 3) := by rw [← Nat.pow_add]; congr 1; omega
    _ ≤ 2 ^ (2 * F + 4) := Nat.pow_le_pow_right (by decide) (by omega)
    _ ≤ x * 2 ^ (2 * F + 4) := Nat.le_mul_of_pos_left _ hx

/-- Division rounds the exact quotient (R306). -/
theorem rounds_div (hm : m.Sized) (s t : Bool) (x y : Nat) (p q : Int) (hy : y ≠ 0) (hprec : y < 2 ^ (m.fracBits + 1)) :
    m.Rounds (s != t) x y (p - q) (m.div (.fin s x p) (.fin t y q)) := by
  have hy0 : 0 < y := Nat.pos_of_ne_zero hy
  have hquot : (2 * (x * 2 ^ (2 * m.fracBits + 4) : Nat) / y : Rat) * y = 2 * (x * 2 ^ (2 * m.fracBits + 4) : Nat) :=
    Rat.div_mul_cancel (Rat.ne_of_gt (Rat.natCast_pos.mpr hy0))
  have hpow : twoPow (p - q) =
      (2 ^ (2 * m.fracBits + 4) : Nat) * (2 * twoPow (p - q - (2 * m.fracBits + 4 : Nat) - 1)) := by
    rw [← twoPow_succ, ← twoPow_natCast, ← twoPow_add]; congr 1; omega
  have hround := roundsRat_sticky hm (s != t) hy0 hquot (quotient_bits hy0 hprec) (p - q - (2 * m.fracBits + 4 : Nat) - 1)
  have hdiv : m.div (.fin s x p) (.fin t y q) = _ := if_neg hy
  rw [hdiv]
  refine (rounds_iff hy0 ?_).mpr hround
  rw [hpow]
  generalize twoPow (p - q - (2 * m.fracBits + 4 : Nat) - 1) = g
  rw [Rat.natCast_mul] at hquot ⊢
  grind

/-! ## The arithmetic of finite numbers -/

theorem lt_of_unpack_fin {bits sig : Nat} {pow : Int} (h : m.unpack bits = .fin neg sig pow) : sig < 2 ^ (m.fracBits + 1) := by
  have hmod := Nat.mod_lt bits (Nat.two_pow_pos m.fracBits)
  rw [Nat.pow_succ]
  unfold Format.unpack at h
  dsimp only at h
  split at h
  · split at h <;> cases h
  · split at h <;> cases h <;> omega

/-- Every operation on finite numbers rounds its exact result. -/
theorem roundsAll (hm : m.Sized) (bits bits' : Nat) :
    m.RoundsAll (m.unpack bits) (m.unpack bits') (m.add (m.unpack bits) (m.unpack bits'))
      (m.add (m.unpack bits) (m.unpack bits').negate) (m.mul (m.unpack bits) (m.unpack bits'))
      (m.div (m.unpack bits) (m.unpack bits')) := by
  intro s t x y p q ha hb
  have hprec := lt_of_unpack_fin hb
  rw [ha, hb]
  refine ⟨?_, rounds_roundPack hm _ _ _, fun hy => rounds_div hm s t x y p q hy hprec⟩
  rintro c i j rfl rfl
  refine ⟨roundsSum_add hm s t x y i j c, ?_⟩
  have hsub := roundsSum_add hm s (!t) x y i j c
  rw [signedSig_not] at hsub
  exact hsub

theorem numerics_ieee {s : State} (h : s.params.numerics = .ieee) : s.numerics = ieeeNumerics := congrArg numericsOf h

/-- Settles O35: each instruction by the form of its two operands; the default record by `roundsAll`. -/
theorem floatArithmetic : Obligations.FloatArithmetic := by
  refine ⟨fun s fd fs ft hq _ => ?_, fun s hs => ?_⟩
  · have hid {k : Instr} (hwf : k.wellFormed = true) := idException_of_wellFormed (i := k) hwf
    have hsingle : ∀ r, lowHalf (s.readFOpnd (.single r)) = s.readF r := fun r => lowHalf_zeroExtend _
    simp only [List.forall_mem_cons]
    refine ⟨⟨binary_completes rfl rfl hq (by simp [fpAddS, hsingle]), binary_completes rfl rfl hq (by simp [fpSubS, hsingle]),
        binary_completes rfl rfl hq (by simp [fpMulS, hsingle]), binary_completes rfl rfl hq (by simp [fpDivS, hsingle]),
        List.forall_mem_nil _⟩,
      fun h => binary_completes rfl (hid h nofun nofun) hq rfl, fun h => binary_completes rfl (hid h nofun nofun) hq rfl,
      fun h => binary_completes rfl (hid h nofun nofun) hq rfl, fun h => binary_completes rfl (hid h nofun nofun) hq rfl,
      List.forall_mem_nil _⟩
  · rw [numerics_ieee hs]
    exact ⟨fun a b => roundsAll fmtS_sized a.toNat b.toNat, fun a b => roundsAll fmtD_sized a.toNat b.toNat⟩

/-! ## The conversions -/

/-- The nearest integer, where W holds it (R338, R339). -/
theorem roundsToWord (a : FpNum) : RoundsToWord a (toWordVal a) := by
  cases a with
  | nan => rfl
  | inf neg => rfl
  | fin neg x p =>
    refine ⟨if 0 ≤ p then x * 2 ^ p.toNat else roundShift x (-p).toNat, ?_, ?_⟩
    · split
      · next h =>
        rw [show (-p).toNat = 0 by omega]
        simp only [NearestEven, Nat.pow_zero, Nat.mul_one]
        omega
      · next h =>
        rw [show p.toNat = 0 by omega, Nat.pow_zero, Nat.mul_one]
        exact nearestEven_roundShift _ _
    · simp only [toWordVal, fitsSigned_iff]

/-- Settles O38: each conversion by the form of its operand; the default record by its one rounding. -/
theorem floatConversions : Obligations.FloatConversions := by
  refine ⟨fun s fd fs hq _ => ?_, fun s hs => ?_⟩
  · have hid {k : Instr} (hwf : k.wellFormed = true) := idException_of_wellFormed (i := k) hwf
    have hsingle : ∀ r, lowHalf (s.readFOpnd (.single r)) = s.readF r := fun r => lowHalf_zeroExtend _
    simp only [List.forall_mem_cons]
    exact ⟨fun h => unary_completes rfl (hid h nofun nofun) hq rfl,
      fun h => unary_completes rfl (hid h nofun nofun) hq (by simp [fpCvtSW, hsingle]),
      fun h => unary_completes rfl (hid h nofun nofun) hq (by simp [fpCvtDS, hsingle]),
      fun h => unary_completes rfl (hid h nofun nofun) hq (by simp [fpCvtDW, hsingle]),
      fun h => unary_completes rfl (hid h nofun nofun) hq (by simp [fpCvtWS, hsingle]),
      fun h => unary_completes rfl (hid h nofun nofun) hq rfl, List.forall_mem_nil _⟩
  · have hconvert : ∀ (f : Format) (num : FpNum), f.Sized →
        ∀ neg x p, num = .fin neg x p → f.Rounds neg x 1 p (f.convert num) := by
      rintro f _ hf neg x p rfl
      exact rounds_roundPack hf neg x p
    rw [numerics_ieee hs]
    exact ⟨fun a => hconvert fmtS (numD a) fmtS_sized, fun a => hconvert fmtD (numS a) fmtD_sized,
      fun a => ⟨hconvert fmtS (intNum a) fmtS_sized _ _ _ rfl, hconvert fmtD (intNum a) fmtD_sized _ _ _ rfl⟩,
      fun a => roundsToWord (numS a), fun a => roundsToWord (numD a)⟩

/-! ## NaNs and infinities -/

theorem sized_of_mem (h : m ∈ [fmtS, fmtD]) : m.Sized := by
  simp only [List.mem_cons, List.not_mem_nil, or_false] at h
  rcases h with rfl | rfl
  · exact fmtS_sized
  · exact fmtD_sized

/-- A pattern with every exponent bit set and a fraction bit set is a NaN (R307). -/
theorem unpack_nan {bits : Nat} (hexp : bits / 2 ^ m.fracBits % 2 ^ m.expBits = m.maxExp) (hfrac : bits % 2 ^ m.fracBits ≠ 0) :
    m.unpack bits = .nan := by
  simp only [Format.unpack, hexp, if_true, if_neg hfrac]

/-- The exponent bits forced on free bits, and a fraction bit where they have none (R307). -/
theorem nan_fields {n F E : Nat} (w exp frac : BitVec n) (hn : 0 < n) (hF : 0 < F) (hexp : exp.toNat = (2 ^ E - 1) <<< F)
    (hfrac : frac.toNat = 2 ^ F - 1) {v : BitVec n}
    (hv : v = if (w ||| exp) &&& frac = 0 then w ||| exp ||| 1 else w ||| exp) :
    v.toNat / 2 ^ F % 2 ^ E = 2 ^ E - 1 ∧ v.toNat % 2 ^ F ≠ 0 := by
  have hone : (1 : BitVec n).toNat = 1 := BitVec.toNat_one hn
  have hones : ∀ a, (a ||| (2 ^ E - 1)) % 2 ^ E = 2 ^ E - 1 := fun a => Nat.eq_of_testBit_eq fun i => by
    simp only [Nat.testBit_mod_two_pow, Nat.testBit_or, Nat.testBit_two_pow_sub_one]
    by_cases hi : i < E <;> simp [hi]
  have hmask : ((w ||| exp) &&& frac).toNat = (w ||| exp).toNat % 2 ^ F := by
    rw [BitVec.toNat_and, hfrac, Nat.and_two_pow_sub_one_eq_mod]
  have hfield : (w ||| exp).toNat >>> F % 2 ^ E = 2 ^ E - 1 := by
    rw [BitVec.toNat_or, hexp, Nat.shiftRight_or_distrib, Nat.shiftLeft_shiftRight, hones]
  have hfield' : (w ||| exp ||| 1).toNat >>> F = (w ||| exp).toNat >>> F := by
    rw [BitVec.toNat_or _ 1, hone, Nat.shiftRight_or_distrib, Nat.shiftRight_eq_div_pow 1,
      Nat.div_eq_of_lt (Nat.one_lt_two_pow (Nat.ne_of_gt hF)), Nat.or_zero]
  rw [hv, ← Nat.shiftRight_eq_div_pow]
  split
  · refine ⟨by rw [hfield', hfield], fun h => ?_⟩
    have hbit : (w ||| exp ||| 1).toNat.testBit 0 = true := by simp [hn]
    have hodd := of_decide_eq_true ((Nat.testBit_zero _).symm.trans hbit)
    have heven : 2 ∣ (w ||| exp ||| 1).toNat := Nat.dvd_trans (Nat.dvd_of_pow_dvd hF (Nat.dvd_refl _)) (Nat.dvd_of_mod_eq_zero h)
    omega
  · next h => exact ⟨hfield, fun h0 => h (BitVec.eq_of_toNat_eq (by rw [hmask, h0]; simp))⟩

/-- Settles O41: the free bits by `nan_fields`; the results of each format by the definition of its operation. -/
theorem nanResults : Obligations.NanResults := by
  refine ⟨fun n => ⟨?_, ?_⟩, rfl, rfl, fun m hm a s t x p q => ?_, fun s hs => ?_⟩
  · obtain ⟨hexp, hfrac⟩ := nan_fields (F := 23) (E := 8) (Config.nanBits32 n) 0x7F800000 0x007FFFFF
      (by decide) (by decide) rfl rfl rfl
    exact unpack_nan hexp hfrac
  · obtain ⟨hexp, hfrac⟩ := nan_fields (F := 52) (E := 11) (Config.nanBits64 n) 0x7FF0000000000000 0x000FFFFFFFFFFFFF
      (by decide) (by decide) rfl rfl rfl
    exact unpack_nan hexp hfrac
  · have hsized : m.Sized := sized_of_mem hm
    have hnan : ∀ f ∈ [m.add, m.mul, m.div], f .nan a = m.nan ∧ f a .nan = m.nan := by
      simp only [List.forall_mem_cons]
      refine ⟨⟨rfl, ?_⟩, ⟨rfl, ?_⟩, ⟨rfl, ?_⟩, List.forall_mem_nil _⟩ <;> cases a <;> rfl
    have hzero : m.Rounds (t != s) 0 1 0 (.bits (BitVec.ofNat 64 (m.signBit (t != s)))) :=
      (rounds_iff Nat.one_pos ((Rat.zero_mul _).trans (Rat.zero_mul _).symm)).mpr (roundsRat_zero hsized (t != s))
    exact ⟨hnan, rfl, if_neg (by cases s <;> decide), rfl, rfl, rfl, rfl, fun hx => if_neg hx,
      ⟨_, rfl, unpack_infinity hsized s⟩, rfl, if_pos rfl, rfl, rfl, rfl, fun hx => ⟨if_neg hx, if_neg hx⟩, rfl, hzero⟩
  · rw [numerics_ieee hs]
    exact ⟨fun _ _ => ⟨rfl, rfl, rfl, rfl, rfl⟩, fun _ _ => ⟨rfl, rfl, rfl, rfl, rfl⟩⟩

end Sys2Proof.Machine
end
